-- ==== Sys2Proof/Word.lean ====
section
/-! DEFINITION. The word types of the spec (00_scope.md R13): u8, u16, u32, and a 16-byte cipher block. -/

namespace Sys2Proof

/-- A u8. -/
abbrev Byte := BitVec 8

/-- A u16: one word of the EEPROM. -/
abbrev Half := BitVec 16

/-- A u32: a port register, a command word, an address operand. -/
abbrev Word := BitVec 32

/-- A cipher block: `P_AES_BLOCK_BYTES` = 16 bytes, a byte sequence without a byte order
(20_memory.md R86). -/
abbrev Block := Vector Byte 16

end Sys2Proof
end

