-- ==== Sys2Proof/Config.lean ====
section
/-! DEFINITION. What an instance of the block fixes (00_scope.md R9, R10, R12) and the free values.
The opaque constants have no body: nothing can be proved of the value of any of them. -/

namespace Sys2Proof

/-- One entry of the OPEN partial function `P_LOAD_ADDR(class, subtype)` (44_container.md R421). -/
structure LoadEntry where
  cls : BitVec 4
  sub : BitVec 4
  addr : Word
  deriving DecidableEq, Repr, Inhabited

/-- The OPEN scalar parameters of 00_scope.md R9: one value of this type is one instance (R10).
`MEM_ADMIT`, `MEM_INIT`, `EEPROM_INIT` and `NAND_INIT` are not here: they are the launch contents of
the state's own memories. -/
structure Params where
  /-- `P_KEY_BYTES`. -/
  keyBytes : Nat
  /-- `P_MAGIC`, 4 raw bytes. -/
  magic : Vector Byte 4
  /-- `P_HASH_LEN`. -/
  hashLen : Nat
  /-- `P_INFO_PAD`. -/
  infoPad : Nat
  /-- `P_BANK_WORD[0]`. -/
  bankWord0 : Nat
  /-- `P_BANK_WORD[1]`. -/
  bankWord1 : Nat
  /-- `P_PAGES_PER_BLOCK`. -/
  pagesPerBlock : Nat
  /-- `P_SPARE_SIZE`. -/
  spareSize : Nat
  /-- `P_SPARE_ECC_OFF`. -/
  spareEccOff : Nat
  /-- `P_MARKER_OFF`. -/
  markerOff : Nat
  /-- `P_MARKER_VALUE`. -/
  markerValue : Byte
  /-- `P_LOAD_ADDR`, as the list of the pairs at which it is defined. -/
  loadAddr : List LoadEntry
  /-- `P_ENC_CLASS`. -/
  encClass : BitVec 4
  /-- `P_ENC_BIT`. -/
  encBit : Nat
  /-- `P_ENABLE_RETIRE`. -/
  enableRetire : Bool
  /-- `P_DEV_KEY_ADDR`. -/
  devKeyAddr : Word
  /-- `P_FW_KEY_ADDR`. -/
  fwKeyAddr : Word
  /-- `P_FW_IV_ADDR`. -/
  fwIvAddr : Word
  /-- `REC_ADDR[0]`. -/
  recAddr0 : Word
  /-- `REC_ADDR[1]`. -/
  recAddr1 : Word
  /-- `BANK_BUF`. -/
  bankBuf : Word
  /-- `SPARE_BUF`. -/
  spareBuf : Word
  /-- `RB_ADDR`. -/
  rbAddr : Word
  /-- `IMG_IO_OK`. -/
  imgIoOk : Bool
  /-- `IMG_ADDR`. -/
  imgAddr : Word
  /-- `IMG_LEN`. -/
  imgLen : Nat
  deriving DecidableEq, Repr, Inhabited

/-- The instance's parameters, as the reset state holds them (log entry 5). Unconstrained. -/
opaque Config.params : Params

/-- `EEPROM_INIT`, the 256 EEPROM words at first launch (log entry 7). Unconstrained. -/
opaque Config.eepromInit : Vector Half 256

/-- The block cipher under a key (R12, 41_aes_cbc.md R241). A permutation of the blocks: the one
property the spec gives, `BlockDec(k, BlockEnc(k, b)) = b`, on a finite set of blocks (log entry 8). -/
opaque Config.cipher : List Byte → Equiv.Perm Block

/-- `BlockEnc(key, b)`. -/
def Config.blockEnc (key : List Byte) (b : Block) : Block := Config.cipher key b

/-- `BlockDec(key, b)`. -/
def Config.blockDec (key : List Byte) (b : Block) : Block := (Config.cipher key).symm b

/-- `HASH`: a byte sequence of any length to a digest of the given length (R12, log entry 9). -/
opaque Config.hash : (len : Nat) → List Byte → Vector Byte len

/-- `draw()` (R16): the n-th free value. "may be any value of the stated type, under no law" (log
entry 6). -/
opaque Config.draw : Nat → Word

/-- A drawn bit: `draw() & 1`. -/
def Config.drawBit (n : Nat) : Bool := (Config.draw n).getLsbD 0

end Sys2Proof
end

