-- ==== Sys2Proof/Machine/State.lean ====
section
/-! DEFINITION. The state of the block and of the agents around it (10_state.md R63), the faults, and the
machine right after reset (70_reset_and_hazards.md R540). -/

namespace Sys2Proof.Machine

/-! ## Faults and refusals -/

/-- The kinds of model fault (60_exceptions.md R510). A command or an action raises one: the sticky mark
`State.fault` is set and nothing else changes. All are safe: the spec errs toward unprovable
(93_implementation_defined.md section 1). -/
inductive FaultKind where
  /-- Raised by any CMD write of a word that matches no row (30_encoding.md R127). Safe. -/
  | illegalCommand
  /-- Raised by a host read of CMD and a host write of STATUS or RESi (10_state.md R32, R35). Safe. -/
  | illegalPortAccess
  /-- Raised by a read of `⊥` (10_state.md R35, R38). Safe. -/
  | readUnwritten
  /-- Raised by an access of n >= 1 bytes past 2^32 (20_memory.md R88). Safe. -/
  | rangeWrap
  /-- Raised by AES.ENC and AES.DEC on an address that is no multiple of 16 (20_memory.md R90). Safe. -/
  | misaligned
  /-- Raised by AES.ENC and AES.DEC on partly overlapping buffers (41_aes_cbc.md R256). Safe. -/
  | overlap
  /-- Raised by an access that could see, or lose, a stale copy (20_memory.md R95-R97, R99). Safe. -/
  | coherence
  /-- Raised by EEP.SET SK on a reserved frame or a start bit in STATUS mode (42_eeprom.md R324, R330).
  Safe. -/
  | eepProtocol
  deriving DecidableEq, Repr

/-- Why the machine has no next state. -/
inductive Fault where
  /-- Raised by `step` in a state whose sticky fault is set: "The first fault is kept, and no later step
  has a defined effect. A model may stop the run at the first fault." (60_exceptions.md R511). Safe. -/
  | raised (k : FaultKind)
  /-- Raised by an access to an address that is not admitted: the action has no step, the agent is stuck
  (20_memory.md R83, R512). Safe. -/
  | notAdmitted
  /-- Raised by a host action while the host is blocked in HST.WAIT_USER: it has no step
  (45_host_protocols.md R472). Safe. -/
  | hostWaiting
  /-- Raised by `dev_complete` while `dev.busy` is 0: the step is not enabled (42_eeprom.md R331). Safe. -/
  | notEnabled
  deriving DecidableEq, Repr

/-- Why an instruction is refused. -/
inductive Refusal where
  /-- Raised by `exec` for an instruction that the model gives no meaning; no arm does. Safe. -/
  | notModelled (mnemonic : String)
  deriving DecidableEq, Repr

/-! ## The agents' actions -/

/-- A register of the command port (10_state.md R30). -/
inductive PortReg where
  | arg (i : Fin 4)
  | cmd
  | status
  | res (i : Fin 8)
  deriving DecidableEq, Repr

/-- The two outcomes of the user's confirmation (45_host_protocols.md R472). -/
inductive UserEvent where
  | confirm
  | cancel
  deriving DecidableEq, Repr

/-- The result of an external NAND call (OK or IO_FAIL for an erase or a write), chosen by the environment (45_host_protocols.md R470). -/
inductive NandResult where
  | ok
  | eccUncorrectable
  | ioFail
  deriving DecidableEq, Repr

/-- A NAND block: its bank (false = primary, true = compatibility) and its index (30_encoding.md R156). -/
structure NandBlock where
  bank : Bool
  index : BitVec 12
  deriving DecidableEq, Repr

/-- One step of one agent (20_memory.md R100, R101). What the environment chooses in a step (a NAND
result and the bytes it delivers, the next run's launch memory) travels with it. Addresses are
unbounded naturals: "the range check of rule R88 decides what happens at the top of the address space"
(00_scope.md R14). -/
inductive Action where
  /-- `HST.LD addr, n`. -/
  | hstLd (addr : Nat) (n : Nat)
  /-- `HST.ST addr, n, bytes` with n the number of bytes. -/
  | hstSt (addr : Nat) (bytes : List Byte)
  /-- `PORT.WR reg, v`; for CMD, the issue of the command word v. -/
  | portWr (reg : PortReg) (v : Word)
  /-- `PORT.RD reg`. -/
  | portRd (reg : PortReg)
  /-- `HST.WAIT_USER`. -/
  | waitUser
  /-- `HST.NAND_ERASE bank, block`, and whether its result is OK or IO_FAIL. -/
  | nandErase (b : NandBlock) (ok : Bool)
  /-- `HST.NAND_WRITE bank, block, page, data, spare`, and whether its result is OK or IO_FAIL. -/
  | nandWrite (b : NandBlock) (page : Nat) (data spare : Option Nat) (ok : Bool)
  /-- `HST.NAND_READ bank, block, page, dst`, its result, and the bytes that an OK read delivers where the
  contract does not fix them. -/
  | nandRead (b : NandBlock) (page : Nat) (dst : Nat) (r : NandResult) (bytes : List Byte)
  /-- Any host action outside R100. -/
  | other
  /-- The EEPROM device's `dev_complete` (42_eeprom.md R331). -/
  | devComplete
  /-- The environment's `interrupt` (45_host_protocols.md R480), with the launch memory of the next run
  and the NAND block, if any, whose erase or write was in progress. -/
  | interrupt (mem : List Host.Cell) (nandBusy : Option NandBlock)
  /-- The environment's user event (R472). -/
  | userEvent (e : UserEvent)
  deriving DecidableEq, Repr

/-- What an action returned to the host: the model's own field (log entry 13). -/
inductive Reply where
  | nothing
  | word (w : Word)
  | bytes (bs : List Byte)
  | user (e : UserEvent)
  | nand (r : NandResult)
  deriving DecidableEq, Repr

/-! ## The parts of the state -/

/-- The block-cipher controller's registers (10_state.md R42-R44). `none` is the spec's `⊥`. -/
structure Aes where
  key : Option (List Byte)
  iv : Option Block
  chain : Option Block
  deriving DecidableEq, Repr

/-- The three host-driven EEPROM lines (10_state.md R45). -/
structure Gpio where
  cs : Bool
  sk : Bool
  di : Bool
  deriving DecidableEq, Repr

/-- The device's output line `dev.do`: 0, 1 or `Z`, not driven (10_state.md R45). -/
inductive DataOut where
  | zero
  | one
  | z
  deriving DecidableEq, Repr

/-- The modes of the EEPROM device (42_eeprom.md R320). -/
inductive Mode where
  | idle
  | recv
  | out
  | status
  deriving DecidableEq, Repr

/-- The EEPROM device (10_state.md R46). -/
structure Device where
  mode : Mode
  /-- The bits of the current frame received so far, first bit first. -/
  shift : List Bool
  /-- The data bits still to be shifted out. -/
  out : List Bool
  /-- The output line `dev.do`. -/
  dout : DataOut
  wel : Bool
  armed : Option (Byte × Half)
  busy : Bool
  prog : Option (Byte × Half)
  statusPending : Bool
  array : Vector Half 256
  deriving DecidableEq, Repr

/-- `mem` with its admission (20_memory.md R80): the list of the admitted addresses with their bytes,
addresses strictly rising. An address that is not listed is not admitted and holds no byte. -/
abbrev Memory := List Host.Cell

/-- The coherence sets (10_state.md R51), as strictly rising lists of addresses. -/
structure Coh where
  hostDirty : List Nat
  devDirty : List Nat
  deriving DecidableEq, Repr

/-- A NAND page whose data the contract of 45_host_protocols.md R470 fixes. -/
structure NandPage where
  block : NandBlock
  page : Nat
  data : List Byte
  deriving DecidableEq, Repr

/-- The complete state: the tuple of 10_state.md R63, the external NAND contents as far as their contract
fixes them, the instance's parameters, and the model's own last five fields. In a port register `none`
is the spec's value `⊥`, which is its reset value (00_scope.md R17, 70_reset_and_hazards.md R540). -/
structure State where
  /-- `ARG0`-`ARG3`. -/
  arg : Vector (Option Word) 4
  /-- `STATUS`. -/
  status : Option Word
  /-- `RES0`-`RES7`. -/
  res : Vector (Option Word) 8
  /-- `crc.acc`. -/
  crcAcc : Option Word
  aes : Aes
  gpio : Gpio
  dev : Device
  mem : Memory
  coh : Coh
  /-- `fault`, sticky (R60). -/
  fault : Option FaultKind
  /-- `refused`, sticky (R61). -/
  refused : Bool
  /-- The NAND pages whose data the contract fixes (log entry 15). -/
  nand : List NandPage
  /-- The instance's OPEN parameters, constants (log entry 5). -/
  par : Params
  /-- The next actions of the agents, in the order they are taken (log entry 1). -/
  agenda : List Action
  /-- The agendas of the runs to come, one for each restart: an interruption ends the agenda of its run and
  starts the next of these, in which the host begins at its first action (45_host_protocols.md R480 item 6,
  log entry 16). -/
  restarts : List (List Action)
  /-- What the last action returned to the host (log entry 13). -/
  reply : Reply
  /-- The host is blocked in HST.WAIT_USER (log entry 14). -/
  waiting : Bool
  /-- How many free values have been drawn (log entry 6). -/
  draws : Nat
  deriving DecidableEq, Repr

/-! ## Reset -/

/-- The cipher registers at reset and after AES.RESET. -/
def Aes.unwritten : Aes := ⟨none, none, none⟩

/-- The EEPROM device at reset, holding the given words (R540). -/
def Device.atReset (words : Vector Half 256) : Device where
  mode := .idle
  shift := []
  out := []
  dout := .z
  wel := false
  armed := none
  busy := false
  prog := none
  statusPending := false
  array := words

/-- The three lines at a reset event: three drawn bits (R540). -/
def Gpio.drawn (n : Nat) : Gpio := ⟨Config.drawBit n, Config.drawBit (n + 1), Config.drawBit (n + 2)⟩

/-- The machine right after launch (R540): every register `⊥`, the lines drawn, the device idle and
holding `EEPROM_INIT`, the coherence sets empty, no fault, the bit `refused` 0. The memory lists nothing: a launch
with launch memory m is this state with `mem := m` (log entry 4). -/
def State.reset : State where
  arg := Vector.replicate 4 none
  status := none
  res := Vector.replicate 8 none
  crcAcc := none
  aes := Aes.unwritten
  gpio := Gpio.drawn 0
  dev := Device.atReset Config.eepromInit
  mem := []
  coh := ⟨[], []⟩
  fault := none
  refused := false
  nand := []
  par := { Config.params with enableRetire := false }
  agenda := []
  restarts := []
  reply := .nothing
  waiting := false
  draws := 3

end Sys2Proof.Machine
end

