-- ==== Sys2Proof/Machine/Ops.lean ====
section
/-! DEFINITION. The shared operations: byte order, memory, the coherence sets, raising a fault (the one way
this machine takes an exceptional condition: there are no traps, 60_exceptions.md R521), drawing a free
value, and turning a command's computation into the outcome of its step. -/

namespace Sys2Proof.Machine

/-- The outcome of a step of this machine. -/
abbrev Result := Host.Outcome State Fault Refusal

/-! ## Byte order (00_scope.md R15, 20_memory.md R86) -/

/-- `LE_N(bytes)`: the number whose least significant byte is the first. -/
def leVal (bs : List Byte) : Nat := bs.foldr (fun b v => b.toNat + 256 * v) 0

/-- `toLE_N(v)` with n = N/8 bytes. -/
def toLE : Nat → Nat → List Byte
  | 0, _ => []
  | n + 1, v => BitVec.ofNat 8 v :: toLE n (v / 256)

/-- Every byte is zero. -/
def allZero (bs : List Byte) : Bool := bs.all (fun b => b == 0#8)

/-! ## Memory: the partial map from admitted addresses to bytes (R80) -/

/-- The number of addresses, 2^`P_ADDR_BITS` = 2^32 (R80). -/
def addrTop : Nat := 4294967296

/-- What an address that is not listed reads as: nothing, for it is not admitted (R83, log entry 4). -/
def Memory.unlisted : Option Byte := none

/-- The byte at an address; nothing where the address is not admitted. -/
def Memory.get (m : Memory) (a : Nat) : Option Byte :=
  match m with
  | [] => Memory.unlisted
  | c :: rest => if c.1 = a then some c.2 else Memory.get rest a

/-- The memory with byte b at address a, in canonical form again. -/
def Memory.set (m : Memory) (a : Nat) (b : Byte) : Memory :=
  match m with
  | [] => [(a, b)]
  | c :: rest =>
    if a < c.1 then (a, b) :: c :: rest
    else if c.1 = a then (a, b) :: rest
    else c :: Memory.set rest a b

/-- Every listed address is above the bound, and they rise strictly from it. -/
def Memory.risesFrom (lo : Nat) (m : Memory) : Bool :=
  match m with
  | [] => true
  | c :: rest => decide (lo ≤ c.1) && Memory.risesFrom (c.1 + 1) rest

/-- The canonical form: addresses strictly rising and below 2^32. No entry can equal what an unlisted
address reads as, since that is no byte. -/
def Memory.wf (m : Memory) : Bool := Memory.risesFrom 0 m && m.all (fun c => decide (c.1 < addrTop))

/-- The canonical memory that lists the given cells; a later cell of one address wins, and a cell past
the address space is none. -/
def Memory.ofCells (cells : List Host.Cell) : Memory :=
  cells.foldl (fun m c => if c.1 < addrTop then m.set c.1 c.2 else m) []

/-- The n bytes from address a on, in increasing order; nothing if one is not admitted (R83, R84). -/
def Memory.read (m : Memory) (a : Nat) : Nat → Option (List Byte)
  | 0 => some []
  | n + 1 =>
    match Memory.get m a, Memory.read m (a + 1) n with
    | some b, some bs => some (b :: bs)
    | _, _ => none

/-- The memory with the bytes stored from address a on, in increasing order (R85). -/
def Memory.write (m : Memory) (a : Nat) : List Byte → Memory
  | [] => m
  | b :: bs => Memory.write (m.set a b) (a + 1) bs

/-! ## Sets of addresses, as strictly rising lists (10_state.md R51) -/

/-- The set with one more address. -/
def addrInsert (x : Nat) : List Nat → List Nat
  | [] => [x]
  | y :: ys => if x < y then x :: y :: ys else if x = y then y :: ys else y :: addrInsert x ys

/-- The set with the addresses a .. a+n-1 added. -/
def addrInsertRange (a : Nat) : Nat → List Nat → List Nat
  | 0, set => set
  | n + 1, set => addrInsertRange (a + 1) n (addrInsert a set)

/-- The address lies in a .. a+n-1. -/
def inRange (a n x : Nat) : Bool := decide (a ≤ x) && decide (x < a + n)

/-- The set without the addresses a .. a+n-1. -/
def addrRemoveRange (a n : Nat) (set : List Nat) : List Nat := set.filter (fun x => !inRange a n x)

/-- The set holds an address of a .. a+n-1. -/
def addrTouches (a n : Nat) (set : List Nat) : Bool := set.any (inRange a n)

/-- The addresses rise strictly, from the bound on. -/
def addrRisesFrom (lo : Nat) : List Nat → Bool
  | [] => true
  | x :: xs => decide (lo ≤ x) && addrRisesFrom (x + 1) xs

/-! ## Faults and the outcome of a command -/

/-- Why a command or an action does not complete: it raises a model fault, or it has no step because an
access is not admitted (60_exceptions.md R500). -/
inductive Halt where
  | raise (k : FaultKind)
  | noStep
  deriving DecidableEq, Repr

/-- `raise Fault(kind)` (00_scope.md R16): the sticky mark is set and nothing else changes; the first
fault raised is kept (10_state.md R60). -/
def State.raise (s : State) (k : FaultKind) : State :=
  { s with fault := match s.fault with | some k0 => some k0 | none => some k }

/-- The outcome of a step that starts in s and computes c: its state if it completes; s with the fault
marked, and nothing else changed, if it raises one (60_exceptions.md R500, R510, R521); no step if an
access is not admitted (20_memory.md R83). -/
def State.complete (s : State) (c : Except Halt State) : Result :=
  match c with
  | .ok t => .next t
  | .error (.raise k) => .next (s.raise k)
  | .error .noStep => .fault .notAdmitted

/-- Raise the fault unless the condition holds. -/
def require (ok : Bool) (k : FaultKind) : Except Halt Unit :=
  if ok then .ok () else .error (.raise k)

/-- Read a register that may be `⊥`: "Reading `⊥` raises `Fault(ReadUnwritten)`" (00_scope.md R17). -/
def written {α : Type} (r : Option α) : Except Halt α :=
  match r with
  | some v => .ok v
  | none => .error (.raise .readUnwritten)

/-! ## Memory accesses of the agents -/

/-- The range check of 20_memory.md R88: an access of n >= 1 bytes must end at or below 2^32; one of no
bytes passes. -/
def rangeOk (a n : Nat) : Bool := decide (n = 0) || decide (a + n ≤ addrTop)

/-- The bytes of a range, every one of which must be admitted (R83). -/
def State.fetch (s : State) (a n : Nat) : Except Halt (List Byte) :=
  match s.mem.read a n with
  | some bs => .ok bs
  | none => .error .noStep

/-- `MemRead(addr, n)` in the host view (R84, R95): range, admission, then no byte may be in
`coh.devDirty`. -/
def State.hostRead (s : State) (a n : Nat) : Except Halt (List Byte) := do
  require (rangeOk a n) .rangeWrap
  let bs ← s.fetch a n
  require (!addrTouches a n s.coh.devDirty) .coherence
  return bs

/-- The bytes stored and added to `coh.hostDirty` (R85, R95). -/
def State.storeHost (s : State) (a : Nat) (bs : List Byte) : State :=
  { s with
    mem := s.mem.write a bs
    coh := { s.coh with hostDirty := addrInsertRange a bs.length s.coh.hostDirty } }

/-- `MemWrite(addr, n, bytes)` in the host view (R85, R95): range and admission, then the store. -/
def State.hostWrite (s : State) (a : Nat) (bs : List Byte) : Except Halt State := do
  require (rangeOk a bs.length) .rangeWrap
  let _ ← s.fetch a bs.length
  return s.storeHost a bs

/-- The bytes stored by the cipher's DMA and added to `coh.devDirty` (R97). -/
def State.storeDev (s : State) (a : Nat) (bs : List Byte) : State :=
  { s with
    mem := s.mem.write a bs
    coh := { s.coh with devDirty := addrInsertRange a bs.length s.coh.devDirty } }

/-! ## Free values and results -/

/-- `draw()`: the next free value, and the state whose counter has moved past it (R16, log entry 6). -/
def State.draw (s : State) : Word × State := (Config.draw s.draws, { s with draws := s.draws + 1 })

/-- `RES[i] <- v`. -/
def State.setRes (s : State) (i : Fin 8) (v : Word) : State :=
  { s with res := s.res.set i (some v) }

/-- `RES0`-`RES7` set to `⊥` (44_container.md R394). -/
def State.clearRes (s : State) : State := { s with res := Vector.replicate 8 none }

/-- `ARGi <- v`. -/
def State.setArg (s : State) (i : Fin 4) (v : Word) : State :=
  { s with arg := s.arg.set i (some v) }

end Sys2Proof.Machine
end

