-- ==== Sys2Proof/Machine/Flags.lean ====
section
/-! DEFINITION. The result codes (60_exceptions.md R501) and `STATUS.CODE`, "the only flag a command
writes" (30_encoding.md R126). -/

namespace Sys2Proof.Machine

/-- The result codes of R501: of commands, and of the host operations. -/
inductive ResultCode where
  | ok
  | okUncommitted
  | okCommitted
  | badMagic
  | badSigOffset
  | badSigType
  | sigPadNonzero
  | reservedNonzero
  | truncated
  | imageLength
  | noLoadAddr
  | wrongClass
  | bodyHash
  | noneValid
  | eccUncorrectable
  | eepVerifyFail
  | eepPollTimeout
  | nandWriteFail
  | safetyCompatBank
  | ioImage
  | ioReadback
  | readbackMismatch
  | cancelled
  deriving DecidableEq, Repr

/-- The number of a result code (R501); the category is its high nibble. -/
def ResultCode.toByte : ResultCode → Byte
  | .ok => 0x00#8
  | .okUncommitted => 0x01#8
  | .okCommitted => 0x02#8
  | .badMagic => 0x10#8
  | .badSigOffset => 0x11#8
  | .badSigType => 0x12#8
  | .sigPadNonzero => 0x13#8
  | .reservedNonzero => 0x14#8
  | .truncated => 0x15#8
  | .imageLength => 0x16#8
  | .noLoadAddr => 0x17#8
  | .wrongClass => 0x18#8
  | .bodyHash => 0x20#8
  | .noneValid => 0x21#8
  | .eccUncorrectable => 0x30#8
  | .eepVerifyFail => 0x31#8
  | .eepPollTimeout => 0x32#8
  | .nandWriteFail => 0x33#8
  | .safetyCompatBank => 0x40#8
  | .ioImage => 0x50#8
  | .ioReadback => 0x51#8
  | .readbackMismatch => 0x52#8
  | .cancelled => 0x60#8

/-- The codes that a command can leave in `STATUS` ("produced by: command", R501). -/
def commandCodes : List ResultCode :=
  [.ok, .badMagic, .badSigOffset, .badSigType, .sigPadNonzero, .reservedNonzero, .truncated, .bodyHash]

/-- `STATUS` holding a code: `CODE` in bits [7:0], the reserved bits 0 (10_state.md R33). -/
def statusWord (c : ResultCode) : Word := c.toByte.setWidth 32

/-- `finish(code)`: `STATUS <- code` (00_scope.md R16). -/
def State.finish (s : State) (c : ResultCode) : State := { s with status := some (statusWord c) }

/-- `finish(OK)`, the last thing a completing command does (10_state.md R38). -/
def State.done (s : State) : State := s.finish .ok

end Sys2Proof.Machine
end

