-- ==== Sys2Proof/Machine/Operands.lean ====
section
/-! DEFINITION. The operands of the commands: the fixed roles of the argument registers (30_encoding.md
R125), the operands of a cipher command, and the lines of the EEPROM port. -/

namespace Sys2Proof.Machine

/-- `ARG[i]`, which must have been written (10_state.md R38). -/
def State.argVal (s : State) (i : Fin 4) : Except Halt Nat := do
  let w ← written s.arg[i]
  return w.toNat

/-- The one address operand, `ARG0` (AES.SETKEY, AES.SETIV). -/
def State.argAddr (s : State) : Except Halt Nat := s.argVal 0

/-- The operand pair (`ARG0`, `ARG1`): address and length, source and destination, data and code address,
or container address and buffer length (R125). -/
def State.argPair (s : State) : Except Halt (Nat × Nat) := do
  let a ← s.argVal 0
  let b ← s.argVal 1
  return (a, b)

/-- The byte range in the pair's roles address and length, read in the host view (CRC.RANGE,
CRC.COMPUTE). -/
def State.argBytes (s : State) (p : Nat × Nat) : Except Halt (List Byte) := s.hostRead p.1 p.2

/-- The chaining value a cipher command starts from: `aes.chain` for keep_iv = 1, `aes.iv` for 0
(41_aes_cbc.md R244). -/
def State.startChain (s : State) (keep : Bool) : Option Block :=
  if keep then s.aes.chain else s.aes.iv

/-- [a, a+n) and [b, b+n) meet. -/
def rangesMeet (a b n : Nat) : Bool := decide (a < b + n) && decide (b < a + n)

/-- The operands of a cipher command once every check has passed. -/
structure CipherOps where
  key : List Byte
  start : Block
  dst : Nat
  input : List Byte
  deriving DecidableEq, Repr

/-- The operands of AES.ENC and AES.DEC on n blocks, with the checks of 41_aes_cbc.md R254 in its order:
`⊥` arguments, key, chaining value; alignment (20_memory.md R90); overlap (R256); range; admission of both
ranges (R83); coherence of the reads, then of the writes (R96, R97). All input is read before any
output. -/
def State.cipherOps (s : State) (n : Nat) (keep : Bool) : Except Halt CipherOps := do
  let (src, dst) ← s.argPair
  let key ← written s.aes.key
  let c ← written (s.startChain keep)
  require (src % 16 == 0 && dst % 16 == 0) .misaligned
  require (src == dst || !rangesMeet src dst (16 * n)) .overlap
  require (rangeOk src (16 * n)) .rangeWrap
  require (rangeOk dst (16 * n)) .rangeWrap
  let input ← s.fetch src (16 * n)
  let _ ← s.fetch dst (16 * n)
  require (!addrTouches src (16 * n) s.coh.hostDirty) .coherence
  require (!addrTouches dst (16 * n) s.coh.hostDirty) .coherence
  return { key := key, start := c, dst := dst, input := input }

/-- The lines of the EEPROM port that a command can drive (42_eeprom.md R300): 0 = CS, 1 = SK, 2 = DI. -/
inductive Line where
  | cs
  | sk
  | di
  deriving DecidableEq, Repr

/-- The value of a line. -/
def State.line (s : State) : Line → Bool
  | .cs => s.gpio.cs
  | .sk => s.gpio.sk
  | .di => s.gpio.di

/-- The state with a line driven to v. -/
def State.setLine (s : State) (l : Line) (v : Bool) : State :=
  { s with gpio :=
      match l with
      | .cs => { s.gpio with cs := v }
      | .sk => { s.gpio with sk := v }
      | .di => { s.gpio with di := v } }

end Sys2Proof.Machine
end

