-- ==== Sys2Proof/Machine/Cipher.lean ====
section
/-! DEFINITION. The block-cipher CBC-mode controller (41_aes_cbc.md). -/

namespace Sys2Proof.Machine

/-- Bytewise exclusive-or of two blocks. -/
def xorBlock (a b : Block) : Block := Vector.zipWith (fun x y => x ^^^ y) a b

/-- `cbc_enc(key, c, P)` for an encryption function (R242): the output blocks and the new chaining
value. -/
def cbcEnc (enc : Block → Block) (c : Block) : List Block → List Block × Block
  | [] => ([], c)
  | p :: ps =>
    let x := enc (xorBlock p c)
    let r := cbcEnc enc x ps
    (x :: r.1, r.2)

/-- `cbc_dec(key, c, C)` for a decryption function (R243): the output blocks and the last ciphertext
block. -/
def cbcDec (dec : Block → Block) (c : Block) : List Block → List Block × Block
  | [] => ([], c)
  | x :: xs =>
    let r := cbcDec dec x xs
    (xorBlock (dec x) c :: r.1, r.2)

/-- A block from its bytes. -/
def blockOf (bs : List Byte) : Block := Vector.ofFn fun i => bs.getD i.val 0#8

/-- The first n blocks of a byte sequence. -/
def toBlocks : Nat → List Byte → List Block
  | 0, _ => []
  | n + 1, bs => blockOf (bs.take 16) :: toBlocks n (bs.drop 16)

/-- The bytes of a sequence of blocks. -/
def ofBlocks (blocks : List Block) : List Byte := blocks.flatMap (fun b => b.toList)

/-- The sixteen zero bytes of AES.CLRIV (R253). -/
def zeroBlock : Block := Vector.replicate 16 0#8

/-- The end of a cipher command: the output stored by DMA and the chaining value left behind (R244,
R254, R255). -/
def State.cipherFinish (s : State) (dst : Nat) (r : List Block × Block) : State :=
  let t := s.storeDev dst (ofBlocks r.1)
  { t with aes := { t.aes with chain := some r.2 } }.done

/-- AES.RESET (R250). -/
def execAesReset (s : State) : Result := .next { s with aes := Aes.unwritten }.done

/-- AES.SETKEY (R251): the key is a byte sequence without a byte order; setting it ends any chain. -/
def execAesSetkey (s : State) : Result :=
  s.complete do
    let a ← s.argAddr
    let key ← s.hostRead a s.par.keyBytes
    return { s with aes := { s.aes with key := some key, chain := none } }.done

/-- AES.SETIV (R252). -/
def execAesSetiv (s : State) : Result :=
  s.complete do
    let a ← s.argAddr
    let bs ← s.hostRead a 16
    return { s with aes := { s.aes with iv := some (blockOf bs), chain := none } }.done

/-- AES.CLRIV (R253). -/
def execAesClriv (s : State) : Result :=
  .next { s with aes := { s.aes with iv := some zeroBlock, chain := none } }.done

/-- AES.ENC n, K (R254). -/
def execAesEnc (n : Nat) (keep : Bool) (s : State) : Result :=
  s.complete do
    let o ← s.cipherOps n keep
    return s.cipherFinish o.dst (cbcEnc (Config.blockEnc o.key) o.start (toBlocks n o.input))

/-- AES.DEC n, K (R255). -/
def execAesDec (n : Nat) (keep : Bool) (s : State) : Result :=
  s.complete do
    let o ← s.cipherOps n keep
    return s.cipherFinish o.dst (cbcDec (Config.blockDec o.key) o.start (toBlocks n o.input))

end Sys2Proof.Machine
end

