-- ==== Sys2Proof/Machine/Container.lean ====
section
/-! DEFINITION. The firmware container parser and format validator (44_container.md), over the layout of
30_encoding.md R150-R154. -/

namespace Sys2Proof.Machine

/-- The two signature types (30_encoding.md R151). -/
inductive SigType where
  | type1
  | type2
  deriving DecidableEq, Repr

/-- The signature type of a type tag; nothing for a tag that is neither 1 nor 2. -/
def SigType.ofTag (t : Nat) : Option SigType :=
  if t = 1 then some .type1 else if t = 2 then some .type2 else none

/-- The tag, 1 or 2. -/
def SigType.tag : SigType → Nat
  | .type1 => 1
  | .type2 => 2

/-- `P_INFO_OFF(type)`, whatever the signature offset is (R393). -/
def SigType.infoOff : SigType → Nat
  | .type1 => 0xA0
  | .type2 => 0x1A0

/-- `P_SIG_LEN(type)`. -/
def SigType.sigLen : SigType → Nat
  | .type1 => 0x38
  | .type2 => 0x100

/-- `P_SIG_PAD(type)`. -/
def SigType.sigPad : SigType → Nat
  | .type1 => 0x44
  | .type2 => 0x7C

/-- `P_SIG_OFFSET_EXPECTED`. -/
def sigOffsetExpected : Nat := 0x20

/-- `INFO_SIZE = 0x14 + H + P_INFO_PAD` (30_encoding.md R152). -/
def infoSize (par : Params) : Nat := 0x14 + par.hashLen + par.infoPad

/-- Why a validator command stops before its end: it fails with a result code (`fail(c)`, R400), or it
halts. -/
inductive CtrStop where
  | code (c : ResultCode)
  | halt (h : Halt)
  deriving DecidableEq, Repr

/-- What a completed validator command reports in `RES0`-`RES7` (R404). -/
structure CtrInfo where
  sig : SigType
  sigOff : Nat
  bodyOff : Nat
  bodySize : Nat
  device : Nat
  version : Nat
  infoType : Nat
  deriving DecidableEq, Repr

/-- A container in memory: its address p and its buffer length L (R390). -/
structure Buffer where
  addr : Nat
  len : Nat
  deriving DecidableEq, Repr

/-- `fail(c)` unless the condition holds. -/
def check (ok : Bool) (c : ResultCode) : Except CtrStop Unit :=
  if ok then .ok () else .error (.code c)

/-- `need(off, n)` (R392): the field lies in the buffer, computed without wrap-around. -/
def Buffer.need (b : Buffer) (off n : Nat) : Except CtrStop Unit :=
  check (decide (off + n ≤ b.len)) .truncated

/-- A field of n bytes at an offset of the container, read in the host view (R390). -/
def State.field (s : State) (b : Buffer) (off n : Nat) : Except CtrStop (List Byte) :=
  match s.hostRead (b.addr + off) n with
  | .ok bs => .ok bs
  | .error h => .error (.halt h)

/-- A little-endian u32 field. -/
def State.field32 (s : State) (b : Buffer) (off : Nat) : Except CtrStop Nat := do
  let bs ← s.field b off 4
  return leVal bs

/-- The operands of a validator command, and the range check of the buffer (R391). -/
def State.ctrBuffer (s : State) : Except Halt Buffer := do
  let (p, len) ← s.argPair
  require (rangeOk p len) .rangeWrap
  return { addr := p, len := len }

/-- The magic, then the signature-block offset `so` (R400, R401). -/
def State.ctrHeader (s : State) (b : Buffer) : Except CtrStop Nat := do
  b.need 0 4
  let magic ← s.field b 0 4
  check (magic == s.par.magic.toList) .badMagic
  b.need 8 4
  s.field32 b 8

/-- The type tag at the signature block. -/
def State.ctrType (s : State) (b : Buffer) (so : Nat) : Except CtrStop SigType := do
  b.need so 4
  let tag ← s.field32 b so
  match SigType.ofTag tag with
  | some t => .ok t
  | none => .error (.code .badSigType)

/-- The state with no device-dirty address: there a host-view read meets every check but that of coherence. -/
def State.coherent (s : State) : State := { s with coh := { s.coh with devDirty := [] } }

/-- A validator command's reads and checks, in the order of 60_exceptions.md R513: an access that is not admitted
(item 7) comes before every coherence fault (item 8), and that before a result code (item 9). The accesses are
those that the bytes in memory lead to, device-dirty ones included, up to the first check that fails (log
entry 12): the first pass finds whether one is not admitted, the second whether one is not coherent. -/
def State.ctrRun (s : State) (checks : State → Except CtrStop CtrInfo) : Except CtrStop CtrInfo :=
  match checks s.coherent with
  | .error (.halt h) => .error (.halt h)
  | .ok _ | .error (.code _) => checks s

/-- The checks and fields of CTR.PARSE (R400), in its order. -/
def State.parseContainer (s : State) (b : Buffer) : Except CtrStop CtrInfo := do
  let so ← s.ctrHeader b
  let t ← s.ctrType b so
  let io := t.infoOff
  b.need io (infoSize s.par)
  let device ← s.field32 b (io + 0x04)
  let infoType ← s.field32 b (io + 0x08)
  let size ← s.field32 b (io + 0x0C)
  let version ← s.field32 b (io + 0x10 + s.par.hashLen)
  let bo := io + infoSize s.par
  b.need bo size
  return { sig := t, sigOff := so, bodyOff := bo, bodySize := size, device := device,
           version := version, infoType := infoType }

/-- The digest of a body (00_scope.md R12). -/
def digest (par : Params) (body : List Byte) : List Byte := (Config.hash par.hashLen body).toList

/-- The checks of CTR.VERIFY (R401), in its order: magic, offset, type, bounds, signature padding,
reserved fields, body hash (R395); then the fields it reports (R404). The signature bytes are never read
(R402). R401 names no read of device, info_type and version: that they are read, in this order, and only once
every check has passed is a DESIGN CHOICE, log entry 25. -/
def State.verifyContainer (s : State) (b : Buffer) : Except CtrStop CtrInfo := do
  let so ← s.ctrHeader b
  check (so == sigOffsetExpected) .badSigOffset
  let t ← s.ctrType b so
  let io := t.infoOff
  b.need io (infoSize s.par)
  let size ← s.field32 b (io + 0x0C)
  let bo := io + infoSize s.par
  b.need bo size
  let pad ← s.field b (so + 4 + t.sigLen) t.sigPad
  check (allZero pad) .sigPadNonzero
  let reserved ← s.field b io 4
  check (allZero reserved) .reservedNonzero
  let tail ← s.field b (io + 0x14 + s.par.hashLen) s.par.infoPad
  check (allZero tail) .reservedNonzero
  let body ← s.field b bo size
  let stored ← s.field b (io + 0x10) s.par.hashLen
  check (digest s.par body == stored) .bodyHash
  let device ← s.field32 b (io + 0x04)
  let infoType ← s.field32 b (io + 0x08)
  let version ← s.field32 b (io + 0x10 + s.par.hashLen)
  return { sig := t, sigOff := so, bodyOff := bo, bodySize := size, device := device,
           version := version, infoType := infoType }

/-- The values of `RES0`-`RES7` after a completed validator command (R404). -/
def CtrInfo.results (c : CtrInfo) : Vector (Option Word) 8 :=
  #v[some (BitVec.ofNat 32 c.sig.tag), some (BitVec.ofNat 32 c.sigOff),
     some (BitVec.ofNat 32 c.sig.infoOff), some (BitVec.ofNat 32 c.bodyOff),
     some (BitVec.ofNat 32 c.bodySize), some (BitVec.ofNat 32 c.device),
     some (BitVec.ofNat 32 c.version), some (BitVec.ofNat 32 c.infoType)]

/-- The end of a validator command: all eight results and OK; or, when a check fails, all eight `⊥` and
the code (R394, R404); or the halt. -/
def State.ctrFinish (s : State) (r : Except CtrStop CtrInfo) : Except Halt State :=
  match r with
  | .ok c => .ok { s with res := c.results }.done
  | .error (.code c) => .ok (s.clearRes.finish c)
  | .error (.halt h) => .error h

/-- CTR.PARSE (R400). -/
def execCtrParse (s : State) : Result :=
  s.complete do
    let b ← s.ctrBuffer
    s.ctrFinish (s.ctrRun fun t => t.parseContainer b)

/-- CTR.VERIFY (R401). -/
def execCtrVerify (s : State) : Result :=
  s.complete do
    let b ← s.ctrBuffer
    s.ctrFinish (s.ctrRun fun t => t.verifyContainer b)

end Sys2Proof.Machine
end

