-- ==== Sys2Proof/Machine/Crc.lean ====
section
/-! DEFINITION. The CRC checksum engine (40_crc.md). -/

namespace Sys2Proof.Machine

/-- `P_CRC_POLY`, the reflected polynomial (00_scope.md R9). -/
def crcPoly : Word := 0xEDB88320#32

/-- `P_CRC_INIT`. -/
def crcInit : Word := 0xFFFFFFFF#32

/-- `P_CRC_XOROUT`. -/
def crcXorOut : Word := 0xFFFFFFFF#32

/-- One of the eight rounds that make a table entry (R201). -/
def crcRound (c : Word) : Word := if c.getLsbD 0 then (c >>> 1) ^^^ crcPoly else c >>> 1

/-- `CRC_TABLE[n]` (R201, R213). -/
def crcTable (n : Byte) : Word := Nat.repeat crcRound 8 (n.setWidth 32)

/-- `step(a, b)`: one byte consumed into the accumulator (R202). -/
def crcStep (a : Word) (b : Byte) : Word := crcTable ((a ^^^ b.setWidth 32).setWidth 8) ^^^ (a >>> 8)

/-- The bytes consumed into the accumulator, first to last. -/
def crcLoop (a : Word) (bs : List Byte) : Word := bs.foldl crcStep a

/-- `crc32(s)` (R203). -/
def crc32 (bs : List Byte) : Word := crcLoop crcInit bs ^^^ crcXorOut

/-- CRC.INIT (R205). -/
def execCrcInit (s : State) : Result := .next { s with crcAcc := some crcInit }.done

/-- CRC.BYTE b (R206). -/
def execCrcByte (b : Byte) (s : State) : Result :=
  s.complete do
    let acc ← written s.crcAcc
    return { s with crcAcc := some (crcStep acc b) }.done

/-- CRC.RANGE (R207): every check comes before `crc.acc` changes. -/
def execCrcRange (s : State) : Result :=
  s.complete do
    let p ← s.argPair
    let acc ← written s.crcAcc
    let bs ← s.argBytes p
    return { s with crcAcc := some (crcLoop acc bs) }.done

/-- CRC.FINAL (R208): the accumulator is kept. -/
def execCrcFinal (s : State) : Result :=
  s.complete do
    let acc ← written s.crcAcc
    return (s.setRes 0 (acc ^^^ crcXorOut)).done

/-- CRC.COMPUTE (R209): the previous accumulator is irrelevant. -/
def execCrcCompute (s : State) : Result :=
  s.complete do
    let p ← s.argPair
    let bs ← s.argBytes p
    let acc := crcLoop crcInit bs
    return ({ s with crcAcc := some acc }.setRes 0 (acc ^^^ crcXorOut)).done

end Sys2Proof.Machine
end

