-- ==== Sys2Proof/Machine/Ecc.lean ====
section
/-! DEFINITION. The ECC encoder for NAND data (43_ecc.md). -/

namespace Sys2Proof.Machine

/-- `P_ECC_DATA_BYTES` (00_scope.md R9). -/
def eccDataBytes : Nat := 512

/-- `P_ECC_CODE_BYTES`. -/
def eccCodeBytes : Nat := 4

/-- The accumulator `a[3 + j][v]` over the bytes from index i on: the exclusive-or of the bytes whose
index has v as its bit j (R362). -/
def rowAccFrom (j : Nat) (v : Bool) : Nat → List Byte → Byte
  | _, [] => 0#8
  | i, b :: bs => (if i.testBit j = v then b else 0#8) ^^^ rowAccFrom j v (i + 1) bs

/-- The row accumulator `a[3 + j][v]` of a block (R362). -/
def rowAcc (d : List Byte) (j : Nat) (v : Bool) : Byte := rowAccFrom j v 0 d

/-- The top-level value `x = a[3][0] ^ a[3][1]` (R363). -/
def eccTop (d : List Byte) : Byte := rowAcc d 0 false ^^^ rowAcc d 0 true

/-- The column masks of R363: even (false) and odd (true) of pairs 0, 1, 2. -/
def columnMask : Nat → Bool → Byte
  | 0, false => 0x55#8
  | 0, true => 0xAA#8
  | 1, false => 0x33#8
  | 1, true => 0xCC#8
  | 2, false => 0x0F#8
  | 2, true => 0xF0#8
  | _, _ => 0x00#8

/-- The accumulator `a[k][v]`, v = false the "even" one and true the "odd" one (R361-R363). -/
def eccAcc (d : List Byte) (k : Nat) (v : Bool) : Byte :=
  if k < 3 then eccTop d &&& columnMask k v else rowAcc d (k - 3) v

/-- `parity(x)`: the exclusive-or of the bits (00_scope.md R15). -/
def parity (x : Byte) : Bool := (List.range 8).foldl (fun p i => p ^^ x.getLsbD i) false

/-- The word of the twelve parities of one kind, pair k in bit k (R364, R365). -/
def eccWord (d : List Byte) (v : Bool) : Half :=
  (List.range 12).foldl (fun w k => w ||| (if parity (eccAcc d k v) then 1#16 <<< k else 0#16)) 0#16

/-- `calc_ecc` (R360, R365): `[E & 0xFF, E >> 8, O & 0xFF, O >> 8]`. -/
def calcEcc (d : List Byte) : List Byte :=
  toLE 2 (eccWord d false).toNat ++ toLE 2 (eccWord d true).toNat

/-- ECC.CALC (R367): ranges, admission of both, coherence of the data; all data is read before the code
is stored, in the host view. -/
def execEccCalc (s : State) : Result :=
  s.complete do
    let (src, dst) ← s.argPair
    require (rangeOk src eccDataBytes) .rangeWrap
    require (rangeOk dst eccCodeBytes) .rangeWrap
    let d ← s.fetch src eccDataBytes
    let _ ← s.fetch dst eccCodeBytes
    require (!addrTouches src eccDataBytes s.coh.devDirty) .coherence
    return (s.storeHost dst (calcEcc d)).done

end Sys2Proof.Machine
end

