-- ==== Sys2Proof/Syntax.lean ====
section
/-! DEFINITION. The two instruction sets of the block: the 25 command words (30_encoding.md R128) and
the 7 EEPROM wire frames (R141-R144), one constructor per row of spec/opcode_table.json. -/

namespace Sys2Proof

/-- An instruction: a command word's row or a wire frame's row, with its operands. -/
inductive Instr where
  /-- SYS.NOP (20_memory.md R102). -/
  | sysNop
  /-- SYS.FLUSH (R98). -/
  | sysFlush
  /-- SYS.INVAL (R99). -/
  | sysInval
  /-- CRC.INIT (40_crc.md R205). -/
  | crcInit
  /-- CRC.BYTE b (R206). -/
  | crcByte (b : Byte)
  /-- CRC.RANGE (R207). -/
  | crcRange
  /-- CRC.FINAL (R208). -/
  | crcFinal
  /-- CRC.COMPUTE (R209). -/
  | crcCompute
  /-- AES.RESET (41_aes_cbc.md R250). -/
  | aesReset
  /-- AES.SETKEY (R251). -/
  | aesSetkey
  /-- AES.SETIV (R252). -/
  | aesSetiv
  /-- AES.CLRIV (R253). -/
  | aesClriv
  /-- AES.ENC n, keep_iv (R254); n is the number of blocks, 1 to 128. -/
  | aesEnc (n : Nat) (keep : Bool)
  /-- AES.DEC n, keep_iv (R255). -/
  | aesDec (n : Nat) (keep : Bool)
  /-- EEP.SET CS (42_eeprom.md R300). -/
  | eepSetCs
  /-- EEP.SET SK (R300). -/
  | eepSetSk
  /-- EEP.SET DI (R300). -/
  | eepSetDi
  /-- EEP.CLR CS (R301). -/
  | eepClrCs
  /-- EEP.CLR SK (R301). -/
  | eepClrSk
  /-- EEP.CLR DI (R301). -/
  | eepClrDi
  /-- EEP.IN (R302). -/
  | eepIn
  /-- EEP.DELAY (R303). -/
  | eepDelay
  /-- ECC.CALC (43_ecc.md R367). -/
  | eccCalc
  /-- CTR.PARSE (44_container.md R400). -/
  | ctrParse
  /-- CTR.VERIFY (R401). -/
  | ctrVerify
  /-- EEP.FRAME.READ, `110aaaaaaaa` (30_encoding.md R141, 42_eeprom.md R324). -/
  | frameRead (a : Byte)
  /-- EEP.FRAME.EWEN, `10011xxxxxx` (R142, R326). -/
  | frameEwen (x : BitVec 6)
  /-- EEP.FRAME.EWDS, `10000xxxxxx` (R142, R326). -/
  | frameEwds (x : BitVec 6)
  /-- EEP.FRAME.WRITE, `101aaaaaaaadddddddddddddddd` (R143, R327). -/
  | frameWrite (a : Byte) (d : Half)
  /-- EEP.FRAME.RESERVED_11, `111aaaaaaaa` (R144, R324). -/
  | frameReserved11 (a : Byte)
  /-- EEP.FRAME.RESERVED_00_01, `10001xxxxxx` (R144, R324). -/
  | frameReserved0001 (x : BitVec 6)
  /-- EEP.FRAME.RESERVED_00_10, `10010xxxxxx` (R144, R324). -/
  | frameReserved0010 (x : BitVec 6)
  deriving DecidableEq, Repr

end Sys2Proof
end

