-- ==== Sys2Proof/WellFormed.lean ====
section
/-! DEFINITION. What an instruction must meet to have an encoding. Every operand but the block count is
of exactly its field's width; the block count is 1 to 128 (41_aes_cbc.md R240, 30_encoding.md R124). -/

namespace Sys2Proof

/-- A block count that the field `NM1` can encode: "A count of 0 or above 128 cannot be encoded"
(41_aes_cbc.md R254). -/
def blockCountOk (n : Nat) : Bool := decide (1 ≤ n) && decide (n ≤ 128)

/-- The instructions that have an encoding. -/
def Instr.wellFormed : Instr → Bool
  | .aesEnc n _ => blockCountOk n
  | .aesDec n _ => blockCountOk n
  | .sysNop | .sysFlush | .sysInval | .crcInit | .crcByte _ | .crcRange | .crcFinal | .crcCompute
  | .aesReset | .aesSetkey | .aesSetiv | .aesClriv | .eepSetCs | .eepSetSk | .eepSetDi
  | .eepClrCs | .eepClrSk | .eepClrDi | .eepIn | .eepDelay | .eccCalc | .ctrParse | .ctrVerify
  | .frameRead _ | .frameEwen _ | .frameEwds _ | .frameWrite _ _ | .frameReserved11 _
  | .frameReserved0001 _ | .frameReserved0010 _ => true

/-- The instruction is well formed. -/
abbrev Instr.WellFormed (i : Instr) : Prop := i.wellFormed = true

end Sys2Proof
end

