-- ==== Sys2Proof/Decode.lean ====
section
/-! DEFINITION. Decoding and encoding: command words by the mask table of 30_encoding.md R122 and R128,
EEPROM frames by their bits (R140-R145), most significant bit first. -/

namespace Sys2Proof

/-! ## Bits on the wire -/

/-- The `n` least significant bits of `v`, most significant first (20_memory.md R87). -/
def valBits : Nat → Nat → List Bool
  | 0, _ => []
  | n + 1, v => v.testBit n :: valBits n v

/-- The number a bit string stands for, its first bit the most significant. -/
def bitsVal (bits : List Bool) : Nat := bits.foldl (fun v b => 2 * v + b.toNat) 0

/-- A bit string read as an n-bit vector, first bit most significant. -/
def bitsVec (n : Nat) (bits : List Bool) : BitVec n := BitVec.ofNat n (bitsVal bits)

/-! ## Why a code is refused -/

/-- The names under which the decoder refuses a code: the classes of reserved command words of R127
and the bit strings that are no frame of R140-R145. -/
inductive Reject where
  /-- `UNIT` 6 to 15. -/
  | reservedUnit
  /-- An `OP` that the unit does not define. -/
  | reservedOp
  /-- Line value 3 of EEP.SET or EEP.CLR. -/
  | reservedLine
  /-- A non-zero bit in an `IMM` position that the command does not define. -/
  | reservedImm
  /-- A bit string that does not begin with the start bit 1. -/
  | noStartBit
  /-- A bit string whose length is not the one its first three bits call for (R145). -/
  | frameLength
  deriving DecidableEq, Repr

/-! ## Command words -/

/-- One row of the opcode map (R128): a word w selects it when `w & mask = value` (R122). -/
structure Row where
  value : Word
  mask : Word
  /-- The instruction, with its operands taken from the word (R123, R124). -/
  build : Word → Instr

/-- The byte operand `B` = w[7:0] of CRC.BYTE. -/
def fieldB (w : Word) : Byte := w.extractLsb' 0 8

/-- The block count `zext_32(w[6:0]) + 1` of AES.ENC and AES.DEC (R124). -/
def fieldN (w : Word) : Nat := (w.extractLsb' 0 7).toNat + 1

/-- The flag `K` = w[12]. -/
def fieldK (w : Word) : Bool := w.getLsbD 12

/-- The rows of the SYS and CRC units (R128). -/
def rowsSysCrc : List Row :=
  [ ⟨0x00000000#32, 0xFFFFFFFF#32, fun _ => .sysNop⟩,
    ⟨0x01000000#32, 0xFFFFFFFF#32, fun _ => .sysFlush⟩,
    ⟨0x02000000#32, 0xFFFFFFFF#32, fun _ => .sysInval⟩,
    ⟨0x10000000#32, 0xFFFFFFFF#32, fun _ => .crcInit⟩,
    ⟨0x11000000#32, 0xFFFFFF00#32, fun w => .crcByte (fieldB w)⟩,
    ⟨0x12000000#32, 0xFFFFFFFF#32, fun _ => .crcRange⟩,
    ⟨0x13000000#32, 0xFFFFFFFF#32, fun _ => .crcFinal⟩,
    ⟨0x14000000#32, 0xFFFFFFFF#32, fun _ => .crcCompute⟩ ]

/-- The rows of the AES unit (R128). -/
def rowsAes : List Row :=
  [ ⟨0x20000000#32, 0xFFFFFFFF#32, fun _ => .aesReset⟩,
    ⟨0x21000000#32, 0xFFFFFFFF#32, fun _ => .aesSetkey⟩,
    ⟨0x22000000#32, 0xFFFFFFFF#32, fun _ => .aesSetiv⟩,
    ⟨0x23000000#32, 0xFFFFFFFF#32, fun _ => .aesClriv⟩,
    ⟨0x24000000#32, 0xFFFFEF80#32, fun w => .aesEnc (fieldN w) (fieldK w)⟩,
    ⟨0x25000000#32, 0xFFFFEF80#32, fun w => .aesDec (fieldN w) (fieldK w)⟩ ]

/-- The rows of the EEP, ECC and CTR units (R128). -/
def rowsEepEccCtr : List Row :=
  [ ⟨0x30000000#32, 0xFFFFFFFF#32, fun _ => .eepSetCs⟩,
    ⟨0x30000001#32, 0xFFFFFFFF#32, fun _ => .eepSetSk⟩,
    ⟨0x30000002#32, 0xFFFFFFFF#32, fun _ => .eepSetDi⟩,
    ⟨0x31000000#32, 0xFFFFFFFF#32, fun _ => .eepClrCs⟩,
    ⟨0x31000001#32, 0xFFFFFFFF#32, fun _ => .eepClrSk⟩,
    ⟨0x31000002#32, 0xFFFFFFFF#32, fun _ => .eepClrDi⟩,
    ⟨0x32000000#32, 0xFFFFFFFF#32, fun _ => .eepIn⟩,
    ⟨0x33000000#32, 0xFFFFFFFF#32, fun _ => .eepDelay⟩,
    ⟨0x40000000#32, 0xFFFFFFFF#32, fun _ => .eccCalc⟩,
    ⟨0x50000000#32, 0xFFFFFFFF#32, fun _ => .ctrParse⟩,
    ⟨0x51000000#32, 0xFFFFFFFF#32, fun _ => .ctrVerify⟩ ]

/-- The opcode map (R128). -/
def opcodeMap : List Row := rowsSysCrc ++ rowsAes ++ rowsEepEccCtr

/-- The word selects the row (R122). -/
def Row.selects (r : Row) (w : Word) : Bool := w &&& r.mask == r.value

/-- How many operations each unit defines: `OP` 0 up to, not including, this number (R128). -/
def opCount : Nat → Nat
  | 0 => 3
  | 1 => 5
  | 2 => 6
  | 3 => 4
  | 4 => 1
  | 5 => 2
  | _ => 0

/-- The class of R127 that a word matching no row belongs to. -/
def rejectReason (w : Word) : Reject :=
  let unit := (w.extractLsb' 28 4).toNat
  let op := (w.extractLsb' 24 4).toNat
  let imm := (w.extractLsb' 0 24).toNat
  if 6 ≤ unit then .reservedUnit
  else if opCount unit ≤ op then .reservedOp
  else if unit = 3 ∧ op ≤ 1 ∧ imm = 3 then .reservedLine
  else .reservedImm

/-- Decode a command word (R122). The rows are disjoint, so at most one row is selected. -/
def decodeWord (w : Word) : Except Reject Instr :=
  match opcodeMap.find? (fun r => r.selects w) with
  | some r => .ok (r.build w)
  | none => .error (rejectReason w)

/-! ## EEPROM wire frames -/

/-- How many bits a frame has, told from its opcode (R145): 27 for opcode 0b01, else 11. -/
def frameBits (op1 op0 : Bool) : Nat := if op1 = false ∧ op0 = true then 27 else 11

/-- The 11-bit frames of opcode 0b00, told apart by address bits [7:6] (R142, R144). -/
def decodeOp00 (a7 a6 : Bool) (low : List Bool) : Instr :=
  match a7, a6 with
  | true, true => .frameEwen (bitsVec 6 low)
  | false, false => .frameEwds (bitsVec 6 low)
  | false, true => .frameReserved0001 (bitsVec 6 low)
  | true, false => .frameReserved0010 (bitsVec 6 low)

/-- Decode a frame from its bits, first bit first (R140-R145). -/
def decodeFrame (bits : List Bool) : Except Reject Instr :=
  match bits with
  | true :: op1 :: op0 :: rest =>
    if rest.length + 3 = frameBits op1 op0 then
      match op1, op0, rest with
      | true, false, a => .ok (.frameRead (bitsVec 8 a))
      | true, true, a => .ok (.frameReserved11 (bitsVec 8 a))
      | false, true, ad => .ok (.frameWrite (bitsVec 8 (ad.take 8)) (bitsVec 16 (ad.drop 8)))
      | false, false, a7 :: a6 :: low => .ok (decodeOp00 a7 a6 low)
      | false, false, _ => .error .frameLength
    else .error .frameLength
  | true :: _ => .error .frameLength
  | _ => .error .noStartBit

/-! ## Encoding -/

/-- The code of an instruction: a command word, or the bits of a wire frame, first bit first. -/
inductive Code where
  | word (w : Word)
  | frame (bits : List Bool)
  deriving DecidableEq, Repr

/-- Decode any code. -/
def decode : Code → Except Reject Instr
  | .word w => decodeWord w
  | .frame bits => decodeFrame bits

/-- The immediate of AES.ENC and AES.DEC: `(K << 12) | (n - 1)` (41_aes_cbc.md R254). -/
def blocksImm (n : Nat) (keep : Bool) : Word :=
  (if keep then 0x1000#32 else 0#32) ||| BitVec.ofNat 32 (n - 1)

/-- The bits of an 11-bit frame with the given opcode bits and low 8 bits. -/
def frame11 (op1 op0 : Bool) (a : Byte) : Code := .frame (true :: op1 :: op0 :: valBits 8 a.toNat)

/-- The bits of an 11-bit frame of opcode 0b00 with the given address bits [7:6] and [5:0]. -/
def frame00 (a7 a6 : Bool) (x : BitVec 6) : Code :=
  .frame (true :: false :: false :: a7 :: a6 :: valBits 6 x.toNat)

/-- The code of a well-formed instruction (R128, R140-R144). -/
def encode : Instr → Code
  | .sysNop => .word 0x00000000#32
  | .sysFlush => .word 0x01000000#32
  | .sysInval => .word 0x02000000#32
  | .crcInit => .word 0x10000000#32
  | .crcByte b => .word (0x11000000#32 ||| b.setWidth 32)
  | .crcRange => .word 0x12000000#32
  | .crcFinal => .word 0x13000000#32
  | .crcCompute => .word 0x14000000#32
  | .aesReset => .word 0x20000000#32
  | .aesSetkey => .word 0x21000000#32
  | .aesSetiv => .word 0x22000000#32
  | .aesClriv => .word 0x23000000#32
  | .aesEnc n k => .word (0x24000000#32 ||| blocksImm n k)
  | .aesDec n k => .word (0x25000000#32 ||| blocksImm n k)
  | .eepSetCs => .word 0x30000000#32
  | .eepSetSk => .word 0x30000001#32
  | .eepSetDi => .word 0x30000002#32
  | .eepClrCs => .word 0x31000000#32
  | .eepClrSk => .word 0x31000001#32
  | .eepClrDi => .word 0x31000002#32
  | .eepIn => .word 0x32000000#32
  | .eepDelay => .word 0x33000000#32
  | .eccCalc => .word 0x40000000#32
  | .ctrParse => .word 0x50000000#32
  | .ctrVerify => .word 0x51000000#32
  | .frameRead a => frame11 true false a
  | .frameEwen x => frame00 true true x
  | .frameEwds x => frame00 false false x
  | .frameWrite a d => .frame (true :: false :: true :: (valBits 8 a.toNat ++ valBits 16 d.toNat))
  | .frameReserved11 a => frame11 true true a
  | .frameReserved0001 x => frame00 false true x
  | .frameReserved0010 x => frame00 true false x

/-- The command word of an instruction that has one; a frame has none (the word of SYS.NOP). -/
def encodeWord (i : Instr) : Word :=
  match encode i with
  | .word w => w
  | .frame _ => 0#32

/-! ## A row of the opcode table, given as a number -/

/-- The code whose bits the opcode table numbers by w. Rows of format CMD32 have 32 bits, rows of
format EEPROM_FRAME11 11 bits, rows of format EEPROM_FRAME27 27 bits; in whole bytes 32, 16 and 32. A
32-bit number that is no command word but has the shape of a 27-bit WRITE frame (bits [31:24] = 0b101,
as a command word SYS operation 5, which R127 reserves) is that frame. -/
def tableCode (nbits w : Nat) : Code :=
  if nbits ≤ 16 then .frame (valBits (if w < 2048 then 11 else 16) w)
  else if nbits < 32 then .frame (valBits 27 w)
  else if w / 0x1000000 = 5 then .frame (valBits 27 w)
  else .word (BitVec.ofNat 32 w)

/-- What the decoder reads from the bits of an opcode-table row. -/
def decodeTableWord (nbits w : Nat) : Option Instr := (decode (tableCode nbits w)).toOption

end Sys2Proof
end

