-- ==== Sys2Proof/Machine/Eeprom.lean ====
section
/-! DEFINITION. The EEPROM device (42_eeprom.md R320-R333), the signal-level commands (R300-R303), and the
wire frames as the device executes them (R324-R327). -/

namespace Sys2Proof.Machine

/-! ## The device's reaction to a complete frame -/

/-- READ (R324): the word's bits are ready to be shifted out, D15 first, behind a dummy 0. -/
def Device.onRead (d : Device) (a : Byte) : Device :=
  { d with mode := .out, dout := .zero, out := valBits 16 (d.array[a.toNat]'a.isLt).toNat }

/-- EWEN (R326). -/
def Device.onEwen (d : Device) : Device := { d with wel := true, mode := .idle }

/-- EWDS (R326). -/
def Device.onEwds (d : Device) : Device := { d with wel := false, mode := .idle }

/-- WRITE (R327): armed if the write-enable latch is set, else ignored. -/
def Device.onWrite (d : Device) (a : Byte) (v : Half) : Device :=
  { d with armed := if d.wel then some (a, v) else d.armed, mode := .idle }

/-- A reserved frame raises `Fault(EepProtocol)` (R324, 30_encoding.md R144). -/
def Device.onReserved : Except Halt Device := .error (.raise .eepProtocol)

/-- The device's reaction to a decoded frame; a command word is no frame. -/
def Device.react (d : Device) : Instr → Except Halt Device
  | .frameRead a => .ok (d.onRead a)
  | .frameEwen _ => .ok d.onEwen
  | .frameEwds _ => .ok d.onEwds
  | .frameWrite a v => .ok (d.onWrite a v)
  | .frameReserved11 _ => Device.onReserved
  | .frameReserved0001 _ => Device.onReserved
  | .frameReserved0010 _ => Device.onReserved
  | .sysNop | .sysFlush | .sysInval | .crcInit | .crcByte _ | .crcRange | .crcFinal | .crcCompute
  | .aesReset | .aesSetkey | .aesSetiv | .aesClriv | .aesEnc _ _ | .aesDec _ _
  | .eepSetCs | .eepSetSk | .eepSetDi | .eepClrCs | .eepClrSk | .eepClrDi | .eepIn | .eepDelay
  | .eccCalc | .ctrParse | .ctrVerify => .ok d

/-! ## The device's reactions to edges -/

/-- What `dev.do` shows in STATUS mode: 0 = busy, 1 = ready (R321). -/
def readyLine (busy : Bool) : DataOut := if busy then .zero else .one

/-- `dev_cs_rise()` (R321). -/
def Device.csRise (d : Device) : Device :=
  if d.statusPending || d.busy then { d with mode := .status, dout := readyLine d.busy }
  else { d with mode := .recv, shift := [], out := [], dout := .z }

/-- `dev_cs_fall()` (R328). -/
def Device.csFall (d : Device) : Device :=
  let pending := if d.mode = .status then false else d.statusPending
  match d.armed with
  | some w =>
    { d with
      busy := true, prog := some w, armed := none, statusPending := true
      mode := .idle, shift := [], out := [], dout := .z }
  | none => { d with statusPending := pending, mode := .idle, shift := [], out := [], dout := .z }

/-- The frame is complete: 11 bits with an opcode other than 0b01, or 27 bits (R322). -/
def frameComplete (bits : List Bool) : Bool :=
  (bits.length == 11 && !(bits.getD 1 false == false && bits.getD 2 false == true)) || bits.length == 27

/-- A clock rise in RECV mode samples bit b (R322, R323): a 0 before the start bit is skipped; a complete
frame is decoded and executed. -/
def Device.skRecv (d : Device) (b : Bool) : Except Halt Device :=
  if d.shift.isEmpty && !b then .ok d
  else
    let bits := d.shift ++ [b]
    let d' := { d with shift := bits }
    if frameComplete bits then
      match decodeFrame bits with
      | .ok i => d'.react i
      | .error _ => .ok d'
    else .ok d'

/-- A clock rise in OUT mode shows the next data bit, `Z` past the last one (R325). -/
def Device.skOut (d : Device) : Device :=
  match d.out with
  | b :: rest => { d with dout := if b then .one else .zero, out := rest }
  | [] => { d with dout := .z }

/-- The device's part in a change of the clock line, by its mode; `rise` says that the clock rose while
chip-select was 1. A rise is `dev_sk_rise()` with the given value on `gpio.di` (R322, R325, R330), anything
else makes no reaction (R332, R333). -/
def Device.skEdge (d : Device) (rise di : Bool) : Except Halt Device :=
  match d.mode with
  | .idle => .ok d
  | .recv => if rise then d.skRecv di else .ok d
  | .out => .ok (if rise then d.skOut else d)
  | .status => if rise && di then .error (.raise .eepProtocol) else .ok d

/-- `dev_complete` (R331): the word being programmed becomes durable. -/
def Device.complete (d : Device) : Device :=
  let words :=
    match d.prog with
    | some (a, v) => d.array.set a.toNat v a.isLt
    | none => d.array
  { d with
    array := words, busy := false, prog := none
    dout := if d.mode = .status then .one else d.dout }

/-! ## Signal-level commands (R300-R303) -/

/-- EEP.SET CS (R300). -/
def execEepSetCs (s : State) : Result :=
  let dev := if s.gpio.cs then s.dev else s.dev.csRise
  .next { s.setLine .cs true with dev := dev }.done

/-- EEP.SET SK (R300): a rise of the clock while chip-select is 1 makes the device react. -/
def execEepSetSk (s : State) : Result :=
  s.complete do
    let dev ← s.dev.skEdge (!s.gpio.sk && s.gpio.cs) s.gpio.di
    return { s.setLine .sk true with dev := dev }.done

/-- EEP.SET DI (R300): the device does not react. -/
def execEepSetDi (s : State) : Result := .next (s.setLine .di true).done

/-- EEP.CLR CS (R301). -/
def execEepClrCs (s : State) : Result :=
  let dev := if s.gpio.cs then s.dev.csFall else s.dev
  .next { s.setLine .cs false with dev := dev }.done

/-- EEP.CLR SK (R301, R333): the device does not react to a falling clock. -/
def execEepClrSk (s : State) : Result := .next (s.setLine .sk false).done

/-- EEP.CLR DI (R301). -/
def execEepClrDi (s : State) : Result := .next (s.setLine .di false).done

/-- The bit that EEP.IN samples, and the state after sampling: an undriven line gives a draw (R302). -/
def State.sample (s : State) : Word × State :=
  match s.dev.dout with
  | .zero => (0#32, s)
  | .one => (1#32, s)
  | .z => ((if Config.drawBit s.draws then 1#32 else 0#32), s.draw.2)

/-- EEP.IN (R302). -/
def execEepIn (s : State) : Result := .next (s.sample.2.setRes 0 s.sample.1).done

/-- EEP.DELAY (R303): no architectural effect. -/
def execEepDelay (s : State) : Result := .next s.done

/-! ## Wire frames -/

/-- n clock rises in OUT mode. -/
def Device.skOutN (d : Device) : Nat → Device
  | 0 => d
  | n + 1 => Device.skOutN d.skOut n

/-- The outcome of an n-bit frame sent to the device, where a device in RECV mode that has received the
whole frame makes the given reaction (R322). With chip-select 0, or in IDLE mode, the clock rises are
ignored (R332); in STATUS mode the frame's start bit 1 raises `Fault(EepProtocol)` (R330); in OUT mode each
of its n clock rises shows a data bit (R325). Log entry 10. -/
def State.frameOutcome (s : State) (n : Nat) (reaction : Except Halt Device) : Result :=
  if s.gpio.cs then
    match s.dev.mode with
    | .recv => s.complete (reaction.map (fun d => { s with dev := d }))
    | .status => s.complete (.error (.raise .eepProtocol))
    | .out => .next { s with dev := s.dev.skOutN n }
    | .idle => .next s
  else .next s

/-- EEP.FRAME.READ (R324). -/
def execFrameRead (a : Byte) (s : State) : Result := s.frameOutcome 11 (.ok (s.dev.onRead a))

/-- EEP.FRAME.EWEN (R326): the low six address bits are ignored. -/
def execFrameEwen (_x : BitVec 6) (s : State) : Result := s.frameOutcome 11 (.ok s.dev.onEwen)

/-- EEP.FRAME.EWDS (R326): the low six address bits are ignored. -/
def execFrameEwds (_x : BitVec 6) (s : State) : Result := s.frameOutcome 11 (.ok s.dev.onEwds)

/-- EEP.FRAME.WRITE (R327). -/
def execFrameWrite (a : Byte) (v : Half) (s : State) : Result :=
  s.frameOutcome 27 (.ok (s.dev.onWrite a v))

/-- EEP.FRAME.RESERVED_11 (R324, 30_encoding.md R144): raises `Fault(EepProtocol)`. -/
def execFrameReserved11 (_a : Byte) (s : State) : Result := s.frameOutcome 11 Device.onReserved

/-- EEP.FRAME.RESERVED_00_01 (R324, 30_encoding.md R144): raises `Fault(EepProtocol)`. -/
def execFrameReserved0001 (_x : BitVec 6) (s : State) : Result := s.frameOutcome 11 Device.onReserved

/-- EEP.FRAME.RESERVED_00_10 (R324, 30_encoding.md R144): raises `Fault(EepProtocol)`. -/
def execFrameReserved0010 (_x : BitVec 6) (s : State) : Result := s.frameOutcome 11 Device.onReserved

end Sys2Proof.Machine
end

