-- ==== Sys2Proof/Machine/System.lean ====
section
/-! DEFINITION. The SYS unit: SYS.NOP and the two coherence commands (20_memory.md R98, R99, R102). -/

namespace Sys2Proof.Machine

/-- SYS.NOP (R102). -/
def execSysNop (s : State) : Result := .next s.done

/-- SYS.FLUSH (R98): the range leaves `coh.hostDirty`. No byte is accessed, so admission is not
checked. -/
def execSysFlush (s : State) : Result :=
  s.complete do
    let (a, n) ← s.argPair
    require (rangeOk a n) .rangeWrap
    return { s with coh := { s.coh with hostDirty := addrRemoveRange a n s.coh.hostDirty } }.done

/-- SYS.INVAL (R99): the range leaves `coh.devDirty`; it may hold no host-dirty byte. -/
def execSysInval (s : State) : Result :=
  s.complete do
    let (a, n) ← s.argPair
    require (rangeOk a n) .rangeWrap
    require (!addrTouches a n s.coh.hostDirty) .coherence
    return { s with coh := { s.coh with devDirty := addrRemoveRange a n s.coh.devDirty } }.done

end Sys2Proof.Machine
end

