-- ==== Sys2Proof/Machine/Dispatch.lean ====
section
/-! DEFINITION. One arm per instruction: which meaning it has. -/

namespace Sys2Proof.Machine

def exec (i : Instr) (s : State) : Host.Outcome State Fault Refusal :=
  match i with
  | .sysNop => Sys2Proof.Machine.execSysNop s
  | .sysFlush => Sys2Proof.Machine.execSysFlush s
  | .sysInval => Sys2Proof.Machine.execSysInval s
  | .crcInit => Sys2Proof.Machine.execCrcInit s
  | .crcByte b => Sys2Proof.Machine.execCrcByte b s
  | .crcRange => Sys2Proof.Machine.execCrcRange s
  | .crcFinal => Sys2Proof.Machine.execCrcFinal s
  | .crcCompute => Sys2Proof.Machine.execCrcCompute s
  | .aesReset => Sys2Proof.Machine.execAesReset s
  | .aesSetkey => Sys2Proof.Machine.execAesSetkey s
  | .aesSetiv => Sys2Proof.Machine.execAesSetiv s
  | .aesClriv => Sys2Proof.Machine.execAesClriv s
  | .aesEnc n keep => Sys2Proof.Machine.execAesEnc n keep s
  | .aesDec n keep => Sys2Proof.Machine.execAesDec n keep s
  | .eepSetCs => Sys2Proof.Machine.execEepSetCs s
  | .eepSetSk => Sys2Proof.Machine.execEepSetSk s
  | .eepSetDi => Sys2Proof.Machine.execEepSetDi s
  | .eepClrCs => Sys2Proof.Machine.execEepClrCs s
  | .eepClrSk => Sys2Proof.Machine.execEepClrSk s
  | .eepClrDi => Sys2Proof.Machine.execEepClrDi s
  | .eepIn => Sys2Proof.Machine.execEepIn s
  | .eepDelay => Sys2Proof.Machine.execEepDelay s
  | .eccCalc => Sys2Proof.Machine.execEccCalc s
  | .ctrParse => Sys2Proof.Machine.execCtrParse s
  | .ctrVerify => Sys2Proof.Machine.execCtrVerify s
  | .frameRead a => Sys2Proof.Machine.execFrameRead a s
  | .frameEwen x => Sys2Proof.Machine.execFrameEwen x s
  | .frameEwds x => Sys2Proof.Machine.execFrameEwds x s
  | .frameWrite a d => Sys2Proof.Machine.execFrameWrite a d s
  | .frameReserved11 a => Sys2Proof.Machine.execFrameReserved11 a s
  | .frameReserved0001 x => Sys2Proof.Machine.execFrameReserved0001 x s
  | .frameReserved0010 x => Sys2Proof.Machine.execFrameReserved0010 x s

end Sys2Proof.Machine
end

