-- ==== Sys2Proof/Machine/Nand.lean ====
section
/-! DEFINITION. The external NAND, as far as its contract fixes it (45_host_protocols.md R470): "A
`HST.NAND_READ` that returns OK after a `HST.NAND_WRITE` of data that returned OK for the same page, with no
erase or write of that block in between, delivers the written data. Any other OK read delivers some
bytes." -/

namespace Sys2Proof.Machine

/-- `P_PAGE_SIZE` (00_scope.md R9). -/
def pageSize : Nat := 2048

/-- The block's place in the order of all NAND blocks: bank, then index. -/
def NandBlock.key (b : NandBlock) : Nat := b.bank.toNat * 4096 + b.index.toNat

/-- The pages known without those of a block: an erase or a write of the block, or its interruption,
leaves nothing fixed about it. -/
def nandForget (b : NandBlock) (pages : List NandPage) : List NandPage :=
  pages.filter (fun p => !(p.block == b))

/-- The order of the pages known: by block, then by page. -/
abbrev NandPage.before (p q : NandPage) : Prop :=
  p.block.key < q.block.key ∨ (p.block.key = q.block.key ∧ p.page < q.page)

/-- The pages known with one more, in their order; it takes the place of the same page. -/
def nandLearn (p : NandPage) : List NandPage → List NandPage
  | [] => [p]
  | q :: rest =>
    if p.before q then p :: q :: rest
    else if q.before p then q :: nandLearn p rest
    else p :: rest

/-- The data the contract fixes for a page. -/
def nandKnown (b : NandBlock) (page : Nat) (pages : List NandPage) : Option (List Byte) :=
  (pages.find? (fun p => p.block == b && p.page == page)).map (fun p => p.data)

/-- A page's worth of bytes chosen by the environment. -/
def pageOf (bytes : List Byte) : List Byte := (List.range pageSize).map (fun i => bytes.getD i 0#8)

/-- `NAND_INIT` (00_scope.md R9) as the pages known at launch, each of 2048 bytes: the first of two entries
for one page counts, and a page index that no block has is none (log entry 15). -/
def nandOfPages (par : Params) (pages : List NandPage) : List NandPage :=
  pages.foldr
    (fun p known =>
      if p.page < par.pagesPerBlock then nandLearn { p with data := pageOf p.data } known else known) []

/-- The result of an erase or a write. -/
def nandResult (ok : Bool) : NandResult := if ok then .ok else .ioFail

/-- `HST.NAND_ERASE`. -/
def State.nandErase (s : State) (b : NandBlock) (ok : Bool) : Except Halt State :=
  .ok { s with nand := nandForget b s.nand, reply := .nand (nandResult ok) }

/-- Read an optional buffer of n bytes in the host view. -/
def State.optRead (s : State) (addr : Option Nat) (n : Nat) : Except Halt (Option (List Byte)) :=
  match addr with
  | some a => (s.hostRead a n).map some
  | none => .ok none

/-- `HST.NAND_WRITE`: data and spare are read in the host view. R470 gives the two reads no order and does not
say whether a call that fails makes them; the model reads the data buffer first, with all its checks, then the
spare buffer, and makes both reads whatever the result: DESIGN CHOICE, log entry 23. -/
def State.nandWrite (s : State) (b : NandBlock) (page : Nat) (data spare : Option Nat) (ok : Bool) :
    Except Halt State := do
  let bytes ← s.optRead data pageSize
  let _ ← s.optRead spare s.par.spareSize
  let rest := nandForget b s.nand
  let pages :=
    match bytes with
    | some bs => if ok then nandLearn { block := b, page := page, data := bs } rest else rest
    | none => rest
  return { s with nand := pages, reply := .nand (nandResult ok) }

/-- `HST.NAND_READ`: an OK read stores the page's data, or, where the contract fixes none, bytes of the
environment's choice, in the host view; another result delivers nothing (log entry 15). -/
def State.nandRead (s : State) (b : NandBlock) (page : Nat) (dst : Nat) (r : NandResult)
    (bytes : List Byte) : Except Halt State := do
  let t ←
    match r with
    | .ok => s.hostWrite dst ((nandKnown b page s.nand).getD (pageOf bytes))
    | .eccUncorrectable | .ioFail => .ok s
  return { t with reply := .nand r }

end Sys2Proof.Machine
end

