-- ==== Sys2Proof/Machine/Agents.lean ====
section
/-! DEFINITION. The steps of the three agents: the host's actions (20_memory.md R100), the EEPROM device's
own step (42_eeprom.md R331) and the environment's (45_host_protocols.md R472, R480). -/

namespace Sys2Proof.Machine

/-! ## The command port (10_state.md R30-R38) -/

/-- Issue a command word (R38): decode it; a reserved word raises `Fault(IllegalCommand)`
(30_encoding.md R127); else run the command. -/
def issue (w : Word) (s : State) : Result :=
  match decodeWord w with
  | .ok i => exec i s
  | .error _ => .next (s.raise .illegalCommand)

/-- `PORT.WR` (R100): an argument register is written, CMD issues the word, STATUS and RESi are
read-only for the host (R35). -/
def portWrite (reg : PortReg) (v : Word) (s : State) : Result :=
  match reg with
  | .arg i => .next (s.setArg i v)
  | .cmd => issue v s
  | .status => .next (s.raise .illegalPortAccess)
  | .res _ => .next (s.raise .illegalPortAccess)

/-- The register that a port read returns; reading `⊥` raises `Fault(ReadUnwritten)`, reading CMD
`Fault(IllegalPortAccess)` (R31, R32, R35; log entry 11 on ARGi). -/
def State.portVal (s : State) : PortReg → Except Halt Word
  | .arg i => written s.arg[i]
  | .cmd => .error (.raise .illegalPortAccess)
  | .status => written s.status
  | .res i => written s.res[i]

/-- The mark a port read leaves: reading ARGi is none of the actions of R100, so it sets `refused` (10_state.md
R61), and R31 and R35 still say what it returns (log entry 11). -/
def State.markRead (s : State) : PortReg → State
  | .arg _ => { s with refused := true }
  | .cmd | .status | .res _ => s

/-- `PORT.RD` (R100). -/
def portRead (reg : PortReg) (s : State) : Result :=
  (s.markRead reg).complete do
    let v ← s.portVal reg
    return { s.markRead reg with reply := .word v }

/-! ## Memory and user actions of the host -/

/-- `HST.LD addr, n` (R100). -/
def hostLoad (addr : Nat) (n : Nat) (s : State) : Result :=
  s.complete do
    let bs ← s.hostRead addr n
    return { s with reply := .bytes bs }

/-- `HST.ST addr, n, bytes` (R100). -/
def hostStore (addr : Nat) (bs : List Byte) (s : State) : Result :=
  s.complete (s.hostWrite addr bs)

/-- `HST.WAIT_USER` (45_host_protocols.md R472): the host is blocked until the environment's event. -/
def waitUser (s : State) : Result := .next { s with waiting := true }

/-- Any other action sets `refused` (R100, 10_state.md R61). -/
def refuse (s : State) : Result := .next { s with refused := true }

/-- A NAND page index outside 0 .. `P_PAGES_PER_BLOCK`-1 is no action of R470. -/
def nandPage (s : State) (page : Nat) (c : Except Halt State) : Result :=
  if page < s.par.pagesPerBlock then s.complete c else refuse s

/-! ## The device and the environment -/

/-- `dev_complete`, enabled while `dev.busy` = 1 (42_eeprom.md R331). -/
def deviceStep (s : State) : Result :=
  if s.dev.busy then .next { s with dev := s.dev.complete } else .fault .notEnabled

/-- The EEPROM words after an interruption: the word being programmed becomes any u16, every other is
unchanged (45_host_protocols.md R480 items 2, 3, 5). -/
def Device.interruptedWords (d : Device) (v : Half) : Vector Half 256 :=
  match d.busy, d.prog with
  | true, some (a, _) => d.array.set a.toNat v a.isLt
  | _, _ => d.array

/-- The NAND pages known after an interruption: nothing of a block whose erase or write was in progress
(R480 item 4). -/
def nandInterrupted (nb : Option NandBlock) (pages : List NandPage) : List NandPage :=
  match nb with
  | some b => nandForget b pages
  | none => pages

/-- `interrupt` (R480): every volatile element takes its reset value (70_reset_and_hazards.md R540), the
lines are drawn anew, the memory is the next run's launch memory; the EEPROM words and the NAND contents are
durable; `fault` and `refused` are sticky; the parameters are constants. The rest of the interrupted run's
agenda is lost: the host restarts at its first action, with the agenda of the next run (item 6). The next
launch memory decides which addresses are admitted (10_state.md R50, R62), so `MEM_ADMIT` may differ after an
interruption, though R63 calls it a constant; and so may the bytes at `P_DEV_KEY_ADDR`, `P_FW_KEY_ADDR` and
`P_FW_IV_ADDR`, which are where the model holds `P_DEV_KEY`, `P_FW_KEY` and `P_FW_IV`: DESIGN CHOICE, log
entry 16. -/
def State.interrupt (s : State) (mem : List Host.Cell) (nb : Option NandBlock) : State :=
  { State.reset with
    gpio := Gpio.drawn s.draws
    dev := Device.atReset (s.dev.interruptedWords ((Config.draw (s.draws + 3)).setWidth 16))
    mem := Memory.ofCells mem
    fault := s.fault
    refused := s.refused
    nand := nandInterrupted nb s.nand
    par := s.par
    agenda := s.restarts.headD []
    restarts := s.restarts.tail
    draws := s.draws + 4 }

/-- The user event (R472): it releases the host that waits for it; an event nobody waits for is lost
(log entry 14). -/
def userStep (e : UserEvent) (s : State) : Result :=
  .next (if s.waiting then { s with waiting := false, reply := .user e } else s)

/-! ## One step -/

/-- An action of the host, run while the host is not blocked. -/
def hostStep (a : Action) (s : State) : Result :=
  match a with
  | .hstLd addr n => hostLoad addr n s
  | .hstSt addr bs => hostStore addr bs s
  | .portWr reg v => portWrite reg v s
  | .portRd reg => portRead reg s
  | .waitUser => waitUser s
  | .nandErase b ok => s.complete (s.nandErase b ok)
  | .nandWrite b page data spare ok => nandPage s page (s.nandWrite b page data spare ok)
  | .nandRead b page dst r bytes => nandPage s page (s.nandRead b page dst r bytes)
  | .other => refuse s
  | .devComplete | .interrupt _ _ | .userEvent _ => .next s

/-- The action's step, by its agent; a host blocked in HST.WAIT_USER has none. -/
def takeAction (a : Action) (s : State) : Result :=
  match a with
  | .devComplete => deviceStep s
  | .interrupt mem nb => .next (s.interrupt mem nb)
  | .userEvent e => userStep e s
  | .hstLd _ _ | .hstSt _ _ | .portWr _ _ | .portRd _ | .waitUser | .nandErase _ _
  | .nandWrite _ _ _ _ _ | .nandRead _ _ _ _ _ | .other =>
    if s.waiting then .fault .hostWaiting else hostStep a s

/-- The state in which the next action is taken: it is off the agenda and nothing has been returned yet. -/
def State.begin (s : State) (rest : List Action) : State :=
  { s with agenda := rest, reply := .nothing }

/-- One step of the machine: after a fault none has a defined effect (60_exceptions.md R511); else the
next action on the agenda is taken, and with nothing on it no agent acts (log entry 1). -/
def takeStep (s : State) : Result :=
  match s.fault with
  | some k => .fault (.raised k)
  | none =>
    match s.agenda with
    | [] => .next s
    | a :: rest => takeAction a (s.begin rest)

/-! ## Placing an instruction where the next step runs it -/

/-- The state whose next step runs the code. A command word is the next action, `PORT.WR CMD, w`. A frame
has all but its last bit in the device's shift register and its last bit on `gpio.di`, with chip-select 1 and
the clock 0, and the next action is the EEP.SET SK that clocks the last bit in. -/
def State.place (s : State) (c : Code) : State :=
  match c with
  | .word w =>
    { s with fault := none, waiting := false, agenda := .portWr .cmd w :: s.agenda }
  | .frame bits =>
    { s with
      fault := none
      waiting := false
      gpio := ⟨true, false, bits.getLastD false⟩
      dev := { s.dev with mode := .recv, shift := bits.dropLast }
      agenda := .portWr .cmd (encodeWord .eepSetSk) :: s.agenda }

end Sys2Proof.Machine
end

