-- ==== Sys2Proof/Machine/Step.lean ====
section
/-! DEFINITION. One step of the machine, and the placing of an instruction where the next step runs it. -/

namespace Sys2Proof.Machine

/-- One step of one agent, the next on the agenda (20_memory.md R101, log entry 1). -/
def step (s : State) : Host.Outcome State Fault Refusal := takeStep s

/-- The state in which the instruction whose bits the opcode table numbers by w is what the next step
runs (log entry 1). -/
def State.withFetchWord (s : State) (nbits w : Nat) : State := s.place (tableCode nbits w)

end Sys2Proof.Machine
end

