-- ==== Sys2Proof/Machine/Driver.lean ====
section
/-! DEFINITION. The host as a program over the machine's steps, and the pseudo-instructions of
30_encoding.md R172: each expands to commands and host actions, in the order its rule gives. The host's
programs are not state of the block (10_state.md R47, R63); the environment's choices come from a
schedule. -/

namespace Sys2Proof.Machine

/-! ## Running a host program -/

/-- A step of another agent than the host (20_memory.md R101): the device's, or one of the environment's. -/
inductive OtherStep where
  | devComplete
  | interrupt (mem : List Host.Cell) (nandBusy : Option NandBlock)
  | userEvent (e : UserEvent)
  deriving DecidableEq, Repr

/-- The step as an action. -/
def OtherStep.action : OtherStep → Action
  | .devComplete => .devComplete
  | .interrupt mem nb => .interrupt mem nb
  | .userEvent e => .userEvent e

/-- What happens before one action of the host: steps of the device and the environment, in order, and the
result (with the bytes an OK read may deliver) that the environment gives the action if it is a NAND
call. -/
structure Turn where
  events : List OtherStep
  nand : NandResult
  bytes : List Byte
  deriving DecidableEq, Repr

/-- The two durable operations of the parameter store, on a slot (false for 0, true for 1), which the ordering
obligations of 45_host_protocols.md R475-R478 name. -/
inductive StoreCall where
  | invalidate (slot : Bool)
  | commit (slot : Bool)
  deriving DecidableEq, Repr

/-- What happens in a run, in order: each step of the machine, with the action taken and what it returned; and
each call of a durable operation of the store and its return, with whether the result was (OK, 16). -/
inductive Event where
  | took (a : Action) (reply : Reply)
  | called (c : StoreCall)
  | returned (c : StoreCall) (ok : Bool)
  deriving DecidableEq, Repr

/-- A host program in progress: the machine, the environment's schedule, and the events so far. -/
structure Run where
  state : State
  env : List Turn
  trace : List Event
  deriving DecidableEq, Repr

/-- Why a host program does not return. -/
inductive Ending where
  /-- A step raised a model fault. -/
  | raised (k : FaultKind)
  /-- The machine had no step. -/
  | noStep (f : Fault)
  /-- The host set `refused` and stopped, or the machine did. -/
  | refused
  /-- An interruption: the host restarts (R480 item 6). -/
  | interrupted
  /-- HST.WAIT_USER and the environment supplies no event (R472). -/
  | blocked
  deriving DecidableEq, Repr

/-- A host program that returns an α. -/
abbrev Drv (α : Type) := ExceptT Ending (StateM Run) α

/-- One step of the machine in which the given action is the next. -/
def stepWith (a : Action) (s : State) : Result := step { s with agenda := [a] }

/-- Take one step with the given action, put it into the trace, and report a mark it leaves. -/
def Drv.take (a : Action) : Drv Reply := do
  let r ← get
  match stepWith a r.state with
  | .next t =>
    set { r with state := t, trace := r.trace ++ [Event.took a t.reply] }
    match t.fault with
    | some k => throw (.raised k)
    | none => if t.refused && !r.state.refused then throw .refused else return t.reply
  | .fault f => throw (.noStep f)
  | .refused _ => throw .refused

/-- The events of a turn, one after the other. An interruption ends the host's program. -/
def Drv.events : List OtherStep → Drv Unit
  | [] => return ()
  | e :: rest => do
    let _ ← Drv.take e.action
    match e with
    | .interrupt _ _ => throw .interrupted
    | _ => Drv.events rest

/-- The next turn of the schedule; an empty one when the schedule has ended. -/
def Drv.turn : Drv Turn := do
  let r ← get
  match r.env with
  | [] => return { events := [], nand := .ok, bytes := [] }
  | e :: rest =>
    set { r with env := rest }
    return e

/-- One host action, after the events of the schedule's next turn. -/
def Drv.act (a : Action) : Drv Reply := do
  let e ← Drv.turn
  Drv.events e.events
  Drv.take a

/-- One NAND call, whose result the schedule's next turn gives. -/
def Drv.nand (a : NandResult → List Byte → Action) : Drv NandResult := do
  let e ← Drv.turn
  Drv.events e.events
  match ← Drv.take (a e.nand e.bytes) with
  | .nand r => return r
  | _ => return e.nand

/-- Put a call or a return into the trace. -/
def Drv.mark (e : Event) : Drv Unit := modify fun r => { r with trace := r.trace ++ [e] }

/-- A durable operation of the store, its call and its return in the trace. -/
def Drv.call (c : StoreCall) (x : Drv (Except ResultCode Nat)) : Drv (Except ResultCode Nat) := do
  Drv.mark (.called c)
  let r ← x
  Drv.mark (.returned c (match r with | .ok n => n == 16 | .error _ => false))
  return r

/-- The program, run again from its first action after an interruption, for at most the given number of
interruptions (R480 item 6). -/
def Drv.restarting {α : Type} (x : Drv α) : Nat → Drv α
  | 0 => x
  | n + 1 => tryCatch x fun e =>
    match e with
    | .interrupted => Drv.restarting x n
    | .raised _ | .noStep _ | .refused | .blocked => throw e

/-- The host: its program, begun again after every interruption. Each one takes a turn of the schedule, so
their number is at most the length of it. -/
def Drv.host {α : Type} (x : Drv α) : Drv α := do
  let r ← get
  Drv.restarting x r.env.length

/-- The instance's parameters. -/
def Drv.par : Drv Params := do
  let r ← get
  return r.state.par

/-- The host sets `refused` and stops. -/
def Drv.refuse {α : Type} : Drv α := do
  let _ ← Drv.act .other
  throw .refused

/-- A draw of the host's own: a free value. -/
def Drv.draw : Drv Word := do
  let r ← get
  set { r with state := r.state.draw.2 }
  return r.state.draw.1

/-- Issue a command. -/
def Drv.cmd (i : Instr) : Drv Unit := do
  let _ ← Drv.act (.portWr .cmd (encodeWord i))

/-- Write an argument register, which holds a u32: a value that is none cannot be written, and the host
stops (log entry 19). -/
def Drv.setArg (i : Fin 4) (v : Nat) : Drv Unit := do
  if addrTop ≤ v then Drv.refuse
  let _ ← Drv.act (.portWr (.arg i) (BitVec.ofNat 32 v))

/-- Read a port register. -/
def Drv.port (r : PortReg) : Drv Nat := do
  match ← Drv.act (.portRd r) with
  | .word w => return w.toNat
  | _ => return 0

/-- `HST.LD`. -/
def Drv.load (addr n : Nat) : Drv (List Byte) := do
  match ← Drv.act (.hstLd addr n) with
  | .bytes bs => return bs
  | _ => return []

/-- `HST.ST`. -/
def Drv.store (addr : Nat) (bs : List Byte) : Drv Unit := do
  let _ ← Drv.act (.hstSt addr bs)

/-- The events of a turn while the host waits for the user: its event ends the wait, and what follows it
in the turn runs before the host's next action. -/
def Drv.awaitUser : List OtherStep → Drv UserEvent
  | [] => throw .blocked
  | e :: rest => do
    match e, ← Drv.take e.action with
    | .interrupt _ _, _ => throw .interrupted
    | _, .user u =>
      Drv.events rest
      return u
    | _, _ => Drv.awaitUser rest

/-- `HST.WAIT_USER` (45_host_protocols.md R472): the host waits through the events of the turn that
follows; without the user's event among them it stays blocked. -/
def Drv.waitUser : Drv UserEvent := do
  let _ ← Drv.act .waitUser
  let e ← Drv.turn
  Drv.awaitUser e.events

/-! ## CRC, ECC and container (40_crc.md R212, 43_ecc.md R368, R370, 44_container.md R410) -/

/-- `crc32 addr, len` (R212). -/
def crc32Op (addr len : Nat) : Drv Nat := do
  Drv.setArg 0 addr
  Drv.setArg 1 len
  Drv.cmd .crcCompute
  Drv.port (.res 0)

/-- `calc_ecc src, dst` (R368). -/
def calcEccOp (src dst : Nat) : Drv Unit := do
  Drv.setArg 0 src
  Drv.setArg 1 dst
  Drv.cmd .eccCalc

/-- The spare area of one page (R370): four codes and the validity marker. -/
def spareAssemble (page spare : Nat) : Drv Unit := do
  let par ← Drv.par
  (List.range 4).forM fun k => calcEccOp (page + 512 * k) (spare + par.spareEccOff + 4 * k)
  Drv.store (spare + par.markerOff) [par.markerValue]

/-- The code a port read of STATUS stands for: 0 is OK, and a value that no command leaves in STATUS is not. -/
def codeOf (w : Nat) : ResultCode :=
  (commandCodes.find? (fun c => c.toByte.toNat == w)).getD .truncated

/-- `ctr_parse p, L` (R410). -/
def ctrParseOp (p len : Nat) : Drv ResultCode := do
  Drv.setArg 0 p
  Drv.setArg 1 len
  Drv.cmd .ctrParse
  return codeOf (← Drv.port .status)

/-- `ctr_verify p, L` (R410). -/
def ctrVerifyOp (p len : Nat) : Drv ResultCode := do
  Drv.setArg 0 p
  Drv.setArg 1 len
  Drv.cmd .ctrVerify
  return codeOf (← Drv.port .status)

/-! ## The cipher (41_aes_cbc.md R270, R271) -/

/-- `aes_set_key addr`. -/
def aesSetKeyOp (addr : Nat) : Drv Unit := do
  Drv.setArg 0 addr
  Drv.cmd .aesSetkey

/-- `aes_set_iv addr`. -/
def aesSetIvOp (addr : Nat) : Drv Unit := do
  Drv.setArg 0 addr
  Drv.cmd .aesSetiv

/-- One chunk of the loop of R271: the two flushes, the command, the invalidate. -/
def aesChunk (x : Nat → Bool → Instr) (src dst m : Nat) (keep : Bool) : Drv Unit := do
  Drv.setArg 0 src
  Drv.setArg 1 (16 * m)
  Drv.cmd .sysFlush
  Drv.setArg 0 dst
  Drv.setArg 1 (16 * m)
  Drv.cmd .sysFlush
  Drv.setArg 0 src
  Drv.setArg 1 dst
  Drv.cmd (x m keep)
  Drv.setArg 0 dst
  Drv.setArg 1 (16 * m)
  Drv.cmd .sysInval

/-- The chunk loop of R271, with at most `fuel` chunks left. -/
def aesLoop (x : Nat → Bool → Instr) : Nat → Nat → Nat → Nat → Bool → Drv Unit
  | 0, _, _, _, _ => return ()
  | fuel + 1, src, dst, blocks, keep =>
    if blocks = 0 then return ()
    else do
      let m := min blocks 128
      aesChunk x src dst m keep
      aesLoop x fuel (src + 16 * m) (dst + 16 * m) (blocks - m) true

/-- `aes_encrypt src, dst, blocks, keep_iv` (R271). -/
def aesEncryptOp (src dst blocks : Nat) (keep : Bool) : Drv Unit :=
  aesLoop .aesEnc blocks src dst blocks keep

/-- `aes_decrypt src, dst, blocks, keep_iv` (R271). -/
def aesDecryptOp (src dst blocks : Nat) (keep : Bool) : Drv Unit :=
  aesLoop .aesDec blocks src dst blocks keep

/-! ## The EEPROM driver (42_eeprom.md R310, R311, R340-R346) -/

/-- `send_bits value, n` (R310). -/
def sendBits (value : Nat) : Nat → Drv Unit
  | 0 => return ()
  | n + 1 => do
    Drv.cmd (if value.testBit n then .eepSetDi else .eepClrDi)
    Drv.cmd .eepDelay
    Drv.cmd .eepSetSk
    Drv.cmd .eepDelay
    Drv.cmd .eepClrSk
    Drv.cmd .eepDelay
    sendBits value n

/-- `recv_bits n`, with the bits received so far in v (R311). -/
def recvBitsFrom (v : Nat) : Nat → Drv Nat
  | 0 => return v
  | n + 1 => do
    Drv.cmd .eepSetSk
    Drv.cmd .eepDelay
    Drv.cmd .eepClrSk
    Drv.cmd .eepDelay
    Drv.cmd .eepIn
    let b ← Drv.port (.res 0)
    recvBitsFrom (2 * v + b) n

/-- `recv_bits n` (R311). -/
def recvBits (n : Nat) : Drv Nat := recvBitsFrom 0 n

/-- `eep_init` (R340). -/
def eepInit : Drv Unit := do
  Drv.cmd .eepClrCs
  Drv.cmd .eepClrSk
  Drv.cmd .eepClrDi

/-- `eep_ewen` (R342). -/
def eepEwen : Drv Unit := do
  Drv.cmd .eepSetCs
  sendBits 0x4C0 11
  Drv.cmd .eepClrCs

/-- `eep_ewds` (R342). -/
def eepEwds : Drv Unit := do
  Drv.cmd .eepSetCs
  sendBits 0x400 11
  Drv.cmd .eepClrCs

/-- One READ frame: the word at word address a (R343). -/
def eepReadWord (a : Nat) : Drv Nat := do
  Drv.cmd .eepSetCs
  sendBits (0x600 ||| a) 11
  let w ← recvBits 16
  Drv.cmd .eepClrCs
  return w

/-- `eep_read off, nwords, dst` (R343). -/
def eepRead (off nwords dst : Nat) : Drv Unit :=
  if off + nwords ≤ 256 then
    (List.range nwords).forM fun i => do
      let w ← eepReadWord (off + i)
      Drv.store (dst + 2 * i) (toLE 2 w)
  else Drv.refuse

/-- `P_EEP_POLL_LIMIT` (R344). -/
def eepPollLimit : Nat := 100

/-- The loop of R344 with the given number of attempts left: whether a ready bit was seen. -/
def eepPollLoop : Nat → Drv Bool
  | 0 => return false
  | n + 1 => do
    let b ← recvBits 1
    if b = 1 then return true else eepPollLoop n

/-- `eep_poll` (R344). -/
def eepPoll : Drv Bool := do
  Drv.cmd .eepDelay
  Drv.cmd .eepSetCs
  Drv.cmd .eepClrDi
  let ready ← eepPollLoop eepPollLimit
  Drv.cmd .eepClrCs
  return ready

/-- The WRITE frames of R345 for the words at the given indexes, each with its poll: the words sent, or
nothing after a timeout. -/
def eepWriteWords (off src : Nat) : List Nat → Drv (Option (List Nat))
  | [] => return some []
  | i :: rest => do
    let bs ← Drv.load (src + 2 * i) 2
    let w := leVal bs
    Drv.cmd .eepSetCs
    sendBits (0x5000000 ||| (off + i) <<< 16 ||| w) 27
    Drv.cmd .eepClrCs
    if ← eepPoll then
      match ← eepWriteWords off src rest with
      | some ws => return some (w :: ws)
      | none => return none
    else return none

/-- The read-back of R345: every word read again, and compared. -/
def eepVerifyWords (a : Nat) : List Nat → Drv Bool
  | [] => return true
  | w :: rest => do
    let r ← eepReadWord a
    if r = w then eepVerifyWords (a + 1) rest else return false

/-- `eep_write off, nwords, src` (R345, R346): the byte count, or the storage-write failure. -/
def eepWrite (off nwords src : Nat) : Drv (Except ResultCode Nat) :=
  if off + nwords ≤ 256 then do
    eepEwen
    match ← eepWriteWords off src (List.range nwords) with
    | none => return .error .eepPollTimeout
    | some ws =>
      eepEwds
      if ← eepVerifyWords off ws then return .ok (2 * nwords) else return .error .eepVerifyFail
  else Drv.refuse

/-! ## The device-targeted loader (44_container.md R420, R421) -/

/-- `P_LOAD_ADDR(class, subtype)`, where it is defined. -/
def loadAddrOf (par : Params) (cls sub : Nat) : Option Word :=
  (par.loadAddr.find? (fun e => e.cls.toNat == cls && e.sub.toNat == sub)).map (fun e => e.addr)

/-- `ctr_load_for p, L, class` (R420): the load address, or the failure code. -/
def ctrLoadFor (p len cls : Nat) : Drv (Except ResultCode Word) := do
  let par ← Drv.par
  let c ← ctrParseOp p len
  if c ≠ .ok then return .error c
  let bo ← Drv.port (.res 3)
  let size ← Drv.port (.res 4)
  let dbyte := (← Drv.port (.res 5)) % 256
  let dcls := dbyte / 16
  if dcls ≠ cls then return .error .wrongClass
  match loadAddrOf par dcls (dbyte % 16) with
  | none => return .error .noLoadAddr
  | some addr =>
    let io ← Drv.port (.res 2)
    let r := leVal (← Drv.load (p + io) 4)
    if dcls = par.encClass.toNat ∧ r.testBit par.encBit = false then
      if size % 16 ≠ 0 ∨ (p + bo) % 16 ≠ 0 then Drv.refuse
      Drv.cmd .aesReset
      aesSetKeyOp par.fwKeyAddr.toNat
      aesSetIvOp par.fwIvAddr.toNat
      aesDecryptOp (p + bo) (p + bo) (size / 16) false
    let v ← ctrVerifyOp p len
    if v ≠ .ok then return .error v
    return .ok addr

end Sys2Proof.Machine
end

