-- ==== Sys2Proof/Machine/Store.lean ====
section
/-! DEFINITION. The redundant parameter store and the installation orchestrator
(45_host_protocols.md), as host programs. A slot is false for 0 and true for 1. -/

namespace Sys2Proof.Machine

/-! ## The parameter record (R440, R441, R455; 30_encoding.md R155, R156) -/

/-- `nand_block_code`, LE_16 at 0x0. -/
def recBlockCode (r : List Byte) : Nat := leVal (r.take 2)

/-- `version`, LE_16 at 0x2. -/
def recVersion (r : List Byte) : Nat := leVal ((r.drop 2).take 2)

/-- `checksum`, LE_32 at 0xC. -/
def recChecksum (r : List Byte) : Nat := leVal ((r.drop 12).take 4)

/-- `rec_crc(r) = crc32(r[0x0 .. 0xC))` (R441). -/
def recCrc (r : List Byte) : Word := crc32 (r.take 12)

/-- A record is valid when its checksum is the CRC of the fields before it (R441). -/
def recValid (r : List Byte) : Bool := recChecksum r == (recCrc r).toNat

/-- The NAND block of a record: `nand_block_code & 0x0FFF` and bit 12 (R455). -/
def recBlock (r : List Byte) : NandBlock :=
  { bank := (recBlockCode r).testBit 12, index := BitVec.ofNat 12 (recBlockCode r) }

/-- Slot selection (R451), from the validity and the version of the two records, with a drawn bit for equal
versions: the slot, or nothing when none is valid. -/
def chooseSlot (valid0 valid1 : Bool) (version0 version1 : Nat) (drawn : Bool) : Option Bool :=
  match valid0, valid1 with
  | false, false => none
  | true, false => some false
  | false, true => some true
  | true, true =>
    if version1 < version0 then some false
    else if version0 < version1 then some true
    else some drawn

/-- Slot selection for two records. -/
def selectSlot (r0 r1 : List Byte) (drawn : Bool) : Option Bool :=
  chooseSlot (recValid r0) (recValid r1) (recVersion r0) (recVersion r1) drawn

/-! ## Store operations (R442, R450-R454) -/

/-- `P_BANK_WORD[s]`. -/
def bankWord (par : Params) (slot : Bool) : Nat := if slot then par.bankWord1 else par.bankWord0

/-- `REC_ADDR[s]`. -/
def recAddr (par : Params) (slot : Bool) : Nat :=
  if slot then par.recAddr1.toNat else par.recAddr0.toNat

/-- The host buffers of 00_scope.md R9, each an address and a length: `REC_ADDR[0]`, `REC_ADDR[1]`, `BANK_BUF`,
`SPARE_BUF`, and `RB_ADDR`, which takes one block's pages. -/
def hostBuffers (par : Params) : List (Nat × Nat) :=
  [(par.recAddr0.toNat, 16), (par.recAddr1.toNat, 16), (par.bankBuf.toNat, 16),
    (par.spareBuf.toNat, par.spareSize), (par.rbAddr.toNat, 2048 * par.pagesPerBlock)]

/-- Two ranges of addresses have none in common. -/
abbrev RangesApart (x y : Nat × Nat) : Prop := x.1 + x.2 ≤ y.1 ∨ y.1 + y.2 ≤ x.1

/-- The side conditions on the parameters: two banks of 8 words that lie in the array and do not overlap
(R442), and host buffers that are 16-byte aligned and disjoint (00_scope.md R9, R443). -/
def bankOk (par : Params) : Bool :=
  decide (par.bankWord0 + 8 ≤ 256) && decide (par.bankWord1 + 8 ≤ 256) &&
  (decide (par.bankWord0 + 8 ≤ par.bankWord1) || decide (par.bankWord1 + 8 ≤ par.bankWord0)) &&
  (hostBuffers par).all (fun b => b.1 % 16 == 0) && decide ((hostBuffers par).Pairwise RangesApart)

/-- `bank_decrypt src, dst` (R442). -/
def bankDecrypt (src dst : Nat) : Drv Unit := do
  aesSetKeyOp (← Drv.par).devKeyAddr.toNat
  Drv.cmd .aesClriv
  aesDecryptOp src dst 1 false

/-- `bank_encrypt src, dst` (R442). -/
def bankEncrypt (src dst : Nat) : Drv Unit := do
  aesSetKeyOp (← Drv.par).devKeyAddr.toNat
  Drv.cmd .aesClriv
  aesEncryptOp src dst 1 false

/-- `load_all` for one slot (R450). -/
def loadSlot (slot : Bool) : Drv Unit := do
  let par ← Drv.par
  eepRead (bankWord par slot) 8 par.bankBuf.toNat
  bankDecrypt par.bankBuf.toNat (recAddr par slot)

/-- `load_all` (R450). -/
def loadAll : Drv Unit := do
  loadSlot false
  loadSlot true

/-- The in-memory record of a slot. -/
def loadRec (slot : Bool) : Drv (List Byte) := do
  Drv.load (recAddr (← Drv.par) slot) 16

/-- The check of a slot's record (R441): the CRC of its first 12 bytes, computed by the engine with
`crc32 r, 12` (40_crc.md R212, R214), against the stored checksum; and the record. -/
def checkRec (slot : Bool) : Drv (Bool × List Byte) := do
  let c ← crc32Op (recAddr (← Drv.par) slot) 12
  let r ← loadRec slot
  return (recChecksum r == c, r)

/-- `current_slot` (R451): the slot, or nothing for NONE_VALID. -/
def currentSlot : Drv (Option Bool) := do
  let x0 ← checkRec false
  let x1 ← checkRec true
  let d ← Drv.draw
  return chooseSlot x0.1 x1.1 (recVersion x0.2) (recVersion x1.2) (d.getLsbD 0)

/-- `persist s` (R454). -/
def persist (slot : Bool) : Drv (Except ResultCode Nat) := do
  let par ← Drv.par
  bankEncrypt (recAddr par slot) par.bankBuf.toNat
  eepWrite (bankWord par slot) 8 par.bankBuf.toNat

/-- `invalidate s` (R452): the other fields, the reserved bytes among them, stay as they are. -/
def invalidate (slot : Bool) : Drv (Except ResultCode Nat) := Drv.call (.invalidate slot) do
  Drv.store (recAddr (← Drv.par) slot + 0xC) [0#8, 0#8, 0#8, 0#8]
  persist slot

/-- `commit s, version` (R453), which makes the record: its reserved bytes are written as zero
(30_encoding.md R155), after the version and before the checksum that covers them (log entry 24). -/
def commit (slot : Bool) (version : Nat) : Drv (Except ResultCode Nat) := Drv.call (.commit slot) do
  let addr := recAddr (← Drv.par) slot
  if 0xFFFF < version then Drv.refuse
  Drv.store (addr + 0x2) (toLE 2 version)
  Drv.store (addr + 0x4) (List.replicate 8 0#8)
  let c ← crc32Op addr 12
  Drv.store (addr + 0xC) (toLE 4 c)
  persist slot

/-! ## The installation orchestrator (R460-R463) -/

/-- Whether a NAND result is OK. -/
def nandOk (r : NandResult) : Bool := r == .ok

/-- The data pass of step 7 from page p on, with n pages left: whether every write returned OK. -/
def dataPass (b : NandBlock) (img : Nat) : Nat → Nat → Drv Bool
  | _, 0 => return true
  | p, n + 1 => do
    let r ← Drv.nand fun r _ =>
      .nandWrite b p (some (img + 2048 * p)) none (nandOk r)
    if nandOk r then dataPass b img (p + 1) n else return false

/-- The spare pass of step 7, marker forced. -/
def sparePass (b : NandBlock) (img spare : Nat) : Nat → Nat → Drv Bool
  | _, 0 => return true
  | p, n + 1 => do
    spareAssemble (img + 2048 * p) spare
    let r ← Drv.nand fun r _ => .nandWrite b p none (some spare) (nandOk r)
    if nandOk r then sparePass b img spare (p + 1) n else return false

/-- The read-back of step 8: the first failure, if any. -/
def readBackPass (b : NandBlock) (dst : Nat) : Nat → Nat → Drv (Option ResultCode)
  | _, 0 => return none
  | p, n + 1 => do
    match ← Drv.nand fun r bs => .nandRead b p (dst + 2048 * p) r bs with
    | .ok => readBackPass b dst (p + 1) n
    | .eccUncorrectable => return some .eccUncorrectable
    | .ioFail => return some .ioReadback

/-- Step 7 (R460): erase, data pass, spare pass. -/
def flashSlot (b : NandBlock) : Drv Bool := do
  let par ← Drv.par
  let r ← Drv.nand fun r _ => .nandErase b (nandOk r)
  if !nandOk r then return false
  if !(← dataPass b par.imgAddr.toNat 0 par.pagesPerBlock) then return false
  sparePass b par.imgAddr.toNat par.spareBuf.toNat 0 par.pagesPerBlock

/-- Step 8 (R460): read-back, verification, and the comparison of the bytes before the body. -/
def verifySlot (b : NandBlock) (bodyOff : Nat) : Drv (Option ResultCode) := do
  let par ← Drv.par
  match ← readBackPass b par.rbAddr.toNat 0 par.pagesPerBlock with
  | some c => return some c
  | none =>
    let c ← ctrVerifyOp par.rbAddr.toNat par.imgLen
    if c ≠ .ok then return some .readbackMismatch
    let rb ← Drv.load par.rbAddr.toNat bodyOff
    let img ← Drv.load par.imgAddr.toNat bodyOff
    if rb = img then return none else return some .readbackMismatch

/-- Step 9 (R460), behind its gate: commit, confirmation, retire. -/
def retireStep (boot install : Bool) (version : Nat) : Drv ResultCode := do
  if !(← Drv.par).enableRetire then return .okUncommitted
  match ← commit install version with
  | .error c => return c
  | .ok _ =>
    match ← Drv.waitUser with
    | .cancel => return .okCommitted
    | .confirm =>
      match ← invalidate boot with
      | .error c => return c
      | .ok _ => return .ok

/-- Steps 6 to 9 (R460), for the slots chosen in step 3. -/
def installSlot (boot : Bool) (version bodyOff : Nat) : Drv ResultCode := do
  let install := !boot
  match ← invalidate install with
  | .error c => return c
  | .ok _ =>
    let b := recBlock (← loadRec install)
    if !(← flashSlot b) then return .nandWriteFail
    match ← verifySlot b bodyOff with
    | some c => return c
    | none =>
      retireStep boot install version

/-- The orchestrator (R460): its result is the first failure code, or a success. -/
def orchestrate : Drv ResultCode := do
  let par ← Drv.par
  if !par.imgIoOk then return .ioImage
  if par.imgLen ≠ par.pagesPerBlock * 2048 then return .imageLength
  let c ← ctrVerifyOp par.imgAddr.toNat par.imgLen
  if c ≠ .ok then return c
  let version ← Drv.port (.res 6)
  let bodyOff ← Drv.port (.res 3)
  loadAll
  match ← currentSlot with
  | none => return .noneValid
  | some boot =>
    let rb ← loadRec boot
    let ri ← loadRec (!boot)
    if (recBlock rb).bank || (recBlock ri).bank then return .safetyCompatBank
    match ← Drv.waitUser with
    | .cancel => return .cancelled
    | .confirm => installSlot boot version bodyOff

/-- What the host does first after every reset: the lines are driven to 0 (42_eeprom.md R340,
70_reset_and_hazards.md R552), both records are loaded and the slot is chosen (R450, R451). -/
def startup : Drv (Option Bool) := do
  eepInit
  loadAll
  currentSlot

/-- The host's program: `eep_init`, then the orchestrator. After an interruption it runs again
(`Drv.host`, R480 item 6). -/
def hostMain : Drv ResultCode := do
  eepInit
  orchestrate

end Sys2Proof.Machine
end

