-- ==== Sys2Proof/Safety.lean ====
section
/-! DEFINITION. What counts as a safe run: no model fault and no refusal (60_exceptions.md R511, R512). -/

namespace Sys2Proof.Machine

/-- A state that carries no mark of "no meaning": a property proved over runs holds only for runs all of
whose states are such (R511, 10_state.md R60, R61). -/
def State.safe (s : State) : Bool := s.fault.isNone && !s.refused

/-- t is reached from s by steps. -/
inductive Reaches (s : State) : State → Prop where
  | refl : Reaches s s
  | tail {t u : State} : Reaches s t → step t = .next u → Reaches s u

/-- What a launch is given (00_scope.md R9, 70_reset_and_hazards.md R540): the parameters, `MEM_ADMIT` and
`MEM_INIT` as one list of cells, `EEPROM_INIT`, `NAND_INIT`, the drawn lines; and the model's agendas of this
run and of the runs after it (log entries 1, 16). -/
structure Launch where
  par : Params
  mem : List Host.Cell
  words : Vector Half 256
  nand : List NandPage
  lines : Gpio
  agenda : List Action
  restarts : List (List Action)

/-- A launch of the machine: the reset state with its OPEN values given. -/
def State.launch (l : Launch) : State :=
  { State.reset with
    par := l.par
    mem := Memory.ofCells l.mem
    dev := Device.atReset l.words
    nand := nandOfPages l.par l.nand
    gpio := l.lines
    agenda := l.agenda
    restarts := l.restarts }

/-- A run is a sequence of states each of which the step gives from the one before. -/
def IsRun (r : Nat → State) : Prop := ∀ n, step (r n) = .next (r (n + 1))

/-- Weak fairness of the device (20_memory.md R101): a write in progress is eventually completed, or ended
by an interruption. -/
def WeaklyFair (r : Nat → State) : Prop :=
  ∀ n, (r n).dev.busy = true → ∃ m, n ≤ m ∧ (r m).dev.busy = false

/-! ## The terms of the claims: addresses and accesses -/

/-- An access of n bytes at a ends at or below 2^32, or is of no bytes (20_memory.md R88). -/
def Fits (a n : Nat) : Prop := n = 0 ∨ a + n ≤ 4294967296

/-- No address of the set lies in a .. a+n-1. -/
def Avoids (set : List Nat) (a n : Nat) : Prop := ∀ x ∈ set, ¬ (a ≤ x ∧ x < a + n)

/-- Every address of a .. a+n-1 is admitted (R83). -/
def State.Admits (s : State) (a n : Nat) : Prop := ∀ i, i < n → (s.mem.get (a + i)).isSome = true

/-- The bytes stand at the addresses from a on. -/
def State.Holds (s : State) (a : Nat) (bs : List Byte) : Prop :=
  ∀ (i : Nat) (h : i < bs.length), s.mem.get (a + i) = some bs[i]

/-- A host-view read at a succeeds and delivers the bytes (R84, R88, R95). -/
def State.HostReads (s : State) (a : Nat) (bs : List Byte) : Prop :=
  Fits a bs.length ∧ s.Holds a bs ∧ Avoids s.coh.devDirty a bs.length

/-- How a step ends that makes a host-view read of n bytes at a and gets no bytes: in the order of
60_exceptions.md R513, items 6 to 8. -/
def State.ReadStops (s : State) (a n : Nat) (r : Result) : Prop :=
  (¬ Fits a n → r = .next (s.raise .rangeWrap)) ∧
  (Fits a n → ¬ s.Admits a n → r = .fault .notAdmitted) ∧
  (Fits a n → s.Admits a n → ¬ Avoids s.coh.devDirty a n → r = .next (s.raise .coherence))


/-- The memory m' is m with the bytes stored from a on: every byte outside is as it was. -/
def Stored (m m' : Memory) (a : Nat) (bs : List Byte) : Prop :=
  (∀ (i : Nat) (h : i < bs.length), m'.get (a + i) = some bs[i]) ∧
  ∀ x, x < a ∨ a + bs.length ≤ x → m'.get x = m.get x

/-- The set holds, beside what it held, exactly the addresses a .. a+n-1. -/
def Marked (set set' : List Nat) (a n : Nat) : Prop :=
  ∀ x, x ∈ set' ↔ x ∈ set ∨ (a ≤ x ∧ x < a + n)

/-- The set holds what it held, without the addresses a .. a+n-1. -/
def Unmarked (set set' : List Nat) (a n : Nat) : Prop :=
  ∀ x, x ∈ set' ↔ x ∈ set ∧ ¬ (a ≤ x ∧ x < a + n)

/-! ## The cipher commands -/

/-- Source and destination are the same address, or disjoint (41_aes_cbc.md R256). -/
def NoOverlap (src dst n : Nat) : Prop := src = dst ∨ src + n ≤ dst ∨ dst + n ≤ src

/-- The conditions under which AES.ENC or AES.DEC completes on n blocks (R254, R255). -/
structure State.CipherReady (s : State) (keep : Bool) (src dst : Word) (n : Nat) (key : List Byte)
    (c : Block) : Prop where
  arg0 : s.arg[0] = some src
  arg1 : s.arg[1] = some dst
  key : s.aes.key = some key
  start : (if keep then s.aes.chain else s.aes.iv) = some c
  aligned : src.toNat % 16 = 0 ∧ dst.toNat % 16 = 0
  overlap : NoOverlap src.toNat dst.toNat (16 * n)
  fits : Fits src.toNat (16 * n) ∧ Fits dst.toNat (16 * n)
  admitted : s.Admits src.toNat (16 * n) ∧ s.Admits dst.toNat (16 * n)
  clean : Avoids s.coh.hostDirty src.toNat (16 * n) ∧ Avoids s.coh.hostDirty dst.toNat (16 * n)

/-- How AES.ENC or AES.DEC on n blocks ends when it does not complete: "Exceptions, in the order checked"
(R254). -/
def State.CipherStops (s : State) (keep : Bool) (n : Nat) (r : Result) : Prop :=
  ((s.arg[0] = none ∨ s.arg[1] = none) → r = .next (s.raise .readUnwritten)) ∧
  (s.aes.key = none → r = .next (s.raise .readUnwritten)) ∧
  ((if keep then s.aes.chain else s.aes.iv) = none → r = .next (s.raise .readUnwritten)) ∧
  ∀ src dst : Word, s.arg[0] = some src → s.arg[1] = some dst → s.aes.key ≠ none →
    (if keep then s.aes.chain else s.aes.iv) ≠ none →
    (¬ (src.toNat % 16 = 0 ∧ dst.toNat % 16 = 0) → r = .next (s.raise .misaligned)) ∧
    (src.toNat % 16 = 0 ∧ dst.toNat % 16 = 0 →
      (¬ NoOverlap src.toNat dst.toNat (16 * n) → r = .next (s.raise .overlap)) ∧
      (NoOverlap src.toNat dst.toNat (16 * n) →
        (¬ (Fits src.toNat (16 * n) ∧ Fits dst.toNat (16 * n)) → r = .next (s.raise .rangeWrap)) ∧
        (Fits src.toNat (16 * n) ∧ Fits dst.toNat (16 * n) →
          (¬ (s.Admits src.toNat (16 * n) ∧ s.Admits dst.toNat (16 * n)) → r = .fault .notAdmitted) ∧
          (s.Admits src.toNat (16 * n) ∧ s.Admits dst.toNat (16 * n) →
            ¬ (Avoids s.coh.hostDirty src.toNat (16 * n) ∧
               Avoids s.coh.hostDirty dst.toNat (16 * n)) →
            r = .next (s.raise .coherence)))))

/-- The state after a cipher command wrote the output blocks at dst and left the chaining value c'. -/
def State.CipherDone (s : State) (dst : Nat) (output : List Block) (c' : Block) (r : Result) : Prop :=
  ∃ (m' : Memory) (set' : List Nat),
    r = .next { s with
      mem := m'
      coh := { s.coh with devDirty := set' }
      aes := { s.aes with chain := some c' }
      status := some 0#32 } ∧
    Stored s.mem m' dst (ofBlocks output) ∧ Marked s.coh.devDirty set' dst (16 * output.length)

/-- The state with the first two arguments moved past m blocks, for the next chunk (41_aes_cbc.md R271). -/
def State.nextChunk (s : State) (src dst : Word) (m : Nat) : State :=
  { s with
    arg := (s.arg.set 0 (some (src + BitVec.ofNat 32 (16 * m)))).set 1
      (some (dst + BitVec.ofNat 32 (16 * m))) }

/-! ## The container commands -/

/-- The buffer's magic matches (44_container.md R400, first check). -/
def State.MagicOk (s : State) (b : Buffer) : Prop :=
  4 ≤ b.len ∧ s.HostReads b.addr s.par.magic.toList

/-- A little-endian u32 field at an offset of the container reads as v. -/
def State.Field32 (s : State) (b : Buffer) (off v : Nat) : Prop :=
  v < 4294967296 ∧ s.HostReads (b.addr + off) (toLE 4 v)

/-- How a validator command ends that reads a field of n bytes at a, in range, and gets no bytes (R83, R95), in
the order of 60_exceptions.md R513: the field is not admitted; or it holds a device-dirty byte, and the command
makes no access that is not admitted, which is what its outcome without device-dirty addresses says. -/
def State.FieldStops (s : State) (i : Instr) (a n : Nat) : Prop :=
  (¬ s.Admits a n → exec i s = .fault .notAdmitted) ∧
  (s.Admits a n → ¬ Avoids s.coh.devDirty a n → exec i s.coherent ≠ .fault .notAdmitted →
    exec i s = .next (s.raise .coherence))

/-- A container that CTR.PARSE accepts, and what it finds there (R400). -/
structure State.ParsesAs (s : State) (b : Buffer) (c : CtrInfo) : Prop where
  magic : s.MagicOk b
  header : 12 ≤ b.len
  sigOff : s.Field32 b 8 c.sigOff
  sigIn : c.sigOff + 4 ≤ b.len
  type : s.Field32 b c.sigOff c.sig.tag
  infoIn : c.sig.infoOff + infoSize s.par ≤ b.len
  device : s.Field32 b (c.sig.infoOff + 0x04) c.device
  infoType : s.Field32 b (c.sig.infoOff + 0x08) c.infoType
  bodySize : s.Field32 b (c.sig.infoOff + 0x0C) c.bodySize
  version : s.Field32 b (c.sig.infoOff + 0x10 + s.par.hashLen) c.version
  bodyOff : c.bodyOff = c.sig.infoOff + infoSize s.par
  bodyIn : c.bodyOff + c.bodySize ≤ b.len

/-- A container that has passed the checks of CTR.VERIFY up to its bounds: magic, signature offset,
signature type, bounds (R395, R401). -/
structure State.BoundsPass (s : State) (b : Buffer) (t : SigType) (size : Nat) : Prop where
  magic : s.MagicOk b
  header : 12 ≤ b.len
  sigOff : s.Field32 b 8 0x20
  sigIn : 0x24 ≤ b.len
  type : s.Field32 b 0x20 t.tag
  infoIn : t.infoOff + infoSize s.par ≤ b.len
  bodySize : s.Field32 b (t.infoOff + 0x0C) size
  bodyIn : t.infoOff + infoSize s.par + size ≤ b.len

/-- The signature padding reads as zeros (R401). -/
def State.PadZero (s : State) (b : Buffer) (t : SigType) : Prop :=
  s.HostReads (b.addr + 0x24 + t.sigLen) (List.replicate t.sigPad 0#8)

/-- The reserved bytes at the head of the info block read as zeros (R401). -/
def State.ReservedZero (s : State) (b : Buffer) (t : SigType) : Prop :=
  s.HostReads (b.addr + t.infoOff) (List.replicate 4 0#8)

/-- The reserved bytes at the tail of the info block read as zeros (R401). -/
def State.TailZero (s : State) (b : Buffer) (t : SigType) : Prop :=
  s.HostReads (b.addr + t.infoOff + 0x14 + s.par.hashLen) (List.replicate s.par.infoPad 0#8)

/-- A validator command that rejects a container: all results `⊥`, the code in STATUS (R394). -/
def State.ctrRejected (s : State) (code : Word) : Result :=
  .next { s with res := Vector.replicate 8 none, status := some code }

/-! ## Sequences of instructions and actions -/

/-- The instructions one after the other, stopping at a fault (60_exceptions.md R511). -/
def execAll : List Instr → State → Result
  | [], s => .next s
  | i :: rest, s =>
    match exec i s with
    | .next t => if t.fault = none then execAll rest t else .next t
    | .fault f => .fault f
    | .refused r => .refused r

/-- The signal-level commands that clock the bits in, the clock 0 before and after each
(42_eeprom.md R310; its delays have no effect). -/
def clockBits (bits : List Bool) : List Instr :=
  bits.flatMap fun b => [if b then .eepSetDi else .eepClrDi, .eepSetSk, .eepClrSk]

/-- The actions taken one after the other, stopping at a fault. -/
def takeAll : List Action → State → Result
  | [], s => .next s
  | a :: rest, s =>
    match takeAction a s with
    | .next t => if t.fault = none then takeAll rest t else .next t
    | .fault f => .fault f
    | .refused r => .refused r

/-- The action may change the block's contents: an erase, a write, or an interruption of one. -/
def Action.disturbs (b : NandBlock) : Action → Bool
  | .nandErase b' _ => b' == b
  | .nandWrite b' _ _ _ _ => b' == b
  | .interrupt _ nb => nb == some b
  | .hstLd _ _ | .hstSt _ _ | .portWr _ _ | .portRd _ | .waitUser | .nandRead _ _ _ _ _ | .other
  | .devComplete | .userEvent _ => false

/-- The action is one of the host's: not the device's, not the environment's (20_memory.md R101). -/
def Action.byHost : Action → Bool
  | .hstLd _ _ | .hstSt _ _ | .portWr _ _ | .portRd _ | .waitUser | .nandErase _ _
  | .nandWrite _ _ _ _ _ | .nandRead _ _ _ _ _ | .other => true
  | .devComplete | .interrupt _ _ | .userEvent _ => false

/-! ## Which unit an instruction belongs to -/

/-- The units (30_encoding.md R121), and the EEPROM device that executes the wire frames. -/
inductive UnitName where
  | sys
  | crc
  | aes
  | eep
  | ecc
  | ctr
  | device
  deriving DecidableEq, Repr

/-- The unit that executes the instruction. -/
def unitOf : Instr → UnitName
  | .sysNop | .sysFlush | .sysInval => .sys
  | .crcInit | .crcByte _ | .crcRange | .crcFinal | .crcCompute => .crc
  | .aesReset | .aesSetkey | .aesSetiv | .aesClriv | .aesEnc _ _ | .aesDec _ _ => .aes
  | .eepSetCs | .eepSetSk | .eepSetDi | .eepClrCs | .eepClrSk | .eepClrDi | .eepIn | .eepDelay => .eep
  | .eccCalc => .ecc
  | .ctrParse | .ctrVerify => .ctr
  | .frameRead _ | .frameEwen _ | .frameEwds _ | .frameWrite _ _ | .frameReserved11 _
  | .frameReserved0001 _ | .frameReserved0010 _ => .device

/-- The instruction accesses memory (20_memory.md R81). -/
def readsMemory : Instr → Bool
  | .crcRange | .crcCompute | .aesSetkey | .aesSetiv | .aesEnc _ _ | .aesDec _ _ | .eccCalc | .ctrParse
  | .ctrVerify => true
  | .sysNop | .sysFlush | .sysInval | .crcInit | .crcByte _ | .crcFinal | .aesReset | .aesClriv
  | .eepSetCs | .eepSetSk | .eepSetDi | .eepClrCs | .eepClrSk | .eepClrDi | .eepIn | .eepDelay
  | .frameRead _ | .frameEwen _ | .frameEwds _ | .frameWrite _ _ | .frameReserved11 _
  | .frameReserved0001 _ | .frameReserved0010 _ => false

/-! ## The invariant -/

/-- What the first three bits of a frame say of its length: the frame is not complete yet
(42_eeprom.md R322, R323). -/
def FramePartial (bits : List Bool) : Prop :=
  bits = [] ∨
  (bits.head? = some true ∧
    (bits.length < 11 ∨ (bits.length < 27 ∧ bits[1]? = some false ∧ bits[2]? = some true)))

/-- What holds of the EEPROM device between steps, with chip-select at cs (42_eeprom.md R320-R332). -/
structure Device.Inv (d : Device) (cs : Bool) : Prop where
  unselected : cs = false → d.mode = .idle ∧ d.shift = [] ∧ d.out = [] ∧ d.armed = none
  busyProg : d.busy = d.prog.isSome
  busyMode : d.busy = true → d.mode = .status ∨ d.mode = .idle
  armedIdle : d.armed.isSome = true → d.mode = .idle ∧ d.wel = true ∧ d.busy = false
  outMode : d.out ≠ [] → d.mode = .out
  outLength : d.out.length ≤ 16
  recvShift : d.mode = .recv → FramePartial d.shift
  undriven : d.mode = .idle ∨ d.mode = .recv → d.dout = .z
  ready : d.mode = .status → d.dout = readyLine d.busy

/-- What holds of the machine between steps. -/
structure State.Inv (s : State) : Prop where
  /-- Memory is in canonical form. -/
  mem : Memory.wf s.mem = true
  /-- The coherence sets are in canonical form and hold admitted addresses only. -/
  hostDirty : addrRisesFrom 0 s.coh.hostDirty = true ∧
    ∀ x ∈ s.coh.hostDirty, (s.mem.get x).isSome = true
  devDirty : addrRisesFrom 0 s.coh.devDirty = true ∧
    ∀ x ∈ s.coh.devDirty, (s.mem.get x).isSome = true
  /-- STATUS is unwritten or holds a code that a command produces; its reserved bits are 0
  (10_state.md R33, 60_exceptions.md R501). -/
  status : s.status = none ∨ ∃ c ∈ commandCodes, s.status = some (statusWord c)
  /-- A chaining value is there only with a key and an IV (41_aes_cbc.md R250-R255). -/
  chain : s.aes.chain ≠ none → s.aes.key ≠ none ∧ s.aes.iv ≠ none
  /-- The key is `P_KEY_BYTES` bytes (10_state.md R42). -/
  key : ∀ key, s.aes.key = some key → key.length = s.par.keyBytes
  /-- The device and its chip-select line agree. -/
  dev : s.dev.Inv s.gpio.cs
  /-- The NAND pages known are in their order, each a page of its block with 2048 bytes
  (45_host_protocols.md R470). -/
  nand : s.nand.Pairwise NandPage.before ∧
    ∀ p ∈ s.nand, p.data.length = 2048 ∧ p.page < s.par.pagesPerBlock

/-- The volatile state has its reset values (70_reset_and_hazards.md R540). -/
def State.AtReset (s : State) : Prop :=
  (∀ i : Fin 4, s.arg[i] = none) ∧ s.status = none ∧ (∀ i : Fin 8, s.res[i] = none) ∧
  s.crcAcc = none ∧ s.aes.key = none ∧ s.aes.iv = none ∧ s.aes.chain = none ∧
  s.dev.dout = .z ∧ s.dev.mode = .idle ∧ s.dev.shift = [] ∧ s.dev.out = [] ∧ s.dev.wel = false ∧
  s.dev.armed = none ∧ s.dev.prog = none ∧ s.dev.busy = false ∧ s.dev.statusPending = false ∧
  s.coh.hostDirty = [] ∧ s.coh.devDirty = []

/-! ## The parameter store and its banks -/

/-- The 16 bytes of a slot's bank as the EEPROM holds it (42_eeprom.md R341). -/
def State.bankBytes (s : State) (slot : Bool) : List Byte :=
  (List.range 8).flatMap fun j => toLE 2 ((s.dev.array[bankWord s.par slot + j]?).getD 0#16).toNat

/-- The record that a slot's bank decrypts to under the device key (45_host_protocols.md R442, R450). -/
def State.bankRecord (s : State) (key : List Byte) (slot : Bool) : List Byte :=
  (Config.blockDec key (blockOf (s.bankBytes slot))).toList

/-- The parameter store can work (45_host_protocols.md R442, R443, 00_scope.md R9): the host is free and no
fault is set, the parameters meet their side conditions, the layout of the spare area lies in its buffer
(43_ecc.md R370), memory holds the device key, apart from the host's buffers, and admits the buffers of the
store. -/
structure State.StoreReady (s : State) (key : List Byte) : Prop where
  fault : s.fault = none
  waiting : s.waiting = false
  params : bankOk s.par = true
  spare : s.par.spareEccOff + 16 ≤ s.par.spareSize ∧ s.par.markerOff < s.par.spareSize
  keyLength : key.length = s.par.keyBytes
  key : s.HostReads s.par.devKeyAddr.toNat key
  apart : ∀ buffer ∈ hostBuffers s.par, RangesApart (s.par.devKeyAddr.toNat, s.par.keyBytes) buffer
  admits : s.Admits s.par.recAddr0.toNat 16 ∧ s.Admits s.par.recAddr1.toNat 16 ∧
    s.Admits s.par.bankBuf.toNat 16

/-! ## The events of an installation -/

/-- The NAND block that the event erased or wrote. -/
def Event.destroys : Event → Option NandBlock
  | .took (.nandErase b _) _ => some b
  | .took (.nandWrite b _ _ _ _) _ => some b
  | _ => none

/-- The event is an action of the host. -/
def Event.byHost : Event → Bool
  | .took a _ => a.byHost
  | .called _ => false
  | .returned _ _ => false

/-- Step 7 of the installation is complete (45_host_protocols.md R460): every NAND erase and write so far
returned OK, and every page of the block has had its data written and its spare area. -/
def Step7Passed (par : Params) (b : NandBlock) (events : List Event) : Prop :=
  (∀ e ∈ events, e.destroys ≠ none → ∃ a, e = .took a (.nand .ok)) ∧
  ∀ page, page < par.pagesPerBlock →
    .took (.nandWrite b page (some (par.imgAddr.toNat + 2048 * page)) none true) (.nand .ok) ∈ events ∧
    .took (.nandWrite b page none (some par.spareBuf.toNat) true) (.nand .ok) ∈ events

/-- Step 8 of the installation has just passed (R460): every page of the block was read back with OK; and the
host's last actions were CTR.VERIFY of the read-back buffer, a read of STATUS that gave OK, and two loads, of
the bytes before the body in the read-back buffer and in the image, that gave the same bytes. -/
def Step8Passed (par : Params) (b : NandBlock) (events : List Event) : Prop :=
  (∀ page, page < par.pagesPerBlock → ∃ junk,
    .took (.nandRead b page (par.rbAddr.toNat + 2048 * page) .ok junk) (.nand .ok) ∈ events) ∧
  ∃ (before : List Event) (bodyOff : Word) (bytes : List Byte),
    .took (.portRd (.res 3)) (.word bodyOff) ∈ before ∧
    events.filter Event.byHost = before ++
      [.took (.portWr (.arg 0) par.rbAddr) .nothing,
       .took (.portWr (.arg 1) (BitVec.ofNat 32 par.imgLen)) .nothing,
       .took (.portWr .cmd 0x51000000#32) .nothing,
       .took (.portRd .status) (.word 0#32),
       .took (.hstLd par.rbAddr.toNat bodyOff.toNat) (.bytes bytes),
       .took (.hstLd par.imgAddr.toNat bodyOff.toNat) (.bytes bytes)]

/-- The confirmation of step 9 (R460): after the events, the host waits for the user, and the user
confirms. -/
def UserConfirmed (events : List Event) : Prop :=
  ∃ before between after : List Event,
    events = before ++ .took .waitUser .nothing :: between ++
      .took (.userEvent .confirm) (.user .confirm) :: after

end Sys2Proof.Machine
end

