-- ==== Sys2Proof/Certificates/Slice0/Obligations.lean ====
section
/-! DEFINITION. The statements for the provers. Each names the rule of spec/ it formalises; the terms they
share stand in Sys2Proof/Safety.lean. -/

open Sys2Proof Sys2Proof.Machine

/-! ## Encoding -/

/-- Decoding the code of a well-formed instruction gives the instruction back, with every operand
(30_encoding.md R122, R128, R140-R145). -/
def Obligations.DecodeEncodeIdentity : Prop :=
  ∀ i : Instr, i.WellFormed → decode (encode i) = .ok i

/-- Every code that decodes is the code of the instruction it decodes to: no two codes stand for one
instruction, and the decoder yields well-formed instructions only. -/
def Obligations.EncodeDecodeIdentity : Prop :=
  ∀ (c : Code) (i : Instr), decode c = .ok i → i.WellFormed ∧ encode i = c

/-- 30_encoding.md R122: a word selects the row r with `(w & r.mask) = r.match`; the rows are disjoint; a
word that matches no row is reserved. -/
def Obligations.CommandWordSelectsOneRow : Prop :=
  (opcodeMap.Pairwise fun r q => ∀ w : Word, ¬ (w &&& r.mask = r.value ∧ w &&& q.mask = q.value)) ∧
  (∀ r ∈ opcodeMap, ∀ w : Word, w &&& r.mask = r.value → decodeWord w = .ok (r.build w)) ∧
  (∀ w : Word, (∀ r ∈ opcodeMap, w &&& r.mask ≠ r.value) → ∃ e, decodeWord w = .error e)

/-- 30_encoding.md R127: a word that matches no row raises `Fault(IllegalCommand)` and changes no other
state; the classes of reserved words that the rule lists match no row; 0x00000000 is SYS.NOP. -/
def Obligations.ReservedWordFaults : Prop :=
  (∀ (w : Word) (s : State), (∀ r ∈ opcodeMap, w &&& r.mask ≠ r.value) →
    issue w s = .next { s with fault := some (s.fault.getD .illegalCommand) }) ∧
  (∀ w : Word,
    let unit := w.toNat / 0x10000000
    let op := w.toNat / 0x1000000 % 16
    let imm := w.toNat % 0x1000000
    (6 ≤ unit ∨
     (unit = 0 ∧ 3 ≤ op) ∨ (unit = 1 ∧ 5 ≤ op) ∨ (unit = 2 ∧ 6 ≤ op) ∨ (unit = 3 ∧ 4 ≤ op) ∨
     (unit = 4 ∧ 1 ≤ op) ∨ (unit = 5 ∧ 2 ≤ op) ∨
     (unit = 3 ∧ op ≤ 1 ∧ 3 ≤ imm) ∨
     (unit = 1 ∧ op = 1 ∧ 256 ≤ imm) ∨
     (unit = 2 ∧ 4 ≤ op ∧ w &&& 0x00FFEF80#32 ≠ 0#32) ∨
     (¬ (unit = 3 ∧ op ≤ 1) ∧ ¬ (unit = 1 ∧ op = 1) ∧ ¬ (unit = 2 ∧ 4 ≤ op) ∧ imm ≠ 0)) →
    ∀ r ∈ opcodeMap, w &&& r.mask ≠ r.value) ∧
  decodeWord 0x00000000#32 = .ok .sysNop

/-- Codes written out from the spec's encodings decode to the instructions they stand for (30_encoding.md
R128, R141-R144, R170; 42_eeprom.md R350, R351): a sanity check. -/
def Obligations.SpecCodesDecode : Prop :=
  decodeWord 0x11000031#32 = .ok (.crcByte 0x31#8) ∧
  decodeWord 0x24000001#32 = .ok (.aesEnc 2 false) ∧
  decodeWord 0x2500107F#32 = .ok (.aesDec 128 true) ∧
  decodeWord 0x30000001#32 = .ok .eepSetSk ∧
  decodeWord 0x31000002#32 = .ok .eepClrDi ∧
  decodeWord 0x40000000#32 = .ok .eccCalc ∧
  decodeWord 0x51000000#32 = .ok .ctrVerify ∧
  decodeFrame (valBits 11 0x605) = .ok (.frameRead 0x05#8) ∧
  decodeFrame (valBits 11 0x4C0) = .ok (.frameEwen 0#6) ∧
  decodeFrame (valBits 11 0x400) = .ok (.frameEwds 0#6) ∧
  decodeFrame (valBits 27 0x505BEEF) = .ok (.frameWrite 0x05#8 0xBEEF#16) ∧
  decodeFrame (valBits 11 0x7FF) = .ok (.frameReserved11 0xFF#8) ∧
  decodeFrame (valBits 11 0x440) = .ok (.frameReserved0001 0#6) ∧
  decodeFrame (valBits 11 0x4BF) = .ok (.frameReserved0010 0x3F#6)

/-! ## The step -/

/-- A step runs the decoded instruction: where the next action is a write of a command word to CMD, the step
is the instruction's meaning in the state with that action taken off the agenda and nothing returned yet; a
reserved word raises its fault (10_state.md R38). The agenda and the reply are the model's own (log entries
1, 13). -/
def Obligations.StepRunsIssuedCommand : Prop :=
  ∀ (s : State) (w : Word) (rest : List Action), s.fault = none → s.waiting = false →
    s.agenda = .portWr .cmd w :: rest →
    (∀ i, decodeWord w = .ok i → step s = exec i { s with agenda := rest, reply := .nothing }) ∧
    (∀ e, decodeWord w = .error e →
      step s = .next { s with agenda := rest, reply := .nothing, fault := some .illegalCommand })

/-- The step after an instruction is placed runs exactly it, for a command word and for a wire frame; the
clock rise of a frame that completes also finishes the EEP.SET SK that makes it (the model's placing, log
entry 1). -/
def Obligations.PlacedInstructionIsRun : Prop :=
  ∀ (s : State) (nbits w : Nat) (i : Instr), decodeTableWord nbits w = some i →
    let p := { s with fault := none, waiting := false, reply := .nothing }
    (∀ v, tableCode nbits w = .word v → step (s.withFetchWord nbits w) = exec i p) ∧
    (∀ bits, tableCode nbits w = .frame bits →
      let t := { p with
        gpio := ⟨true, true, bits.getLastD false⟩
        dev := { s.dev with mode := .recv, shift := bits } }
      (∃ d, exec i t = .next { t with dev := d } ∧
        step (s.withFetchWord nbits w) = .next { t with dev := d, status := some 0#32 }) ∨
      (∃ k u, exec i t = .next { t with fault := some k } ∧
        step (s.withFetchWord nbits w) = .next u ∧ u.fault = some k))

/-- The clock rise that completes a frame runs the decoded frame (42_eeprom.md R300, R322): EEP.SET SK has
the frame's effect on the device, drives the line and finishes with OK; or both raise the frame's fault. -/
def Obligations.ClockRiseRunsDecodedFrame : Prop :=
  ∀ (s : State) (bits : List Bool) (b : Bool) (i : Instr),
    s.gpio.cs = true → s.gpio.sk = false → s.gpio.di = b → s.dev.mode = .recv → s.dev.shift = bits →
    decodeFrame (bits ++ [b]) = .ok i →
    let t := { s with dev := { s.dev with shift := bits ++ [b] } }
    (∃ d, exec i t = .next { t with dev := d } ∧
      exec .eepSetSk s =
        .next { s with gpio := { s.gpio with sk := true }, dev := d, status := some 0#32 }) ∨
    (∃ k, exec i t = .next (t.raise k) ∧ exec .eepSetSk s = .next (s.raise k))

/-- A step from a state with a fault stops, and one with nothing to do changes nothing: the model's choices
(60_exceptions.md R511 lets a model stop; log entries 1, 3). -/
def Obligations.StepStopsOnFaultAndIdles : Prop :=
  (∀ (s : State) (k : FaultKind), s.fault = some k → step s = .fault (.raised k)) ∧
  (∀ s : State, s.fault = none → s.agenda = [] → step s = .next s)

/-- Raising a fault sets the sticky mark, keeps the first one and changes nothing else; no action of any
agent, an interruption included, clears `fault` or `refused` (10_state.md R60, R61; 60_exceptions.md R510,
R511). -/
def Obligations.FaultAndRefusedAreSticky : Prop :=
  (∀ (s : State) (k : FaultKind), s.raise k = { s with fault := some (s.fault.getD k) }) ∧
  (∀ (a : Action) (s t : State), takeAction a s = .next t →
    (∀ k, s.fault = some k → t.fault = some k) ∧ (s.refused = true → t.refused = true))

/-- The outcomes of an instruction (60_exceptions.md R500, R501, R503, R510, R521; 10_state.md R38): it
completes, a command with a code that commands produce (OK for all but the validator's commands) and a frame
with STATUS as it was; or it raises a fault and changes nothing else; or it has no step because an access is
not admitted. An instruction that accesses no memory always has a step, and none is refused. -/
def Obligations.InstructionOutcomes : Prop :=
  ∀ (i : Instr) (s : State),
    ((∃ t, exec i s = .next t ∧ t.fault = s.fault ∧
        (unitOf i = .device → t.status = s.status) ∧
        (unitOf i ≠ .device → ∃ c ∈ commandCodes, t.status = some (statusWord c)) ∧
        (unitOf i ≠ .device → unitOf i ≠ .ctr → t.status = some 0#32)) ∨
      (∃ k, exec i s = .next (s.raise k)) ∨
      exec i s = .fault .notAdmitted) ∧
    (readsMemory i = false → ∃ t, exec i s = .next t)

/-- What an instruction leaves unchanged, for all of them (10_state.md R31, R34, R40, R42-R44; 20_memory.md
R81; 30_encoding.md R125; 40_crc.md R211; 42_eeprom.md R332; 70_reset_and_hazards.md R562). -/
def Obligations.UnitsKeepToTheirState : Prop :=
  ∀ (i : Instr) (s t : State), exec i s = .next t →
    (t.arg = s.arg ∧ t.par = s.par ∧ t.nand = s.nand ∧ t.refused = s.refused ∧
      t.agenda = s.agenda ∧ t.restarts = s.restarts ∧ t.reply = s.reply ∧ t.waiting = s.waiting ∧
      t.dev.array = s.dev.array) ∧
    (unitOf i ≠ .crc → t.crcAcc = s.crcAcc) ∧
    (unitOf i ≠ .aes → t.aes = s.aes) ∧
    (unitOf i ≠ .eep → t.gpio = s.gpio) ∧
    (unitOf i ≠ .eep → unitOf i ≠ .device → t.dev = s.dev) ∧
    (i ≠ .eepIn → t.draws = s.draws) ∧
    (unitOf i ≠ .aes → i ≠ .eccCalc → ∀ a, t.mem.get a = s.mem.get a) ∧
    (i ≠ .sysFlush → i ≠ .eccCalc → t.coh.hostDirty = s.coh.hostDirty) ∧
    (i ≠ .sysInval → unitOf i ≠ .aes → t.coh.devDirty = s.coh.devDirty) ∧
    (unitOf i ≠ .ctr → ∀ j : Fin 8, j ≠ 0 → t.res[j] = s.res[j]) ∧
    (unitOf i ≠ .ctr → i ≠ .crcFinal → i ≠ .crcCompute → i ≠ .eepIn → t.res = s.res)

/-! ## SYS -/

/-- 20_memory.md R102: SYS.NOP does nothing but finish with OK. -/
def Obligations.SysNopResult : Prop :=
  decodeWord 0x00000000#32 = .ok .sysNop ∧
  (∀ w, decodeWord w = .ok .sysNop → w = 0x00000000#32) ∧
  ∀ s : State, exec .sysNop s = .next { s with status := some 0#32 }

/-- 20_memory.md R98: SYS.FLUSH takes its range out of `coh.hostDirty` and changes nothing else but STATUS;
its faults. No admission is checked. -/
def Obligations.SysFlushResult : Prop :=
  decodeWord 0x01000000#32 = .ok .sysFlush ∧
  ∀ s : State,
    ((s.arg[0] = none ∨ s.arg[1] = none) → exec .sysFlush s = .next (s.raise .readUnwritten)) ∧
    ∀ a n : Word, s.arg[0] = some a → s.arg[1] = some n →
      (¬ Fits a.toNat n.toNat → exec .sysFlush s = .next (s.raise .rangeWrap)) ∧
      (Fits a.toNat n.toNat → ∃ set',
        exec .sysFlush s =
          .next { s with coh := { s.coh with hostDirty := set' }, status := some 0#32 } ∧
        Unmarked s.coh.hostDirty set' a.toNat n.toNat)

/-- 20_memory.md R99: SYS.INVAL takes its range out of `coh.devDirty` and changes nothing else but STATUS;
its faults, among them a host-dirty byte in the range. -/
def Obligations.SysInvalResult : Prop :=
  decodeWord 0x02000000#32 = .ok .sysInval ∧
  ∀ s : State,
    ((s.arg[0] = none ∨ s.arg[1] = none) → exec .sysInval s = .next (s.raise .readUnwritten)) ∧
    ∀ a n : Word, s.arg[0] = some a → s.arg[1] = some n →
      (¬ Fits a.toNat n.toNat → exec .sysInval s = .next (s.raise .rangeWrap)) ∧
      (Fits a.toNat n.toNat → ¬ Avoids s.coh.hostDirty a.toNat n.toNat →
        exec .sysInval s = .next (s.raise .coherence)) ∧
      (Fits a.toNat n.toNat → Avoids s.coh.hostDirty a.toNat n.toNat → ∃ set',
        exec .sysInval s =
          .next { s with coh := { s.coh with devDirty := set' }, status := some 0#32 } ∧
        Unmarked s.coh.devDirty set' a.toNat n.toNat)

/-! ## CRC -/

/-- 40_crc.md R205: CRC.INIT sets the accumulator to 0xFFFFFFFF. -/
def Obligations.CrcInitResult : Prop :=
  decodeWord 0x10000000#32 = .ok .crcInit ∧
  ∀ s : State, exec .crcInit s = .next { s with crcAcc := some 0xFFFFFFFF#32, status := some 0#32 }

/-- 40_crc.md R206: CRC.BYTE consumes its byte; it faults without an accumulator, and with a bit of
w[23:8]. -/
def Obligations.CrcByteResult : Prop :=
  (∀ b : Byte, decodeWord (0x11000000#32 ||| b.setWidth 32) = .ok (.crcByte b)) ∧
  (∀ (w : Word) (s : State), w.toNat / 0x1000000 = 0x11 → w &&& 0x00FFFF00#32 ≠ 0#32 →
    issue w s = .next (s.raise .illegalCommand)) ∧
  ∀ (b : Byte) (s : State),
    (s.crcAcc = none → exec (.crcByte b) s = .next (s.raise .readUnwritten)) ∧
    (∀ acc, s.crcAcc = some acc →
      exec (.crcByte b) s = .next { s with crcAcc := some (crcStep acc b), status := some 0#32 })

/-- 40_crc.md R207: CRC.RANGE consumes the bytes of its range, first to last; every check comes before the
accumulator changes. -/
def Obligations.CrcRangeResult : Prop :=
  decodeWord 0x12000000#32 = .ok .crcRange ∧
  ∀ s : State,
    ((s.arg[0] = none ∨ s.arg[1] = none ∨ s.crcAcc = none) →
      exec .crcRange s = .next (s.raise .readUnwritten)) ∧
    ∀ (a n acc : Word), s.arg[0] = some a → s.arg[1] = some n → s.crcAcc = some acc →
      s.ReadStops a.toNat n.toNat (exec .crcRange s) ∧
      ∀ bs : List Byte, bs.length = n.toNat → s.HostReads a.toNat bs →
        exec .crcRange s =
          .next { s with crcAcc := some (bs.foldl crcStep acc), status := some 0#32 }

/-- 40_crc.md R208: CRC.FINAL delivers the accumulator's complement and keeps the accumulator. -/
def Obligations.CrcFinalResult : Prop :=
  decodeWord 0x13000000#32 = .ok .crcFinal ∧
  ∀ s : State,
    (s.crcAcc = none → exec .crcFinal s = .next (s.raise .readUnwritten)) ∧
    (∀ acc, s.crcAcc = some acc →
      exec .crcFinal s =
        .next { s with res := s.res.set 0 (some (acc ^^^ 0xFFFFFFFF#32)), status := some 0#32 })

/-- 40_crc.md R209: CRC.COMPUTE delivers the CRC of its range, whatever the accumulator held, and leaves the
accumulator of that computation. -/
def Obligations.CrcComputeResult : Prop :=
  decodeWord 0x14000000#32 = .ok .crcCompute ∧
  ∀ s : State,
    ((s.arg[0] = none ∨ s.arg[1] = none) →
      exec .crcCompute s = .next (s.raise .readUnwritten)) ∧
    ∀ a n : Word, s.arg[0] = some a → s.arg[1] = some n →
      s.ReadStops a.toNat n.toNat (exec .crcCompute s) ∧
      ∀ bs : List Byte, bs.length = n.toNat → s.HostReads a.toNat bs →
        exec .crcCompute s =
          .next { s with
            crcAcc := some (bs.foldl crcStep 0xFFFFFFFF#32)
            res := s.res.set 0 (some (crc32 bs))
            status := some 0#32 }

/-- Laws of the CRC function (40_crc.md R201-R204): entry n of the table is eight rounds, from n, of the shift
with the polynomial; a step looks the table up at the low byte and shifts; steps over a concatenation compose;
the table is linear over exclusive-or, and its eight entries of one bit are the listed ones; the empty sequence
and the published check value. -/
def Obligations.CrcFunctionLaws : Prop :=
  (∀ n : Byte, ∃ c : Fin 9 → Word, c 0 = n.setWidth 32 ∧ crcTable n = c 8 ∧
    ∀ k : Fin 8, c k.succ =
      if (c k.castSucc).getLsbD 0 then (c k.castSucc >>> 1) ^^^ 0xEDB88320#32
      else c k.castSucc >>> 1) ∧
  (∀ (acc : Word) (u v : List Byte),
    (u ++ v).foldl crcStep acc = v.foldl crcStep (u.foldl crcStep acc)) ∧
  (∀ m n : Byte, crcTable (m ^^^ n) = crcTable m ^^^ crcTable n) ∧
  (∀ (acc : Word) (b : Byte),
    crcStep acc b = crcTable ((acc ^^^ b.setWidth 32).setWidth 8) ^^^ (acc >>> 8)) ∧
  (List.range 8).map (fun k => crcTable (1#8 <<< k)) =
    [0x77073096#32, 0xEE0E612C#32, 0x076DC419#32, 0x0EDB8832#32,
     0x1DB71064#32, 0x3B6E20C8#32, 0x76DC4190#32, 0xEDB88320#32] ∧
  crcTable 0#8 = 0#32 ∧
  crc32 [] = 0#32 ∧
  crc32 [0x31#8, 0x32#8, 0x33#8, 0x34#8, 0x35#8, 0x36#8, 0x37#8, 0x38#8, 0x39#8] = 0xCBF43926#32

/-- The CRC detects every error within one byte, and so every single-bit error (40_crc.md R204). -/
def Obligations.CrcDetectsOneWrongByte : Prop :=
  ∀ (u v : List Byte) (b c : Byte), b ≠ c → crc32 (u ++ b :: v) ≠ crc32 (u ++ c :: v)

/-- CRC.COMPUTE is CRC.INIT, CRC.RANGE and CRC.FINAL in one command, in every state where the three complete
(40_crc.md R205, R207-R209). -/
def Obligations.CrcComputeIsInitRangeFinal : Prop :=
  ∀ s t u v : State, s.fault = none → exec .crcInit s = .next t → exec .crcRange t = .next u →
    u.fault = none → exec .crcFinal u = .next v → exec .crcCompute s = .next v

/-! ## The cipher -/

/-- 41_aes_cbc.md R250, R253: AES.RESET empties all three registers; AES.CLRIV sets the IV to sixteen zero
bytes and ends the chain. -/
def Obligations.AesResetAndClriv : Prop :=
  decodeWord 0x20000000#32 = .ok .aesReset ∧ decodeWord 0x23000000#32 = .ok .aesClriv ∧
  ∀ s : State,
    exec .aesReset s =
      .next { s with aes := { key := none, iv := none, chain := none }, status := some 0#32 } ∧
    exec .aesClriv s =
      .next { s with
        aes := { s.aes with iv := some (Vector.replicate 16 0#8), chain := none }
        status := some 0#32 }

/-- 41_aes_cbc.md R251, R252: AES.SETKEY and AES.SETIV load their bytes, in the order of memory, and end the
chain; their faults. -/
def Obligations.AesKeyAndIvLoads : Prop :=
  decodeWord 0x21000000#32 = .ok .aesSetkey ∧ decodeWord 0x22000000#32 = .ok .aesSetiv ∧
  ∀ s : State,
    (s.arg[0] = none →
      exec .aesSetkey s = .next (s.raise .readUnwritten) ∧
      exec .aesSetiv s = .next (s.raise .readUnwritten)) ∧
    ∀ a : Word, s.arg[0] = some a →
      s.ReadStops a.toNat s.par.keyBytes (exec .aesSetkey s) ∧
      s.ReadStops a.toNat 16 (exec .aesSetiv s) ∧
      (∀ key : List Byte, key.length = s.par.keyBytes → s.HostReads a.toNat key →
        exec .aesSetkey s =
          .next { s with aes := { s.aes with key := some key, chain := none }, status := some 0#32 }) ∧
      (∀ iv : Block, s.HostReads a.toNat iv.toList →
        exec .aesSetiv s =
          .next { s with aes := { s.aes with iv := some iv, chain := none }, status := some 0#32 })

/-- 41_aes_cbc.md R254: AES.ENC writes the CBC encryption of its n source blocks to the destination, marks
the destination device-dirty, leaves the last ciphertext block in the chain and changes nothing else but
STATUS; its exceptions, in the order checked. -/
def Obligations.AesEncResult : Prop :=
  (∀ (n : Nat) (keep : Bool), 1 ≤ n → n ≤ 128 →
    decodeWord (0x24000000#32 ||| (if keep then 0x1000#32 else 0#32) ||| BitVec.ofNat 32 (n - 1)) =
      .ok (.aesEnc n keep)) ∧
  (∀ (w : Word) (s : State), w.toNat / 0x1000000 = 0x24 → w &&& 0x00FFEF80#32 ≠ 0#32 →
    issue w s = .next (s.raise .illegalCommand)) ∧
  (∀ (s : State) (n : Nat) (keep : Bool), 1 ≤ n → n ≤ 128 →
    s.CipherStops keep n (exec (.aesEnc n keep) s)) ∧
  (∀ (s : State) (keep : Bool) (src dst : Word) (key : List Byte) (c : Block) (input : List Block),
    1 ≤ input.length → input.length ≤ 128 →
    s.CipherReady keep src dst input.length key c → s.Holds src.toNat (ofBlocks input) →
    s.CipherDone dst.toNat (cbcEnc (Config.blockEnc key) c input).1
      (cbcEnc (Config.blockEnc key) c input).2 (exec (.aesEnc input.length keep) s))

/-- 41_aes_cbc.md R255: AES.DEC writes the CBC decryption of its n source blocks to the destination, marks
the destination device-dirty, leaves the last ciphertext block, read before any output, in the chain and
changes nothing else but STATUS; its exceptions, in the order of AES.ENC. -/
def Obligations.AesDecResult : Prop :=
  (∀ (n : Nat) (keep : Bool), 1 ≤ n → n ≤ 128 →
    decodeWord (0x25000000#32 ||| (if keep then 0x1000#32 else 0#32) ||| BitVec.ofNat 32 (n - 1)) =
      .ok (.aesDec n keep)) ∧
  (∀ (w : Word) (s : State), w.toNat / 0x1000000 = 0x25 → w &&& 0x00FFEF80#32 ≠ 0#32 →
    issue w s = .next (s.raise .illegalCommand)) ∧
  (∀ (s : State) (n : Nat) (keep : Bool), 1 ≤ n → n ≤ 128 →
    s.CipherStops keep n (exec (.aesDec n keep) s)) ∧
  (∀ (s : State) (keep : Bool) (src dst : Word) (key : List Byte) (c : Block) (input : List Block),
    1 ≤ input.length → input.length ≤ 128 →
    s.CipherReady keep src dst input.length key c → s.Holds src.toNat (ofBlocks input) →
    s.CipherDone dst.toNat (cbcDec (Config.blockDec key) c input).1
      (input.getLastD c) (exec (.aesDec input.length keep) s))

/-- The CBC equations (41_aes_cbc.md R242, R243), block by block: C_i is the encryption of P_i exclusive-or
C_(i-1), P_i is the decryption of C_i exclusive-or C_(i-1), with the chaining value before the first block and
the last ciphertext block left behind. The chunking law (R244, R245): what chunks give, each from the chaining
value of the one before, is one pass over the whole buffer; and on the commands, a chunk with K = 0 and then
the adjacent chunk with K = 1 write the one CBC pass over both, from the IV, and leave its chaining value. -/
def Obligations.CbcChunksChain : Prop :=
  (∀ (a b : Block) (j : Nat) (h : j < 16), (xorBlock a b)[j] = a[j] ^^^ b[j]) ∧
  (∀ (key : List Byte) (c : Block) (blocks : List Block),
    let out := cbcEnc (Config.blockEnc key) c blocks
    out.1.length = blocks.length ∧ out.2 = out.1.getLastD c ∧
    ∀ (i : Nat) (p : Block), blocks[i]? = some p →
      out.1[i]? = some (Config.blockEnc key (xorBlock p (if i = 0 then c else out.1.getD (i - 1) c)))) ∧
  (∀ (key : List Byte) (c : Block) (blocks : List Block),
    let out := cbcDec (Config.blockDec key) c blocks
    out.1.length = blocks.length ∧ out.2 = blocks.getLastD c ∧
    ∀ (i : Nat) (x : Block), blocks[i]? = some x →
      out.1[i]? = some (xorBlock (Config.blockDec key x) (if i = 0 then c else blocks.getD (i - 1) c))) ∧
  (∀ (key : List Byte) (c : Block) (chunks : List (List Block)),
    cbcEnc (Config.blockEnc key) c chunks.flatten =
      chunks.foldl (fun acc chunk =>
        let r := cbcEnc (Config.blockEnc key) acc.2 chunk
        (acc.1 ++ r.1, r.2)) ([], c) ∧
    cbcDec (Config.blockDec key) c chunks.flatten =
      chunks.foldl (fun acc chunk =>
        let r := cbcDec (Config.blockDec key) acc.2 chunk
        (acc.1 ++ r.1, r.2)) ([], c)) ∧
  (∀ (s : State) (src dst : Word) (key : List Byte) (iv : Block) (first second : List Block),
    1 ≤ first.length → first.length ≤ 128 → 1 ≤ second.length → second.length ≤ 128 →
    s.CipherReady false src dst (first.length + second.length) key iv →
    s.Holds src.toNat (ofBlocks (first ++ second)) →
    (∃ u, exec (.aesEnc first.length false) s = .next u ∧
      (s.nextChunk src dst first.length).CipherDone dst.toNat
        (cbcEnc (Config.blockEnc key) iv (first ++ second)).1
        (cbcEnc (Config.blockEnc key) iv (first ++ second)).2
        (exec (.aesEnc second.length true) (u.nextChunk src dst first.length))) ∧
    (∃ u, exec (.aesDec first.length false) s = .next u ∧
      (s.nextChunk src dst first.length).CipherDone dst.toNat
        (cbcDec (Config.blockDec key) iv (first ++ second)).1
        (cbcDec (Config.blockDec key) iv (first ++ second)).2
        (exec (.aesDec second.length true) (u.nextChunk src dst first.length))))

/-- Round trip in place (41_aes_cbc.md R254, R255, R273): where AES.ENC from the IV in place completes,
AES.DEC from the IV with the same operands completes too, and gives every byte of memory back. -/
def Obligations.AesInPlaceRoundTrip : Prop :=
  ∀ (n : Nat) (s t : State), 1 ≤ n → n ≤ 128 → s.arg[0] = s.arg[1] → s.fault = none →
    exec (.aesEnc n false) s = .next t → t.fault = none →
    ∃ u, exec (.aesDec n false) t = .next u ∧ u.fault = none ∧ u.aes.chain = t.aes.chain ∧
      ∀ a, u.mem.get a = s.mem.get a

/-! ## The EEPROM port and its device -/

/-- 42_eeprom.md R300, R301, R303: EEP.SET DI, EEP.CLR DI and EEP.CLR SK drive their line and the device does
not react; EEP.DELAY changes nothing but STATUS. -/
def Obligations.EepDataLinesAndDelay : Prop :=
  decodeWord 0x30000002#32 = .ok .eepSetDi ∧ decodeWord 0x31000002#32 = .ok .eepClrDi ∧
  decodeWord 0x31000001#32 = .ok .eepClrSk ∧ decodeWord 0x33000000#32 = .ok .eepDelay ∧
  ∀ s : State,
    exec .eepSetDi s = .next { s with gpio := { s.gpio with di := true }, status := some 0#32 } ∧
    exec .eepClrDi s = .next { s with gpio := { s.gpio with di := false }, status := some 0#32 } ∧
    exec .eepClrSk s = .next { s with gpio := { s.gpio with sk := false }, status := some 0#32 } ∧
    exec .eepDelay s = .next { s with status := some 0#32 }

/-- 42_eeprom.md R321 with R300: EEP.SET CS drives the line; on a rise the device enters STATUS mode and
shows ready or busy if a status is pending or it is busy, else it starts to receive. -/
def Obligations.EepChipSelectRise : Prop :=
  ∀ s : State,
    (s.gpio.cs = true → exec .eepSetCs s = .next { s with status := some 0#32 }) ∧
    (s.gpio.cs = false → (s.dev.statusPending = true ∨ s.dev.busy = true) →
      exec .eepSetCs s =
        .next { s with
          gpio := { s.gpio with cs := true }
          dev := { s.dev with
            mode := .status
            dout := if s.dev.busy = true then .zero else .one }
          status := some 0#32 }) ∧
    (s.gpio.cs = false → s.dev.statusPending = false → s.dev.busy = false →
      exec .eepSetCs s =
        .next { s with
          gpio := { s.gpio with cs := true }
          dev := { s.dev with mode := .recv, shift := [], out := [], dout := .z }
          status := some 0#32 })

/-- 42_eeprom.md R328 with R301: EEP.CLR CS drives the line; on a fall the device ends its frame, a pending
status has been shown if the mode was STATUS, and an armed write starts. -/
def Obligations.EepChipSelectFall : Prop :=
  ∀ s : State,
    (s.gpio.cs = false → exec .eepClrCs s = .next { s with status := some 0#32 }) ∧
    (s.gpio.cs = true → s.dev.armed = none →
      exec .eepClrCs s =
        .next { s with
          gpio := { s.gpio with cs := false }
          dev := { s.dev with
            statusPending := if s.dev.mode = .status then false else s.dev.statusPending
            mode := .idle, shift := [], out := [], dout := .z }
          status := some 0#32 }) ∧
    (∀ write : Byte × Half, s.gpio.cs = true → s.dev.armed = some write →
      exec .eepClrCs s =
        .next { s with
          gpio := { s.gpio with cs := false }
          dev := { s.dev with
            busy := true, prog := some write, armed := none, statusPending := true
            mode := .idle, shift := [], out := [], dout := .z }
          status := some 0#32 })

/-- EEP.SET SK (42_eeprom.md R300, R322, R323, R325, R330, R332): without a rise, with chip-select 0 or in
IDLE mode only the line changes; OUT mode shows the next data bit; STATUS mode ignores a 0 and faults at a
1; RECV mode skips a 0 before the start bit and appends any other bit, with no more effect while the frame
is not complete. -/
def Obligations.EepClockRiseByMode : Prop :=
  ∀ s : State,
    let driven := { s with gpio := { s.gpio with sk := true }, status := some 0#32 }
    ((s.gpio.sk = true ∨ s.gpio.cs = false ∨ s.dev.mode = .idle) →
      exec .eepSetSk s = .next driven) ∧
    (s.gpio.sk = false → s.gpio.cs = true →
      (∀ b rest, s.dev.mode = .out → s.dev.out = b :: rest →
        exec .eepSetSk s =
          .next { driven with
            dev := { s.dev with dout := if b = true then .one else .zero, out := rest } }) ∧
      (s.dev.mode = .out → s.dev.out = [] →
        exec .eepSetSk s = .next { driven with dev := { s.dev with dout := .z } }) ∧
      (s.dev.mode = .status → s.gpio.di = false → exec .eepSetSk s = .next driven) ∧
      (s.dev.mode = .status → s.gpio.di = true →
        exec .eepSetSk s = .next (s.raise .eepProtocol)) ∧
      (s.dev.mode = .recv → s.dev.shift = [] → s.gpio.di = false →
        exec .eepSetSk s = .next driven) ∧
      (∀ bits, s.dev.mode = .recv → (s.dev.shift ≠ [] ∨ s.gpio.di = true) →
        bits = s.dev.shift ++ [s.gpio.di] → FramePartial bits →
        exec .eepSetSk s = .next { driven with dev := { s.dev with shift := bits } }))

/-- 42_eeprom.md R302: EEP.IN delivers the device's line, or, where the line is not driven, some bit that
nothing fixes; the device does not react. -/
def Obligations.EepInResult : Prop :=
  decodeWord 0x32000000#32 = .ok .eepIn ∧
  ∀ s : State,
    (s.dev.dout = .zero →
      exec .eepIn s = .next { s with res := s.res.set 0 (some 0#32), status := some 0#32 }) ∧
    (s.dev.dout = .one →
      exec .eepIn s = .next { s with res := s.res.set 0 (some 1#32), status := some 0#32 }) ∧
    (s.dev.dout = .z → ∃ bit : Bool,
      exec .eepIn s =
        .next { s with
          res := s.res.set 0 (some (if bit then 1#32 else 0#32))
          status := some 0#32
          draws := s.draws + 1 })

/-- What the device does with a complete frame in RECV mode (42_eeprom.md R324, R326, R327; 30_encoding.md
R144): READ readies the word's bits behind a dummy 0; EWEN and EWDS set and clear the write-enable latch;
WRITE arms its word if the latch is set and is ignored if not; the reserved frames raise
`Fault(EepProtocol)`. -/
def Obligations.FrameReactions : Prop :=
  ∀ s : State, s.gpio.cs = true → s.dev.mode = .recv →
    (∀ a : Byte, exec (.frameRead a) s =
      .next { s with dev := { s.dev with
        mode := .out, dout := .zero
        out := (List.range 16).map fun j => (s.dev.array[a.toNat]'a.isLt).getMsbD j } }) ∧
    (∀ x, exec (.frameEwen x) s = .next { s with dev := { s.dev with wel := true, mode := .idle } }) ∧
    (∀ x, exec (.frameEwds x) s = .next { s with dev := { s.dev with wel := false, mode := .idle } }) ∧
    (∀ a d, s.dev.wel = true →
      exec (.frameWrite a d) s =
        .next { s with dev := { s.dev with armed := some (a, d), mode := .idle } }) ∧
    (∀ a d, s.dev.wel = false →
      exec (.frameWrite a d) s = .next { s with dev := { s.dev with mode := .idle } }) ∧
    (∀ a, exec (.frameReserved11 a) s = .next (s.raise .eepProtocol)) ∧
    (∀ x, exec (.frameReserved0001 x) s = .next (s.raise .eepProtocol)) ∧
    (∀ x, exec (.frameReserved0010 x) s = .next (s.raise .eepProtocol))

/-- What becomes of a frame sent to a device that is not receiving: the model's reading of 42_eeprom.md R325,
R330 and R332 for a whole frame (log entry 10). -/
def Obligations.FrameOutsideReceive : Prop :=
  ∀ (i : Instr) (bits : List Bool) (s : State), encode i = .frame bits →
    ((s.gpio.cs = false ∨ s.dev.mode = .idle) → exec i s = .next s) ∧
    (s.gpio.cs = true → s.dev.mode = .status → exec i s = .next (s.raise .eepProtocol)) ∧
    (s.gpio.cs = true → s.dev.mode = .out → s.dev.out.length ≤ 16 → 11 ≤ s.dev.out.length →
      bits.length = 11 → ∀ b, s.dev.out[10]? = some b →
      exec i s = .next { s with dev := { s.dev with
        out := s.dev.out.drop 11
        dout := if b = true then .one else .zero } }) ∧
    (s.gpio.cs = true → s.dev.mode = .out → s.dev.out.length < bits.length →
      exec i s = .next { s with dev := { s.dev with out := [], dout := .z } })

/-- A frame clocked in bit by bit is the frame executed (30_encoding.md R140; 42_eeprom.md R310, R322-R327):
from an empty shift register, the commands that clock the bits of a frame's code leave the device as the
frame's reaction does, the clock 0 and the last bit on the data line; those of a reserved frame end in
`Fault(EepProtocol)`. -/
def Obligations.WireFrameIsExecuted : Prop :=
  ∀ (i : Instr) (bits : List Bool) (s : State), encode i = .frame bits →
    s.gpio.cs = true → s.gpio.sk = false → s.dev.mode = .recv → s.dev.shift = [] → s.fault = none →
    let t := { s with dev := { s.dev with shift := bits } }
    (∃ d, exec i t = .next { t with dev := d } ∧
      execAll (clockBits bits) s =
        .next { s with
          dev := d
          gpio := ⟨true, false, bits.getLastD false⟩
          status := some 0#32 }) ∨
    (exec i t = .next (t.raise .eepProtocol) ∧
      ∃ u, execAll (clockBits bits) s = .next u ∧ u.fault = some .eepProtocol ∧
        u.dev.array = s.dev.array ∧ u.dev.wel = s.dev.wel ∧ u.dev.armed = s.dev.armed)

/-- The driver's READ of one word (42_eeprom.md R343, R347, R350): run alone from lines at 0, with the device
neither busy nor with a status pending, it returns the stored word, with no draw, and leaves the EEPROM and
the lines CS and SK as they were. -/
def Obligations.ReadWordReturnsStoredWord : Prop :=
  ∀ (a : Byte) (r : Run), r.env = [] → r.state.fault = none → r.state.waiting = false →
    r.state.gpio.cs = false → r.state.gpio.sk = false → r.state.dev.busy = false →
    r.state.dev.statusPending = false → r.state.dev.armed = none →
    ∃ r' : Run, (eepReadWord a.toNat).run r = (.ok (r.state.dev.array[a.toNat]'a.isLt).toNat, r') ∧
      r'.state.dev.array = r.state.dev.array ∧ r'.state.dev.mode = .idle ∧
      r'.state.dev.wel = r.state.dev.wel ∧ r'.state.gpio.cs = false ∧ r'.state.gpio.sk = false ∧
      r'.state.draws = r.state.draws ∧ r'.state.fault = none

/-- A word is written by a WRITE frame with the latch set, the fall of chip-select and the device's
completion, in this order, and it becomes durable at the completion only (42_eeprom.md R327, R328, R331;
20_memory.md R111). -/
def Obligations.WriteFrameProgramsWord : Prop :=
  ∀ (a : Byte) (d : Half) (s t u : State),
    s.gpio.cs = true → s.dev.mode = .recv → s.dev.wel = true →
    exec (.frameWrite a d) s = .next t → exec .eepClrCs t = .next u →
    t.dev.array = s.dev.array ∧ u.dev.array = s.dev.array ∧ u.dev.busy = true ∧
    ∃ v, deviceStep u = .next v ∧ v.dev.busy = false ∧ v.dev.statusPending = true ∧
      ∀ b : Byte, v.dev.array[b.toNat]'b.isLt = if b = a then d else s.dev.array[b.toNat]'b.isLt

/-- The EEPROM words change only when a write completes, and then only the word being programmed, or at an
interruption (20_memory.md R111; 42_eeprom.md R331, R332; 45_host_protocols.md R480). -/
def Obligations.EepromWordsChangeOnlyAtCompletion : Prop :=
  ∀ (a : Action) (s t : State), takeAction a s = .next t →
    (a ≠ .devComplete → (∀ m nb, a ≠ .interrupt m nb) → t.dev.array = s.dev.array) ∧
    (∀ b : Byte, (∀ v, s.dev.prog ≠ some (b, v)) →
      t.dev.array[b.toNat]'b.isLt = s.dev.array[b.toNat]'b.isLt)

/-- 42_eeprom.md R331: `dev_complete` is enabled while the device is busy; it makes the word durable, ends
the write and shows ready in STATUS mode. -/
def Obligations.DevCompleteResult : Prop :=
  ∀ s : State,
    (s.dev.busy = false → deviceStep s = .fault .notEnabled) ∧
    (∀ (a : Byte) (d : Half), s.dev.busy = true → s.dev.prog = some (a, d) →
      deviceStep s =
        .next { s with dev := { s.dev with
          array := s.dev.array.set a.toNat d a.isLt
          busy := false
          prog := none
          dout := if s.dev.mode = .status then .one else s.dev.dout } })

/-! ## ECC -/

/-- 43_ecc.md R367: ECC.CALC stores the code of its 512 bytes at the code address, marks the four bytes
host-dirty and changes nothing else but STATUS; its exceptions, in order. -/
def Obligations.EccCalcResult : Prop :=
  decodeWord 0x40000000#32 = .ok .eccCalc ∧
  ∀ s : State,
    ((s.arg[0] = none ∨ s.arg[1] = none) → exec .eccCalc s = .next (s.raise .readUnwritten)) ∧
    ∀ src dst : Word, s.arg[0] = some src → s.arg[1] = some dst →
      (¬ (Fits src.toNat 512 ∧ Fits dst.toNat 4) → exec .eccCalc s = .next (s.raise .rangeWrap)) ∧
      (Fits src.toNat 512 → Fits dst.toNat 4 →
        (¬ (s.Admits src.toNat 512 ∧ s.Admits dst.toNat 4) → exec .eccCalc s = .fault .notAdmitted) ∧
        (s.Admits src.toNat 512 → s.Admits dst.toNat 4 →
          (¬ Avoids s.coh.devDirty src.toNat 512 → exec .eccCalc s = .next (s.raise .coherence)) ∧
          (∀ data : List Byte, data.length = 512 → s.HostReads src.toNat data →
            ∃ (m' : Memory) (set' : List Nat),
              exec .eccCalc s =
                .next { s with
                  mem := m', coh := { s.coh with hostDirty := set' }, status := some 0#32 } ∧
              Stored s.mem m' dst.toNat (calcEcc data) ∧
              Marked s.coh.hostDirty set' dst.toNat 4)))

/-- 43_ecc.md R366: the code is linear; the even and the odd word differ by 0xFFF or by nothing, as the
parity of the exclusive-or of all bytes says; flipping bit b of byte i changes the odd word by
`(i << 3) | b` and the even word by its complement in twelve bits; a block of equal bytes has the zero
code. -/
def Obligations.EccCodeProperties : Prop :=
  (∀ d d' : List Byte, d.length = 512 → d'.length = 512 →
    calcEcc (List.zipWith (fun x y => x ^^^ y) d d') =
      List.zipWith (fun x y => x ^^^ y) (calcEcc d) (calcEcc d')) ∧
  calcEcc (List.replicate 512 0#8) = [0#8, 0#8, 0#8, 0#8] ∧
  (∀ d : List Byte, d.length = 512 →
    eccWord d false ^^^ eccWord d true =
      if parity (d.foldl (fun x y => x ^^^ y) 0#8) then 0xFFF#16 else 0#16) ∧
  (∀ (d : List Byte) (i b : Nat) (x : Byte), d.length = 512 → i < 512 → b < 8 → d[i]? = some x →
    eccWord (d.set i (x ^^^ (1#8 <<< b))) true = eccWord d true ^^^ BitVec.ofNat 16 (8 * i + b) ∧
    eccWord (d.set i (x ^^^ (1#8 <<< b))) false =
      eccWord d false ^^^ (BitVec.ofNat 16 (8 * i + b) ^^^ 0xFFF#16)) ∧
  (∀ c : Byte, calcEcc (List.replicate 512 c) = [0#8, 0#8, 0#8, 0#8])

/-! ## The container validator -/

/-- CTR.PARSE (44_container.md R391-R394, R400, R404; 60_exceptions.md R513): it reports the eight fields of a
container it accepts and changes nothing else but STATUS; the rejections, in the order of its checks; its faults,
and its stops at a field that is not admitted or holds a device-dirty byte: an access that is not admitted has no
step whatever is device-dirty, and a device-dirty field that is read is reported before any result code. That the
fields after the first check that fails are not accessed is the model's reading (log entry 12). -/
def Obligations.CtrParseResult : Prop :=
  decodeWord 0x50000000#32 = .ok .ctrParse ∧
  ∀ s : State,
    ((s.arg[0] = none ∨ s.arg[1] = none) → exec .ctrParse s = .next (s.raise .readUnwritten)) ∧
    (exec .ctrParse s.coherent = .fault .notAdmitted → exec .ctrParse s = .fault .notAdmitted) ∧
    ∀ p len : Word, s.arg[0] = some p → s.arg[1] = some len →
      (¬ Fits p.toNat len.toNat → exec .ctrParse s = .next (s.raise .rangeWrap)) ∧
      (Fits p.toNat len.toNat →
        let b : Buffer := { addr := p.toNat, len := len.toNat }
        (∀ c : CtrInfo, s.ParsesAs b c →
          exec .ctrParse s =
            .next { s with
              res := #v[some (BitVec.ofNat 32 c.sig.tag), some (BitVec.ofNat 32 c.sigOff),
                some (BitVec.ofNat 32 c.sig.infoOff), some (BitVec.ofNat 32 c.bodyOff),
                some (BitVec.ofNat 32 c.bodySize), some (BitVec.ofNat 32 c.device),
                some (BitVec.ofNat 32 c.version), some (BitVec.ofNat 32 c.infoType)]
              status := some 0#32 }) ∧
        (b.len < 4 → exec .ctrParse s = s.ctrRejected 0x15#32) ∧
        (4 ≤ b.len → s.FieldStops .ctrParse b.addr 4) ∧
        (∀ magic : List Byte, 4 ≤ b.len → magic.length = 4 → s.HostReads b.addr magic →
          magic ≠ s.par.magic.toList → exec .ctrParse s = s.ctrRejected 0x10#32) ∧
        (s.MagicOk b → b.len < 12 → exec .ctrParse s = s.ctrRejected 0x15#32) ∧
        (s.MagicOk b → 12 ≤ b.len → s.FieldStops .ctrParse (b.addr + 8) 4) ∧
        (∀ so, s.MagicOk b → 12 ≤ b.len → s.Field32 b 8 so →
          (b.len < so + 4 → exec .ctrParse s = s.ctrRejected 0x15#32) ∧
          (so + 4 ≤ b.len → s.FieldStops .ctrParse (b.addr + so) 4) ∧
          (∀ tag, so + 4 ≤ b.len → s.Field32 b so tag → tag ≠ 1 → tag ≠ 2 →
            exec .ctrParse s = s.ctrRejected 0x12#32) ∧
          (∀ t : SigType, so + 4 ≤ b.len → s.Field32 b so t.tag →
            (b.len < t.infoOff + infoSize s.par → exec .ctrParse s = s.ctrRejected 0x15#32) ∧
            (t.infoOff + infoSize s.par ≤ b.len →
              let info := b.addr + t.infoOff
              s.FieldStops .ctrParse (info + 0x04) 4 ∧
              ∀ device, s.Field32 b (t.infoOff + 0x04) device →
                s.FieldStops .ctrParse (info + 0x08) 4 ∧
                ∀ infoType, s.Field32 b (t.infoOff + 0x08) infoType →
                  s.FieldStops .ctrParse (info + 0x0C) 4 ∧
                  ∀ size, s.Field32 b (t.infoOff + 0x0C) size →
                    s.FieldStops .ctrParse (info + 0x10 + s.par.hashLen) 4 ∧
                    ∀ version, s.Field32 b (t.infoOff + 0x10 + s.par.hashLen) version →
                      b.len < t.infoOff + infoSize s.par + size →
                      exec .ctrParse s = s.ctrRejected 0x15#32))))

/-- CTR.VERIFY (44_container.md R391, R392, R395, R401, R403, R404): it checks in the order magic, signature
offset, signature type, bounds, signature padding, reserved fields, body hash, reports the first check that
fails, and reports the eight fields of a container that passes them all; its faults, and its stops at a field
that is not admitted or holds a device-dirty byte, in the order of 60_exceptions.md R513: an access that is not
admitted has no step whatever is device-dirty, and a device-dirty field that is read is reported before any result
code. That the fields after the first check that fails are not accessed is the model's reading (log entry 12); that
device, info_type and version are read after the last check is its choice (log entry 25). -/
def Obligations.CtrVerifyChecksInOrder : Prop :=
  decodeWord 0x51000000#32 = .ok .ctrVerify ∧
  ∀ s : State,
    ((s.arg[0] = none ∨ s.arg[1] = none) → exec .ctrVerify s = .next (s.raise .readUnwritten)) ∧
    (exec .ctrVerify s.coherent = .fault .notAdmitted → exec .ctrVerify s = .fault .notAdmitted) ∧
    ∀ p len : Word, s.arg[0] = some p → s.arg[1] = some len →
      (¬ Fits p.toNat len.toNat → exec .ctrVerify s = .next (s.raise .rangeWrap)) ∧
      (Fits p.toNat len.toNat →
        let b : Buffer := { addr := p.toNat, len := len.toNat }
        (b.len < 4 → exec .ctrVerify s = s.ctrRejected 0x15#32) ∧
        (4 ≤ b.len → s.FieldStops .ctrVerify b.addr 4) ∧
        (∀ magic : List Byte, 4 ≤ b.len → magic.length = 4 → s.HostReads b.addr magic →
          magic ≠ s.par.magic.toList → exec .ctrVerify s = s.ctrRejected 0x10#32) ∧
        (s.MagicOk b → b.len < 12 → exec .ctrVerify s = s.ctrRejected 0x15#32) ∧
        (s.MagicOk b → 12 ≤ b.len → s.FieldStops .ctrVerify (b.addr + 8) 4) ∧
        (∀ so, s.MagicOk b → 12 ≤ b.len → s.Field32 b 8 so → so ≠ 0x20 →
          exec .ctrVerify s = s.ctrRejected 0x11#32) ∧
        (s.MagicOk b → 12 ≤ b.len → s.Field32 b 8 0x20 →
          (b.len < 0x24 → exec .ctrVerify s = s.ctrRejected 0x15#32) ∧
          (0x24 ≤ b.len → s.FieldStops .ctrVerify (b.addr + 0x20) 4) ∧
          (∀ tag, 0x24 ≤ b.len → s.Field32 b 0x20 tag → tag ≠ 1 → tag ≠ 2 →
            exec .ctrVerify s = s.ctrRejected 0x12#32) ∧
          (∀ t : SigType, 0x24 ≤ b.len → s.Field32 b 0x20 t.tag →
            (b.len < t.infoOff + infoSize s.par → exec .ctrVerify s = s.ctrRejected 0x15#32) ∧
            (t.infoOff + infoSize s.par ≤ b.len →
              s.FieldStops .ctrVerify (b.addr + (t.infoOff + 0x0C)) 4 ∧
              ∀ size, s.Field32 b (t.infoOff + 0x0C) size →
                b.len < t.infoOff + infoSize s.par + size →
                exec .ctrVerify s = s.ctrRejected 0x15#32))) ∧
        (∀ (t : SigType) (size : Nat), s.BoundsPass b t size →
          s.FieldStops .ctrVerify (b.addr + (0x24 + t.sigLen)) t.sigPad ∧
          (∀ pad : List Byte, pad.length = t.sigPad → s.HostReads (b.addr + 0x24 + t.sigLen) pad →
            (∃ x ∈ pad, x ≠ 0#8) → exec .ctrVerify s = s.ctrRejected 0x13#32) ∧
          (s.PadZero b t →
            s.FieldStops .ctrVerify (b.addr + t.infoOff) 4 ∧
            (∀ head : List Byte, head.length = 4 → s.HostReads (b.addr + t.infoOff) head →
              (∃ x ∈ head, x ≠ 0#8) → exec .ctrVerify s = s.ctrRejected 0x14#32) ∧
            (s.ReservedZero b t →
              s.FieldStops .ctrVerify (b.addr + (t.infoOff + 0x14 + s.par.hashLen)) s.par.infoPad ∧
              (∀ tail : List Byte, tail.length = s.par.infoPad →
                s.HostReads (b.addr + t.infoOff + 0x14 + s.par.hashLen) tail →
                (∃ x ∈ tail, x ≠ 0#8) → exec .ctrVerify s = s.ctrRejected 0x14#32) ∧
              (s.TailZero b t →
                s.FieldStops .ctrVerify (b.addr + (t.infoOff + infoSize s.par)) size ∧
                ∀ body : List Byte, body.length = size →
                  s.HostReads (b.addr + (t.infoOff + infoSize s.par)) body →
                  s.FieldStops .ctrVerify (b.addr + (t.infoOff + 0x10)) s.par.hashLen ∧
                  ∀ hash : List Byte, hash.length = s.par.hashLen →
                    s.HostReads (b.addr + t.infoOff + 0x10) hash →
                    (hash ≠ (Config.hash s.par.hashLen body).toList →
                      exec .ctrVerify s = s.ctrRejected 0x20#32) ∧
                    (hash = (Config.hash s.par.hashLen body).toList →
                      s.FieldStops .ctrVerify (b.addr + (t.infoOff + 0x04)) 4 ∧
                      ∀ device, s.Field32 b (t.infoOff + 0x04) device →
                        s.FieldStops .ctrVerify (b.addr + (t.infoOff + 0x08)) 4 ∧
                        ∀ infoType, s.Field32 b (t.infoOff + 0x08) infoType →
                          s.FieldStops .ctrVerify (b.addr + (t.infoOff + 0x10 + s.par.hashLen)) 4 ∧
                          ∀ version, s.Field32 b (t.infoOff + 0x10 + s.par.hashLen) version →
                            exec .ctrVerify s =
                              .next { s with
                                res := #v[some (BitVec.ofNat 32 t.tag), some 0x20#32,
                                  some (BitVec.ofNat 32 t.infoOff),
                                  some (BitVec.ofNat 32 (t.infoOff + infoSize s.par)),
                                  some (BitVec.ofNat 32 size), some (BitVec.ofNat 32 device),
                                  some (BitVec.ofNat 32 version), some (BitVec.ofNat 32 infoType)]
                                status := some 0#32 }))))))

/-- 44_container.md R394: a validator command that completes with a code other than OK sets all eight results
to `⊥`, and a later host read of one raises `Fault(ReadUnwritten)`. -/
def Obligations.CtrFailureClearsResults : Prop :=
  ∀ (i : Instr) (s t : State), i = .ctrParse ∨ i = .ctrVerify → exec i s = .next t →
    s.fault = none → t.fault = none → t.status ≠ some 0#32 →
    ∀ j : Fin 8, t.res[j] = none ∧
      (t.waiting = false → takeAction (.portRd (.res j)) t = .next (t.raise .readUnwritten))

/-- The signature bytes have no effect on CTR.VERIFY (44_container.md R402; 00_scope.md R7): two states that
differ in nothing but bytes of the signature, at the place the type tag gives, have the same outcome, memory
apart. -/
def Obligations.CtrVerifyIgnoresSignature : Prop :=
  ∀ (s : State) (p : Word) (t : SigType) (m' : Memory), s.arg[0] = some p →
    s.Holds (p.toNat + 0x20) (toLE 4 t.tag) →
    (∀ a, a < p.toNat + 0x24 ∨ p.toNat + 0x24 + t.sigLen ≤ a → m'.get a = s.mem.get a) →
    (∀ u, exec .ctrVerify s = .next u → exec .ctrVerify { s with mem := m' } = .next { u with mem := m' }) ∧
    (∀ f, exec .ctrVerify s = .fault f → exec .ctrVerify { s with mem := m' } = .fault f)

/-! ## The whole machine -/

/-- Every step keeps the invariant: memory and the coherence sets in canonical form and about admitted
addresses, STATUS a command's code, a chain only with key and IV, the key of its length, the device in
agreement with its chip-select line, NAND pages whole. -/
def Obligations.StepKeepsInvariant : Prop :=
  ∀ s t : State, s.Inv → step s = .next t → t.Inv

/-- The reset state has the invariant, and so has every launch. -/
def Obligations.ResetHasInvariant : Prop :=
  State.reset.Inv ∧ ∀ l : Launch, (State.launch l).Inv

/-- 70_reset_and_hazards.md R540: launch and the restart after an interruption give every volatile element
its reset value; durable state is set at launch and kept by an interruption, the in-flight word apart;
`fault` and `refused` are none and 0 at launch and never cleared. That an interruption may change which addresses
are admitted, with the next launch memory, is the model's choice (log entry 16), and so is what a launch knows
of the NAND (log entry 15). -/
def Obligations.ResetEventsGiveResetValues : Prop :=
  (∀ l : Launch,
    let s := State.launch l
    s.AtReset ∧ s.dev.array = l.words ∧ s.mem = Memory.ofCells l.mem ∧ s.gpio = l.lines ∧
      s.par = l.par ∧ s.fault = none ∧ s.refused = false ∧
      (∀ q ∈ s.nand, ∃ p ∈ l.nand, q = { p with data := pageOf p.data } ∧
        p.page < l.par.pagesPerBlock)) ∧
  (State.reset.AtReset ∧ State.reset.dev.array = Config.eepromInit ∧ State.reset.fault = none ∧
    State.reset.refused = false) ∧
  (∀ (s : State) (cells : List Host.Cell) (nb : Option NandBlock),
    let t := s.interrupt cells nb
    t.AtReset ∧ t.mem = Memory.ofCells cells ∧ t.fault = s.fault ∧ t.refused = s.refused ∧
      t.par = s.par ∧
      (∀ b : Byte, (s.dev.busy = true → ∀ v, s.dev.prog ≠ some (b, v)) →
        t.dev.array[b.toNat]'b.isLt = s.dev.array[b.toNat]'b.isLt))

/-- The effect of an interruption (45_host_protocols.md R480): the word being programmed becomes some u16 that
nothing fixes, every other word stays, an armed write that was not started is lost, nothing is known any more of
a NAND block whose erase or write was in progress, everything of the others; what was left of the run's agenda
is lost, the host restarts with the agenda of the next run, and one that waited for the user waits no more. The
agendas are the model's own (log entries 1, 16). -/
def Obligations.InterruptEffect : Prop :=
  ∀ (s : State) (cells : List Host.Cell) (nb : Option NandBlock),
    takeAction (.interrupt cells nb) s = .next (s.interrupt cells nb) ∧
    (s.interrupt cells nb).dev.armed = none ∧
    (s.dev.busy = false → (s.interrupt cells nb).dev.array = s.dev.array) ∧
    (∀ (a : Byte) (d : Half), s.dev.busy = true → s.dev.prog = some (a, d) →
      ∃ v : Half, (s.interrupt cells nb).dev.array = s.dev.array.set a.toNat v a.isLt) ∧
    (∀ q : NandPage, q ∈ (s.interrupt cells nb).nand ↔ q ∈ s.nand ∧ nb ≠ some q.block) ∧
    (∀ next later, s.restarts = next :: later →
      (s.interrupt cells nb).agenda = next ∧ (s.interrupt cells nb).restarts = later) ∧
    (s.interrupt cells nb).waiting = false

/-- The port's access rules (10_state.md R31, R32, R35): an argument register is written and read; reading a
register that holds `⊥` raises `Fault(ReadUnwritten)`; reading CMD, and writing STATUS or RESi, raises
`Fault(IllegalPortAccess)`. The two clauses on reading ARGi are the model's choice (log entry 11): 20_memory.md
R100 lists no such read and has any other action set `refused`, so the read sets it and returns, or faults, as
R31 and R35 say. -/
def Obligations.PortAccessRules : Prop :=
  ∀ s : State, s.waiting = false →
    (∀ (i : Fin 4) (v : Word), ∃ t, takeAction (.portWr (.arg i) v) s = .next t ∧
      t = { s with arg := s.arg.set i (some v) }) ∧
    (∀ v : Word, takeAction (.portWr .status v) s = .next (s.raise .illegalPortAccess)) ∧
    (∀ (i : Fin 8) (v : Word),
      takeAction (.portWr (.res i) v) s = .next (s.raise .illegalPortAccess)) ∧
    takeAction (.portRd .cmd) s = .next (s.raise .illegalPortAccess) ∧
    (s.status = none → takeAction (.portRd .status) s = .next (s.raise .readUnwritten)) ∧
    (∀ i : Fin 8, s.res[i] = none →
      takeAction (.portRd (.res i)) s = .next (s.raise .readUnwritten)) ∧
    (∀ i : Fin 4, s.arg[i] = none →
      takeAction (.portRd (.arg i)) s = .next ({ s with refused := true }.raise .readUnwritten)) ∧
    (∀ v, s.status = some v →
      takeAction (.portRd .status) s = .next { s with reply := .word v }) ∧
    (∀ (i : Fin 8) (v : Word), s.res[i] = some v →
      takeAction (.portRd (.res i)) s = .next { s with reply := .word v }) ∧
    (∀ (i : Fin 4) (v : Word), s.arg[i] = some v →
      takeAction (.portRd (.arg i)) s = .next { s with refused := true, reply := .word v })

/-- The host's loads and stores (20_memory.md R83-R85, R88, R95, R100): a load delivers the bytes and changes
no memory; a store writes its bytes, marks them host-dirty and changes no other byte; an access past 2^32
faults, one that is not admitted has no step. -/
def Obligations.HostMemoryActions : Prop :=
  ∀ s : State, s.waiting = false →
    (∀ (a : Nat) (bs : List Byte), s.HostReads a bs →
      takeAction (.hstLd a bs.length) s = .next { s with reply := .bytes bs }) ∧
    (∀ a n : Nat, s.ReadStops a n (takeAction (.hstLd a n) s)) ∧
    (∀ (a : Nat) (bs : List Byte),
      (¬ Fits a bs.length → takeAction (.hstSt a bs) s = .next (s.raise .rangeWrap)) ∧
      (Fits a bs.length → ¬ s.Admits a bs.length →
        takeAction (.hstSt a bs) s = .fault .notAdmitted) ∧
      (Fits a bs.length → s.Admits a bs.length →
        ∃ (m' : Memory) (set' : List Nat),
          takeAction (.hstSt a bs) s =
            .next { s with mem := m', coh := { s.coh with hostDirty := set' } } ∧
          Stored s.mem m' a bs ∧ Marked s.coh.hostDirty set' a bs.length))

/-- The NAND contract (45_host_protocols.md R470): after a write of a page's data that returned OK, and any
actions that neither erase nor write that block nor interrupt such an operation, a read of the page that
returns OK delivers the written data. -/
def Obligations.NandDeliversWrittenPage : Prop :=
  ∀ (b : NandBlock) (page src dst : Nat) (spare : Option Nat) (data junk : List Byte)
    (between : List Action) (s t u v : State),
    s.fault = none → s.waiting = false → page < s.par.pagesPerBlock →
    data.length = 2048 → s.HostReads src data →
    takeAction (.nandWrite b page (some src) spare true) s = .next t → t.fault = none →
    (∀ a ∈ between, a.disturbs b = false) → takeAll between t = .next u → u.fault = none →
    takeAction (.nandRead b page dst .ok junk) u = .next v → v.fault = none →
    v.reply = .nand .ok ∧ Stored u.mem v.mem dst data

/-- Waiting for the user (45_host_protocols.md R472): HST.WAIT_USER blocks the host, none of whose actions, the
NAND calls and one outside 20_memory.md R100 among them, then has a step; the environment's event releases it
and is what the wait returns; an interruption ends the wait; any host action outside R100 sets `refused`. That
an event nobody waits for is lost is the model's choice (log entry 14). -/
def Obligations.UserConfirmation : Prop :=
  ∀ s : State,
    (s.waiting = false → takeAction .waitUser s = .next { s with waiting := true }) ∧
    (s.waiting = true → ∀ a : Action, a ≠ .devComplete → (∀ cells nb, a ≠ .interrupt cells nb) →
      (∀ e, a ≠ .userEvent e) → takeAction a s = .fault .hostWaiting) ∧
    (∀ e, s.waiting = true →
      takeAction (.userEvent e) s = .next { s with waiting := false, reply := .user e }) ∧
    (∀ e, s.waiting = false → takeAction (.userEvent e) s = .next s) ∧
    (∀ cells nb, (s.interrupt cells nb).waiting = false) ∧
    (s.waiting = false → takeAction .other s = .next { s with refused := true })

/-! ## The parameter store and the installation -/

/-- 45_host_protocols.md R451: slot selection. A slot whose checksum does not match is out; of two valid ones
the strictly greater version wins; for equal versions the drawn bit decides, and both slots can come out;
none valid is NONE_VALID. -/
def Obligations.SlotSelection : Prop :=
  ∀ (r0 r1 : List Byte) (bit : Bool),
    let v0 := leVal ((r0.drop 12).take 4) = (crc32 (r0.take 12)).toNat
    let v1 := leVal ((r1.drop 12).take 4) = (crc32 (r1.take 12)).toNat
    let version0 := leVal ((r0.drop 2).take 2)
    let version1 := leVal ((r1.drop 2).take 2)
    (¬ v0 → ¬ v1 → selectSlot r0 r1 bit = none) ∧
    (v0 → ¬ v1 → selectSlot r0 r1 bit = some false) ∧
    (¬ v0 → v1 → selectSlot r0 r1 bit = some true) ∧
    (v0 → v1 → version1 < version0 → selectSlot r0 r1 bit = some false) ∧
    (v0 → v1 → version0 < version1 → selectSlot r0 r1 bit = some true) ∧
    (v0 → v1 → version0 = version1 → selectSlot r0 r1 bit = some bit)

/-- Records (45_host_protocols.md R441, R452, R453): a record whose checksum field holds the CRC of the
fields before it is valid, and reports the version and block it was given; one whose checksum field is
zeroed is valid only if that CRC is zero; a change within one byte of the fields makes a valid record
invalid. -/
def Obligations.RecordValidity : Prop :=
  (∀ fields : List Byte, fields.length = 12 →
    recValid (fields ++ toLE 4 (crc32 fields).toNat) = true) ∧
  (∀ fields : List Byte, fields.length = 12 →
    (recValid (fields ++ [0#8, 0#8, 0#8, 0#8]) = true ↔ crc32 fields = 0#32)) ∧
  (∀ (r : List Byte) (i : Nat) (x : Byte), r.length = 16 → i < 12 → r[i]? ≠ some x →
    recValid r = true → recValid (r.set i x) = false) ∧
  (∀ (code version : Half) (rest : List Byte),
    recVersion (toLE 2 code.toNat ++ toLE 2 version.toNat ++ rest) = version.toNat ∧
    recBlock (toLE 2 code.toNat ++ toLE 2 version.toNat ++ rest) =
      { bank := code.getLsbD 12, index := code.setWidth 12 })

/-- The ordering obligations of the installation (45_host_protocols.md R475-R478, with R460 and R461), on the
events of every run of the host's program, from any machine state and under any schedule of the environment and
the device. There is a boot slot, chosen by R451 from the two records the host has loaded, and the other one is
the install slot. R475: an erase or a write of a NAND block comes after `invalidate install_slot` returned
(OK, 16), and the block is that of the install slot's record, loaded after that. R476: a read-back comes after
every erase and write of step 7 returned OK, on the same block, and no erase or write follows it. R477: only the
install slot is committed, and only when step 8 has just passed. R478: `boot_slot` is invalidated only after
`commit install_slot` returned (OK, 16) and the user then confirmed. The events, and the schedules, are the
model's own (log entry 19). -/
def Obligations.InstallationOrdering : Prop :=
  ∀ r : Run, r.trace = [] →
    let par := r.state.par
    let events := (hostMain.run r).2.trace
    ∃ boot : Bool, let install := !boot
      ∀ (pre post : List Event) (e : Event), events = pre ++ e :: post →
        (e.destroys ≠ none ∨ (∃ c, e = .called c) →
          ∃ (record0 record1 : List Byte) (drawn : Bool),
            .took (.hstLd par.recAddr0.toNat 16) (.bytes record0) ∈ pre ∧
            .took (.hstLd par.recAddr1.toNat 16) (.bytes record1) ∈ pre ∧
            selectSlot record0 record1 drawn = some boot) ∧
        (∀ b, e.destroys = some b → ∃ (p q : List Event) (record : List Byte),
          pre = p ++ .returned (.invalidate install) true :: q ∧
          .took (.hstLd (recAddr par install) 16) (.bytes record) ∈ q ∧ recBlock record = b) ∧
        (∀ b page dst result junk reply,
          e = .took (.nandRead b page dst result junk) reply →
            Step7Passed par b pre ∧ ∀ x ∈ post, x.destroys = none) ∧
        (∀ slot, e = .called (.commit slot) → slot = install ∧ ∃ b, Step8Passed par b pre) ∧
        (e = .called (.invalidate boot) → ∃ p q : List Event,
          pre = p ++ .returned (.commit install) true :: q ∧ UserConfirmed q)

/-- What the host does after every reset (45_host_protocols.md R450, R451, R441, R480 item 6; 42_eeprom.md
R340; 70_reset_and_hazards.md R540, R552; 40_crc.md R214), run alone from a reset event with the store ready:
it decrypts both banks into the records, changes no EEPROM word, computes both checksums with the CRC engine,
and returns the slot that R451 selects from the two records. -/
def Obligations.RestartSelectsSlot : Prop :=
  ∀ (key : List Byte) (s : State), s.AtReset → s.StoreReady key →
    let record := s.bankRecord key
    ∃ (drawn : Bool) (r' : Run),
      startup.run { state := s, env := [], trace := [] } =
        (.ok (selectSlot (record false) (record true) drawn), r') ∧
      r'.state.dev.array = s.dev.array ∧ r'.state.gpio.cs = false ∧ r'.state.gpio.sk = false ∧
      r'.state.fault = none ∧ r'.state.refused = s.refused ∧
      r'.state.Holds s.par.recAddr0.toNat (record false) ∧
      r'.state.Holds s.par.recAddr1.toNat (record true) ∧
      r'.state.crcAcc = some (((record true).take 12).foldl crcStep 0xFFFFFFFF#32) ∧
      r'.state.res[0] = some (crc32 ((record true).take 12))

/-- Crash safety (45_host_protocols.md R481, with R452, R453, R454 and R480): a run of the host's program from a
reset event, cut by an interruption at any point and under any schedule, and the host's restart after it. While
the run has neither invalidated nor committed slot b, whose record was valid at its start, the words of b's bank
are as they were, and the restart selects a slot (items 1 and 3). If `invalidate` of the other slot has
returned (OK, 16) and it has not been committed, the restart selects b, given that the CRC of the other record's
fields is not 0 (items 2 and 4). Once `commit` of the other slot has returned (OK, 16), its bank decrypts to a
valid record, whose reserved bytes are 0, and the restart selects a slot (item 5). Where the reserved bytes are
written is the model's choice (log entry 24). -/
def Obligations.CrashSafety : Prop :=
  ∀ (key : List Byte) (r r' : Run) (b : Bool), r.trace = [] → r.state.AtReset →
    r.state.StoreReady key → hostMain.run r = (.error .interrupted, r') → r'.state.StoreReady key →
    recValid (r.state.bankRecord key b) = true →
    let restart := (startup.run { state := r'.state, env := [], trace := [] }).1
    (.called (.invalidate b) ∉ r'.trace → .called (.commit b) ∉ r'.trace →
      (∀ j, j < 8 → r'.state.dev.array[bankWord r.state.par b + j]? =
        r.state.dev.array[bankWord r.state.par b + j]?) ∧
      (∃ slot, restart = .ok (some slot)) ∧
      (.returned (.invalidate !b) true ∈ r'.trace → .called (.commit !b) ∉ r'.trace →
        crc32 ((r.state.bankRecord key !b).take 12) ≠ 0#32 → restart = .ok (some b))) ∧
    (.returned (.commit !b) true ∈ r'.trace →
      recValid (r'.state.bankRecord key !b) = true ∧
      ((r'.state.bankRecord key !b).drop 4).take 8 = List.replicate 8 0#8 ∧
      ∃ slot, restart = .ok (some slot))
end

