-- ==== Sys2Proof/Laws/Address.lean ====
section
/-! SUPPORT. Sets of addresses: what they hold, and their strictly rising form. -/

namespace Sys2Proof.Machine

theorem inRange_iff (a n x : Nat) : inRange a n x = true ↔ a ≤ x ∧ x < a + n := by simp [inRange]

theorem mem_addrInsert (x y : Nat) (set : List Nat) :
    y ∈ addrInsert x set ↔ y = x ∨ y ∈ set := by
  induction set with
  | nil => simp [addrInsert]
  | cons z zs ih =>
    simp only [addrInsert]
    split
    · simp
    · split
      · next h => subst h; simp
      · simp only [List.mem_cons, ih]; tauto

theorem mem_addrInsertRange (n a y : Nat) (set : List Nat) :
    y ∈ addrInsertRange a n set ↔ (a ≤ y ∧ y < a + n) ∨ y ∈ set := by
  induction n generalizing a set with
  | zero => simp only [addrInsertRange]; constructor <;> intro h <;> [exact .inr h; skip]
            rcases h with h | h
            · omega
            · exact h
  | succ n ih =>
    rw [addrInsertRange, ih, mem_addrInsert]
    constructor
    · rintro (h | h | h)
      · left; omega
      · left; omega
      · exact .inr h
    · rintro (h | h)
      · by_cases hy : y = a
        · exact .inr (.inl hy)
        · left; omega
      · exact .inr (.inr h)

theorem mem_addrRemoveRange (a n y : Nat) (set : List Nat) :
    y ∈ addrRemoveRange a n set ↔ y ∈ set ∧ ¬ (a ≤ y ∧ y < a + n) := by
  rw [addrRemoveRange, List.mem_filter, Bool.not_eq_true', ← Bool.not_eq_true, inRange_iff]

theorem addrTouches_iff (a n : Nat) (set : List Nat) :
    addrTouches a n set = true ↔ ∃ x ∈ set, a ≤ x ∧ x < a + n := by
  simp [addrTouches, inRange]

theorem addrTouches_eq_false_iff (a n : Nat) (set : List Nat) :
    addrTouches a n set = false ↔ ∀ x ∈ set, ¬ (a ≤ x ∧ x < a + n) := by
  rw [← Bool.not_eq_true, addrTouches_iff]
  push Not
  rfl

theorem addrRisesFrom_mono {lo lo' : Nat} {set : List Nat} (h : addrRisesFrom lo set = true)
    (hle : lo' ≤ lo) : addrRisesFrom lo' set = true := by
  cases set with
  | nil => rfl
  | cons c rest =>
    simp only [addrRisesFrom, Bool.and_eq_true, decide_eq_true_eq] at h ⊢
    exact ⟨by omega, h.2⟩

theorem addrRisesFrom_insert (x lo : Nat) (set : List Nat) (h : addrRisesFrom lo set = true)
    (hx : lo ≤ x) : addrRisesFrom lo (addrInsert x set) = true := by
  induction set generalizing lo with
  | nil => simp [addrInsert, addrRisesFrom, hx]
  | cons y ys ih =>
    simp only [addrRisesFrom, Bool.and_eq_true, decide_eq_true_eq] at h
    simp only [addrInsert]
    split
    · simp only [addrRisesFrom, Bool.and_eq_true, decide_eq_true_eq]
      exact ⟨hx, by omega, h.2⟩
    · split
      · simp only [addrRisesFrom, Bool.and_eq_true, decide_eq_true_eq]
        exact h
      · simp only [addrRisesFrom, Bool.and_eq_true, decide_eq_true_eq]
        exact ⟨h.1, ih _ h.2 (by omega)⟩

/-- Adding a range keeps the set strictly rising. -/
theorem addrRisesFrom_insertRange (n a : Nat) (set : List Nat) (h : addrRisesFrom 0 set = true) :
    addrRisesFrom 0 (addrInsertRange a n set) = true := by
  induction n generalizing a set with
  | zero => exact h
  | succ n ih => exact ih _ _ (addrRisesFrom_insert _ _ _ h (Nat.zero_le _))

/-- Removing elements keeps the set strictly rising. -/
theorem addrRisesFrom_filter (p : Nat → Bool) (lo : Nat) (set : List Nat)
    (h : addrRisesFrom lo set = true) : addrRisesFrom lo (set.filter p) = true := by
  induction set generalizing lo with
  | nil => rfl
  | cons y ys ih =>
    simp only [addrRisesFrom, Bool.and_eq_true, decide_eq_true_eq] at h
    rw [List.filter_cons]
    split
    · simp only [addrRisesFrom, Bool.and_eq_true, decide_eq_true_eq]
      exact ⟨h.1, ih _ h.2⟩
    · exact addrRisesFrom_mono (ih _ h.2) (by omega)

theorem addrRisesFrom_removeRange (a n lo : Nat) (set : List Nat) (h : addrRisesFrom lo set = true) :
    addrRisesFrom lo (addrRemoveRange a n set) = true := addrRisesFrom_filter _ _ _ h

end Sys2Proof.Machine
end

