-- ==== Sys2Proof/Laws/Memory.lean ====
section
/-! SUPPORT. Memory: read after write, canonical form, admission. -/

namespace Sys2Proof.Machine

/-! ### One byte -/

theorem Memory.get_set_same (m : Memory) (a : Nat) (b : Byte) : Memory.get (m.set a b) a = some b := by
  induction m with
  | nil => simp [Memory.set, Memory.get]
  | cons c rest ih =>
    simp only [Memory.set]
    split
    · simp [Memory.get]
    · split
      · simp [Memory.get]
      · next h => simp [Memory.get, h, ih]

theorem Memory.get_set_other (m : Memory) (a x : Nat) (b : Byte) (h : x ≠ a) :
    Memory.get (m.set a b) x = m.get x := by
  induction m with
  | nil => simp [Memory.set, Memory.get, Ne.symm h]
  | cons c rest ih =>
    simp only [Memory.set]
    split
    · simp [Memory.get, Ne.symm h]
    · split
      · next hc => simp [Memory.get, hc, Ne.symm h]
      · simp [Memory.get, ih]

/-! ### A run of bytes -/

/-- A store leaves every byte outside its range as it was. -/
theorem Memory.get_write_outside (bs : List Byte) (m : Memory) (a x : Nat)
    (h : x < a ∨ a + bs.length ≤ x) : Memory.get (m.write a bs) x = m.get x := by
  induction bs generalizing m a with
  | nil => rfl
  | cons b bs ih =>
    simp only [List.length_cons] at h
    rw [Memory.write, ih _ _ (by omega), Memory.get_set_other _ _ _ _ (by omega)]

/-- A store puts each byte at its address. -/
theorem Memory.get_write_inside (bs : List Byte) (m : Memory) (a i : Nat) (h : i < bs.length) :
    Memory.get (m.write a bs) (a + i) = some bs[i] := by
  induction bs generalizing m a i with
  | nil => simp at h
  | cons b bs ih =>
    cases i with
    | zero =>
      simp only [Memory.write, Nat.add_zero, List.getElem_cons_zero]
      rw [Memory.get_write_outside _ _ _ _ (by omega), Memory.get_set_same]
    | succ i =>
      simp only [Memory.write, List.getElem_cons_succ]
      rw [show a + (i + 1) = a + 1 + i by omega]
      exact ih _ _ _ (by simpa using h)

/-- What a successful read of n bytes gives: n bytes, each the one at its address. -/
theorem Memory.read_eq_some_iff (n : Nat) (m : Memory) (a : Nat) (bs : List Byte) :
    m.read a n = some bs ↔ bs.length = n ∧ ∀ i (h : i < bs.length), m.get (a + i) = some bs[i] := by
  induction n generalizing a bs with
  | zero =>
    simp only [Memory.read]
    constructor
    · rintro ⟨⟩; simp
    · rintro ⟨h, -⟩; rw [List.length_eq_zero_iff.mp h]
  | succ n ih =>
    constructor
    · intro h
      simp only [Memory.read] at h
      split at h
      · next b bs' hb hbs =>
        cases h
        obtain ⟨hl, hg⟩ := (ih _ _).mp hbs
        refine ⟨by simp [hl], fun i hi => ?_⟩
        cases i with
        | zero => simpa using hb
        | succ i =>
          have := hg i (by simpa using hi)
          rw [show a + (i + 1) = a + 1 + i by omega]
          simpa using this
      · cases h
    · rintro ⟨hl, hg⟩
      cases bs with
      | nil => simp at hl
      | cons b bs =>
        have h0 : m.get a = some b := hg 0 (Nat.succ_pos _)
        have hr : m.read (a + 1) n = some bs := by
          refine (ih _ _).mpr ⟨by simpa using hl, fun i hi => ?_⟩
          have := hg (i + 1) (by simpa using hi)
          rw [show a + 1 + i = a + (i + 1) by omega]
          simpa using this
        simp [Memory.read, h0, hr]

/-- A read has no result exactly when a byte of the range is not admitted. -/
theorem Memory.read_eq_none_iff (n : Nat) (m : Memory) (a : Nat) :
    m.read a n = none ↔ ∃ i, i < n ∧ m.get (a + i) = none := by
  induction n generalizing a with
  | zero => simp [Memory.read]
  | succ n ih =>
    have hsplit : (∃ i, i < n + 1 ∧ m.get (a + i) = none) ↔
        m.get a = none ∨ ∃ i, i < n ∧ m.get (a + 1 + i) = none := by
      constructor
      · rintro ⟨i, hi, h⟩
        cases i with
        | zero => exact .inl (by simpa using h)
        | succ i => exact .inr ⟨i, by omega, by rwa [show a + 1 + i = a + (i + 1) by omega]⟩
      · rintro (h | ⟨i, hi, h⟩)
        · exact ⟨0, by omega, by simpa using h⟩
        · exact ⟨i + 1, by omega, by rwa [show a + (i + 1) = a + 1 + i by omega]⟩
    rw [hsplit, ← ih]
    simp only [Memory.read]
    cases h1 : m.get a <;> cases h2 : m.read (a + 1) n <;> simp

theorem Memory.read_length {m : Memory} {a n : Nat} {bs : List Byte} (h : m.read a n = some bs) :
    bs.length = n := ((Memory.read_eq_some_iff n m a bs).mp h).1

/-- Reading back what was stored gives it back. -/
theorem Memory.read_write_same (m : Memory) (a : Nat) (bs : List Byte) :
    (m.write a bs).read a bs.length = some bs :=
  (Memory.read_eq_some_iff _ _ _ _).mpr ⟨rfl, fun i hi => Memory.get_write_inside bs m a i hi⟩

/-! ### Canonical form -/

theorem Memory.risesFrom_mono {lo lo' : Nat} {m : Memory} (h : Memory.risesFrom lo m = true)
    (hle : lo' ≤ lo) : Memory.risesFrom lo' m = true := by
  cases m with
  | nil => rfl
  | cons c rest =>
    simp only [Memory.risesFrom, Bool.and_eq_true, decide_eq_true_eq] at h ⊢
    exact ⟨by omega, h.2⟩

theorem Memory.risesFrom_set (m : Memory) (lo a : Nat) (b : Byte) (h : Memory.risesFrom lo m = true)
    (ha : lo ≤ a) : Memory.risesFrom lo (m.set a b) = true := by
  induction m generalizing lo with
  | nil => simp [Memory.set, Memory.risesFrom, ha]
  | cons c rest ih =>
    simp only [Memory.risesFrom, Bool.and_eq_true, decide_eq_true_eq] at h
    simp only [Memory.set]
    split
    · simp only [Memory.risesFrom, Bool.and_eq_true, decide_eq_true_eq]
      exact ⟨ha, by omega, h.2⟩
    · split
      · next hc =>
        simp only [Memory.risesFrom, Bool.and_eq_true, decide_eq_true_eq]
        exact ⟨ha, hc ▸ h.2⟩
      · simp only [Memory.risesFrom, Bool.and_eq_true, decide_eq_true_eq]
        exact ⟨h.1, ih _ h.2 (by omega)⟩

theorem Memory.below_set (m : Memory) (a : Nat) (b : Byte) (top : Nat)
    (h : ∀ c ∈ m, c.1 < top) (ha : a < top) : ∀ c ∈ m.set a b, c.1 < top := by
  induction m with
  | nil => simp [Memory.set, ha]
  | cons c rest ih =>
    simp only [List.mem_cons, forall_eq_or_imp] at h
    simp only [Memory.set]
    split
    · simpa [ha] using h
    · split
      · simpa [ha] using h.2
      · simpa [h.1] using ih h.2

theorem Memory.wf_iff (m : Memory) :
    m.wf = true ↔ Memory.risesFrom 0 m = true ∧ ∀ c ∈ m, c.1 < addrTop := by
  simp [Memory.wf]

/-- One byte stored below 2^32 keeps the canonical form. -/
theorem Memory.wf_set {m : Memory} {a : Nat} (b : Byte) (h : m.wf = true) (ha : a < addrTop) :
    Memory.wf (m.set a b) = true := by
  rw [Memory.wf_iff] at h ⊢
  exact ⟨Memory.risesFrom_set _ _ _ _ h.1 (Nat.zero_le _), Memory.below_set _ _ _ _ h.2 ha⟩

/-- A store that ends at or below 2^32 keeps the canonical form. -/
theorem Memory.wf_write (bs : List Byte) {m : Memory} {a : Nat} (h : m.wf = true)
    (ha : rangeOk a bs.length = true) : Memory.wf (m.write a bs) = true := by
  induction bs generalizing m a with
  | nil => exact h
  | cons b bs ih =>
    simp only [rangeOk, List.length_cons, Bool.or_eq_true, decide_eq_true_eq] at ha
    refine ih (Memory.wf_set b h (by omega)) ?_
    simp only [rangeOk, Bool.or_eq_true, decide_eq_true_eq]
    omega

/-- A launch memory is in canonical form, whatever cells it is given by. -/
theorem Memory.wf_ofCells (cells : List Host.Cell) : Memory.wf (Memory.ofCells cells) = true := by
  have : ∀ (cells : List Host.Cell) (m : Memory), m.wf = true →
      Memory.wf (cells.foldl (fun m c => if c.1 < addrTop then m.set c.1 c.2 else m) m) = true := by
    intro cells
    induction cells with
    | nil => intro m h; exact h
    | cons c rest ih =>
      intro m h
      refine ih _ ?_
      show Memory.wf (if c.1 < addrTop then Memory.set m c.1 c.2 else m) = true
      split
      · next hc => exact Memory.wf_set _ h hc
      · exact h
  exact this cells [] rfl

/-- The reset state's memory is in canonical form. -/
theorem State.reset_mem_wf : Memory.wf State.reset.mem = true := rfl

/-! ### Admission -/

/-- A store into an admitted range changes no address's admission. -/
theorem Memory.admitted_write (bs : List Byte) (m : Memory) (a x : Nat)
    (h : ∀ i, i < bs.length → (m.get (a + i)).isSome = true) :
    (Memory.get (m.write a bs) x).isSome = (m.get x).isSome := by
  by_cases hx : a ≤ x ∧ x < a + bs.length
  · obtain ⟨i, rfl⟩ := Nat.exists_eq_add_of_le hx.1
    rw [Memory.get_write_inside _ _ _ _ (by omega), h i (by omega)]
    rfl
  · rw [Memory.get_write_outside _ _ _ _ (by omega)]

end Sys2Proof.Machine
end

