-- ==== Sys2Proof/Laws/State.lean ====
section
/-! SUPPORT. One lemma per field per named update of the state, and what each update writes. -/

namespace Sys2Proof.Machine

variable (s : State)

/-! ### raise -/

@[simp] theorem State.raise_arg (k : FaultKind) : (s.raise k).arg = s.arg := rfl
@[simp] theorem State.raise_status (k : FaultKind) : (s.raise k).status = s.status := rfl
@[simp] theorem State.raise_res (k : FaultKind) : (s.raise k).res = s.res := rfl
@[simp] theorem State.raise_crcAcc (k : FaultKind) : (s.raise k).crcAcc = s.crcAcc := rfl
@[simp] theorem State.raise_aes (k : FaultKind) : (s.raise k).aes = s.aes := rfl
@[simp] theorem State.raise_gpio (k : FaultKind) : (s.raise k).gpio = s.gpio := rfl
@[simp] theorem State.raise_dev (k : FaultKind) : (s.raise k).dev = s.dev := rfl
@[simp] theorem State.raise_mem (k : FaultKind) : (s.raise k).mem = s.mem := rfl
@[simp] theorem State.raise_coh (k : FaultKind) : (s.raise k).coh = s.coh := rfl
@[simp] theorem State.raise_refused (k : FaultKind) : (s.raise k).refused = s.refused := rfl
@[simp] theorem State.raise_nand (k : FaultKind) : (s.raise k).nand = s.nand := rfl
@[simp] theorem State.raise_par (k : FaultKind) : (s.raise k).par = s.par := rfl
@[simp] theorem State.raise_agenda (k : FaultKind) : (s.raise k).agenda = s.agenda := rfl
@[simp] theorem State.raise_restarts (k : FaultKind) : (s.raise k).restarts = s.restarts := rfl
@[simp] theorem State.raise_reply (k : FaultKind) : (s.raise k).reply = s.reply := rfl
@[simp] theorem State.raise_waiting (k : FaultKind) : (s.raise k).waiting = s.waiting := rfl
@[simp] theorem State.raise_draws (k : FaultKind) : (s.raise k).draws = s.draws := rfl

/-! ### finish -/

@[simp] theorem State.finish_arg (c : ResultCode) : (s.finish c).arg = s.arg := rfl
@[simp] theorem State.finish_res (c : ResultCode) : (s.finish c).res = s.res := rfl
@[simp] theorem State.finish_crcAcc (c : ResultCode) : (s.finish c).crcAcc = s.crcAcc := rfl
@[simp] theorem State.finish_aes (c : ResultCode) : (s.finish c).aes = s.aes := rfl
@[simp] theorem State.finish_gpio (c : ResultCode) : (s.finish c).gpio = s.gpio := rfl
@[simp] theorem State.finish_dev (c : ResultCode) : (s.finish c).dev = s.dev := rfl
@[simp] theorem State.finish_mem (c : ResultCode) : (s.finish c).mem = s.mem := rfl
@[simp] theorem State.finish_coh (c : ResultCode) : (s.finish c).coh = s.coh := rfl
@[simp] theorem State.finish_fault (c : ResultCode) : (s.finish c).fault = s.fault := rfl
@[simp] theorem State.finish_refused (c : ResultCode) : (s.finish c).refused = s.refused := rfl
@[simp] theorem State.finish_nand (c : ResultCode) : (s.finish c).nand = s.nand := rfl
@[simp] theorem State.finish_par (c : ResultCode) : (s.finish c).par = s.par := rfl
@[simp] theorem State.finish_agenda (c : ResultCode) : (s.finish c).agenda = s.agenda := rfl
@[simp] theorem State.finish_restarts (c : ResultCode) : (s.finish c).restarts = s.restarts := rfl
@[simp] theorem State.finish_reply (c : ResultCode) : (s.finish c).reply = s.reply := rfl
@[simp] theorem State.finish_waiting (c : ResultCode) : (s.finish c).waiting = s.waiting := rfl
@[simp] theorem State.finish_draws (c : ResultCode) : (s.finish c).draws = s.draws := rfl

/-! ### done -/

@[simp] theorem State.done_arg : s.done.arg = s.arg := rfl
@[simp] theorem State.done_res : s.done.res = s.res := rfl
@[simp] theorem State.done_crcAcc : s.done.crcAcc = s.crcAcc := rfl
@[simp] theorem State.done_aes : s.done.aes = s.aes := rfl
@[simp] theorem State.done_gpio : s.done.gpio = s.gpio := rfl
@[simp] theorem State.done_dev : s.done.dev = s.dev := rfl
@[simp] theorem State.done_mem : s.done.mem = s.mem := rfl
@[simp] theorem State.done_coh : s.done.coh = s.coh := rfl
@[simp] theorem State.done_fault : s.done.fault = s.fault := rfl
@[simp] theorem State.done_refused : s.done.refused = s.refused := rfl
@[simp] theorem State.done_nand : s.done.nand = s.nand := rfl
@[simp] theorem State.done_par : s.done.par = s.par := rfl
@[simp] theorem State.done_agenda : s.done.agenda = s.agenda := rfl
@[simp] theorem State.done_restarts : s.done.restarts = s.restarts := rfl
@[simp] theorem State.done_reply : s.done.reply = s.reply := rfl
@[simp] theorem State.done_waiting : s.done.waiting = s.waiting := rfl
@[simp] theorem State.done_draws : s.done.draws = s.draws := rfl

/-! ### setRes -/

@[simp] theorem State.setRes_arg (i : Fin 8) (v : Word) : (s.setRes i v).arg = s.arg := rfl
@[simp] theorem State.setRes_status (i : Fin 8) (v : Word) : (s.setRes i v).status = s.status := rfl
@[simp] theorem State.setRes_crcAcc (i : Fin 8) (v : Word) : (s.setRes i v).crcAcc = s.crcAcc := rfl
@[simp] theorem State.setRes_aes (i : Fin 8) (v : Word) : (s.setRes i v).aes = s.aes := rfl
@[simp] theorem State.setRes_gpio (i : Fin 8) (v : Word) : (s.setRes i v).gpio = s.gpio := rfl
@[simp] theorem State.setRes_dev (i : Fin 8) (v : Word) : (s.setRes i v).dev = s.dev := rfl
@[simp] theorem State.setRes_mem (i : Fin 8) (v : Word) : (s.setRes i v).mem = s.mem := rfl
@[simp] theorem State.setRes_coh (i : Fin 8) (v : Word) : (s.setRes i v).coh = s.coh := rfl
@[simp] theorem State.setRes_fault (i : Fin 8) (v : Word) : (s.setRes i v).fault = s.fault := rfl
@[simp] theorem State.setRes_refused (i : Fin 8) (v : Word) : (s.setRes i v).refused = s.refused := rfl
@[simp] theorem State.setRes_nand (i : Fin 8) (v : Word) : (s.setRes i v).nand = s.nand := rfl
@[simp] theorem State.setRes_par (i : Fin 8) (v : Word) : (s.setRes i v).par = s.par := rfl
@[simp] theorem State.setRes_agenda (i : Fin 8) (v : Word) : (s.setRes i v).agenda = s.agenda := rfl
@[simp] theorem State.setRes_restarts (i : Fin 8) (v : Word) : (s.setRes i v).restarts = s.restarts := rfl
@[simp] theorem State.setRes_reply (i : Fin 8) (v : Word) : (s.setRes i v).reply = s.reply := rfl
@[simp] theorem State.setRes_waiting (i : Fin 8) (v : Word) : (s.setRes i v).waiting = s.waiting := rfl
@[simp] theorem State.setRes_draws (i : Fin 8) (v : Word) : (s.setRes i v).draws = s.draws := rfl

/-! ### clearRes -/

@[simp] theorem State.clearRes_arg : s.clearRes.arg = s.arg := rfl
@[simp] theorem State.clearRes_status : s.clearRes.status = s.status := rfl
@[simp] theorem State.clearRes_crcAcc : s.clearRes.crcAcc = s.crcAcc := rfl
@[simp] theorem State.clearRes_aes : s.clearRes.aes = s.aes := rfl
@[simp] theorem State.clearRes_gpio : s.clearRes.gpio = s.gpio := rfl
@[simp] theorem State.clearRes_dev : s.clearRes.dev = s.dev := rfl
@[simp] theorem State.clearRes_mem : s.clearRes.mem = s.mem := rfl
@[simp] theorem State.clearRes_coh : s.clearRes.coh = s.coh := rfl
@[simp] theorem State.clearRes_fault : s.clearRes.fault = s.fault := rfl
@[simp] theorem State.clearRes_refused : s.clearRes.refused = s.refused := rfl
@[simp] theorem State.clearRes_nand : s.clearRes.nand = s.nand := rfl
@[simp] theorem State.clearRes_par : s.clearRes.par = s.par := rfl
@[simp] theorem State.clearRes_agenda : s.clearRes.agenda = s.agenda := rfl
@[simp] theorem State.clearRes_restarts : s.clearRes.restarts = s.restarts := rfl
@[simp] theorem State.clearRes_reply : s.clearRes.reply = s.reply := rfl
@[simp] theorem State.clearRes_waiting : s.clearRes.waiting = s.waiting := rfl
@[simp] theorem State.clearRes_draws : s.clearRes.draws = s.draws := rfl

/-! ### setArg -/

@[simp] theorem State.setArg_status (i : Fin 4) (v : Word) : (s.setArg i v).status = s.status := rfl
@[simp] theorem State.setArg_res (i : Fin 4) (v : Word) : (s.setArg i v).res = s.res := rfl
@[simp] theorem State.setArg_crcAcc (i : Fin 4) (v : Word) : (s.setArg i v).crcAcc = s.crcAcc := rfl
@[simp] theorem State.setArg_aes (i : Fin 4) (v : Word) : (s.setArg i v).aes = s.aes := rfl
@[simp] theorem State.setArg_gpio (i : Fin 4) (v : Word) : (s.setArg i v).gpio = s.gpio := rfl
@[simp] theorem State.setArg_dev (i : Fin 4) (v : Word) : (s.setArg i v).dev = s.dev := rfl
@[simp] theorem State.setArg_mem (i : Fin 4) (v : Word) : (s.setArg i v).mem = s.mem := rfl
@[simp] theorem State.setArg_coh (i : Fin 4) (v : Word) : (s.setArg i v).coh = s.coh := rfl
@[simp] theorem State.setArg_fault (i : Fin 4) (v : Word) : (s.setArg i v).fault = s.fault := rfl
@[simp] theorem State.setArg_refused (i : Fin 4) (v : Word) : (s.setArg i v).refused = s.refused := rfl
@[simp] theorem State.setArg_nand (i : Fin 4) (v : Word) : (s.setArg i v).nand = s.nand := rfl
@[simp] theorem State.setArg_par (i : Fin 4) (v : Word) : (s.setArg i v).par = s.par := rfl
@[simp] theorem State.setArg_agenda (i : Fin 4) (v : Word) : (s.setArg i v).agenda = s.agenda := rfl
@[simp] theorem State.setArg_restarts (i : Fin 4) (v : Word) : (s.setArg i v).restarts = s.restarts := rfl
@[simp] theorem State.setArg_reply (i : Fin 4) (v : Word) : (s.setArg i v).reply = s.reply := rfl
@[simp] theorem State.setArg_waiting (i : Fin 4) (v : Word) : (s.setArg i v).waiting = s.waiting := rfl
@[simp] theorem State.setArg_draws (i : Fin 4) (v : Word) : (s.setArg i v).draws = s.draws := rfl

/-! ### setLine -/

@[simp] theorem State.setLine_arg (l : Line) (v : Bool) : (s.setLine l v).arg = s.arg := rfl
@[simp] theorem State.setLine_status (l : Line) (v : Bool) : (s.setLine l v).status = s.status := rfl
@[simp] theorem State.setLine_res (l : Line) (v : Bool) : (s.setLine l v).res = s.res := rfl
@[simp] theorem State.setLine_crcAcc (l : Line) (v : Bool) : (s.setLine l v).crcAcc = s.crcAcc := rfl
@[simp] theorem State.setLine_aes (l : Line) (v : Bool) : (s.setLine l v).aes = s.aes := rfl
@[simp] theorem State.setLine_dev (l : Line) (v : Bool) : (s.setLine l v).dev = s.dev := rfl
@[simp] theorem State.setLine_mem (l : Line) (v : Bool) : (s.setLine l v).mem = s.mem := rfl
@[simp] theorem State.setLine_coh (l : Line) (v : Bool) : (s.setLine l v).coh = s.coh := rfl
@[simp] theorem State.setLine_fault (l : Line) (v : Bool) : (s.setLine l v).fault = s.fault := rfl
@[simp] theorem State.setLine_refused (l : Line) (v : Bool) : (s.setLine l v).refused = s.refused := rfl
@[simp] theorem State.setLine_nand (l : Line) (v : Bool) : (s.setLine l v).nand = s.nand := rfl
@[simp] theorem State.setLine_par (l : Line) (v : Bool) : (s.setLine l v).par = s.par := rfl
@[simp] theorem State.setLine_agenda (l : Line) (v : Bool) : (s.setLine l v).agenda = s.agenda := rfl
@[simp] theorem State.setLine_restarts (l : Line) (v : Bool) : (s.setLine l v).restarts = s.restarts := rfl
@[simp] theorem State.setLine_reply (l : Line) (v : Bool) : (s.setLine l v).reply = s.reply := rfl
@[simp] theorem State.setLine_waiting (l : Line) (v : Bool) : (s.setLine l v).waiting = s.waiting := rfl
@[simp] theorem State.setLine_draws (l : Line) (v : Bool) : (s.setLine l v).draws = s.draws := rfl

/-! ### storeHost -/

@[simp] theorem State.storeHost_arg (a : Nat) (bs : List Byte) : (s.storeHost a bs).arg = s.arg := rfl
@[simp] theorem State.storeHost_status (a : Nat) (bs : List Byte) :
    (s.storeHost a bs).status = s.status := rfl
@[simp] theorem State.storeHost_res (a : Nat) (bs : List Byte) : (s.storeHost a bs).res = s.res := rfl
@[simp] theorem State.storeHost_crcAcc (a : Nat) (bs : List Byte) :
    (s.storeHost a bs).crcAcc = s.crcAcc := rfl
@[simp] theorem State.storeHost_aes (a : Nat) (bs : List Byte) : (s.storeHost a bs).aes = s.aes := rfl
@[simp] theorem State.storeHost_gpio (a : Nat) (bs : List Byte) : (s.storeHost a bs).gpio = s.gpio := rfl
@[simp] theorem State.storeHost_dev (a : Nat) (bs : List Byte) : (s.storeHost a bs).dev = s.dev := rfl
@[simp] theorem State.storeHost_fault (a : Nat) (bs : List Byte) : (s.storeHost a bs).fault = s.fault := rfl
@[simp] theorem State.storeHost_refused (a : Nat) (bs : List Byte) :
    (s.storeHost a bs).refused = s.refused := rfl
@[simp] theorem State.storeHost_nand (a : Nat) (bs : List Byte) : (s.storeHost a bs).nand = s.nand := rfl
@[simp] theorem State.storeHost_par (a : Nat) (bs : List Byte) : (s.storeHost a bs).par = s.par := rfl
@[simp] theorem State.storeHost_agenda (a : Nat) (bs : List Byte) :
    (s.storeHost a bs).agenda = s.agenda := rfl
@[simp] theorem State.storeHost_restarts (a : Nat) (bs : List Byte) :
    (s.storeHost a bs).restarts = s.restarts := rfl
@[simp] theorem State.storeHost_reply (a : Nat) (bs : List Byte) : (s.storeHost a bs).reply = s.reply := rfl
@[simp] theorem State.storeHost_waiting (a : Nat) (bs : List Byte) :
    (s.storeHost a bs).waiting = s.waiting := rfl
@[simp] theorem State.storeHost_draws (a : Nat) (bs : List Byte) : (s.storeHost a bs).draws = s.draws := rfl

/-! ### storeDev -/

@[simp] theorem State.storeDev_arg (a : Nat) (bs : List Byte) : (s.storeDev a bs).arg = s.arg := rfl
@[simp] theorem State.storeDev_status (a : Nat) (bs : List Byte) :
    (s.storeDev a bs).status = s.status := rfl
@[simp] theorem State.storeDev_res (a : Nat) (bs : List Byte) : (s.storeDev a bs).res = s.res := rfl
@[simp] theorem State.storeDev_crcAcc (a : Nat) (bs : List Byte) :
    (s.storeDev a bs).crcAcc = s.crcAcc := rfl
@[simp] theorem State.storeDev_aes (a : Nat) (bs : List Byte) : (s.storeDev a bs).aes = s.aes := rfl
@[simp] theorem State.storeDev_gpio (a : Nat) (bs : List Byte) : (s.storeDev a bs).gpio = s.gpio := rfl
@[simp] theorem State.storeDev_dev (a : Nat) (bs : List Byte) : (s.storeDev a bs).dev = s.dev := rfl
@[simp] theorem State.storeDev_fault (a : Nat) (bs : List Byte) : (s.storeDev a bs).fault = s.fault := rfl
@[simp] theorem State.storeDev_refused (a : Nat) (bs : List Byte) :
    (s.storeDev a bs).refused = s.refused := rfl
@[simp] theorem State.storeDev_nand (a : Nat) (bs : List Byte) : (s.storeDev a bs).nand = s.nand := rfl
@[simp] theorem State.storeDev_par (a : Nat) (bs : List Byte) : (s.storeDev a bs).par = s.par := rfl
@[simp] theorem State.storeDev_agenda (a : Nat) (bs : List Byte) :
    (s.storeDev a bs).agenda = s.agenda := rfl
@[simp] theorem State.storeDev_restarts (a : Nat) (bs : List Byte) :
    (s.storeDev a bs).restarts = s.restarts := rfl
@[simp] theorem State.storeDev_reply (a : Nat) (bs : List Byte) : (s.storeDev a bs).reply = s.reply := rfl
@[simp] theorem State.storeDev_waiting (a : Nat) (bs : List Byte) :
    (s.storeDev a bs).waiting = s.waiting := rfl
@[simp] theorem State.storeDev_draws (a : Nat) (bs : List Byte) : (s.storeDev a bs).draws = s.draws := rfl

/-! ### draw -/

@[simp] theorem State.draw_arg : s.draw.2.arg = s.arg := rfl
@[simp] theorem State.draw_status : s.draw.2.status = s.status := rfl
@[simp] theorem State.draw_res : s.draw.2.res = s.res := rfl
@[simp] theorem State.draw_crcAcc : s.draw.2.crcAcc = s.crcAcc := rfl
@[simp] theorem State.draw_aes : s.draw.2.aes = s.aes := rfl
@[simp] theorem State.draw_gpio : s.draw.2.gpio = s.gpio := rfl
@[simp] theorem State.draw_dev : s.draw.2.dev = s.dev := rfl
@[simp] theorem State.draw_mem : s.draw.2.mem = s.mem := rfl
@[simp] theorem State.draw_coh : s.draw.2.coh = s.coh := rfl
@[simp] theorem State.draw_fault : s.draw.2.fault = s.fault := rfl
@[simp] theorem State.draw_refused : s.draw.2.refused = s.refused := rfl
@[simp] theorem State.draw_nand : s.draw.2.nand = s.nand := rfl
@[simp] theorem State.draw_par : s.draw.2.par = s.par := rfl
@[simp] theorem State.draw_agenda : s.draw.2.agenda = s.agenda := rfl
@[simp] theorem State.draw_restarts : s.draw.2.restarts = s.restarts := rfl
@[simp] theorem State.draw_reply : s.draw.2.reply = s.reply := rfl
@[simp] theorem State.draw_waiting : s.draw.2.waiting = s.waiting := rfl

/-! ### begin -/

@[simp] theorem State.begin_arg (rest : List Action) : (s.begin rest).arg = s.arg := rfl
@[simp] theorem State.begin_status (rest : List Action) : (s.begin rest).status = s.status := rfl
@[simp] theorem State.begin_res (rest : List Action) : (s.begin rest).res = s.res := rfl
@[simp] theorem State.begin_crcAcc (rest : List Action) : (s.begin rest).crcAcc = s.crcAcc := rfl
@[simp] theorem State.begin_aes (rest : List Action) : (s.begin rest).aes = s.aes := rfl
@[simp] theorem State.begin_gpio (rest : List Action) : (s.begin rest).gpio = s.gpio := rfl
@[simp] theorem State.begin_dev (rest : List Action) : (s.begin rest).dev = s.dev := rfl
@[simp] theorem State.begin_mem (rest : List Action) : (s.begin rest).mem = s.mem := rfl
@[simp] theorem State.begin_coh (rest : List Action) : (s.begin rest).coh = s.coh := rfl
@[simp] theorem State.begin_fault (rest : List Action) : (s.begin rest).fault = s.fault := rfl
@[simp] theorem State.begin_refused (rest : List Action) : (s.begin rest).refused = s.refused := rfl
@[simp] theorem State.begin_nand (rest : List Action) : (s.begin rest).nand = s.nand := rfl
@[simp] theorem State.begin_par (rest : List Action) : (s.begin rest).par = s.par := rfl
@[simp] theorem State.begin_waiting (rest : List Action) : (s.begin rest).waiting = s.waiting := rfl
@[simp] theorem State.begin_draws (rest : List Action) : (s.begin rest).draws = s.draws := rfl

/-! ### coherent -/

@[simp] theorem State.coherent_arg : s.coherent.arg = s.arg := rfl
@[simp] theorem State.coherent_status : s.coherent.status = s.status := rfl
@[simp] theorem State.coherent_res : s.coherent.res = s.res := rfl
@[simp] theorem State.coherent_crcAcc : s.coherent.crcAcc = s.crcAcc := rfl
@[simp] theorem State.coherent_aes : s.coherent.aes = s.aes := rfl
@[simp] theorem State.coherent_gpio : s.coherent.gpio = s.gpio := rfl
@[simp] theorem State.coherent_dev : s.coherent.dev = s.dev := rfl
@[simp] theorem State.coherent_mem : s.coherent.mem = s.mem := rfl
@[simp] theorem State.coherent_fault : s.coherent.fault = s.fault := rfl
@[simp] theorem State.coherent_refused : s.coherent.refused = s.refused := rfl
@[simp] theorem State.coherent_nand : s.coherent.nand = s.nand := rfl
@[simp] theorem State.coherent_par : s.coherent.par = s.par := rfl
@[simp] theorem State.coherent_agenda : s.coherent.agenda = s.agenda := rfl
@[simp] theorem State.coherent_restarts : s.coherent.restarts = s.restarts := rfl
@[simp] theorem State.coherent_reply : s.coherent.reply = s.reply := rfl
@[simp] theorem State.coherent_waiting : s.coherent.waiting = s.waiting := rfl
@[simp] theorem State.coherent_draws : s.coherent.draws = s.draws := rfl
@[simp] theorem State.coherent_hostDirty : s.coherent.coh.hostDirty = s.coh.hostDirty := rfl
@[simp] theorem State.coherent_devDirty : s.coherent.coh.devDirty = [] := rfl

/-! ### What the updates write -/

/-- The first fault raised is kept (10_state.md R60). -/
@[simp] theorem State.raise_fault (k : FaultKind) :
    (s.raise k).fault = some (s.fault.getD k) := by
  cases h : s.fault <;> simp [State.raise, h]

@[simp] theorem State.finish_status (c : ResultCode) : (s.finish c).status = some (statusWord c) := rfl
@[simp] theorem State.done_status : s.done.status = some 0#32 := rfl
@[simp] theorem State.setRes_res (i : Fin 8) (v : Word) : (s.setRes i v).res = s.res.set i (some v) := rfl
@[simp] theorem State.clearRes_res : s.clearRes.res = Vector.replicate 8 none := rfl
@[simp] theorem State.setArg_arg (i : Fin 4) (v : Word) : (s.setArg i v).arg = s.arg.set i (some v) := rfl
@[simp] theorem State.storeHost_mem (a : Nat) (bs : List Byte) :
    (s.storeHost a bs).mem = s.mem.write a bs := rfl
@[simp] theorem State.storeHost_hostDirty (a : Nat) (bs : List Byte) :
    (s.storeHost a bs).coh.hostDirty = addrInsertRange a bs.length s.coh.hostDirty := rfl
@[simp] theorem State.storeHost_devDirty (a : Nat) (bs : List Byte) :
    (s.storeHost a bs).coh.devDirty = s.coh.devDirty := rfl
@[simp] theorem State.storeDev_mem (a : Nat) (bs : List Byte) :
    (s.storeDev a bs).mem = s.mem.write a bs := rfl
@[simp] theorem State.storeDev_hostDirty (a : Nat) (bs : List Byte) :
    (s.storeDev a bs).coh.hostDirty = s.coh.hostDirty := rfl
@[simp] theorem State.storeDev_devDirty (a : Nat) (bs : List Byte) :
    (s.storeDev a bs).coh.devDirty = addrInsertRange a bs.length s.coh.devDirty := rfl
@[simp] theorem State.draw_draws : s.draw.2.draws = s.draws + 1 := rfl
@[simp] theorem State.begin_agenda (rest : List Action) : (s.begin rest).agenda = rest := rfl
@[simp] theorem State.begin_restarts (rest : List Action) : (s.begin rest).restarts = s.restarts := rfl
@[simp] theorem State.begin_reply (rest : List Action) : (s.begin rest).reply = .nothing := rfl

@[simp] theorem State.setLine_cs (v : Bool) : (s.setLine .cs v).gpio = { s.gpio with cs := v } := rfl
@[simp] theorem State.setLine_sk (v : Bool) : (s.setLine .sk v).gpio = { s.gpio with sk := v } := rfl
@[simp] theorem State.setLine_di (v : Bool) : (s.setLine .di v).gpio = { s.gpio with di := v } := rfl

/-- Driving a line to the value it has changes nothing. -/
theorem State.setLine_same (l : Line) : s.setLine l (s.line l) = s := by cases l <;> rfl

end Sys2Proof.Machine
end

