-- ==== Sys2Proof/Laws/Ops.lean ====
section
/-! SUPPORT. What each shared operation can do, once: the outcome of a computation, the checks, the
accesses, the operands. -/

namespace Sys2Proof.Machine

/-! ### Computations -/

theorem bind_eq_ok {ε α β : Type} {x : Except ε α} {f : α → Except ε β} {r : β} :
    (x >>= f) = .ok r ↔ ∃ a, x = .ok a ∧ f a = .ok r := by
  cases x <;> simp [bind, Except.bind]

theorem bind_eq_error {ε α β : Type} {x : Except ε α} {f : α → Except ε β} {e : ε} :
    (x >>= f) = .error e ↔ x = .error e ∨ ∃ a, x = .ok a ∧ f a = .error e := by
  cases x <;> simp [bind, Except.bind]

@[simp] theorem ok_bind' {ε α β : Type} (a : α) (f : α → Except ε β) :
    ((Except.ok a : Except ε α) >>= f) = f a := rfl

@[simp] theorem error_bind' {ε α β : Type} (e : ε) (f : α → Except ε β) :
    ((Except.error e : Except ε α) >>= f) = .error e := rfl

@[simp] theorem pure_ok' {ε α : Type} (a : α) : (pure a : Except ε α) = .ok a := rfl

@[simp] theorem State.complete_ok (s t : State) : s.complete (.ok t) = .next t := rfl
@[simp] theorem State.complete_raise (s : State) (k : FaultKind) :
    s.complete (.error (.raise k)) = .next (s.raise k) := rfl
@[simp] theorem State.complete_noStep (s : State) :
    s.complete (.error .noStep) = .fault .notAdmitted := rfl

/-- A computation gives a next state in two ways: it completes, or it raises a fault. -/
theorem State.complete_eq_next {s t : State} {c : Except Halt State} :
    s.complete c = .next t ↔ c = .ok t ∨ ∃ k, c = .error (.raise k) ∧ t = s.raise k := by
  rcases c with (k | _) | u <;> simp [State.complete, eq_comm]

/-- A computation stops only on an access that is not admitted. -/
theorem State.complete_eq_fault {s : State} {c : Except Halt State} {f : Fault} :
    s.complete c = .fault f ↔ c = .error .noStep ∧ f = .notAdmitted := by
  rcases c with (k | _) | u <;> simp [State.complete, eq_comm]

/-- A computation is never refused. -/
theorem State.complete_ne_refused (s : State) (c : Except Halt State) (r : Refusal) :
    s.complete c ≠ .refused r := by
  rcases c with (k | _) | u <;> simp [State.complete]

/-! ### Checks -/

@[simp] theorem require_true (k : FaultKind) : require true k = .ok () := rfl
@[simp] theorem require_false (k : FaultKind) : require false k = .error (.raise k) := rfl

theorem require_eq_ok {b : Bool} {k : FaultKind} {u : Unit} : require b k = .ok u ↔ b = true := by
  cases b <;> simp

theorem require_eq_error {b : Bool} {k : FaultKind} {h : Halt} :
    require b k = .error h ↔ b = false ∧ h = .raise k := by
  cases b <;> simp [eq_comm]

@[simp] theorem written_some {α : Type} (v : α) : written (some v) = .ok v := rfl
@[simp] theorem written_none {α : Type} : written (none : Option α) = .error (.raise .readUnwritten) :=
  rfl

theorem written_eq_ok {α : Type} {r : Option α} {v : α} : written r = .ok v ↔ r = some v := by
  cases r <;> simp

theorem written_eq_error {α : Type} {r : Option α} {h : Halt} :
    written r = .error h ↔ r = none ∧ h = .raise .readUnwritten := by
  cases r <;> simp [eq_comm]

theorem rangeOk_iff (a n : Nat) : rangeOk a n = true ↔ Fits a n := by
  rw [rangeOk, Bool.or_eq_true, decide_eq_true_iff, decide_eq_true_iff]
  rfl

theorem rangeOk_eq_false_iff (a n : Nat) : rangeOk a n = false ↔ ¬ Fits a n := by
  rw [← rangeOk_iff, Bool.not_eq_true]

theorem addrTouches_not_iff (a n : Nat) (set : List Nat) :
    (!addrTouches a n set) = true ↔ Avoids set a n := by
  rw [Bool.not_eq_true', addrTouches_eq_false_iff, Avoids]

theorem addrTouches_not_eq_false_iff (a n : Nat) (set : List Nat) :
    (!addrTouches a n set) = false ↔ ¬ Avoids set a n := by
  rw [← addrTouches_not_iff, Bool.not_eq_true]

/-! ### Accesses -/

theorem Fits_zero (a : Nat) : Fits a 0 := .inl rfl

theorem State.Holds.admits {s : State} {a : Nat} {bs : List Byte} (h : s.Holds a bs) :
    s.Admits a bs.length := fun i hi => by rw [h i hi]; rfl

theorem State.fetch_eq_ok {s : State} {a n : Nat} {bs : List Byte} :
    s.fetch a n = .ok bs ↔ bs.length = n ∧ s.Holds a bs := by
  rw [State.Holds, ← Memory.read_eq_some_iff, State.fetch]
  cases s.mem.read a n <;> simp

theorem State.fetch_holds {s : State} {a n : Nat} {bs : List Byte} (hn : bs.length = n)
    (h : s.Holds a bs) : s.fetch a n = .ok bs := State.fetch_eq_ok.mpr ⟨hn, h⟩

theorem State.fetch_eq_error {s : State} {a n : Nat} {h : Halt} :
    s.fetch a n = .error h ↔ ¬ s.Admits a n ∧ h = .noStep := by
  have hr : ¬ s.Admits a n ↔ s.mem.read a n = none := by
    rw [Memory.read_eq_none_iff, State.Admits]
    push Not
    simp
  rw [hr, State.fetch]
  cases s.mem.read a n <;> simp [eq_comm]

theorem State.fetch_not_admits {s : State} {a n : Nat} (h : ¬ s.Admits a n) :
    s.fetch a n = .error .noStep := State.fetch_eq_error.mpr ⟨h, rfl⟩

theorem State.fetch_admits {s : State} {a n : Nat} (h : s.Admits a n) :
    ∃ bs, s.fetch a n = .ok bs ∧ bs.length = n ∧ s.Holds a bs := by
  cases hf : s.fetch a n with
  | ok bs => exact ⟨bs, rfl, State.fetch_eq_ok.mp hf⟩
  | error e => exact absurd h (State.fetch_eq_error.mp hf).1

/-- A host-view read succeeds exactly when it fits, is admitted and holds no device-dirty byte. -/
theorem State.hostRead_eq_ok {s : State} {a n : Nat} {bs : List Byte} :
    s.hostRead a n = .ok bs ↔ bs.length = n ∧ s.HostReads a bs := by
  simp only [State.hostRead, bind_eq_ok, require_eq_ok, rangeOk_iff, State.fetch_eq_ok,
    addrTouches_not_iff, pure_ok', Except.ok.injEq, State.HostReads]
  constructor
  · rintro ⟨_, hf, _, ⟨rfl, hh⟩, _, hc, rfl⟩; exact ⟨rfl, hf, hh, hc⟩
  · rintro ⟨rfl, hf, hh, hc⟩; exact ⟨(), hf, bs, ⟨rfl, hh⟩, (), hc, rfl⟩

theorem State.hostRead_of_reads {s : State} {a n : Nat} {bs : List Byte} (h : s.HostReads a bs)
    (hn : bs.length = n) : s.hostRead a n = .ok bs := State.hostRead_eq_ok.mpr ⟨hn, h⟩

/-- The three ways a host-view read gets no bytes, in their order. -/
theorem State.hostRead_eq_error {s : State} {a n : Nat} {h : Halt} :
    s.hostRead a n = .error h ↔
      (¬ Fits a n ∧ h = .raise .rangeWrap) ∨ (Fits a n ∧ ¬ s.Admits a n ∧ h = .noStep) ∨
      (Fits a n ∧ s.Admits a n ∧ ¬ Avoids s.coh.devDirty a n ∧ h = .raise .coherence) := by
  by_cases hf : Fits a n
  · by_cases ha : s.Admits a n
    · obtain ⟨bs, hb, -, -⟩ := State.fetch_admits ha
      simp only [State.hostRead, (rangeOk_iff a n).mpr hf, require_true, ok_bind', hb]
      by_cases hc : Avoids s.coh.devDirty a n
      · simp [(addrTouches_not_iff _ _ _).mpr hc, hf, ha, hc]
      · simp [(addrTouches_not_eq_false_iff _ _ _).mpr hc, hf, ha, hc, eq_comm]
    · simp [State.hostRead, (rangeOk_iff a n).mpr hf, State.fetch_not_admits ha, hf, ha, eq_comm]
  · simp [State.hostRead, (rangeOk_eq_false_iff a n).mpr hf, hf, eq_comm]

/-- A host-view store succeeds exactly when it fits and is admitted, and then it is `storeHost`. -/
theorem State.hostWrite_eq_ok {s t : State} {a : Nat} {bs : List Byte} :
    s.hostWrite a bs = .ok t ↔ Fits a bs.length ∧ s.Admits a bs.length ∧ t = s.storeHost a bs := by
  simp only [State.hostWrite, bind_eq_ok, require_eq_ok, rangeOk_iff, pure_ok', Except.ok.injEq]
  constructor
  · rintro ⟨_, hf, b, hb, rfl⟩
    obtain ⟨hl, hh⟩ := State.fetch_eq_ok.mp hb
    exact ⟨hf, hl ▸ hh.admits, rfl⟩
  · rintro ⟨hf, ha, rfl⟩
    obtain ⟨b, hb, -, -⟩ := State.fetch_admits ha
    exact ⟨(), hf, b, hb, rfl⟩

theorem State.hostWrite_eq_error {s : State} {a : Nat} {bs : List Byte} {h : Halt} :
    s.hostWrite a bs = .error h ↔
      (¬ Fits a bs.length ∧ h = .raise .rangeWrap) ∨
      (Fits a bs.length ∧ ¬ s.Admits a bs.length ∧ h = .noStep) := by
  by_cases hf : Fits a bs.length
  · by_cases ha : s.Admits a bs.length
    · obtain ⟨b, hb, -, -⟩ := State.fetch_admits ha
      simp [State.hostWrite, (rangeOk_iff a _).mpr hf, hb, hf, ha]
    · simp [State.hostWrite, (rangeOk_iff a _).mpr hf, State.fetch_not_admits ha, hf, ha, eq_comm]
  · simp [State.hostWrite, (rangeOk_eq_false_iff a _).mpr hf, hf, eq_comm]

/-- A store puts its bytes where it says and nothing elsewhere. -/
theorem stored_write (m : Memory) (a : Nat) (bs : List Byte) : Stored m (m.write a bs) a bs :=
  ⟨fun i h => Memory.get_write_inside bs m a i h, fun x h => Memory.get_write_outside bs m a x h⟩

theorem marked_insertRange (set : List Nat) (a n : Nat) : Marked set (addrInsertRange a n set) a n :=
  fun x => by rw [mem_addrInsertRange]; exact Or.comm

theorem unmarked_removeRange (set : List Nat) (a n : Nat) :
    Unmarked set (addrRemoveRange a n set) a n := fun x => mem_addrRemoveRange a n x set

/-! ### Operands -/

theorem State.argVal_eq_ok {s : State} {i : Fin 4} {v : Nat} :
    s.argVal i = .ok v ↔ ∃ w, s.arg[i] = some w ∧ v = w.toNat := by
  simp only [State.argVal, bind_eq_ok, written_eq_ok, pure_ok', Except.ok.injEq]
  constructor <;> rintro ⟨w, hw, h⟩ <;> exact ⟨w, hw, h.symm⟩

theorem State.argVal_some {s : State} {i : Fin 4} {w : Word} (h : s.arg[i] = some w) :
    s.argVal i = .ok w.toNat := State.argVal_eq_ok.mpr ⟨w, h, rfl⟩

theorem State.argVal_eq_error {s : State} {i : Fin 4} {h : Halt} :
    s.argVal i = .error h ↔ s.arg[i] = none ∧ h = .raise .readUnwritten := by
  simp [State.argVal, bind_eq_error, written_eq_error]

theorem State.argPair_eq_ok {s : State} {p : Nat × Nat} :
    s.argPair = .ok p ↔
      ∃ a b, s.arg[0] = some a ∧ s.arg[1] = some b ∧ p = (a.toNat, b.toNat) := by
  simp only [State.argPair, bind_eq_ok, State.argVal_eq_ok, pure_ok', Except.ok.injEq]
  constructor
  · rintro ⟨_, ⟨a, ha, rfl⟩, _, ⟨b, hb, rfl⟩, rfl⟩; exact ⟨a, b, ha, hb, rfl⟩
  · rintro ⟨a, b, ha, hb, rfl⟩; exact ⟨_, ⟨a, ha, rfl⟩, _, ⟨b, hb, rfl⟩, rfl⟩

theorem State.argPair_some {s : State} {a b : Word} (ha : s.arg[0] = some a)
    (hb : s.arg[1] = some b) : s.argPair = .ok (a.toNat, b.toNat) :=
  State.argPair_eq_ok.mpr ⟨a, b, ha, hb, rfl⟩

theorem State.argPair_eq_error {s : State} {h : Halt} :
    s.argPair = .error h ↔ (s.arg[0] = none ∨ s.arg[1] = none) ∧ h = .raise .readUnwritten := by
  have h0 : (s.arg[(0 : Fin 4)] : Option Word) = s.arg[0] := rfl
  have h1 : (s.arg[(1 : Fin 4)] : Option Word) = s.arg[1] := rfl
  simp only [State.argPair, State.argVal, h0, h1]
  cases s.arg[0] <;> cases s.arg[1] <;> simp [eq_comm]

theorem State.argPair_none {s : State} (h : s.arg[0] = none ∨ s.arg[1] = none) :
    s.argPair = .error (.raise .readUnwritten) := State.argPair_eq_error.mpr ⟨h, rfl⟩

end Sys2Proof.Machine
end

