-- ==== Sys2Proof/Laws/Cipher.lean ====
section
/-! SUPPORT. Blocks and bytes, the CBC functions, and the operands of a cipher command. -/

namespace Sys2Proof.Machine

/-! ### Blocks and bytes -/

@[simp] theorem ofBlocks_nil : ofBlocks [] = [] := rfl
theorem ofBlocks_cons (b : Block) (bs : List Block) : ofBlocks (b :: bs) = b.toList ++ ofBlocks bs := rfl

theorem ofBlocks_length (bs : List Block) : (ofBlocks bs).length = 16 * bs.length := by
  induction bs with
  | nil => rfl
  | cons b bs ih => rw [ofBlocks_cons, List.length_append, ih, Vector.length_toList, List.length_cons]; omega

theorem toBlocks_length (n : Nat) (bytes : List Byte) : (toBlocks n bytes).length = n := by
  induction n generalizing bytes with
  | zero => rfl
  | succ n ih => simp [toBlocks, ih]

theorem blockOf_toList (b : Block) : blockOf b.toList = b := by
  ext i hi
  simp [blockOf]

theorem toList_blockOf (bytes : List Byte) (h : bytes.length = 16) : (blockOf bytes).toList = bytes := by
  apply List.ext_getElem
  · simp [h]
  · intro i h1 h2
    simp [blockOf, h2]

/-- The blocks of the bytes of blocks are those blocks. -/
theorem toBlocks_ofBlocks (bs : List Block) : toBlocks bs.length (ofBlocks bs) = bs := by
  induction bs with
  | nil => rfl
  | cons b bs ih =>
    have ht : (ofBlocks (b :: bs)).take 16 = b.toList := by
      rw [ofBlocks_cons, List.take_left' (Vector.length_toList)]
    have hd : (ofBlocks (b :: bs)).drop 16 = ofBlocks bs := by
      rw [ofBlocks_cons, List.drop_left' (Vector.length_toList)]
    rw [List.length_cons, toBlocks, ht, hd, ih, blockOf_toList]

/-- The bytes of the blocks of 16n bytes are those bytes. -/
theorem ofBlocks_toBlocks (n : Nat) (bytes : List Byte) (h : bytes.length = 16 * n) :
    ofBlocks (toBlocks n bytes) = bytes := by
  induction n generalizing bytes with
  | zero => rw [List.length_eq_zero_iff.mp (by omega : bytes.length = 0)]; rfl
  | succ n ih =>
    rw [toBlocks, ofBlocks_cons, toList_blockOf _ (by rw [List.length_take]; omega),
      ih _ (by rw [List.length_drop]; omega), List.take_append_drop]

/-! ### Exclusive-or of blocks -/

theorem xorBlock_getElem (a b : Block) (i : Nat) (h : i < 16) :
    (xorBlock a b)[i] = a[i] ^^^ b[i] := by simp [xorBlock]

theorem xorBlock_xorBlock (a b : Block) : xorBlock (xorBlock a b) b = a := by
  ext i hi : 1
  rw [xorBlock_getElem _ _ _ hi, xorBlock_getElem _ _ _ hi, BitVec.xor_assoc, BitVec.xor_self,
    BitVec.xor_zero]

/-! ### The CBC functions -/

theorem cbcEnc_length (enc : Block → Block) (c : Block) (ps : List Block) :
    (cbcEnc enc c ps).1.length = ps.length := by
  induction ps generalizing c with
  | nil => rfl
  | cons p ps ih => simp [cbcEnc, ih]

theorem cbcDec_length (dec : Block → Block) (c : Block) (xs : List Block) :
    (cbcDec dec c xs).1.length = xs.length := by
  induction xs generalizing c with
  | nil => rfl
  | cons x xs ih => simp [cbcDec, ih]

/-- Decryption leaves the last ciphertext block. -/
theorem cbcDec_snd (dec : Block → Block) (c : Block) (xs : List Block) :
    (cbcDec dec c xs).2 = xs.getLastD c := by
  induction xs generalizing c with
  | nil => rfl
  | cons x xs ih =>
    rw [cbcDec, ih]
    cases xs <;> rfl

/-- So does encryption. -/
theorem cbcEnc_snd (enc : Block → Block) (c : Block) (ps : List Block) :
    (cbcEnc enc c ps).2 = (cbcEnc enc c ps).1.getLastD c := by
  induction ps generalizing c with
  | nil => rfl
  | cons p ps ih =>
    rw [cbcEnc]
    dsimp only
    rw [ih, List.getLastD_cons]

/-- Decryption with the inverse undoes encryption. -/
theorem cbcDec_cbcEnc (enc dec : Block → Block) (hinv : ∀ b, dec (enc b) = b) (c : Block)
    (ps : List Block) : (cbcDec dec c (cbcEnc enc c ps).1).1 = ps := by
  induction ps generalizing c with
  | nil => rfl
  | cons p ps ih => simp only [cbcEnc, cbcDec, hinv, xorBlock_xorBlock, ih]

theorem blockDec_blockEnc (key : List Byte) (b : Block) :
    Config.blockDec key (Config.blockEnc key b) = b := (Config.cipher key).symm_apply_apply b

/-! ### The operands -/

theorem rangesMeet_iff (a b n : Nat) : rangesMeet a b n = true ↔ a < b + n ∧ b < a + n := by
  simp [rangesMeet]

theorem noOverlap_iff (src dst n : Nat) :
    (src == dst || !rangesMeet src dst n) = true ↔ NoOverlap src dst n := by
  rw [Bool.or_eq_true, beq_iff_eq, Bool.not_eq_true', ← Bool.not_eq_true, rangesMeet_iff, NoOverlap]
  omega

theorem noOverlap_eq_false_iff (src dst n : Nat) :
    (src == dst || !rangesMeet src dst n) = false ↔ ¬ NoOverlap src dst n := by
  rw [← noOverlap_iff, Bool.not_eq_true]

theorem aligned_iff (src dst : Nat) :
    (src % 16 == 0 && dst % 16 == 0) = true ↔ src % 16 = 0 ∧ dst % 16 = 0 := by simp

theorem aligned_eq_false_iff (src dst : Nat) :
    (src % 16 == 0 && dst % 16 == 0) = false ↔ ¬ (src % 16 = 0 ∧ dst % 16 = 0) := by
  rw [← aligned_iff, Bool.not_eq_true]

/-- A cipher command has its operands exactly when every check passes. -/
theorem State.cipherOps_eq_ok {s : State} {n : Nat} {keep : Bool} {o : CipherOps} :
    s.cipherOps n keep = .ok o ↔
      ∃ src dst : Word, s.CipherReady keep src dst n o.key o.start ∧ o.dst = dst.toNat ∧
        o.input.length = 16 * n ∧ s.Holds src.toNat o.input := by
  simp only [State.cipherOps, bind_eq_ok, State.argPair_eq_ok, written_eq_ok, require_eq_ok,
    rangeOk_iff, State.fetch_eq_ok, addrTouches_not_iff, pure_ok', Except.ok.injEq, State.startChain]
  constructor
  · rintro ⟨_, ⟨src, dst, h0, h1, rfl⟩, key, hk, c, hc, _, ha, _, ho, _, hf, _, hf', input, ⟨hl, hh⟩, out,
      ⟨hl', hh'⟩, _, hs, _, hd, rfl⟩
    exact ⟨src, dst, ⟨h0, h1, hk, hc, (aligned_iff _ _).mp ha, (noOverlap_iff _ _ _).mp ho, ⟨hf, hf'⟩,
      ⟨hl ▸ hh.admits, hl' ▸ hh'.admits⟩, ⟨hs, hd⟩⟩, rfl, hl, hh⟩
  · rintro ⟨src, dst, ⟨h0, h1, hk, hc, ha, ho, hf, hadm, hcl⟩, hdst, hl, hh⟩
    obtain ⟨out, -, hl', hh'⟩ := State.fetch_admits hadm.2
    refine ⟨_, ⟨src, dst, h0, h1, rfl⟩, _, hk, _, hc, (), (aligned_iff _ _).mpr ha, (),
      (noOverlap_iff _ _ _).mpr ho, (), hf.1, (), hf.2, _, ⟨hl, hh⟩, out, ⟨hl', hh'⟩, (), hcl.1, (),
      hcl.2, ?_⟩
    cases o
    simp_all

/-- How a cipher command ends without operands, in the order of its checks. -/
theorem State.cipherOps_stops (s : State) (n : Nat) (keep : Bool) (f : CipherOps → Except Halt State) :
    s.CipherStops keep n (s.complete (s.cipherOps n keep >>= f)) := by
  refine ⟨fun h => ?_, fun h => ?_, fun h => ?_, ?_⟩
  · rw [State.cipherOps, State.argPair_none h]; rfl
  · cases h0 : s.argPair with
    | error e =>
      obtain ⟨-, rfl⟩ := State.argPair_eq_error.mp h0
      rw [State.cipherOps, h0]; rfl
    | ok p => rw [State.cipherOps, h0, ok_bind', h]; rfl
  · cases h0 : s.argPair with
    | error e =>
      obtain ⟨-, rfl⟩ := State.argPair_eq_error.mp h0
      rw [State.cipherOps, h0]; rfl
    | ok p =>
      cases hk : s.aes.key with
      | none => rw [State.cipherOps, h0, ok_bind', hk]; rfl
      | some key =>
        have hc : s.startChain keep = none := h
        simp only [State.cipherOps, h0, ok_bind', hk, written_some, hc]; rfl
  · intro src dst h0 h1 hk hc
    obtain ⟨key, hk⟩ := Option.ne_none_iff_exists'.mp hk
    obtain ⟨c, hc⟩ := Option.ne_none_iff_exists'.mp hc
    have hc' : s.startChain keep = some c := hc
    have hpre : ∀ g : CipherOps → Except Halt State, s.cipherOps n keep >>= g = (do
        require (src.toNat % 16 == 0 && dst.toNat % 16 == 0) .misaligned
        require (src.toNat == dst.toNat || !rangesMeet src.toNat dst.toNat (16 * n)) .overlap
        require (rangeOk src.toNat (16 * n)) .rangeWrap
        require (rangeOk dst.toNat (16 * n)) .rangeWrap
        let input ← s.fetch src.toNat (16 * n)
        let _ ← s.fetch dst.toNat (16 * n)
        require (!addrTouches src.toNat (16 * n) s.coh.hostDirty) .coherence
        require (!addrTouches dst.toNat (16 * n) s.coh.hostDirty) .coherence
        return { key := key, start := c, dst := dst.toNat, input := input : CipherOps }) >>= g := by
      intro g
      simp only [State.cipherOps, State.argPair_some h0 h1, ok_bind', hk, written_some, hc']
    rw [hpre]
    refine ⟨fun h => ?_, fun ha => ⟨fun h => ?_, fun ho => ⟨fun h => ?_, fun hf => ⟨fun h => ?_,
      fun hadm h => ?_⟩⟩⟩⟩
    · rw [(aligned_eq_false_iff _ _).mpr h]; rfl
    · rw [(aligned_iff _ _).mpr ha, (noOverlap_eq_false_iff _ _ _).mpr h]; rfl
    · rw [(aligned_iff _ _).mpr ha, (noOverlap_iff _ _ _).mpr ho]
      by_cases hf : Fits src.toNat (16 * n)
      · rw [(rangeOk_iff _ _).mpr hf, (rangeOk_eq_false_iff _ _).mpr (fun h' => h ⟨hf, h'⟩)]; rfl
      · rw [(rangeOk_eq_false_iff _ _).mpr hf]; rfl
    · rw [(aligned_iff _ _).mpr ha, (noOverlap_iff _ _ _).mpr ho, (rangeOk_iff _ _).mpr hf.1,
        (rangeOk_iff _ _).mpr hf.2]
      by_cases hs : s.Admits src.toNat (16 * n)
      · obtain ⟨input, hi, -, -⟩ := State.fetch_admits hs
        rw [hi, State.fetch_not_admits (fun h' => h ⟨hs, h'⟩)]; rfl
      · rw [State.fetch_not_admits hs]; rfl
    · rw [(aligned_iff _ _).mpr ha, (noOverlap_iff _ _ _).mpr ho, (rangeOk_iff _ _).mpr hf.1,
        (rangeOk_iff _ _).mpr hf.2]
      obtain ⟨input, hi, -, -⟩ := State.fetch_admits hadm.1
      obtain ⟨output, ho, -, -⟩ := State.fetch_admits hadm.2
      rw [hi, ho]
      by_cases hs : Avoids s.coh.hostDirty src.toNat (16 * n)
      · rw [(addrTouches_not_iff _ _ _).mpr hs,
          (addrTouches_not_eq_false_iff _ _ _).mpr (fun h' => h ⟨hs, h'⟩)]; rfl
      · rw [(addrTouches_not_eq_false_iff _ _ _).mpr hs]; rfl

end Sys2Proof.Machine
end

