-- ==== Sys2Proof/Laws/Container.lean ====
section
/-! SUPPORT. Little-endian values, and what the checks and fields of the validator commands can do. -/

namespace Sys2Proof.Machine

/-! ### Little-endian values -/

theorem toLE_length (n v : Nat) : (toLE n v).length = n := by
  induction n generalizing v with
  | zero => rfl
  | succ n ih => simp [toLE, ih]

theorem leVal_cons (b : Byte) (bs : List Byte) : leVal (b :: bs) = b.toNat + 256 * leVal bs := rfl

theorem leVal_lt (bs : List Byte) : leVal bs < 256 ^ bs.length := by
  induction bs with
  | nil => simp [leVal]
  | cons b bs ih =>
    rw [leVal_cons, List.length_cons, Nat.pow_succ]
    have := b.isLt
    omega

theorem leVal_toLE (n v : Nat) (h : v < 256 ^ n) : leVal (toLE n v) = v := by
  induction n generalizing v with
  | zero => simp at h; simp [toLE, leVal, h]
  | succ n ih =>
    rw [Nat.pow_succ] at h
    rw [toLE, leVal_cons, ih _ (by omega), BitVec.toNat_ofNat]
    omega

theorem toLE_leVal (bs : List Byte) : toLE bs.length (leVal bs) = bs := by
  induction bs with
  | nil => rfl
  | cons b bs ih =>
    have hb := b.isLt
    rw [List.length_cons, toLE, leVal_cons]
    have h1 : (b.toNat + 256 * leVal bs) / 256 = leVal bs := by omega
    have h2 : BitVec.ofNat 8 (b.toNat + 256 * leVal bs) = b := by
      apply BitVec.eq_of_toNat_eq
      rw [BitVec.toNat_ofNat]
      omega
    rw [h1, h2, ih]

/-! ### Checks and fields -/

theorem check_eq_ok {b : Bool} {c : ResultCode} {u : Unit} : check b c = .ok u ↔ b = true := by
  cases b <;> simp [check]

theorem check_eq_error {b : Bool} {c : ResultCode} {e : CtrStop} :
    check b c = .error e ↔ b = false ∧ e = .code c := by
  cases b <;> simp [check, eq_comm]

@[simp] theorem check_true (c : ResultCode) : check true c = .ok () := rfl
@[simp] theorem check_false (c : ResultCode) : check false c = .error (.code c) := rfl

theorem need_eq_ok {b : Buffer} {off n : Nat} {u : Unit} : b.need off n = .ok u ↔ off + n ≤ b.len := by
  rw [Buffer.need, check_eq_ok, decide_eq_true_iff]

theorem need_eq_error {b : Buffer} {off n : Nat} {e : CtrStop} :
    b.need off n = .error e ↔ b.len < off + n ∧ e = .code .truncated := by
  rw [Buffer.need, check_eq_error, decide_eq_false_iff_not, Nat.not_le]

theorem need_of_le {b : Buffer} {off n : Nat} (h : off + n ≤ b.len) : b.need off n = .ok () :=
  need_eq_ok.mpr h

theorem need_of_lt {b : Buffer} {off n : Nat} (h : b.len < off + n) :
    b.need off n = .error (.code .truncated) := need_eq_error.mpr ⟨h, rfl⟩

theorem field_eq_ok {s : State} {b : Buffer} {off n : Nat} {bs : List Byte} :
    s.field b off n = .ok bs ↔ bs.length = n ∧ s.HostReads (b.addr + off) bs := by
  rw [← State.hostRead_eq_ok, State.field]
  cases s.hostRead (b.addr + off) n <;> simp

theorem field_of_reads {s : State} {b : Buffer} {off n : Nat} {bs : List Byte}
    (h : s.HostReads (b.addr + off) bs) (hn : bs.length = n) : s.field b off n = .ok bs :=
  field_eq_ok.mpr ⟨hn, h⟩

/-- A field is never rejected by a code: reading it succeeds or halts. -/
theorem field_ne_code {s : State} {b : Buffer} {off n : Nat} {c : ResultCode} :
    s.field b off n ≠ .error (.code c) := by
  rw [State.field]
  cases s.hostRead (b.addr + off) n <;> simp

theorem field32_eq_ok {s : State} {b : Buffer} {off v : Nat} :
    s.field32 b off = .ok v ↔ s.Field32 b off v := by
  simp only [State.field32, bind_eq_ok, field_eq_ok, pure_ok', Except.ok.injEq, State.Field32]
  constructor
  · rintro ⟨bs, ⟨hl, hr⟩, rfl⟩
    have := leVal_lt bs
    rw [hl] at this
    exact ⟨this, by rw [← hl, toLE_leVal]; exact hr⟩
  · rintro ⟨hv, hr⟩
    exact ⟨_, ⟨toLE_length _ _, hr⟩, leVal_toLE 4 v hv⟩

theorem field32_ne_code {s : State} {b : Buffer} {off : Nat} {c : ResultCode} :
    s.field32 b off ≠ .error (.code c) := by
  intro h
  rw [State.field32, bind_eq_error] at h
  rcases h with h | ⟨a, -, h⟩
  · exact field_ne_code h
  · cases h

theorem ofTag_eq_some {n : Nat} {t : SigType} : SigType.ofTag n = some t ↔ n = t.tag := by
  rw [SigType.ofTag]
  split
  · next h => subst h; cases t <;> simp [SigType.tag]
  · split
    · next h => subst h; cases t <;> simp [SigType.tag]
    · next h h' => cases t <;> simp [SigType.tag, h, h']

theorem ofTag_tag (t : SigType) : SigType.ofTag t.tag = some t := ofTag_eq_some.mpr rfl

theorem ofTag_eq_none {n : Nat} (h1 : n ≠ 1) (h2 : n ≠ 2) : SigType.ofTag n = none := by
  simp [SigType.ofTag, h1, h2]

/-- The buffer of a validator command: its operands, and its range. -/
theorem ctrBuffer_eq_ok {s : State} {b : Buffer} :
    s.ctrBuffer = .ok b ↔ ∃ p len : Word, s.arg[0] = some p ∧ s.arg[1] = some len ∧
      Fits p.toNat len.toNat ∧ b = { addr := p.toNat, len := len.toNat } := by
  simp only [State.ctrBuffer, bind_eq_ok, State.argPair_eq_ok, require_eq_ok, rangeOk_iff, pure_ok',
    Except.ok.injEq]
  constructor
  · rintro ⟨_, ⟨p, len, h0, h1, rfl⟩, _, hf, rfl⟩; exact ⟨p, len, h0, h1, hf, rfl⟩
  · rintro ⟨p, len, h0, h1, hf, rfl⟩; exact ⟨_, ⟨p, len, h0, h1, rfl⟩, (), hf, rfl⟩

/-- The magic's check, then the signature offset. -/
theorem ctrHeader_eq_ok {s : State} {b : Buffer} {so : Nat} :
    s.ctrHeader b = .ok so ↔ s.MagicOk b ∧ 12 ≤ b.len ∧ s.Field32 b 8 so := by
  simp only [State.ctrHeader, bind_eq_ok, need_eq_ok, field_eq_ok, check_eq_ok, field32_eq_ok,
    beq_iff_eq, State.MagicOk, Nat.zero_add, Nat.add_zero]
  constructor
  · rintro ⟨_, h4, m, ⟨-, hr⟩, _, rfl, _, h12, hf⟩; exact ⟨⟨h4, hr⟩, h12, hf⟩
  · rintro ⟨⟨h4, hr⟩, h12, hf⟩; exact ⟨(), h4, _, ⟨by simp, hr⟩, (), rfl, (), h12, hf⟩

theorem ctrType_eq_ok {s : State} {b : Buffer} {so : Nat} {t : SigType} :
    s.ctrType b so = .ok t ↔ so + 4 ≤ b.len ∧ s.Field32 b so t.tag := by
  simp only [State.ctrType, bind_eq_ok, need_eq_ok, field32_eq_ok]
  constructor
  · rintro ⟨_, h, tag, hf, ht⟩
    split at ht
    · next t' ht' => cases ht; exact ⟨h, ofTag_eq_some.mp ht' ▸ hf⟩
    · cases ht
  · rintro ⟨h, hf⟩; exact ⟨(), h, _, hf, by rw [ofTag_tag]⟩

/-- CTR.PARSE finds c in the buffer exactly when the buffer parses as c. -/
theorem parseContainer_eq_ok {s : State} {b : Buffer} {c : CtrInfo} :
    s.parseContainer b = .ok c ↔ s.ParsesAs b c := by
  simp only [State.parseContainer, bind_eq_ok, ctrHeader_eq_ok, ctrType_eq_ok, need_eq_ok,
    field32_eq_ok, pure_ok', Except.ok.injEq]
  constructor
  · rintro ⟨so, ⟨hm, h12, hso⟩, t, ⟨hsi, ht⟩, _, hio, device, hd, it, hit, size, hs, version, hv, _, hb,
      rfl⟩
    exact ⟨hm, h12, hso, hsi, ht, hio, hd, hit, hs, hv, rfl, hb⟩
  · rintro ⟨hm, h12, hso, hsi, ht, hio, hd, hit, hs, hv, hbo, hb⟩
    refine ⟨_, ⟨hm, h12, hso⟩, _, ⟨hsi, ht⟩, (), hio, _, hd, _, hit, _, hs, _, hv, (), hbo ▸ hb, ?_⟩
    cases c
    simp_all

/-! ### The order of the accesses -/

/-- The result y, unless x raises `Fault(Coherence)`. -/
def CtrStop.Yields {α : Type} (x y : Except CtrStop α) : Prop := x = y ∨ x = .error (.halt (.raise .coherence))

theorem CtrStop.Yields.refl {α : Type} (x : Except CtrStop α) : Yields x x := .inl rfl

theorem CtrStop.Yields.bind {α β : Type} {x y : Except CtrStop α} {f g : α → Except CtrStop β}
    (h : Yields x y) (hf : ∀ a, Yields (f a) (g a)) : Yields (x >>= f) (y >>= g) := by
  rcases h with rfl | rfl
  · cases x with
    | ok a => exact hf a
    | error e => exact .inl rfl
  · exact .inr rfl

/-- Without device-dirty addresses a field reads as it does with them, or there it is not coherent. -/
theorem field_yields (s : State) (b : Buffer) (off n : Nat) :
    CtrStop.Yields (s.field b off n) (s.coherent.field b off n) := by
  have hr : s.hostRead (b.addr + off) n = s.coherent.hostRead (b.addr + off) n ∨
      s.hostRead (b.addr + off) n = .error (.raise .coherence) := by
    cases h : s.hostRead (b.addr + off) n with
    | ok bs =>
      obtain ⟨hl, hf, hh, -⟩ := State.hostRead_eq_ok.mp h
      have : s.coherent.hostRead (b.addr + off) n = .ok bs :=
        State.hostRead_eq_ok.mpr ⟨hl, hf, hh, by intro x hx; cases hx⟩
      exact .inl this.symm
    | error e =>
      rcases State.hostRead_eq_error.mp h with ⟨hf, rfl⟩ | ⟨hf, ha, rfl⟩ | ⟨-, -, -, rfl⟩
      · have : s.coherent.hostRead (b.addr + off) n = .error (.raise .rangeWrap) :=
          State.hostRead_eq_error.mpr (.inl ⟨hf, rfl⟩)
        exact .inl this.symm
      · have : s.coherent.hostRead (b.addr + off) n = .error .noStep :=
          State.hostRead_eq_error.mpr (.inr (.inl ⟨hf, ha, rfl⟩))
        exact .inl this.symm
      · exact .inr rfl
  rw [State.field, State.field]
  rcases hr with hr | hr <;> rw [hr]
  · exact .refl _
  · exact .inr rfl

theorem field32_yields (s : State) (b : Buffer) (off : Nat) :
    CtrStop.Yields (s.field32 b off) (s.coherent.field32 b off) :=
  (field_yields s b off 4).bind fun _ => .refl _

theorem ctrHeader_yields (s : State) (b : Buffer) : CtrStop.Yields (s.ctrHeader b) (s.coherent.ctrHeader b) :=
  (CtrStop.Yields.refl _).bind fun _ => (field_yields s b 0 4).bind fun _ => (CtrStop.Yields.refl _).bind fun _ =>
    (CtrStop.Yields.refl _).bind fun _ => field32_yields s b 8

theorem ctrType_yields (s : State) (b : Buffer) (so : Nat) :
    CtrStop.Yields (s.ctrType b so) (s.coherent.ctrType b so) :=
  (CtrStop.Yields.refl _).bind fun _ => (field32_yields s b so).bind fun _ => .refl _

theorem parseContainer_yields (b : Buffer) (s : State) :
    CtrStop.Yields (s.parseContainer b) (s.coherent.parseContainer b) :=
  (ctrHeader_yields s b).bind fun so => (ctrType_yields s b so).bind fun _ => (CtrStop.Yields.refl _).bind fun _ =>
    (field32_yields s b _).bind fun _ => (field32_yields s b _).bind fun _ => (field32_yields s b _).bind fun _ =>
    (field32_yields s b _).bind fun _ => .refl _

theorem verifyContainer_yields (b : Buffer) (s : State) :
    CtrStop.Yields (s.verifyContainer b) (s.coherent.verifyContainer b) :=
  (ctrHeader_yields s b).bind fun so => (CtrStop.Yields.refl _).bind fun _ => (ctrType_yields s b so).bind fun _ =>
    (CtrStop.Yields.refl _).bind fun _ => (field32_yields s b _).bind fun _ => (CtrStop.Yields.refl _).bind fun _ =>
    (field_yields s b _ _).bind fun _ => (CtrStop.Yields.refl _).bind fun _ =>
    (field_yields s b _ _).bind fun _ => (CtrStop.Yields.refl _).bind fun _ =>
    (field_yields s b _ _).bind fun _ => (CtrStop.Yields.refl _).bind fun _ =>
    (field_yields s b _ _).bind fun _ => (field_yields s b _ _).bind fun _ => (CtrStop.Yields.refl _).bind fun _ =>
    (field32_yields s b _).bind fun _ => (field32_yields s b _).bind fun _ => (field32_yields s b _).bind fun _ =>
    .refl _

/-- What a validator command's reads and checks give: the halt of the first pass, or else what the checks
give. -/
theorem ctrRun_cases (s : State) (f : State → Except CtrStop CtrInfo) :
    (∃ h, f s.coherent = .error (.halt h) ∧ s.ctrRun f = .error (.halt h)) ∨
    ((∀ h, f s.coherent ≠ .error (.halt h)) ∧ s.ctrRun f = f s) := by
  rw [State.ctrRun]
  split
  · next h e => exact .inl ⟨h, e, rfl⟩
  · next e => exact .inr ⟨fun h => by simp [e], rfl⟩
  · next e => exact .inr ⟨fun h => by simp [e], rfl⟩

/-- Checks that do not halt give what they give. -/
theorem ctrRun_of_yields {s : State} {f : State → Except CtrStop CtrInfo}
    (hy : CtrStop.Yields (f s) (f s.coherent)) (hn : ∀ h, f s ≠ .error (.halt h)) : s.ctrRun f = f s := by
  rcases ctrRun_cases s f with ⟨h, e, -⟩ | ⟨-, e⟩
  · rcases hy with hy | hy
    · exact absurd (hy.trans e) (hn h)
    · exact absurd hy (hn _)
  · exact e

/-- The run does not complete unless the checks do. -/
theorem ctrRun_eq_of_ne_halt {s : State} {f : State → Except CtrStop CtrInfo} {r : Except CtrStop CtrInfo}
    (h : s.ctrRun f = r) (hn : ∀ e, r ≠ .error (.halt e)) : f s = r := by
  rcases ctrRun_cases s f with ⟨e, -, he⟩ | ⟨-, he⟩
  · exact absurd (h.symm.trans he) (hn e)
  · exact he.symm.trans h

/-- The codes with which CTR.PARSE rejects. -/
theorem parseContainer_code {s : State} {b : Buffer} {c : ResultCode}
    (h : s.parseContainer b = .error (.code c)) :
    c = .badMagic ∨ c = .badSigType ∨ c = .truncated := by
  simp only [State.parseContainer, State.ctrHeader, State.ctrType, bind_eq_error, check_eq_error,
    need_eq_error, field_ne_code, field32_ne_code, false_or, CtrStop.code.injEq, pure_ok',
    reduceCtorEq, and_false, exists_false, or_false] at h
  rcases h with h | ⟨so, -, h⟩
  · rcases h with ⟨-, h⟩ | ⟨_, -, h⟩
    · exact .inr (.inr h)
    · obtain ⟨m, -, h⟩ := h
      rcases h with ⟨-, h⟩ | ⟨_, -, h⟩
      · exact .inl h
      · exact .inr (.inr h.2)
  · rcases h with h | ⟨t, -, h⟩
    · rcases h with ⟨-, h⟩ | ⟨_, -, tag, -, h⟩
      · exact .inr (.inr h)
      · split at h
        · cases h
        · cases h; exact .inr (.inl rfl)
    · rcases h with ⟨-, h⟩ | ⟨_, -, _, -, _, -, _, -, _, -, -, h⟩
      · exact .inr (.inr h)
      · exact .inr (.inr h)

/-- The codes with which CTR.VERIFY rejects. -/
theorem verifyContainer_code {s : State} {b : Buffer} {c : ResultCode}
    (h : s.verifyContainer b = .error (.code c)) : c ∈ commandCodes := by
  simp only [State.verifyContainer, State.ctrHeader, State.ctrType, bind_eq_error, check_eq_error,
    need_eq_error, field_ne_code, field32_ne_code, false_or, CtrStop.code.injEq, pure_ok',
    reduceCtorEq, and_false, exists_false, or_false] at h
  have hc : ∀ c', c = c' → c' ∈ commandCodes → c ∈ commandCodes := fun _ h h' => h ▸ h'
  rcases h with h | ⟨so, -, h⟩
  · rcases h with ⟨-, h⟩ | ⟨_, -, m, -, h⟩
    · exact hc _ h (by decide)
    · rcases h with ⟨-, h⟩ | ⟨_, -, h⟩
      · exact hc _ h (by decide)
      · exact hc _ h.2 (by decide)
  rcases h with ⟨-, h⟩ | ⟨_, -, h⟩
  · exact hc _ h (by decide)
  rcases h with h | ⟨t, -, h⟩
  · rcases h with ⟨-, h⟩ | ⟨_, -, tag, -, h⟩
    · exact hc _ h (by decide)
    · split at h
      · cases h
      · cases h; decide
  rcases h with ⟨-, h⟩ | ⟨_, -, size, -, h⟩
  · exact hc _ h (by decide)
  rcases h with ⟨-, h⟩ | ⟨_, -, pad, -, h⟩
  · exact hc _ h (by decide)
  rcases h with ⟨-, h⟩ | ⟨_, -, reserved, -, h⟩
  · exact hc _ h (by decide)
  rcases h with ⟨-, h⟩ | ⟨_, -, tail, -, h⟩
  · exact hc _ h (by decide)
  rcases h with ⟨-, h⟩ | ⟨_, -, body, -, stored, -, -, h⟩
  · exact hc _ h (by decide)
  · exact hc _ h (by decide)

end Sys2Proof.Machine
end

