-- ==== Sys2Proof/Laws/Decode.lean ====
section
/-! SUPPORT. Bits on the wire and numbers; what selects a row of the opcode map. -/

namespace Sys2Proof

theorem valBits_length (n v : Nat) : (valBits n v).length = n := by
  induction n with
  | zero => rfl
  | succ n ih => simp [valBits, ih]

theorem foldl_bits (bits : List Bool) (v : Nat) :
    bits.foldl (fun v b => 2 * v + b.toNat) v = v * 2 ^ bits.length + bitsVal bits := by
  induction bits generalizing v with
  | nil => simp [bitsVal]
  | cons b bits ih =>
    have h0 : bitsVal (b :: bits) = b.toNat * 2 ^ bits.length + bitsVal bits := by
      rw [bitsVal, List.foldl_cons, ih]; simp
    rw [List.foldl_cons, ih, h0, List.length_cons, Nat.pow_succ]
    ring

theorem bitsVal_cons (b : Bool) (bits : List Bool) :
    bitsVal (b :: bits) = b.toNat * 2 ^ bits.length + bitsVal bits := by
  rw [bitsVal, List.foldl_cons, foldl_bits]
  simp

theorem bitsVal_lt (bits : List Bool) : bitsVal bits < 2 ^ bits.length := by
  induction bits with
  | nil => simp [bitsVal]
  | cons b bits ih =>
    rw [bitsVal_cons, List.length_cons, Nat.pow_succ]
    cases b <;> simp <;> omega

/-- The bits of a number stand for its low bits. -/
theorem bitsVal_valBits (n v : Nat) : bitsVal (valBits n v) = v % 2 ^ n := by
  induction n with
  | zero => simp [valBits, bitsVal, Nat.mod_one]
  | succ n ih =>
    rw [valBits, bitsVal_cons, valBits_length, ih, Nat.mod_pow_succ, Nat.testBit_eq_decide_div_mod_eq]
    have : v / 2 ^ n % 2 = 0 ∨ v / 2 ^ n % 2 = 1 := by omega
    rcases this with h | h
    · simp [h]
    · simp [h]; omega

/-- The bits of the number that bits stand for are those bits. -/
theorem valBits_bitsVal (bits : List Bool) (u : Nat) :
    valBits bits.length (u * 2 ^ bits.length + bitsVal bits) = bits := by
  induction bits generalizing u with
  | nil => rfl
  | cons b bits ih =>
    rw [List.length_cons, valBits, bitsVal_cons]
    have hlt := bitsVal_lt bits
    have hsplit : u * 2 ^ (bits.length + 1) + (b.toNat * 2 ^ bits.length + bitsVal bits) =
        (2 * u + b.toNat) * 2 ^ bits.length + bitsVal bits := by rw [Nat.pow_succ]; ring
    rw [hsplit, ih]
    congr 1
    rw [Nat.testBit_eq_decide_div_mod_eq, Nat.mul_comm, Nat.mul_add_div (Nat.two_pow_pos _),
      Nat.div_eq_of_lt hlt]
    cases b <;> simp

/-- An n-bit vector read from its own bits. -/
theorem bitsVec_valBits {n : Nat} (v : BitVec n) : bitsVec n (valBits n v.toNat) = v := by
  rw [bitsVec, bitsVal_valBits, Nat.mod_eq_of_lt v.isLt, BitVec.ofNat_toNat, BitVec.setWidth_eq]

/-- Bits are those of the vector read from them. -/
theorem valBits_bitsVec {n : Nat} (bits : List Bool) (h : bits.length = n) :
    valBits n (bitsVec n bits).toNat = bits := by
  subst h
  have := valBits_bitsVal bits 0
  rw [bitsVec, BitVec.toNat_ofNat, Nat.mod_eq_of_lt (bitsVal_lt bits)]
  simpa using this

theorem valBits_getElem (n v j : Nat) (h : j < n) :
    (valBits n v)[j]'(by rw [valBits_length]; exact h) = v.testBit (n - 1 - j) := by
  induction n generalizing j with
  | zero => omega
  | succ n ih =>
    cases j with
    | zero => simp [valBits]
    | succ j =>
      simp only [valBits, List.getElem_cons_succ]
      rw [ih j (by omega)]
      congr 1
      omega

end Sys2Proof
end

