-- ==== Sys2Proof/Laws/Instr.lean ====
section
/-! SUPPORT. What each instruction can do when it gives a next state: it raises a fault, or it gives the
state named here. -/

namespace Sys2Proof.Machine

variable {s t : State}

/-- The step raises a fault and changes nothing else. -/
def Raises (s t : State) : Prop := ∃ k, t = s.raise k

theorem complete_next_cases {c : Except Halt State} (h : s.complete c = .next t) :
    Raises s t ∨ c = .ok t := by
  rcases State.complete_eq_next.mp h with h | ⟨k, -, h⟩
  · exact .inr h
  · exact .inl ⟨k, h⟩

theorem execSysFlush_next (h : execSysFlush s = .next t) : Raises s t ∨
    ∃ a n, Fits a n ∧
      t = { s with coh := { s.coh with hostDirty := addrRemoveRange a n s.coh.hostDirty } }.done := by
  rcases complete_next_cases h with h | h
  · exact .inl h
  · simp only [bind_eq_ok, require_eq_ok, rangeOk_iff, pure_ok', Except.ok.injEq] at h
    obtain ⟨p, -, _, hf, rfl⟩ := h
    exact .inr ⟨_, _, hf, rfl⟩

theorem execSysInval_next (h : execSysInval s = .next t) : Raises s t ∨
    ∃ a n, Fits a n ∧ Avoids s.coh.hostDirty a n ∧
      t = { s with coh := { s.coh with devDirty := addrRemoveRange a n s.coh.devDirty } }.done := by
  rcases complete_next_cases h with h | h
  · exact .inl h
  · simp only [bind_eq_ok, require_eq_ok, rangeOk_iff, addrTouches_not_iff, pure_ok',
      Except.ok.injEq] at h
    obtain ⟨p, -, _, hf, _, ha, rfl⟩ := h
    exact .inr ⟨_, _, hf, ha, rfl⟩

theorem execCrcByte_next {b : Byte} (h : execCrcByte b s = .next t) : Raises s t ∨
    ∃ acc, s.crcAcc = some acc ∧ t = { s with crcAcc := some (crcStep acc b) }.done := by
  rcases complete_next_cases h with h | h
  · exact .inl h
  · simp only [bind_eq_ok, written_eq_ok, pure_ok', Except.ok.injEq] at h
    obtain ⟨acc, ha, rfl⟩ := h
    exact .inr ⟨acc, ha, rfl⟩

theorem execCrcRange_next (h : execCrcRange s = .next t) : Raises s t ∨
    ∃ (a n acc : Word) (bs : List Byte), s.arg[0] = some a ∧ s.arg[1] = some n ∧
      s.crcAcc = some acc ∧ bs.length = n.toNat ∧ s.HostReads a.toNat bs ∧
      t = { s with crcAcc := some (crcLoop acc bs) }.done := by
  rcases complete_next_cases h with h | h
  · exact .inl h
  · simp only [bind_eq_ok, written_eq_ok, State.argPair_eq_ok, State.argBytes, State.hostRead_eq_ok,
      pure_ok', Except.ok.injEq] at h
    obtain ⟨_, ⟨a, n, ha, hn, rfl⟩, acc, hacc, bs, ⟨hl, hr⟩, rfl⟩ := h
    exact .inr ⟨a, n, acc, bs, ha, hn, hacc, hl, hr, rfl⟩

theorem execCrcFinal_next (h : execCrcFinal s = .next t) : Raises s t ∨
    ∃ acc, s.crcAcc = some acc ∧ t = (s.setRes 0 (acc ^^^ crcXorOut)).done := by
  rcases complete_next_cases h with h | h
  · exact .inl h
  · simp only [bind_eq_ok, written_eq_ok, pure_ok', Except.ok.injEq] at h
    obtain ⟨acc, ha, rfl⟩ := h
    exact .inr ⟨acc, ha, rfl⟩

theorem execCrcCompute_next (h : execCrcCompute s = .next t) : Raises s t ∨
    ∃ (a n : Word) (bs : List Byte), s.arg[0] = some a ∧ s.arg[1] = some n ∧
      bs.length = n.toNat ∧ s.HostReads a.toNat bs ∧
      t = ({ s with crcAcc := some (crcLoop crcInit bs) }.setRes 0
        (crcLoop crcInit bs ^^^ crcXorOut)).done := by
  rcases complete_next_cases h with h | h
  · exact .inl h
  · simp only [bind_eq_ok, State.argPair_eq_ok, State.argBytes, State.hostRead_eq_ok, pure_ok',
      Except.ok.injEq] at h
    obtain ⟨_, ⟨a, n, ha, hn, rfl⟩, bs, ⟨hl, hr⟩, rfl⟩ := h
    exact .inr ⟨a, n, bs, ha, hn, hl, hr, rfl⟩

theorem execAesSetkey_next (h : execAesSetkey s = .next t) : Raises s t ∨
    ∃ (a : Word) (key : List Byte), s.arg[0] = some a ∧ key.length = s.par.keyBytes ∧
      s.HostReads a.toNat key ∧
      t = { s with aes := { s.aes with key := some key, chain := none } }.done := by
  rcases complete_next_cases h with h | h
  · exact .inl h
  · simp only [bind_eq_ok, State.argAddr, State.argVal_eq_ok, State.hostRead_eq_ok, pure_ok',
      Except.ok.injEq] at h
    obtain ⟨_, ⟨a, ha, rfl⟩, key, ⟨hl, hr⟩, rfl⟩ := h
    exact .inr ⟨a, key, ha, hl, hr, rfl⟩

theorem execAesSetiv_next (h : execAesSetiv s = .next t) : Raises s t ∨
    ∃ (a : Word) (bs : List Byte), s.arg[0] = some a ∧ bs.length = 16 ∧ s.HostReads a.toNat bs ∧
      t = { s with aes := { s.aes with iv := some (blockOf bs), chain := none } }.done := by
  rcases complete_next_cases h with h | h
  · exact .inl h
  · simp only [bind_eq_ok, State.argAddr, State.argVal_eq_ok, State.hostRead_eq_ok, pure_ok',
      Except.ok.injEq] at h
    obtain ⟨_, ⟨a, ha, rfl⟩, bs, ⟨hl, hr⟩, rfl⟩ := h
    exact .inr ⟨a, bs, ha, hl, hr, rfl⟩

theorem execAesEnc_next {n : Nat} {keep : Bool} (h : execAesEnc n keep s = .next t) : Raises s t ∨
    ∃ (src dst : Word) (key : List Byte) (c : Block) (input : List Byte),
      s.CipherReady keep src dst n key c ∧ input.length = 16 * n ∧ s.Holds src.toNat input ∧
      t = s.cipherFinish dst.toNat (cbcEnc (Config.blockEnc key) c (toBlocks n input)) := by
  rcases complete_next_cases h with h | h
  · exact .inl h
  · simp only [bind_eq_ok, State.cipherOps_eq_ok, pure_ok', Except.ok.injEq] at h
    obtain ⟨o, ⟨src, dst, hr, hd, hl, hh⟩, rfl⟩ := h
    exact .inr ⟨src, dst, _, _, _, hr, hl, hh, by rw [hd]⟩

theorem execAesDec_next {n : Nat} {keep : Bool} (h : execAesDec n keep s = .next t) : Raises s t ∨
    ∃ (src dst : Word) (key : List Byte) (c : Block) (input : List Byte),
      s.CipherReady keep src dst n key c ∧ input.length = 16 * n ∧ s.Holds src.toNat input ∧
      t = s.cipherFinish dst.toNat (cbcDec (Config.blockDec key) c (toBlocks n input)) := by
  rcases complete_next_cases h with h | h
  · exact .inl h
  · simp only [bind_eq_ok, State.cipherOps_eq_ok, pure_ok', Except.ok.injEq] at h
    obtain ⟨o, ⟨src, dst, hr, hd, hl, hh⟩, rfl⟩ := h
    exact .inr ⟨src, dst, _, _, _, hr, hl, hh, by rw [hd]⟩

theorem execEepSetSk_next (h : execEepSetSk s = .next t) : Raises s t ∨
    ∃ d, s.dev.skEdge (!s.gpio.sk && s.gpio.cs) s.gpio.di = .ok d ∧
      t = { s.setLine .sk true with dev := d }.done := by
  rcases complete_next_cases h with h | h
  · exact .inl h
  · simp only [bind_eq_ok, pure_ok', Except.ok.injEq] at h
    obtain ⟨d, hd, rfl⟩ := h
    exact .inr ⟨d, hd, rfl⟩

theorem execEccCalc_next (h : execEccCalc s = .next t) : Raises s t ∨
    ∃ (src dst : Word) (data : List Byte), s.arg[0] = some src ∧ s.arg[1] = some dst ∧
      data.length = 512 ∧ s.HostReads src.toNat data ∧ Fits dst.toNat 4 ∧ s.Admits dst.toNat 4 ∧
      t = (s.storeHost dst.toNat (calcEcc data)).done := by
  rcases complete_next_cases h with h | h
  · exact .inl h
  · simp only [bind_eq_ok, State.argPair_eq_ok, require_eq_ok, rangeOk_iff, State.fetch_eq_ok,
      addrTouches_not_iff, pure_ok', Except.ok.injEq, eccDataBytes, eccCodeBytes] at h
    obtain ⟨_, ⟨src, dst, h0, h1, rfl⟩, _, hf, _, hf', data, ⟨hl, hh⟩, out, ⟨hl', hh'⟩, _, hc, rfl⟩ := h
    exact .inr ⟨src, dst, data, h0, h1, hl, ⟨hl ▸ hf, hh, hl ▸ hc⟩, hf', hl' ▸ hh'.admits, rfl⟩

/-- A validator command that gives a next state raises a fault, reports a container or rejects it with a
code. -/
theorem ctr_next {buf : Except Halt Buffer} {parse : Buffer → Except CtrStop CtrInfo}
    (h : s.complete (buf >>= fun b => s.ctrFinish (parse b)) = .next t) : Raises s t ∨
    (∃ b c, buf = .ok b ∧ parse b = .ok c ∧ t = { s with res := c.results }.done) ∨
    (∃ b c, buf = .ok b ∧ parse b = .error (.code c) ∧ t = s.clearRes.finish c) := by
  rcases complete_next_cases h with h | h
  · exact .inl h
  · obtain ⟨b, hb, h⟩ := bind_eq_ok.mp h
    cases hp : parse b with
    | ok c => rw [hp] at h; cases h; exact .inr (.inl ⟨b, c, hb, hp, rfl⟩)
    | error e =>
      rw [hp] at h
      cases e with
      | code c => cases h; exact .inr (.inr ⟨b, c, hb, hp, rfl⟩)
      | halt e => cases h

/-- What a wire frame does: nothing, a reaction of the device, or a fault. -/
theorem frameOutcome_next {n : Nat} {reaction : Except Halt Device}
    (h : s.frameOutcome n reaction = .next t) : Raises s t ∨ t = s ∨
    (s.gpio.cs = true ∧ s.dev.mode = .recv ∧ ∃ d, reaction = .ok d ∧ t = { s with dev := d }) ∨
    (s.gpio.cs = true ∧ s.dev.mode = .out ∧ t = { s with dev := s.dev.skOutN n }) := by
  rw [State.frameOutcome] at h
  split at h
  · next hc =>
    split at h
    · next hm =>
      rcases complete_next_cases h with h | h
      · exact .inl h
      · cases reaction with
        | error e => cases h
        | ok d => cases h; exact .inr (.inr (.inl ⟨hc, hm, d, rfl, rfl⟩))
    · exact .inl ⟨.eepProtocol, by cases h; rfl⟩
    · next hm => cases h; exact .inr (.inr (.inr ⟨hc, hm, rfl⟩))
    · cases h; exact .inr (.inl rfl)
  · cases h; exact .inr (.inl rfl)

end Sys2Proof.Machine
end

