-- ==== Sys2Proof/Laws/Device.lean ====
section
/-! SUPPORT. The EEPROM device: what its reaction to a frame and to an edge can do, and that each keeps the
device's invariant. -/

namespace Sys2Proof.Machine

variable {d e : Device}

/-! ### Frames -/

/-- What a bit string that decodes says of its first three bits and its length. -/
theorem decodeFrame_ok {bits : List Bool} {i : Instr} (h : decodeFrame bits = .ok i) :
    ∃ op1 op0 rest, bits = true :: op1 :: op0 :: rest ∧ rest.length + 3 = frameBits op1 op0 := by
  unfold decodeFrame at h
  split at h
  · next op1 op0 rest =>
    split at h
    · next hl => exact ⟨op1, op0, rest, rfl, hl⟩
    · cases h
  · cases h
  · cases h

/-- A bit string that begins with the start bit and has the length its opcode calls for decodes. -/
theorem decodeFrame_of_length {op1 op0 : Bool} {rest : List Bool}
    (h : rest.length + 3 = frameBits op1 op0) :
    ∃ i, decodeFrame (true :: op1 :: op0 :: rest) = .ok i := by
  simp only [decodeFrame, if_pos h]
  cases op1 <;> cases op0 <;> try exact ⟨_, rfl⟩
  rcases rest with _ | ⟨_, _ | ⟨_, low⟩⟩
  · simp [frameBits] at h
  · simp [frameBits] at h
  · exact ⟨_, rfl⟩

/-- The frame is complete exactly when its length is the one its opcode calls for, or 27. -/
theorem frameComplete_iff (op1 op0 : Bool) (rest : List Bool) :
    frameComplete (true :: op1 :: op0 :: rest) = true ↔
      (rest.length = 8 ∧ ¬ (op1 = false ∧ op0 = true)) ∨ rest.length = 24 := by
  cases op1 <;> cases op0 <;> simp [frameComplete]

/-- A bit string that is not complete and of at most 27 bits stays partial. -/
theorem framePartial_of_incomplete {bits : List Bool} {b : Bool} (hp : FramePartial bits)
    (hb : bits = [] → b = true) (hc : frameComplete (bits ++ [b]) = false) :
    FramePartial (bits ++ [b]) := by
  right
  rcases hp with rfl | ⟨h1, h2⟩
  · simp [hb rfl]
  · obtain ⟨a, tl, rfl⟩ := List.exists_cons_of_ne_nil (fun h : bits = [] => by simp [h] at h1)
    refine ⟨by simpa using h1, ?_⟩
    rcases tl with _ | ⟨op1, _ | ⟨op0, rest⟩⟩
    · simp
    · simp
    · have h0 : a = true := by simpa using h1
      subst h0
      have := (frameComplete_iff op1 op0 (rest ++ [b])).not.mp (by simpa using hc)
      simp only [List.length_append, List.length_cons, List.length_nil] at this h2 ⊢
      by_cases hl : rest.length + 1 < 8
      · left; omega
      · right
        have hop : op1 = false ∧ op0 = true := by
          rcases h2 with h2 | ⟨-, h3, h4⟩
          · by_contra hn
            exact this (.inl ⟨by omega, hn⟩)
          · exact ⟨by simpa using h3, by simpa using h4⟩
        refine ⟨?_, by simp [hop.1], by simp [hop.2]⟩
        have : rest.length + 1 ≠ 24 := fun h => this (.inr h)
        omega

/-- A complete frame decodes. -/
theorem decodeFrame_of_complete {bits : List Bool} {b : Bool} (hp : FramePartial bits)
    (hc : frameComplete (bits ++ [b]) = true) : ∃ i, decodeFrame (bits ++ [b]) = .ok i := by
  rcases hp with rfl | ⟨h1, h2⟩
  · simp [frameComplete] at hc
  · rcases bits with _ | ⟨a, _ | ⟨op1, _ | ⟨op0, rest⟩⟩⟩
    · simp at h1
    · simp [frameComplete] at hc
    · simp [frameComplete] at hc
    · obtain rfl : a = true := by simpa using h1
      have hc' := (frameComplete_iff op1 op0 (rest ++ [b])).mp (by simpa using hc)
      refine decodeFrame_of_length (rest := rest ++ [b]) ?_
      simp only [List.length_append, List.length_cons, List.length_nil] at hc' h2 ⊢
      simp only [frameBits]
      rcases hc' with ⟨hl, hn⟩ | hl
      · rw [if_neg hn]; omega
      · rcases h2 with h2 | ⟨-, h3, h4⟩
        · omega
        · rw [if_pos ⟨by simpa using h3, by simpa using h4⟩]; omega

/-! ### The device's reactions -/

/-- What a reaction to a frame can do: the device as one of the four frames leaves it, the device itself
for a command word, or `Fault(EepProtocol)`. -/
theorem react_cases (d : Device) (i : Instr) :
    (∃ a, d.react i = .ok (d.onRead a)) ∨ d.react i = .ok d.onEwen ∨ d.react i = .ok d.onEwds ∨
    (∃ a v, d.react i = .ok (d.onWrite a v)) ∨ d.react i = .error (.raise .eepProtocol) ∨
    (d.react i = .ok d ∧ unitOf i ≠ .device) := by
  cases i <;> simp [Device.react, Device.onReserved, unitOf]

theorem unitOf_decodeOp00 (a7 a6 : Bool) (low : List Bool) :
    unitOf (decodeOp00 a7 a6 low) = .device := by
  cases a7 <;> cases a6 <;> rfl

/-- A decoded frame is a frame. -/
theorem unitOf_decodeFrame {bits : List Bool} {i : Instr} (h : decodeFrame bits = .ok i) :
    unitOf i = .device := by
  unfold decodeFrame at h
  split at h
  · split at h
    · split at h
      · cases h; rfl
      · cases h; rfl
      · cases h; rfl
      · cases h
        exact unitOf_decodeOp00 _ _ _
      · cases h
    · cases h
  · cases h
  · cases h

theorem Device.Inv.csRise (h : d.Inv false) : d.csRise.Inv true := by
  obtain ⟨hm, hs, ho, ha⟩ := h.unselected rfl
  unfold Device.csRise
  split
  · next hp =>
    exact { unselected := by simp, busyProg := h.busyProg, busyMode := by simp
            armedIdle := by simp [ha], outMode := by simp [ho], outLength := h.outLength
            recvShift := by simp, undriven := by simp, ready := by simp }
  · next hp =>
    have hb : d.busy = false := by simp at hp; exact hp.2
    exact { unselected := by simp, busyProg := h.busyProg, busyMode := by simp [hb]
            armedIdle := by simp [ha], outMode := by simp, outLength := by simp
            recvShift := fun _ => .inl rfl, undriven := by simp, ready := by simp }

theorem Device.Inv.csFall (h : d.Inv true) : d.csFall.Inv false := by
  unfold Device.csFall
  dsimp only
  cases ha : d.armed
  rotate_left
  · exact { unselected := by simp, busyProg := by simp, busyMode := by simp
            armedIdle := by simp, outMode := by simp, outLength := by simp
            recvShift := by simp, undriven := by simp, ready := by simp }
  · exact { unselected := by simp, busyProg := h.busyProg, busyMode := by simp
            armedIdle := by simp, outMode := by simp, outLength := by simp
            recvShift := by simp, undriven := by simp, ready := by simp }

/-- A reaction to a frame received with chip-select 1 keeps the invariant, whatever the frame's bits. -/
theorem Device.Inv.react {i : Instr} (h : d.Inv true) (hm : d.mode = .recv) (bits : List Bool)
    (hi : unitOf i = .device) (hr : Device.react { d with shift := bits } i = .ok e) : e.Inv true := by
  have hb : d.busy = false := by
    by_contra hb
    rcases h.busyMode (by simpa using hb) with h | h <;> simp [hm] at h
  have ha : d.armed = none := by
    by_contra hn
    have := (h.armedIdle (by simpa [Option.isSome_iff_ne_none] using hn)).1
    simp [hm] at this
  have hp : d.prog = none := by simpa [hb] using h.busyProg
  have ho : d.out = [] := by
    by_contra hn
    have := h.outMode hn
    simp [hm] at this
  have hd : d.dout = .z := h.undriven (.inr hm)
  rcases react_cases { d with shift := bits } i with
    ⟨a, hc⟩ | hc | hc | ⟨a, v, hc⟩ | hc | ⟨-, hn⟩
  · rw [hc] at hr; cases hr
    exact { unselected := by simp, busyProg := by simp [Device.onRead, hb, hp]
            busyMode := by simp [Device.onRead, hb], armedIdle := by simp [Device.onRead, ha]
            outMode := by simp [Device.onRead]
            outLength := by simp [Device.onRead, valBits_length]
            recvShift := by simp [Device.onRead], undriven := by simp [Device.onRead]
            ready := by simp [Device.onRead] }
  · rw [hc] at hr; cases hr
    exact { unselected := by simp, busyProg := by simp [Device.onEwen, hb, hp]
            busyMode := by simp [Device.onEwen], armedIdle := by simp [Device.onEwen, ha]
            outMode := by simp [Device.onEwen, ho], outLength := by simp [Device.onEwen, ho]
            recvShift := by simp [Device.onEwen], undriven := by simp [Device.onEwen, hd]
            ready := by simp [Device.onEwen] }
  · rw [hc] at hr; cases hr
    exact { unselected := by simp, busyProg := by simp [Device.onEwds, hb, hp]
            busyMode := by simp [Device.onEwds], armedIdle := by simp [Device.onEwds, ha]
            outMode := by simp [Device.onEwds, ho], outLength := by simp [Device.onEwds, ho]
            recvShift := by simp [Device.onEwds], undriven := by simp [Device.onEwds, hd]
            ready := by simp [Device.onEwds] }
  · rw [hc] at hr; cases hr
    exact { unselected := by simp, busyProg := by simp [Device.onWrite, hb, hp]
            busyMode := by simp [Device.onWrite]
            armedIdle := by
              simp only [Device.onWrite, ha]
              cases d.wel <;> simp [hb]
            outMode := by simp [Device.onWrite, ho], outLength := by simp [Device.onWrite, ho]
            recvShift := by simp [Device.onWrite], undriven := by simp [Device.onWrite, hd]
            ready := by simp [Device.onWrite] }
  · rw [hc] at hr; cases hr
  · exact absurd hi hn

theorem Device.Inv.skRecv {b : Bool} (h : d.Inv true) (hm : d.mode = .recv)
    (hr : d.skRecv b = .ok e) : e.Inv true := by
  unfold Device.skRecv at hr
  split at hr
  · cases hr; exact h
  · next hs =>
    have hp := h.recvShift hm
    dsimp only at hr
    split at hr
    · next hc =>
      obtain ⟨i, hi⟩ := decodeFrame_of_complete hp hc
      rw [hi] at hr
      exact h.react hm _ (unitOf_decodeFrame hi) hr
    · next hc =>
      cases hr
      have hs' : d.shift = [] → b = true := by
        intro h0
        simpa [h0] using hs
      exact { unselected := by simp, busyProg := h.busyProg, busyMode := h.busyMode
              armedIdle := h.armedIdle, outMode := h.outMode, outLength := h.outLength
              recvShift := fun _ => framePartial_of_incomplete hp hs' (by simpa using hc)
              undriven := h.undriven, ready := h.ready }

theorem Device.Inv.skOut (h : d.Inv true) (hm : d.mode = .out) : d.skOut.Inv true := by
  have ha : d.armed.isSome ≠ true := fun hn => by
    have := (h.armedIdle hn).1
    simp [hm] at this
  have hb : d.busy ≠ true := fun hb => by rcases h.busyMode hb with h | h <;> simp [hm] at h
  unfold Device.skOut
  split
  · next b rest ho =>
    exact { unselected := by simp, busyProg := h.busyProg, busyMode := fun h' => absurd h' hb
            armedIdle := fun h' => absurd h' ha, outMode := fun _ => hm
            outLength := by
              have := h.outLength
              rw [ho] at this
              simp only [List.length_cons] at this
              show rest.length ≤ 16
              omega
            recvShift := by simp [hm], undriven := by simp [hm], ready := by simp [hm] }
  · next ho =>
    exact { unselected := by simp, busyProg := h.busyProg, busyMode := fun h' => absurd h' hb
            armedIdle := fun h' => absurd h' ha, outMode := fun _ => hm
            outLength := h.outLength
            recvShift := by simp [hm], undriven := by simp [hm], ready := by simp [hm] }

/-- A change of the clock line that makes the device react, or not, keeps the invariant. -/
theorem Device.Inv.skEdge {rise di cs : Bool} (h : d.Inv cs) (hc : rise = true → cs = true)
    (hr : d.skEdge rise di = .ok e) : e.Inv cs := by
  unfold Device.skEdge at hr
  cases rise
  · split at hr <;> cases hr <;> exact h
  · obtain rfl := hc rfl
    split at hr
    · cases hr; exact h
    · next hm => exact h.skRecv hm hr
    · next hm => cases hr; exact h.skOut hm
    · split at hr
      · cases hr
      · cases hr; exact h

/-- The completion of a write keeps the invariant. -/
theorem Device.Inv.complete {cs : Bool} (h : d.Inv cs) (hb : d.busy = true) : d.complete.Inv cs := by
  have ha : d.armed.isSome ≠ true := fun hn => by
    have := (h.armedIdle hn).2.2
    simp [hb] at this
  exact { unselected := h.unselected, busyProg := rfl, busyMode := by simp [Device.complete]
          armedIdle := fun h' => absurd h' ha, outMode := h.outMode, outLength := h.outLength
          recvShift := h.recvShift
          undriven := fun hm => by
            have : d.mode ≠ .status := by rcases hm with h | h <;> simp [show d.mode = _ from h]
            simp only [Device.complete, if_neg this]
            exact h.undriven hm
          ready := fun hm => by
            simp only [Device.complete, if_pos (show d.mode = .status from hm)]
            rfl }

/-- The device at reset has the invariant. -/
theorem Device.atReset_inv (words : Vector Half 256) (cs : Bool) : (Device.atReset words).Inv cs where
  unselected := fun _ => ⟨rfl, rfl, rfl, rfl⟩
  busyProg := rfl
  busyMode := by simp [Device.atReset]
  armedIdle := by simp [Device.atReset]
  outMode := by simp [Device.atReset]
  outLength := by simp [Device.atReset]
  recvShift := by simp [Device.atReset]
  undriven := by simp [Device.atReset]
  ready := by simp [Device.atReset]

/-! ### Clocking bits -/

/-- What n + 1 clock rises in OUT mode show: the bit n places on, not driven past the last. -/
theorem skOutN_succ (n : Nat) (d : Device) : d.skOutN (n + 1) =
    { d with
      out := d.out.drop (n + 1)
      dout := match d.out[n]? with
        | some b => if b = true then .one else .zero
        | none => .z } := by
  induction n generalizing d with
  | zero =>
    show d.skOut = _
    unfold Device.skOut
    cases h : d.out <;> simp
  | succ n ih =>
    rw [Device.skOutN, ih]
    unfold Device.skOut
    cases h : d.out <;> simp

/-- A frame sent to the device has the outcome of its length and its reaction. -/
theorem exec_frame {i : Instr} {bits : List Bool} (h : encode i = .frame bits) (s : State) :
    exec i s = s.frameOutcome bits.length (s.dev.react i) := by
  cases i <;> simp only [encode, frame11, frame00, reduceCtorEq, Code.frame.injEq] at h <;> subst h <;>
    simp only [List.length_cons, List.length_append, valBits_length] <;> rfl

/-- A bit received that does not complete a frame is appended. -/
theorem skRecv_partial {d : Device} {b : Bool} (h0 : d.shift ≠ [] ∨ b = true)
    (hc : frameComplete (d.shift ++ [b]) = false) :
    d.skRecv b = .ok { d with shift := d.shift ++ [b] } := by
  unfold Device.skRecv
  rw [if_neg]
  · simp [hc]
  · rcases h0 with h | h <;> simp [h]

/-- A bit received that completes a frame has the frame's reaction. -/
theorem skRecv_complete {d : Device} {b : Bool} {i : Instr} (hc : frameComplete (d.shift ++ [b]) = true)
    (hi : decodeFrame (d.shift ++ [b]) = .ok i) :
    d.skRecv b = Device.react { d with shift := d.shift ++ [b] } i := by
  unfold Device.skRecv
  rw [if_neg]
  · simp [hc, hi]
  · intro h
    simp only [Bool.and_eq_true, List.isEmpty_iff, Bool.not_eq_true'] at h
    simp [h.1, frameComplete] at hc

/-- A bit string that decodes is a complete frame. -/
theorem frameComplete_of_decode {bits : List Bool} {i : Instr} (h : decodeFrame bits = .ok i) :
    frameComplete bits = true := by
  obtain ⟨op1, op0, rest, rfl, hl⟩ := decodeFrame_ok h
  rw [frameComplete_iff]
  revert hl
  cases op1 <;> cases op0 <;> simp [frameBits] <;> omega

/-- No proper beginning of a frame is complete. -/
theorem frameComplete_take {bits : List Bool} {i : Instr} (h : decodeFrame bits = .ok i) (n : Nat)
    (hn : n < bits.length) : frameComplete (bits.take n) = false := by
  obtain ⟨op1, op0, rest, rfl, hl⟩ := decodeFrame_ok h
  by_contra hc
  rw [Bool.not_eq_false] at hc
  rcases n with _ | _ | _ | n
  · simp [frameComplete] at hc
  · simp [frameComplete] at hc
  · simp [frameComplete] at hc
  · rw [show (true :: op1 :: op0 :: rest).take (n + 3) = true :: op1 :: op0 :: rest.take n from rfl,
      frameComplete_iff, List.length_take] at hc
    simp only [List.length_cons] at hn
    revert hl hc
    cases op1 <;> cases op0 <;> simp [frameBits] <;> omega

end Sys2Proof.Machine
end

