-- ==== Sys2Proof/Laws/Nand.lean ====
section
/-! SUPPORT. The NAND pages known: their order, and what a write, an erase and a read do to them. -/

namespace Sys2Proof.Machine

theorem NandBlock.key_inj {b c : NandBlock} (h : b.key = c.key) : b = c := by
  obtain ⟨b1, b2⟩ := b
  obtain ⟨c1, c2⟩ := c
  simp only [NandBlock.key] at h
  have hb := b2.isLt
  have hc := c2.isLt
  have h2 : b2.toNat = c2.toNat := by cases b1 <;> cases c1 <;> simp at h <;> omega
  have h1 : b1 = c1 := by cases b1 <;> cases c1 <;> simp at h ⊢ <;> omega
  rw [h1, BitVec.eq_of_toNat_eq h2]

theorem mem_nandForget {b : NandBlock} {p : NandPage} {pages : List NandPage} :
    p ∈ nandForget b pages ↔ p ∈ pages ∧ p.block ≠ b := by
  simp [nandForget]

theorem mem_nandLearn {p q : NandPage} {pages : List NandPage} (h : q ∈ nandLearn p pages) :
    q = p ∨ q ∈ pages := by
  induction pages with
  | nil => simpa [nandLearn] using h
  | cons r rest ih =>
    simp only [nandLearn] at h
    split at h
    · simpa using h
    · split at h
      · rcases List.mem_cons.mp h with rfl | h
        · simp
        · exact (ih h).imp_right (List.mem_cons_of_mem _)
      · rcases List.mem_cons.mp h with rfl | h
        · simp
        · exact .inr (List.mem_cons_of_mem _ h)

theorem nandForget_pairwise (b : NandBlock) {pages : List NandPage}
    (h : pages.Pairwise NandPage.before) : (nandForget b pages).Pairwise NandPage.before :=
  h.sublist List.filter_sublist

/-- Pages neither of which comes before the other are the same page. -/
theorem NandPage.same_of_not_before {p q : NandPage} (h1 : ¬ p.before q) (h2 : ¬ q.before p) :
    p.block = q.block ∧ p.page = q.page := by
  simp only [NandPage.before] at h1 h2
  exact ⟨NandBlock.key_inj (by omega), by omega⟩

theorem nandLearn_pairwise (p : NandPage) {pages : List NandPage}
    (h : pages.Pairwise NandPage.before) : (nandLearn p pages).Pairwise NandPage.before := by
  induction pages with
  | nil => simp [nandLearn]
  | cons r rest ih =>
    rw [List.pairwise_cons] at h
    simp only [nandLearn]
    split
    · next hlt =>
      refine List.pairwise_cons.mpr ⟨?_, List.pairwise_cons.mpr h⟩
      intro q hq
      rcases List.mem_cons.mp hq with rfl | hq
      · exact hlt
      · have := h.1 q hq
        simp only [NandPage.before] at hlt this ⊢
        omega
    · next hlt =>
      split
      · next hgt =>
        refine List.pairwise_cons.mpr ⟨fun q hq => ?_, ih h.2⟩
        rcases mem_nandLearn hq with rfl | hq
        · exact hgt
        · exact h.1 q hq
      · next hgt =>
        obtain ⟨hb, hp⟩ := NandPage.same_of_not_before hlt hgt
        refine List.pairwise_cons.mpr ⟨fun q hq => ?_, h.2⟩
        have := h.1 q hq
        simp only [NandPage.before, hb, hp] at this ⊢
        exact this

/-- A page just learned is known. -/
theorem nandKnown_learn (p : NandPage) {pages : List NandPage}
    (hn : ∀ q ∈ pages, q.block ≠ p.block) :
    nandKnown p.block p.page (nandLearn p pages) = some p.data := by
  induction pages with
  | nil => simp [nandKnown, nandLearn]
  | cons r rest ih =>
    simp only [List.mem_cons, forall_eq_or_imp] at hn
    simp only [nandLearn]
    split
    · simp [nandKnown]
    · split
      · have := ih hn.2
        simp only [nandKnown] at this ⊢
        rw [List.find?_cons_of_neg]
        · exact this
        · simp [hn.1]
      · simp [nandKnown]

/-- Nothing is known of a block that is forgotten. -/
theorem nandKnown_forgotten (b : NandBlock) (page : Nat) (pages : List NandPage) :
    nandKnown b page (nandForget b pages) = none := by
  rw [nandKnown, Option.map_eq_none_iff, List.find?_eq_none]
  intro p hp
  simp [(mem_nandForget.mp hp).2]

/-- Forgetting or learning about another block changes nothing about a page known. -/
theorem nandKnown_forget (b c : NandBlock) (page : Nat) {pages : List NandPage} (h : c ≠ b) :
    nandKnown b page (nandForget c pages) = nandKnown b page pages := by
  induction pages with
  | nil => rfl
  | cons r rest ih =>
    simp only [nandKnown, nandForget] at ih ⊢
    by_cases hr : r.block = c
    · have hb : r.block ≠ b := fun h' => h (hr ▸ h')
      rw [List.filter_cons_of_neg (by simp [hr]), List.find?_cons_of_neg (by simp [hb])]
      exact ih
    · rw [List.filter_cons_of_pos (by simp [hr])]
      simp only [List.find?_cons]
      split
      · rfl
      · exact ih

theorem nandKnown_learn_other (b : NandBlock) (page : Nat) (p : NandPage) {pages : List NandPage}
    (h : p.block ≠ b) : nandKnown b page (nandLearn p pages) = nandKnown b page pages := by
  induction pages with
  | nil => simp [nandKnown, nandLearn, h]
  | cons r rest ih =>
    simp only [nandKnown] at ih ⊢
    simp only [nandLearn]
    split
    · rw [List.find?_cons_of_neg (by simp [h])]
    · next hlt =>
      split
      · simp only [List.find?_cons]
        split
        · rfl
        · exact ih
      · next hgt =>
        have hr : r.block ≠ b := (NandPage.same_of_not_before hlt hgt).1 ▸ h
        rw [List.find?_cons_of_neg (by simp [h]), List.find?_cons_of_neg (by simp [hr])]

theorem pageOf_length (bytes : List Byte) : (pageOf bytes).length = 2048 := by
  simp [pageOf, pageSize]

/-- The pages known at launch are in their order, each a page of its block with 2048 bytes. -/
theorem nandOfPages_ok (par : Params) (pages : List NandPage) :
    (nandOfPages par pages).Pairwise NandPage.before ∧
    ∀ p ∈ nandOfPages par pages, p.data.length = 2048 ∧ p.page < par.pagesPerBlock := by
  induction pages with
  | nil => exact ⟨.nil, fun p hp => by cases hp⟩
  | cons q pages ih =>
    simp only [nandOfPages, List.foldr_cons] at ih ⊢
    split
    · next hq =>
      have hl := pageOf_length q.data
      generalize pageOf q.data = data at hl ⊢
      refine ⟨nandLearn_pairwise _ ih.1, fun p hp => ?_⟩
      rcases mem_nandLearn hp with rfl | hp
      · exact ⟨hl, hq⟩
      · exact ih.2 p hp
    · exact ih

variable {s t : State}

/-- What a completed write can do: it forgets the block, and learns the page if its data was written. -/
theorem nandWrite_eq_ok {b : NandBlock} {page : Nat} {data spare : Option Nat} {ok : Bool}
    (h : s.nandWrite b page data spare ok = .ok t) :
    t = { s with nand := nandForget b s.nand, reply := .nand (nandResult ok) } ∨
    (∃ (src : Nat) (bs : List Byte), data = some src ∧ ok = true ∧ bs.length = 2048 ∧
      s.HostReads src bs ∧
      t = { s with
        nand := nandLearn { block := b, page := page, data := bs } (nandForget b s.nand)
        reply := .nand (nandResult ok) }) := by
  simp only [State.nandWrite, bind_eq_ok, pure_ok', Except.ok.injEq] at h
  obtain ⟨d, hd, _, -, rfl⟩ := h
  cases data with
  | none => cases hd; exact .inl rfl
  | some src =>
    simp only [State.optRead] at hd
    cases hr : s.hostRead src pageSize with
    | error e => rw [hr] at hd; cases hd
    | ok bs =>
      rw [hr] at hd
      cases hd
      obtain ⟨hl, hh⟩ := State.hostRead_eq_ok.mp hr
      cases ok
      · exact .inl rfl
      · exact .inr ⟨src, bs, rfl, rfl, hl, hh, rfl⟩

/-- What a completed read can do: it stores the page's data, or delivers nothing. -/
theorem nandRead_eq_ok {b : NandBlock} {page dst : Nat} {r : NandResult} {bytes : List Byte}
    (h : s.nandRead b page dst r bytes = .ok t) :
    (r = .ok ∧ ∃ bs, bs = (nandKnown b page s.nand).getD (pageOf bytes) ∧ Fits dst bs.length ∧
      s.Admits dst bs.length ∧ t = { s.storeHost dst bs with reply := .nand r }) ∨
    (r ≠ .ok ∧ t = { s with reply := .nand r }) := by
  cases r
  · simp only [State.nandRead, bind_eq_ok, pure_ok', Except.ok.injEq] at h
    obtain ⟨u, hu, rfl⟩ := h
    obtain ⟨hf, ha, rfl⟩ := State.hostWrite_eq_ok.mp hu
    exact .inl ⟨rfl, _, rfl, hf, ha, rfl⟩
  · cases h; exact .inr ⟨by simp, rfl⟩
  · cases h; exact .inr ⟨by simp, rfl⟩

end Sys2Proof.Machine
end

