-- ==== Sys2Proof/Laws/Step.lean ====
section
/-! SUPPORT. What a step and an action can do, said once. -/

namespace Sys2Proof.Machine

variable {s t : State}

/-- A step gives a next state in two ways: nothing to do, or the next action. -/
theorem step_eq_next : step s = .next t ↔ s.fault = none ∧
    ((s.agenda = [] ∧ t = s) ∨
      ∃ a rest, s.agenda = a :: rest ∧ takeAction a (s.begin rest) = .next t) := by
  simp only [step, takeStep]
  cases s.fault with
  | some k => simp
  | none =>
    cases s.agenda with
    | nil => simp [eq_comm]
    | cons a rest => simp

/-- The step of a state whose next action is the given one. -/
theorem step_cons {a : Action} {rest : List Action} (hf : s.fault = none) (ha : s.agenda = a :: rest) :
    step s = takeAction a (s.begin rest) := by
  simp only [step, takeStep, hf, ha]

/-- The host's actions have a step only while the host is not blocked. -/
theorem takeAction_host {a : Action} (hw : s.waiting = false) (hd : a ≠ .devComplete)
    (hi : ∀ m nb, a ≠ .interrupt m nb) (hu : ∀ e, a ≠ .userEvent e) :
    takeAction a s = hostStep a s := by
  cases a <;> simp_all [takeAction]

/-- What an action can do when it gives a next state: it issues a command, raises a fault, or gives the
state named here. -/
theorem takeAction_next {a : Action} (h : takeAction a s = .next t) : Raises s t ∨
    (∃ w i, a = .portWr .cmd w ∧ s.waiting = false ∧ decodeWord w = .ok i ∧ exec i s = .next t) ∨
    (∃ r, t = { s with reply := r }) ∨
    (∃ addr bs, a = .hstSt addr bs ∧ Fits addr bs.length ∧ s.Admits addr bs.length ∧
      t = s.storeHost addr bs) ∨
    (∃ i v, a = .portWr (.arg i) v ∧ t = s.setArg i v) ∨
    (a = .waitUser ∧ t = { s with waiting := true }) ∨
    (∃ b ok, a = .nandErase b ok ∧
      t = { s with nand := nandForget b s.nand, reply := .nand (nandResult ok) }) ∨
    (∃ b page data spare ok, a = .nandWrite b page data spare ok ∧ page < s.par.pagesPerBlock ∧
      s.nandWrite b page data spare ok = .ok t) ∨
    (∃ b page dst r bytes, a = .nandRead b page dst r bytes ∧ page < s.par.pagesPerBlock ∧
      s.nandRead b page dst r bytes = .ok t) ∨
    t = { s with refused := true } ∨
    (a = .devComplete ∧ s.dev.busy = true ∧ t = { s with dev := s.dev.complete }) ∨
    (∃ m nb, a = .interrupt m nb ∧ t = s.interrupt m nb) ∨
    (∃ e, a = .userEvent e ∧
      t = if s.waiting then { s with waiting := false, reply := .user e } else s) ∨
    (∃ r, a = .portRd r ∧ ((∃ k, t = (s.markRead r).raise k) ∨
      ∃ v, t = { s.markRead r with reply := .word v })) := by
  have host : ∀ {a : Action}, a ≠ .devComplete → (∀ m nb, a ≠ .interrupt m nb) →
      (∀ e, a ≠ .userEvent e) → takeAction a s = .next t → s.waiting = false ∧
      hostStep a s = .next t := by
    intro a hd hi hu h
    cases hw : s.waiting with
    | true => cases a <;> simp_all [takeAction]
    | false => exact ⟨rfl, takeAction_host hw hd hi hu ▸ h⟩
  cases a with
  | devComplete =>
    simp only [takeAction, deviceStep] at h
    split at h
    · next hb => cases h; simp [hb]
    · cases h
  | interrupt m nb => cases h; simp
  | userEvent e => cases h; simp
  | other =>
    obtain ⟨-, h⟩ := host (by simp) (by simp) (by simp) h
    cases h; simp
  | waitUser =>
    obtain ⟨-, h⟩ := host (by simp) (by simp) (by simp) h
    cases h; simp
  | hstLd addr n =>
    obtain ⟨-, h⟩ := host (by simp) (by simp) (by simp) h
    rcases complete_next_cases h with h | h
    · exact .inl h
    · simp only [bind_eq_ok, pure_ok', Except.ok.injEq] at h
      obtain ⟨bs, -, rfl⟩ := h
      exact .inr (.inr (.inl ⟨_, rfl⟩))
  | hstSt addr bs =>
    obtain ⟨-, h⟩ := host (by simp) (by simp) (by simp) h
    rcases complete_next_cases h with h | h
    · exact .inl h
    · obtain ⟨hf, ha, rfl⟩ := State.hostWrite_eq_ok.mp h
      exact .inr (.inr (.inr (.inl ⟨_, _, rfl, hf, ha, rfl⟩)))
  | portRd r =>
    obtain ⟨-, h⟩ := host (by simp) (by simp) (by simp) h
    refine .inr (.inr (.inr (.inr (.inr (.inr (.inr (.inr (.inr (.inr (.inr (.inr (.inr
      ⟨r, rfl, ?_⟩))))))))))))
    rcases complete_next_cases h with ⟨k, h⟩ | h
    · exact .inl ⟨k, h⟩
    · simp only [bind_eq_ok, pure_ok', Except.ok.injEq] at h
      obtain ⟨v, -, rfl⟩ := h
      exact .inr ⟨v, rfl⟩
  | portWr r v =>
    obtain ⟨hw, h⟩ := host (by simp) (by simp) (by simp) h
    cases r with
    | arg i => cases h; exact .inr (.inr (.inr (.inr (.inl ⟨i, v, rfl, rfl⟩))))
    | cmd =>
      simp only [hostStep, portWrite, issue] at h
      cases hd : decodeWord v with
      | ok i => rw [hd] at h; exact .inr (.inl ⟨v, i, rfl, hw, hd, h⟩)
      | error e => rw [hd] at h; cases h; exact .inl ⟨_, rfl⟩
    | status => cases h; exact .inl ⟨_, rfl⟩
    | res i => cases h; exact .inl ⟨_, rfl⟩
  | nandErase b ok =>
    obtain ⟨-, h⟩ := host (by simp) (by simp) (by simp) h
    cases h
    exact .inr (.inr (.inr (.inr (.inr (.inr (.inl ⟨b, ok, rfl, rfl⟩))))))
  | nandWrite b page data spare ok =>
    obtain ⟨-, h⟩ := host (by simp) (by simp) (by simp) h
    simp only [hostStep, nandPage] at h
    split at h
    · next hp =>
      rcases complete_next_cases h with h | h
      · exact .inl h
      · exact .inr (.inr (.inr (.inr (.inr (.inr (.inr (.inl ⟨_, _, _, _, _, rfl, hp, h⟩)))))))
    · cases h; simp
  | nandRead b page dst r bytes =>
    obtain ⟨-, h⟩ := host (by simp) (by simp) (by simp) h
    simp only [hostStep, nandPage] at h
    split at h
    · next hp =>
      rcases complete_next_cases h with h | h
      · exact .inl h
      · exact .inr (.inr (.inr (.inr (.inr (.inr (.inr (.inr (.inl ⟨_, _, _, _, _, rfl, hp, h⟩))))))))
    · cases h; simp

/-! ### Storing -/

/-- A store in the host view keeps memory canonical, and both coherence sets canonical and about admitted
addresses. -/
theorem storeHost_keeps {a : Nat} {bs : List Byte} (hf : Fits a bs.length) (ha : s.Admits a bs.length)
    (hm : Memory.wf s.mem = true)
    (hh : addrRisesFrom 0 s.coh.hostDirty = true ∧ ∀ x ∈ s.coh.hostDirty, (s.mem.get x).isSome = true)
    (hd : addrRisesFrom 0 s.coh.devDirty = true ∧ ∀ x ∈ s.coh.devDirty, (s.mem.get x).isSome = true) :
    Memory.wf (s.storeHost a bs).mem = true ∧
    (addrRisesFrom 0 (s.storeHost a bs).coh.hostDirty = true ∧
      ∀ x ∈ (s.storeHost a bs).coh.hostDirty, ((s.storeHost a bs).mem.get x).isSome = true) ∧
    (addrRisesFrom 0 (s.storeHost a bs).coh.devDirty = true ∧
      ∀ x ∈ (s.storeHost a bs).coh.devDirty, ((s.storeHost a bs).mem.get x).isSome = true) := by
  refine ⟨Memory.wf_write bs hm ((rangeOk_iff _ _).mpr hf),
    ⟨addrRisesFrom_insertRange _ _ _ hh.1, fun x hx => ?_⟩, hd.1, fun x hx => ?_⟩
  · rw [State.storeHost_mem, Memory.admitted_write _ _ _ _ ha]
    rcases (mem_addrInsertRange _ _ _ _).mp hx with hx | hx
    · obtain ⟨i, rfl⟩ := Nat.exists_eq_add_of_le hx.1
      exact ha i (by omega)
    · exact hh.2 x hx
  · rw [State.storeHost_mem, Memory.admitted_write _ _ _ _ ha]
    exact hd.2 x hx

/-- A store by DMA likewise. -/
theorem storeDev_keeps {a : Nat} {bs : List Byte} (hf : Fits a bs.length) (ha : s.Admits a bs.length)
    (hm : Memory.wf s.mem = true)
    (hh : addrRisesFrom 0 s.coh.hostDirty = true ∧ ∀ x ∈ s.coh.hostDirty, (s.mem.get x).isSome = true)
    (hd : addrRisesFrom 0 s.coh.devDirty = true ∧ ∀ x ∈ s.coh.devDirty, (s.mem.get x).isSome = true) :
    Memory.wf (s.storeDev a bs).mem = true ∧
    (addrRisesFrom 0 (s.storeDev a bs).coh.hostDirty = true ∧
      ∀ x ∈ (s.storeDev a bs).coh.hostDirty, ((s.storeDev a bs).mem.get x).isSome = true) ∧
    (addrRisesFrom 0 (s.storeDev a bs).coh.devDirty = true ∧
      ∀ x ∈ (s.storeDev a bs).coh.devDirty, ((s.storeDev a bs).mem.get x).isSome = true) := by
  refine ⟨Memory.wf_write bs hm ((rangeOk_iff _ _).mpr hf), ⟨hh.1, fun x hx => ?_⟩,
    addrRisesFrom_insertRange _ _ _ hd.1, fun x hx => ?_⟩
  · rw [State.storeDev_mem, Memory.admitted_write _ _ _ _ ha]
    exact hh.2 x hx
  · rw [State.storeDev_mem, Memory.admitted_write _ _ _ _ ha]
    rcases (mem_addrInsertRange _ _ _ _).mp hx with hx | hx
    · obtain ⟨i, rfl⟩ := Nat.exists_eq_add_of_le hx.1
      exact ha i (by omega)
    · exact hd.2 x hx

end Sys2Proof.Machine
end

