-- ==== Sys2Proof/Laws/Driver.lean ====
section
/-! SUPPORT. Host programs: how a program composed of two runs, how a run of a program is built from those of
its parts, and what one action of the host does to a run. -/

namespace Sys2Proof.Machine

variable {α β : Type}

/-! ### The outcome of a program -/

/-- The outcome of a program run from r. -/
def Drv.out (x : Drv α) (r : Run) : Except Ending α × Run := (ExceptT.run x) r

theorem Drv.out_pure (a : α) (r : Run) : (pure a : Drv α).out r = (.ok a, r) := rfl

theorem Drv.out_throw (e : Ending) (r : Run) : (throw e : Drv α).out r = (.error e, r) := rfl

/-- A program followed by another: the second runs where the first returned. -/
theorem Drv.out_bind (x : Drv α) (f : α → Drv β) (r : Run) :
    (x >>= f).out r =
      match x.out r with
      | (.ok a, r') => (f a).out r'
      | (.error e, r') => (.error e, r') := by
  have h : (x >>= f).out r = (ExceptT.run (ExceptT.mk (ExceptT.bindCont f (x.out r).1))) (x.out r).2 := rfl
  rw [h]
  rcases x.out r with ⟨a | e, r'⟩ <;> rfl

theorem Drv.out_get (r : Run) : (get : Drv Run).out r = (.ok r, r) := rfl

theorem Drv.out_set (r r' : Run) : (set r' : Drv PUnit).out r = (.ok ⟨⟩, r') := rfl

/-- What taking an action does to the run: the machine's step, or nothing where there is none. -/
theorem Drv.take_out (a : Action) (r : Run) : (Drv.take a).out r =
    match stepWith a r.state with
    | .next t =>
      match t.fault with
      | some k => (.error (.raised k), { r with state := t, trace := r.trace ++ [.took a t.reply] })
      | none =>
        if t.refused && !r.state.refused then
          (.error .refused, { r with state := t, trace := r.trace ++ [.took a t.reply] })
        else (.ok t.reply, { r with state := t, trace := r.trace ++ [.took a t.reply] })
    | .fault f => (.error (.noStep f), r)
    | .refused _ => (.error .refused, r) := by
  rw [Drv.take, Drv.out_bind, Drv.out_get]
  simp only
  cases stepWith a r.state with
  | fault f => rfl
  | refused f => rfl
  | next t =>
    simp only [Drv.out_bind, Drv.out_set]
    cases t.fault with
    | some k => rfl
    | none =>
      show Drv.out (if _ then _ else _) _ = _
      split <;> rfl

/-! ### Runs that a schedule allows -/

/-- The event is a call of a durable operation, or its return. -/
def Event.isCall : Event → Bool
  | .took _ _ => false
  | .called _ | .returned _ _ => true

/-- The events stand among those of the trace, in this order, and there are no other calls and returns. -/
def Among (T tr : List Event) : Prop := T.Sublist tr ∧ tr.filter Event.isCall = T.filter Event.isCall

theorem Among.refl (T : List Event) : Among T T := ⟨.refl _, rfl⟩

theorem Among.trans {T T' tr : List Event} (h : Among T T') (h' : Among T' tr) : Among T tr :=
  ⟨h.1.trans h'.1, h'.2.trans h.2⟩

theorem Among.append {T T' tr tr' : List Event} (h : Among T tr) (h' : Among T' tr') :
    Among (T ++ T') (tr ++ tr') :=
  ⟨h.1.append h'.1, by rw [List.filter_append, List.filter_append, h.2, h'.2]⟩

/-- Under some schedule the program, begun in state s, ends as given in state t, having taken the steps of a
trace among which the given events stand; and, where `alone` is set, so it does with no schedule. -/
def Drv.Ends (alone : Bool) (x : Drv α) (s : State) (e : Except Ending α) (t : State) (T : List Event) :
    Prop :=
  ∃ (env : List Turn) (tr : List Event), Among T tr ∧
    (∀ (rest : List Turn) (tr0 : List Event),
      x.out ⟨s, env ++ rest, tr0⟩ = (e, ⟨t, rest, tr0 ++ tr⟩)) ∧
    (alone = true → ∀ tr0 : List Event, x.out ⟨s, [], tr0⟩ = (e, ⟨t, [], tr0 ++ tr⟩))

variable {al : Bool} {s t u : State} {T T' : List Event}

theorem Drv.Ends.pure (a : α) : Drv.Ends al (Pure.pure a : Drv α) s (.ok a) s [] :=
  ⟨[], [], Among.refl _, fun _ _ => by simp [Drv.out_pure], fun _ _ => by simp [Drv.out_pure]⟩

theorem Drv.Ends.bind {x : Drv α} {f : α → Drv β} {a : α} {e : Except Ending β}
    (hx : x.Ends al s (.ok a) t T) (hf : (f a).Ends al t e u T') : (x >>= f).Ends al s e u (T ++ T') := by
  obtain ⟨env1, tr1, hs1, h1, q1⟩ := hx
  obtain ⟨env2, tr2, hs2, h2, q2⟩ := hf
  refine ⟨env1 ++ env2, tr1 ++ tr2, hs1.append hs2, fun rest tr0 => ?_, fun ha tr0 => ?_⟩
  · rw [Drv.out_bind, List.append_assoc, h1, List.append_assoc tr0 tr1 tr2 |>.symm]
    exact h2 _ _
  · rw [Drv.out_bind, q1 ha, ← List.append_assoc]
    exact q2 ha _

/-- Where the first program stops, so does the whole. -/
theorem Drv.Ends.stop {x : Drv α} {f : α → Drv β} {i : Ending} (hx : x.Ends al s (.error i) t T) :
    (x >>= f).Ends al s (.error i) t T := by
  obtain ⟨env, tr, hs, h, q⟩ := hx
  exact ⟨env, tr, hs, fun rest tr0 => by rw [Drv.out_bind, h], fun ha tr0 => by rw [Drv.out_bind, q ha]⟩

/-- The first program reaches none of the given events. -/
theorem Drv.Ends.next {x : Drv α} {f : α → Drv β} {a : α} {e : Except Ending β}
    (hx : x.Ends al s (.ok a) t []) (hf : (f a).Ends al t e u T) : (x >>= f).Ends al s e u T :=
  hx.bind hf

theorem Drv.Ends.weaken {x : Drv α} {e : Except Ending α} (hx : x.Ends al s e t T) (h : Among T' T) :
    x.Ends al s e t T' := by
  obtain ⟨env, tr, hs, h1, q⟩ := hx
  exact ⟨env, tr, h.trans hs, h1, q⟩

/-- A program that can run alone can run under a schedule. -/
theorem Drv.Ends.scheduled {x : Drv α} {e : Except Ending α} (hx : x.Ends true s e t T) :
    x.Ends al s e t T := by
  obtain ⟨env, tr, hs, h, q⟩ := hx
  exact ⟨env, tr, hs, h, fun _ => q rfl⟩

/-- A run of the program, from the empty trace, under some schedule. -/
theorem Drv.Ends.run {x : Drv α} {e : Except Ending α} (hx : x.Ends al s e t T) :
    ∃ (env : List Turn) (tr : List Event), Among T tr ∧
      x.run { state := s, env := env, trace := [] } = (e, { state := t, env := [], trace := tr }) := by
  obtain ⟨env, tr, hs, h, -⟩ := hx
  have := h [] []
  rw [List.append_nil, List.nil_append] at this
  exact ⟨env, tr, hs, this⟩

theorem Drv.par_ends : Drv.par.Ends al s (.ok s.par) s [] :=
  ⟨[], [], Among.refl _, fun _ tr0 => by rw [List.append_nil]; rfl, fun _ tr0 => by rw [List.append_nil]; rfl⟩

theorem Drv.mark_ends (e : Event) : (Drv.mark e).Ends al s (.ok ()) s [e] :=
  ⟨[], [e], Among.refl _, fun _ _ => rfl, fun _ _ => rfl⟩

theorem Drv.draw_ends : Drv.draw.Ends al s (.ok s.draw.1) s.draw.2 [] :=
  ⟨[], [], Among.refl _, fun _ tr0 => by rw [List.append_nil]; rfl, fun _ tr0 => by rw [List.append_nil]; rfl⟩

/-! ### One action -/

/-- The state in which a host program's next action is taken. -/
def State.fresh (s : State) : State := { s with agenda := [], reply := .nothing }

/-- The host can act: no fault is set, and it does not wait for the user. -/
structure State.Free (s : State) : Prop where
  fault : s.fault = none
  waiting : s.waiting = false

theorem stepWith_eq {a : Action} (h : s.fault = none) : stepWith a s = takeAction a s.fresh := by
  rw [stepWith, step_cons (s := { s with agenda := [a] }) h rfl]
  rfl

/-- A step that marks neither a fault nor `refused`. -/
theorem Drv.take_ok {a : Action} {r : Run} (h0 : r.state.fault = none)
    (h : takeAction a r.state.fresh = .next t) (hf : t.fault = none) (hr : t.refused = r.state.refused) :
    (Drv.take a).out r = (.ok t.reply, { r with state := t, trace := r.trace ++ [.took a t.reply] }) := by
  rw [Drv.take_out, stepWith_eq h0, h]
  simp [hf, hr]

/-- A turn without events, in which a NAND call has the given result and delivers the given bytes. -/
def Turn.quiet (r : NandResult) (bytes : List Byte) : Turn := { events := [], nand := r, bytes := bytes }

theorem Drv.turn_cons (e : Turn) (rest : List Turn) (s : State) (tr : List Event) :
    Drv.turn.out ⟨s, e :: rest, tr⟩ = (.ok e, ⟨s, rest, tr⟩) := rfl

theorem Drv.turn_nil (s : State) (tr : List Event) :
    Drv.turn.out ⟨s, [], tr⟩ = (.ok (Turn.quiet .ok []), ⟨s, [], tr⟩) := rfl

/-- One action of the host. -/
theorem Drv.act_ends {a : Action} (h0 : s.fault = none) (h : takeAction a s.fresh = .next t)
    (hf : t.fault = none) (hr : t.refused = s.refused) :
    (Drv.act a).Ends al s (.ok t.reply) t [.took a t.reply] := by
  refine ⟨[.quiet .ok []], [.took a t.reply], Among.refl _, fun rest tr0 => ?_, fun _ tr0 => ?_⟩
  · rw [Drv.act, Drv.out_bind, List.singleton_append, Drv.turn_cons]
    exact Drv.take_ok h0 h hf hr
  · rw [Drv.act, Drv.out_bind, Drv.turn_nil]
    exact Drv.take_ok h0 h hf hr

/-- One action of the host, after the device has completed a write. -/
theorem Drv.act_ends_after {a : Action} (h0 : s.fault = none)
    (h1 : takeAction .devComplete s.fresh = .next u) (hf1 : u.fault = none) (hr1 : u.refused = s.refused)
    (h2 : takeAction a u.fresh = .next t) (hf2 : t.fault = none) (hr2 : t.refused = u.refused) :
    (Drv.act a).Ends false s (.ok t.reply) t [.took a t.reply] := by
  refine ⟨[{ events := [.devComplete], nand := .ok, bytes := [] }],
    [.took .devComplete u.reply, .took a t.reply], ⟨.cons _ (.refl _), rfl⟩, fun rest tr0 => ?_, nofun⟩
  have hev : (Drv.events [.devComplete]).out ⟨s, rest, tr0⟩ =
      (.ok (), ⟨u, rest, tr0 ++ [.took .devComplete u.reply]⟩) := by
    show Drv.out (Drv.take .devComplete >>= fun _ => Drv.events []) _ = _
    rw [Drv.out_bind, Drv.take_ok (r := ⟨s, rest, tr0⟩) h0 h1 hf1 hr1]
    rfl
  rw [Drv.act, Drv.out_bind, List.singleton_append, Drv.turn_cons]
  show Drv.out (Drv.events [.devComplete] >>= _) _ = _
  rw [Drv.out_bind, hev]
  show (Drv.take a).out _ = _
  rw [Drv.take_ok (r := ⟨u, rest, tr0 ++ [Event.took .devComplete u.reply]⟩) hf1 h2 hf2 hr2]
  simp

/-- An interruption before an action of the host ends its program. -/
theorem Drv.act_cut {a : Action} (cells : List Host.Cell) (nb : Option NandBlock) (h0 : s.fault = none) :
    (Drv.act a).Ends false s (.error .interrupted) (s.fresh.interrupt cells nb) [] := by
  refine ⟨[{ events := [.interrupt cells nb], nand := .ok, bytes := [] }],
    [.took (.interrupt cells nb) .nothing], ⟨by simp, rfl⟩, fun rest tr0 => ?_, nofun⟩
  rw [Drv.act, Drv.out_bind, List.singleton_append, Drv.turn_cons]
  show Drv.out (Drv.events [.interrupt cells nb] >>= _) _ = _
  rw [Drv.out_bind]
  have : (Drv.events [.interrupt cells nb]).out ⟨s, rest, tr0⟩ =
      (.error .interrupted, ⟨s.fresh.interrupt cells nb, rest,
        tr0 ++ [.took (.interrupt cells nb) .nothing]⟩) := by
    show Drv.out (Drv.take (.interrupt cells nb) >>= fun _ => throw .interrupted) _ = _
    rw [Drv.out_bind, Drv.take_ok (r := ⟨s, rest, tr0⟩) (t := s.fresh.interrupt cells nb) h0 rfl h0 rfl]
    rfl
  rw [this]

/-- One NAND call, with the result and the bytes that the environment gives it. -/
theorem Drv.nand_ends {a : NandResult → List Byte → Action} (r : NandResult) (bytes : List Byte)
    (h0 : s.fault = none) (h : takeAction (a r bytes) s.fresh = .next t) (hf : t.fault = none)
    (hr : t.refused = s.refused) (hn : t.reply = .nand r) :
    (Drv.nand a).Ends false s (.ok r) t [.took (a r bytes) (.nand r)] := by
  refine ⟨[.quiet r bytes], [.took (a r bytes) t.reply], by rw [hn]; exact Among.refl _, fun rest tr0 => ?_, nofun⟩
  rw [Drv.nand, Drv.out_bind, List.singleton_append, Drv.turn_cons]
  show Drv.out (Drv.take (a r bytes) >>= _) _ = _
  rw [Drv.out_bind, Drv.take_ok (r := ⟨s, rest, tr0⟩) h0 h hf hr]
  show (Drv.out (match t.reply with | .nand r => _ | _ => _) _) = _
  rw [hn]
  rfl

/-- A wait for the user that the user's event ends. -/
theorem Drv.waitUser_ends (e : UserEvent) (h : s.Free) :
    Drv.waitUser.Ends false s (.ok e) { s.fresh with reply := .user e }
      [.took .waitUser .nothing, .took (.userEvent e) (.user e)] := by
  let w : State := { s.fresh with waiting := true }
  let t : State := { s.fresh with reply := .user e }
  have h1 : takeAction .waitUser s.fresh = .next w := by
    rw [takeAction_host (show s.fresh.waiting = false from h.waiting) (by simp) (by simp) (by simp)]
    rfl
  have h2 : takeAction (.userEvent e) w.fresh = .next t := by
    show userStep e w.fresh = _
    have : t = { w.fresh with waiting := false, reply := .user e } := by
      simp only [t, w, State.fresh, ← h.waiting]
    rw [this]
    rfl
  refine ⟨[.quiet .ok [], { events := [.userEvent e], nand := .ok, bytes := [] }],
    [.took .waitUser .nothing, .took (.userEvent e) (.user e)], Among.refl _, fun rest tr0 => ?_, nofun⟩
  have hact : (Drv.act .waitUser).out ⟨s, [.quiet .ok [],
      { events := [.userEvent e], nand := .ok, bytes := [] }] ++ rest, tr0⟩ =
      (.ok .nothing, ⟨w, { events := [.userEvent e], nand := .ok, bytes := [] } :: rest,
        tr0 ++ [.took .waitUser .nothing]⟩) := by
    rw [Drv.act, Drv.out_bind, List.cons_append, Drv.turn_cons]
    exact Drv.take_ok (t := w) h.fault h1 h.fault rfl
  rw [Drv.waitUser, Drv.out_bind, hact]
  show Drv.out (Drv.turn >>= _) _ = _
  rw [Drv.out_bind, Drv.turn_cons]
  show Drv.out (Drv.awaitUser [.userEvent e]) _ = _
  rw [Drv.awaitUser, Drv.out_bind, show (OtherStep.userEvent e).action = Action.userEvent e from rfl,
    Drv.take_ok (r := ⟨w, rest, tr0 ++ [Event.took .waitUser .nothing]⟩) (t := t) h.fault h2 h.fault rfl]
  show Drv.out (Drv.events [] >>= _) _ = _
  rw [Drv.out_bind]
  simp [Drv.events, Drv.out_pure, t]

end Sys2Proof.Machine
end

