-- ==== Sys2Proof/Laws/Wire.lean ====
section
/-! SUPPORT. The EEPROM driver, command by command: what its sequences do to the lines and to the device, from
states that agree in all that lasts (42_eeprom.md R310, R311, R340-R345). -/

namespace Sys2Proof.Machine

variable {α β : Type} {al : Bool}

/-! ### What lasts of a state between two operations of the driver -/

/-- The state without what every operation of the driver writes before it reads it: the argument, status and
result registers, the accumulator, the cipher registers, the host-dirty set, and the model's own reply, agenda
and counter. -/
def State.core (s : State) : State :=
  { s with
    arg := Vector.replicate 4 none
    status := none
    res := Vector.replicate 8 none
    crcAcc := none
    aes := Aes.unwritten
    coh := ⟨[], s.coh.devDirty⟩
    agenda := []
    reply := .nothing
    draws := 0 }

/-- From every state of the first set the program can end as given, in a state of the second, having taken the
steps of a trace with the given events. -/
def Drv.Does (al : Bool) (x : Drv α) (P : State → Prop) (e : Except Ending α) (Q : State → Prop)
    (T : List Event) : Prop :=
  ∀ s, P s → ∃ t, x.Ends al s e t T ∧ Q t

/-- The states with the given core. -/
def State.Core (c s : State) : Prop := s.core = c

variable {P P' Q Q' : State → Prop} {T T' : List Event}

theorem Drv.Does.pure (a : α) : Drv.Does al (Pure.pure a : Drv α) P (.ok a) P [] :=
  fun s hs => ⟨s, .pure a, hs⟩

theorem Drv.Does.bind {x : Drv α} {f : α → Drv β} {a : α} {e : Except Ending β}
    (hx : x.Does al P (.ok a) Q T) (hf : (f a).Does al Q e Q' T') :
    (x >>= f).Does al P e Q' (T ++ T') := by
  intro s hs
  obtain ⟨t, h1, ht⟩ := hx s hs
  obtain ⟨u, h2, hu⟩ := hf t ht
  exact ⟨u, h1.bind h2, hu⟩

theorem Drv.Does.stop {x : Drv α} {f : α → Drv β} {i : Ending} (hx : x.Does al P (.error i) Q T) :
    (x >>= f).Does al P (.error i) Q T := by
  intro s hs
  obtain ⟨t, h1, ht⟩ := hx s hs
  exact ⟨t, h1.stop, ht⟩

/-- The first program reaches none of the given events. -/
theorem Drv.Does.next {x : Drv α} {f : α → Drv β} {a : α} {e : Except Ending β}
    (hx : x.Does al P (.ok a) Q []) (hf : (f a).Does al Q e Q' T) : (x >>= f).Does al P e Q' T :=
  hx.bind hf

theorem Drv.Does.weaken {x : Drv α} {e : Except Ending α} (hx : x.Does al P e Q T) (h : Among T' T) :
    x.Does al P e Q T' := by
  intro s hs
  obtain ⟨t, h1, ht⟩ := hx s hs
  exact ⟨t, h1.weaken h, ht⟩

theorem Drv.Does.scheduled {x : Drv α} {e : Except Ending α} (hx : x.Does true P e Q T) :
    x.Does al P e Q T := by
  intro s hs
  obtain ⟨t, h1, ht⟩ := hx s hs
  exact ⟨t, h1.scheduled, ht⟩

theorem Drv.Does.narrow {x : Drv α} {e : Except Ending α} (hx : x.Does al P e Q T) (h : ∀ s, P' s → P s) :
    x.Does al P' e Q T :=
  fun s hs => hx s (h s hs)

theorem Drv.Does.widen {x : Drv α} {e : Except Ending α} (hx : x.Does al P e Q T) (h : ∀ s, Q s → Q' s) :
    x.Does al P e Q' T := by
  intro s hs
  obtain ⟨t, h1, ht⟩ := hx s hs
  exact ⟨t, h1, h t ht⟩

theorem Drv.mark_does (e : Event) : (Drv.mark e).Does al P (.ok ()) P [e] :=
  fun s hs => ⟨s, Drv.mark_ends e, hs⟩

theorem Drv.par_does {p : Params} (h : ∀ s, P s → s.par = p) : Drv.par.Does al P (.ok p) P [] := by
  intro s hs
  refine ⟨s, ?_, hs⟩
  rw [← h s hs]
  exact Drv.par_ends

variable {c c' c'' : State}

theorem State.Free.of_core {s : State} (h : c.Free) (hs : c.Core s) : s.Free := by
  subst hs; exact ⟨h.fault, h.waiting⟩

/-- An action that the host takes. -/
theorem Drv.act_ends_host {s t : State} {a : Action} (h : s.Free) (ha : a.byHost = true)
    (hs : hostStep a s.fresh = .next t) (hf : t.fault = none) (hr : t.refused = s.refused) : (Drv.act a).Ends al s (.ok t.reply) t [] := by
  refine (Drv.act_ends h.fault ?_ hf hr).weaken ⟨by simp, rfl⟩
  rw [← hs]
  exact takeAction_host h.waiting (by rintro rfl; cases ha) (by rintro _ _ rfl; cases ha)
    (by rintro _ rfl; cases ha)

/-- A command that the machine completes. -/
theorem Drv.cmd_ends {s t : State} {i : Instr} (hd : decodeWord (encodeWord i) = .ok i) (h : s.Free)
    (hs : exec i s.fresh = .next t) (hf : t.fault = none) (hr : t.refused = s.refused) :
    (Drv.cmd i).Ends al s (.ok ()) t [] :=
  (Drv.act_ends_host h rfl (by simp only [hostStep, portWrite, issue, hd, hs]) hf hr).next (.pure ())

/-! ### The lines -/

/-- The core with the given lines and device. -/
def State.wired (c : State) (g : Gpio) (d : Device) : State := { c with gpio := g, dev := d }

/-- The states with the given core, lines and device. -/
def State.Wired (c : State) (g : Gpio) (d : Device) (s : State) : Prop := s.core = c.core.wired g d

variable {d d' : Device} {cs sk di : Bool}

theorem State.Wired.gpio {s : State} {g : Gpio} (h : c.Wired g d s) : s.gpio = g :=
  (congrArg State.gpio h : _)

theorem State.Wired.dev {s : State} {g : Gpio} (h : c.Wired g d s) : s.dev = d :=
  (congrArg State.dev h : _)

theorem State.Wired.free {s : State} {g : Gpio} (h : c.Wired g d s) (hf : c.Free) : s.Free :=
  ⟨(congrArg State.fault h : _).trans hf.fault, (congrArg State.waiting h : _).trans hf.waiting⟩

/-- A command of the EEPROM port that drives the lines and the device as given. -/
theorem Drv.eep_does {i : Instr} {g g' : Gpio} (hd : decodeWord (encodeWord i) = .ok i) (hf : c.Free)
    (h : ∀ s : State, s.gpio = g → s.dev = d →
      ∃ t, exec i s = .next t ∧ t.core = s.core.wired g' d') :
    (Drv.cmd i).Does al (c.Wired g d) (.ok ()) (c.Wired g' d') [] := by
  intro s hs
  obtain ⟨t, he, ht⟩ := h s.fresh hs.gpio hs.dev
  have hF := hs.free hf
  have h1 : t.fault = s.fault := (congrArg State.fault ht : _)
  have h2 : t.refused = s.refused := (congrArg State.refused ht : _)
  refine ⟨t, Drv.cmd_ends hd hF he (h1.trans hF.fault) h2, ht.trans ?_⟩
  show s.core.wired g' d' = _
  rw [show s.core = c.core.wired g d from hs]
  rfl

/-- Driving a line to which the device does not react. -/
theorem line_core {s : State} {g : Gpio} (l : Line) (b : Bool) (hg : (s.setLine l b).gpio = g)
    (hd : s.dev = d) : (s.setLine l b).done.core = s.core.wired g d := by
  rw [← hg, ← hd]
  rfl

theorem Drv.setCs_does (hf : c.Free) :
    (Drv.cmd .eepSetCs).Does al (c.Wired ⟨false, sk, di⟩ d) (.ok ()) (c.Wired ⟨true, sk, di⟩ d.csRise) [] :=
  Drv.eep_does (by decide) hf fun s hg hd => ⟨_, rfl, by
    have : State.core { s.setLine .cs true with dev := if s.gpio.cs then s.dev else s.dev.csRise }.done =
      s.core.wired { s.gpio with cs := true } (if s.gpio.cs then s.dev else s.dev.csRise) := rfl
    rw [this, hg, hd]
    rfl⟩

theorem Drv.clrCs_does (hf : c.Free) :
    (Drv.cmd .eepClrCs).Does al (c.Wired ⟨true, sk, di⟩ d) (.ok ()) (c.Wired ⟨false, sk, di⟩ d.csFall) [] :=
  Drv.eep_does (by decide) hf fun s hg hd => ⟨_, rfl, by
    have : State.core { s.setLine .cs false with dev := if s.gpio.cs then s.dev.csFall else s.dev }.done =
      s.core.wired { s.gpio with cs := false } (if s.gpio.cs then s.dev.csFall else s.dev) := rfl
    rw [this, hg, hd]
    rfl⟩

theorem Drv.driveDi_does (hf : c.Free) (b : Bool) :
    (Drv.cmd (if b then .eepSetDi else .eepClrDi)).Does al (c.Wired ⟨cs, sk, di⟩ d) (.ok ())
      (c.Wired ⟨cs, sk, b⟩ d) [] := by
  cases b
  · exact Drv.eep_does (by decide) hf fun s hg hd => ⟨_, rfl, line_core .di false (by simp only [State.setLine, hg]) hd⟩
  · exact Drv.eep_does (by decide) hf fun s hg hd => ⟨_, rfl, line_core .di true (by simp only [State.setLine, hg]) hd⟩

theorem Drv.clrSk_does (hf : c.Free) :
    (Drv.cmd .eepClrSk).Does al (c.Wired ⟨cs, sk, di⟩ d) (.ok ()) (c.Wired ⟨cs, false, di⟩ d) [] :=
  Drv.eep_does (by decide) hf fun s hg hd => ⟨_, rfl, line_core .sk false (by simp only [State.setLine, hg]) hd⟩

theorem Drv.delay_does {g : Gpio} (hf : c.Free) :
    (Drv.cmd .eepDelay).Does al (c.Wired g d) (.ok ()) (c.Wired g d) [] :=
  fun _ hs => ⟨_, Drv.cmd_ends (by decide) (hs.free hf) rfl (hs.free hf).fault rfl, hs⟩

theorem Drv.setSk_does (hf : c.Free) (h : d.skEdge true di = .ok d') :
    (Drv.cmd .eepSetSk).Does al (c.Wired ⟨true, false, di⟩ d) (.ok ()) (c.Wired ⟨true, true, di⟩ d') [] :=
  Drv.eep_does (by decide) hf fun s hg hd => by
    refine ⟨{ s.setLine .sk true with dev := d' }.done, ?_, by simp only [hg, State.setLine]; rfl⟩
    show execEepSetSk s = _
    simp only [execEepSetSk, hg, hd]
    rw [show (!false && true) = true from rfl, h]
    simp only [ok_bind', pure_ok', State.complete_ok]

/-- EEP.SET SK, with a completion of the device's write before it. -/
theorem Drv.setSk_does_after (hf : c.Free) (hb : d.busy = true) (h : d.complete.skEdge true di = .ok d') :
    (Drv.cmd .eepSetSk).Does false (c.Wired ⟨true, false, di⟩ d) (.ok ()) (c.Wired ⟨true, true, di⟩ d') [] := by
  intro s hs
  have hg := hs.gpio
  have hd := hs.dev
  have hF : s.Free := hs.free hf
  let u : State := { s.fresh with dev := d.complete }
  let t : State := { u.setLine .sk true with dev := d' }.done
  have h1 : takeAction .devComplete s.fresh = .next u := by
    have : s.fresh.dev = d := hd
    simp only [takeAction, deviceStep, this, hb, if_true, u]
  have h2 : takeAction (.portWr .cmd (encodeWord .eepSetSk)) u.fresh = .next t := by
    rw [takeAction_host (show u.fresh.waiting = false from hF.waiting) (by simp) (by simp) (by simp)]
    simp only [hostStep, portWrite, issue, show decodeWord (encodeWord .eepSetSk) = .ok .eepSetSk by decide]
    show execEepSetSk u.fresh = _
    have hg' : u.fresh.gpio = ⟨true, false, di⟩ := hg
    have hd' : u.fresh.dev = d.complete := rfl
    simp only [execEepSetSk, hg', hd']
    rw [show (!false && true) = true from rfl, h]
    simp only [ok_bind', pure_ok', State.complete_ok]
    rfl
  refine ⟨t, ((Drv.act_ends_after hF.fault h1 hF.fault rfl h2 hF.fault rfl).weaken
    (T' := []) ⟨by simp, rfl⟩).next (.pure _), ?_⟩
  have : t.core = s.core.wired ⟨s.gpio.cs, true, s.gpio.di⟩ d' := rfl
  show t.core = _
  rw [this, show s.core = c.core.wired ⟨true, false, di⟩ d from hs, hg]
  rfl

/-- EEP.IN and the read of RES0, where the device drives its line. -/
theorem Drv.sample_does {f : Nat → Drv α} {e : Except Ending α} {g : Gpio} (hf : c.Free) (b : Bool)
    (hb : d.dout = if b then .one else .zero)
    (h : (f b.toNat).Does al (c.Wired g d) e Q T) :
    (Drv.cmd .eepIn >>= fun _ => Drv.port (.res 0) >>= f).Does al (c.Wired g d) e Q T := by
  intro s hs
  have hF := hs.free hf
  let w : Word := if b then 1#32 else 0#32
  let t : State := (s.fresh.setRes 0 w).done
  have h1 : exec .eepIn s.fresh = .next t := by
    show execEepIn s.fresh = _
    have hd' : s.fresh.dev.dout = if b then .one else .zero := by rw [← hb, ← hs.dev]; rfl
    cases b <;> simp only [execEepIn, State.sample, hd', Bool.false_eq_true, if_false, if_true] <;> rfl
  let u : State := { t.fresh with reply := .word w }
  have h2 : hostStep (.portRd (.res 0)) t.fresh = .next u := by
    have : t.fresh.res[(0 : Fin 8)] = some w := Vector.getElem_set_self ..
    simp only [hostStep, portRead, State.portVal, this, written_some, State.markRead]
    rfl
  obtain ⟨v, hv, hc⟩ := h u hs
  refine ⟨v, ?_, hc⟩
  refine (Drv.cmd_ends (by decide) hF h1 hF.fault rfl).next ?_
  refine Drv.Ends.next (a := b.toNat) (t := u) ?_ hv
  refine (Drv.act_ends_host (show t.Free from ⟨hF.fault, hF.waiting⟩) rfl h2
    hF.fault rfl).next ?_
  show Drv.Ends al (Pure.pure w.toNat) u (.ok b.toNat) u []
  cases b <;> exact .pure _

/-! ### Bits out -/

/-- The device's reactions to clock rises with the given bits on the data line. -/
def Device.feed (d : Device) : List Bool → Except Halt Device
  | [] => .ok d
  | b :: bits =>
    match d.skEdge true b with
    | .ok d' => d'.feed bits
    | .error h => .error h

theorem sendBits_does (hf : c.Free) (value n : Nat) (h : d.feed (valBits n value) = .ok d') :
    (sendBits value n).Does al (c.Wired ⟨true, false, di⟩ d) (.ok ())
      (c.Wired ⟨true, false, (valBits n value).getLastD di⟩ d') [] := by
  induction n generalizing d di with
  | zero => cases h; exact .pure _
  | succ n ih =>
    simp only [valBits, Device.feed] at h
    cases he : d.skEdge true (value.testBit n) with
    | error k => rw [he] at h; cases h
    | ok d1 =>
      rw [he] at h
      refine (Drv.driveDi_does hf (value.testBit n)).next ((Drv.delay_does hf).next
        ((Drv.setSk_does hf he).next ((Drv.delay_does hf).next ((Drv.clrSk_does hf).next
        ((Drv.delay_does hf).next ?_)))))
      rw [valBits, List.getLastD_cons]
      exact ih h

/-- A frame clocked into a device that has received nothing has the frame's reaction. -/
theorem feed_frame {bits : List Bool} {i : Instr} (d : Device) (hm : d.mode = .recv) (hs : d.shift = [])
    (hi : decodeFrame bits = .ok i) : d.feed bits = Device.react { d with shift := bits } i := by
  have key : ∀ (rest sent : List Bool), rest ≠ [] → sent ++ rest = bits →
      Device.feed { d with shift := sent } rest = Device.react { d with shift := bits } i := by
    intro rest
    induction rest with
    | nil => intro sent h; exact absurd rfl h
    | cons b rest ih =>
      intro sent _ hb
      have hedge : Device.skEdge { d with shift := sent } true b =
          Device.skRecv { d with shift := sent } b := by simp only [Device.skEdge, hm, if_true]
      rw [Device.feed, hedge]
      have hpre : sent ++ [b] = bits.take (sent.length + 1) := by
        rw [← hb, List.take_append, List.take_of_length_le (by omega)]
        simp
      cases rest with
      | nil =>
        rw [skRecv_complete (i := i) (by rw [hb]; exact frameComplete_of_decode hi) (by rw [hb]; exact hi)]
        simp only [hb]
        cases Device.react { d with shift := bits } i <;> rfl
      | cons b' rest =>
        have hstart : sent ≠ [] ∨ b = true := by
          by_cases h : sent = []
          · right
            obtain ⟨op1, op0, tl, hbits, -⟩ := decodeFrame_ok hi
            rw [← hb, h] at hbits
            exact (List.cons.inj hbits).1
          · exact .inl h
        have hnot : frameComplete (sent ++ [b]) = false := by
          rw [hpre]
          exact frameComplete_take hi _ (by rw [← hb]; simp)
        rw [skRecv_partial hstart hnot]
        exact ih (sent ++ [b]) (by simp) (by rw [List.append_assoc]; exact hb)
  have hne : bits ≠ [] := by
    obtain ⟨_, _, _, rfl, -⟩ := decodeFrame_ok hi
    simp
  have hd : d = { d with shift := [] } := by cases d; simp_all
  rw [hd]
  exact key bits [] hne rfl

/-! ### Bits in -/

theorem recvBits_does (hf : c.Free) (hm : d.mode = .out) (bits rest : List Bool) (v : Nat)
    (ho : d.out = bits ++ rest) : ∃ dout,
    (recvBitsFrom v bits.length).Does al (c.Wired ⟨true, false, di⟩ d)
      (.ok (bits.foldl (fun v b => 2 * v + b.toNat) v))
      (c.Wired ⟨true, false, di⟩ { d with out := rest, dout := dout }) [] := by
  induction bits generalizing d v with
  | nil =>
    refine ⟨d.dout, ?_⟩
    have : d = { d with out := rest, dout := d.dout } := by cases d; simp_all
    rw [← this]
    exact .pure _
  | cons b bits ih =>
    let d1 : Device := { d with dout := if b then .one else .zero, out := bits ++ rest }
    have he : d.skEdge true di = .ok d1 := by
      simp only [Device.skEdge, hm, if_true, Device.skOut, ho, List.cons_append, d1]
    obtain ⟨dout, h⟩ := ih (d := d1) hm (2 * v + b.toNat) rfl
    exact ⟨dout, (Drv.setSk_does hf he).next ((Drv.delay_does hf).next ((Drv.clrSk_does hf).next
      ((Drv.delay_does hf).next (Drv.sample_does hf b rfl h))))⟩

/-! ### The device at rest, and the driver's frames -/

/-- The device between two frames of the driver. -/
structure Device.Rested (d : Device) : Prop where
  mode : d.mode = .idle
  shift : d.shift = []
  out : d.out = []
  dout : d.dout = .z
  busy : d.busy = false
  prog : d.prog = none
  pending : d.statusPending = false
  armed : d.armed = none

theorem Device.Rested.eq (h : d.Rested) : d = { Device.atReset d.array with wel := d.wel } := by
  obtain ⟨hm, hs, ho, hd, hb, hp, hq, ha⟩ := h
  cases d
  simp_all [Device.atReset]

theorem Device.Rested.csRise (h : d.Rested) : d.csRise = { d with mode := .recv } := by
  obtain ⟨hm, hs, ho, hd, hb, hp, hq, ha⟩ := h
  cases d
  simp_all [Device.csRise]

/-- A device that has received and shown what it likes is at rest again when chip-select falls. -/
theorem Device.Rested.csFall (h : d.Rested) (m : Mode) (sh out : List Bool) (dout : DataOut) :
    Device.csFall { d with mode := m, shift := sh, out := out, dout := dout } = d := by
  obtain ⟨hm, hs, ho, hd, hb, hp, hq, ha⟩ := h
  cases d
  cases m <;> simp_all [Device.csFall]

/-- The frame of a driver operation: chip-select up, the bits of a value. -/
theorem frame_does (hf : c.Free) (hd : d.Rested) (value n : Nat) {i : Instr}
    (hi : decodeFrame (valBits n value) = .ok i)
    (hr : Device.react { d with mode := .recv, shift := valBits n value } i = .ok d') {x : Drv α}
    {e : Except Ending α}
    (h : x.Does al (c.Wired ⟨true, false, (valBits n value).getLastD di⟩ d') e Q T) :
    (Drv.cmd .eepSetCs >>= fun _ => sendBits value n >>= fun _ => x).Does al
      (c.Wired ⟨false, false, di⟩ d) e Q T := by
  refine (Drv.setCs_does hf).next ((sendBits_does hf value n ?_).next h)
  rw [hd.csRise]
  exact (feed_frame { d with mode := .recv } rfl hd.shift hi).trans hr

/-! ### Between two operations -/

/-- The states between two operations of the driver that agree with c in all that lasts: CS and SK at 0, and DI
anywhere. -/
def State.Idle (c s : State) : Prop := ∃ di, c.Wired ⟨false, false, di⟩ c.dev s

/-- c can be between two operations: the host is free and the device rests. -/
structure State.Calm (c : State) : Prop where
  free : c.Free
  dev : c.dev.Rested

theorem State.Idle.free {s : State} (h : c.Idle s) (hf : c.Free) : s.Free := by
  obtain ⟨di, h⟩ := h
  exact h.free hf

/-- An operation that, wherever DI is, leaves a core and the lines CS and SK at 0. -/
theorem Drv.idle_does {x : Drv α} {e : Except Ending α}
    (h : ∀ di, ∃ di', x.Does al (c.Wired ⟨false, false, di⟩ c.dev) e (c'.Wired ⟨false, false, di'⟩ c'.dev) T) :
    x.Does al c.Idle e c'.Idle T := by
  rintro s ⟨di, hs⟩
  obtain ⟨di', hx⟩ := h di
  obtain ⟨t, h1, ht⟩ := hx s hs
  exact ⟨t, h1, di', ht⟩

/-- The state with the given device. -/
def State.withDev (c : State) (d : Device) : State := { c with dev := d }

/-- A frame after which chip-select falls on a device that is at rest then. -/
theorem frame_idle_does (hc : c.Calm) (value n : Nat) {i : Instr}
    (hi : decodeFrame (valBits n value) = .ok i)
    (hr : Device.react { c.dev with mode := .recv, shift := valBits n value } i = .ok d')
    (hfall : d'.csFall = d) :
    (Drv.cmd .eepSetCs >>= fun _ => sendBits value n >>= fun _ => Drv.cmd .eepClrCs).Does al
      c.Idle (.ok ()) (c.withDev d).Idle [] := by
  refine Drv.idle_does fun di => ⟨(valBits n value).getLastD di, frame_does hc.free hc.dev _ _ hi hr ?_⟩
  rw [← hfall]
  exact Drv.clrCs_does hc.free

theorem decode_read (a : Byte) : decodeFrame (valBits 11 (0x600 ||| a.toNat)) = .ok (.frameRead a) := by
  revert a
  decide +kernel

/-- READ of one word (R343). -/
theorem eepReadWord_does (hc : c.Calm) (a : Byte) :
    (eepReadWord a.toNat).Does al c.Idle (.ok (c.dev.array[a.toNat]'a.isLt).toNat) c.Idle [] := by
  refine Drv.idle_does fun di => ?_
  let w := c.dev.array[a.toNat]'a.isLt
  let sent := valBits 11 (0x600 ||| a.toNat)
  let d1 : Device := { c.dev with mode := .out, shift := sent, dout := .zero, out := valBits 16 w.toNat }
  obtain ⟨dout, hrecv⟩ := recvBits_does (al := al) (c := c) (di := sent.getLastD di) hc.free (d := d1) rfl
    (valBits 16 w.toNat) [] 0 (List.append_nil _).symm
  rw [valBits_length, show (valBits 16 w.toNat).foldl (fun v b => 2 * v + b.toNat) 0 = w.toNat from by
    rw [← bitsVal, bitsVal_valBits, Nat.mod_eq_of_lt w.isLt]] at hrecv
  have hclr := Drv.clrCs_does (al := al) (c := c) (sk := false) (di := sent.getLastD di)
    (d := { d1 with out := [], dout := dout }) hc.free
  rw [show Device.csFall { d1 with out := [], dout := dout } = c.dev from hc.dev.csFall _ _ _ _] at hclr
  exact ⟨sent.getLastD di, frame_does (d' := d1) hc.free hc.dev _ _ (decode_read a) rfl
    (hrecv.next (hclr.next (.pure _)))⟩

/-- The device with the write-enable latch at a value. -/
def Device.withWel (d : Device) (wel : Bool) : Device := { d with wel := wel }

theorem Device.Rested.withWel (h : d.Rested) (wel : Bool) : (d.withWel wel).Rested :=
  ⟨h.1, h.2, h.3, h.4, h.5, h.6, h.7, h.8⟩

/-- EWEN and EWDS (R342): the write-enable latch. -/
theorem eepEwen_does (hc : c.Calm) :
    eepEwen.Does al c.Idle (.ok ()) (c.withDev (c.dev.withWel true)).Idle [] :=
  frame_idle_does (i := .frameEwen 0x00#6) hc _ _ (by decide) rfl ((hc.dev.withWel true).csFall .idle _ _ _)

theorem eepEwds_does (hc : c.Calm) :
    eepEwds.Does al c.Idle (.ok ()) (c.withDev (c.dev.withWel false)).Idle [] :=
  frame_idle_does (i := .frameEwds 0x00#6) hc _ _ (by decide) rfl ((hc.dev.withWel false).csFall .idle _ _ _)

/-- `eep_init` (R340) leaves the lines at 0 and a device at rest at rest. -/
theorem eepInit_does (hc : c.Calm) (g : Gpio) :
    eepInit.Does al (c.Wired g c.dev) (.ok ()) c.Idle [] := by
  have h1 : (Drv.cmd .eepClrCs).Does al (c.Wired g c.dev) (.ok ()) (c.Wired ⟨false, g.sk, g.di⟩ c.dev) [] := by
    obtain ⟨_ | _, sk, di⟩ := g
    · exact Drv.eep_does (by decide) hc.free fun s hg hd =>
        ⟨_, rfl, by
          have : State.core { s.setLine .cs false with dev := if s.gpio.cs then s.dev.csFall else s.dev }.done =
            s.core.wired { s.gpio with cs := false } (if s.gpio.cs then s.dev.csFall else s.dev) := rfl
          rw [this, hg, hd]
          rfl⟩
    · have := Drv.clrCs_does (al := al) (c := c) (sk := sk) (di := di) (d := c.dev) hc.free
      rwa [show c.dev.csFall = c.dev from hc.dev.csFall c.dev.mode c.dev.shift c.dev.out c.dev.dout] at this
  exact h1.next (((Drv.clrSk_does hc.free).next (Drv.driveDi_does hc.free false)).widen
    fun s hs => ⟨false, hs⟩)

/-! ### Programming a word -/

theorem decode_write (a : Byte) (v : Half) :
    decodeFrame (valBits 27 (0x5000000 ||| a.toNat <<< 16 ||| v.toNat)) = .ok (.frameWrite a v) := by
  have h1 : 0x5000000 ||| a.toNat <<< 16 = (5 <<< 8 + a.toNat) <<< 16 := by
    rw [Nat.shiftLeft_add_eq_or_of_lt a.isLt, Nat.shiftLeft_or_distrib]
    rfl
  let bits : List Bool := true :: false :: true :: (valBits 8 a.toNat ++ valBits 16 v.toNat)
  have h2 : bitsVal bits = 0x5000000 ||| a.toNat <<< 16 ||| v.toNat := by
    rw [h1, ← Nat.shiftLeft_add_eq_or_of_lt v.isLt]
    simp only [bits, bitsVal_cons, List.length_cons, List.length_append, valBits_length]
    rw [bitsVal, List.foldl_append, foldl_bits, valBits_length, ← bitsVal, bitsVal_valBits, bitsVal_valBits,
      Nat.mod_eq_of_lt a.isLt, Nat.mod_eq_of_lt v.isLt]
    simp only [Nat.shiftLeft_eq, Bool.toNat_true, Bool.toNat_false]
    omega
  have h3 := valBits_bitsVal bits 0
  rw [Nat.zero_mul, Nat.zero_add, h2, show bits.length = 27 from by simp [bits, valBits_length]] at h3
  rw [h3]
  simp only [bits, decodeFrame, List.length_append, valBits_length, frameBits, if_true, and_self]
  rw [List.take_left' (valBits_length _ _), List.drop_left' (valBits_length _ _), bitsVec_valBits,
    bitsVec_valBits]

/-- The device with a word. -/
def Device.withWord (d : Device) (a : Byte) (v : Half) : Device :=
  { d with array := d.array.set a.toNat v a.isLt }

theorem Device.Rested.withWord (h : d.Rested) (a : Byte) (v : Half) : (d.withWord a v).Rested :=
  ⟨h.1, h.2, h.3, h.4, h.5, h.6, h.7, h.8⟩

/-- The WRITE frame and the poll of one word (R344, R345), where the device completes the write before the first
clock rise of the poll. -/
theorem writeWord_does {f : Bool → Drv α} {e : Except Ending α} (hc : c.Calm) (hw : c.dev.wel = true) (a : Byte)
    (v : Half) (h : (f true).Does false (c.withDev (c.dev.withWord a v)).Idle e Q T) :
    (Drv.cmd .eepSetCs >>= fun _ => sendBits (0x5000000 ||| a.toNat <<< 16 ||| v.toNat) 27 >>= fun _ =>
      Drv.cmd .eepClrCs >>= fun _ => eepPoll >>= f).Does false c.Idle e Q T := by
  let sent := valBits 27 (0x5000000 ||| a.toNat <<< 16 ||| v.toNat)
  let words := c.dev.array.set a.toNat v a.isLt
  let d0 : Device := { Device.atReset c.dev.array with wel := true }
  let d1 : Device := { d0 with shift := sent, armed := some (a, v) }
  let d2 : Device := { d0 with busy := true, prog := some (a, v), statusPending := true }
  let d3 : Device := { d2 with mode := .status, dout := .zero }
  let d4 : Device :=
    { Device.atReset words with wel := true, mode := .status, dout := .one, statusPending := true }
  have hdev : c.dev = d0 := by rw [hc.dev.eq, hw]
  have h12 : d1.csFall = d2 := rfl
  have h23 : d2.csRise = d3 := rfl
  have h34 : d3.complete.skEdge true false = .ok d4 := rfl
  have h56 : d4.csFall = c.dev.withWord a v := by rw [hdev]; rfl
  have hpoll : eepPoll.Does false (c.withDev d2).Idle (.ok true) (c.withDev (c.dev.withWord a v)).Idle [] := by
    rintro s ⟨di, hs⟩
    have hrecv : (recvBits 1).Does false (c.Wired ⟨true, false, false⟩ d3) (.ok 1)
        (c.Wired ⟨true, false, false⟩ d4) [] := by
      refine (Drv.setSk_does_after (d' := d4) hc.free rfl h34).next ((Drv.delay_does hc.free).next
        ((Drv.clrSk_does hc.free).next ((Drv.delay_does hc.free).next ?_)))
      exact Drv.sample_does hc.free true rfl (.pure _)
    have hset := Drv.setCs_does (al := false) (c := c) (sk := false) (di := di) (d := d2) hc.free
    rw [h23] at hset
    have hclr := Drv.clrCs_does (al := false) (c := c) (sk := false) (di := false) (d := d4) hc.free
    rw [h56] at hclr
    have hdelay := Drv.delay_does (al := false) (c := c) (g := ⟨false, false, di⟩) (d := d2) hc.free
    have hloop : (eepPollLoop eepPollLimit).Does false (c.Wired ⟨true, false, false⟩ d3) (.ok true)
        (c.Wired ⟨true, false, false⟩ d4) [] := hrecv.next (.pure true)
    have hall : eepPoll.Does false (c.Wired ⟨false, false, di⟩ d2) (.ok true)
        (c.Wired ⟨false, false, false⟩ (c.dev.withWord a v)) [] :=
      hdelay.next (hset.next ((Drv.driveDi_does hc.free false).next (hloop.next (hclr.next (.pure true)))))
    obtain ⟨t, h1, ht⟩ := hall s hs
    exact ⟨t, h1, false, ht⟩
  rintro s ⟨di, hs⟩
  have hclr := Drv.clrCs_does (al := false) (c := c) (sk := false) (di := sent.getLastD di) (d := d1) hc.free
  refine frame_does hc.free hc.dev _ _ (decode_write a v) ?_
    (hclr.next ((hpoll.next h).narrow fun _ ht => ⟨_, ht⟩)) s hs
  rw [hdev]
  rfl

end Sys2Proof.Machine
end

