-- ==== Sys2Proof/Laws/Host.lean ====
section
/-! SUPPORT. The host's operations between two operations of the EEPROM driver: the registers, loads and stores,
and the commands that a program composes. Each says what the operation returns and what it leaves, on the states
that agree in all that lasts. -/

namespace Sys2Proof.Machine

variable {α β : Type} {al : Bool} {s t u : State} {c c' : State} {T : List Event} {e : Except Ending α}
  {Q : State → Prop}

/-! ### Registers -/

theorem Drv.setArg_ends (h : s.Free) (i : Fin 4) {v : Nat} (hv : v < addrTop) :
    (Drv.setArg i v).Ends al s (.ok ()) (s.fresh.setArg i (BitVec.ofNat 32 v)) [] := by
  unfold Drv.setArg
  rw [if_neg (Nat.not_le.mpr hv)]
  exact (Drv.act_ends_host (a := .portWr (.arg i) (BitVec.ofNat 32 v)) h rfl rfl h.fault rfl).next
    (.pure ())

/-- The state with the first two arguments written. -/
def State.withArgs (s : State) (a b : Nat) : State :=
  (s.fresh.setArg 0 (BitVec.ofNat 32 a)).setArg 1 (BitVec.ofNat 32 b)

theorem State.withArgs_pair {a b : Nat} (ha : a < addrTop) (hb : b < addrTop) :
    (s.withArgs a b).argPair = .ok (a, b) := by
  have h0 : (s.withArgs a b).arg[0] = some (BitVec.ofNat 32 a) := by
    simp [State.withArgs, State.setArg]
  have h1 : (s.withArgs a b).arg[1] = some (BitVec.ofNat 32 b) := by
    simp [State.withArgs, State.setArg]
  rw [State.argPair_some h0 h1, BitVec.toNat_ofNat, BitVec.toNat_ofNat]
  rw [Nat.mod_eq_of_lt (show a < 2 ^ 32 from ha), Nat.mod_eq_of_lt (show b < 2 ^ 32 from hb)]

/-- The first two arguments are written, and the program goes on. -/
theorem Drv.args_ends {x : Drv α} (h : s.Free) {a b : Nat} (ha : a < addrTop) (hb : b < addrTop)
    (hx : x.Ends al (s.withArgs a b) e t T) :
    (Drv.setArg 0 a >>= fun _ => Drv.setArg 1 b >>= fun _ => x).Ends al s e t T :=
  (Drv.setArg_ends h 0 ha).next ((Drv.setArg_ends (s := s.fresh.setArg 0 (BitVec.ofNat 32 a))
    ⟨h.fault, h.waiting⟩ 1 hb).next hx)

theorem Drv.port_ends (h : s.Free) {r : PortReg} {w : Word} (hr : s.fresh.portVal r = .ok w)
    (hm : s.fresh.markRead r = s.fresh) :
    (Drv.port r).Ends al s (.ok w.toNat) { s.fresh with reply := .word w } [] := by
  have : hostStep (.portRd r) s.fresh = .next { s.fresh with reply := .word w } := by
    simp only [hostStep, portRead, hr, hm]
    rfl
  exact (Drv.act_ends_host h rfl this h.fault rfl).next (.pure _)

/-! ### What the states between two operations have in common -/

theorem State.Free.congr (h : s.Free) (ht : t.core = s.core) : t.Free :=
  ⟨(congrArg State.fault ht : _).trans h.fault, (congrArg State.waiting ht : _).trans h.waiting⟩

theorem State.Idle.of_core (h : c.Idle s) (ht : t.core = s.core) : c.Idle t := by
  obtain ⟨di, h⟩ := h
  exact ⟨di, ht.trans h⟩

theorem State.Idle.mem (h : c.Idle s) : s.mem = c.mem := by
  obtain ⟨di, h⟩ := h
  exact (congrArg State.mem h : _)

theorem State.Idle.devDirty (h : c.Idle s) : s.coh.devDirty = c.coh.devDirty := by
  obtain ⟨di, h⟩ := h
  exact (congrArg (fun s => s.coh.devDirty) h : _)

theorem State.Idle.par (h : c.Idle s) : s.par = c.par := by
  obtain ⟨di, h⟩ := h
  exact (congrArg State.par h : _)

theorem State.Idle.nand (h : c.Idle s) : s.nand = c.nand := by
  obtain ⟨di, h⟩ := h
  exact (congrArg State.nand h : _)

theorem State.Idle.holds (h : c.Idle s) {a : Nat} {bs : List Byte} (hr : c.Holds a bs) : s.Holds a bs := by
  rw [State.Holds, h.mem]
  exact hr

theorem State.Idle.reads (h : c.Idle s) {a : Nat} {bs : List Byte} (hr : c.HostReads a bs) :
    s.HostReads a bs :=
  ⟨hr.1, h.holds hr.2.1, by rw [h.devDirty]; exact hr.2.2⟩

theorem State.Idle.admits (h : c.Idle s) {a n : Nat} (ha : c.Admits a n) : s.Admits a n := by
  rw [State.Admits, h.mem]
  exact ha

/-- The state with the given memory. -/
def State.withMem (c : State) (m : Memory) : State := { c with mem := m }

@[simp] theorem State.withMem_mem (c : State) (m : Memory) : (c.withMem m).mem = m := rfl
@[simp] theorem State.withMem_dev (c : State) (m : Memory) : (c.withMem m).dev = c.dev := rfl
@[simp] theorem State.withMem_coh (c : State) (m : Memory) : (c.withMem m).coh = c.coh := rfl
@[simp] theorem State.withMem_par (c : State) (m : Memory) : (c.withMem m).par = c.par := rfl
@[simp] theorem State.withMem_fault (c : State) (m : Memory) : (c.withMem m).fault = c.fault := rfl
@[simp] theorem State.withMem_waiting (c : State) (m : Memory) : (c.withMem m).waiting = c.waiting := rfl
@[simp] theorem State.withMem_nand (c : State) (m : Memory) : (c.withMem m).nand = c.nand := rfl

theorem State.Idle.withMem (h : c.Idle s) {a : Nat} {bs : List Byte}
    (ht : t.core = s.core.withMem (s.mem.write a bs)) : (c.withMem (c.mem.write a bs)).Idle t := by
  have hm := h.mem
  obtain ⟨di, h⟩ := h
  refine ⟨di, ht.trans ?_⟩
  rw [hm, show s.core = c.core.wired _ _ from h]
  rfl

theorem Drv.par_idle : Drv.par.Does al c.Idle (.ok c.par) c.Idle [] := Drv.par_does fun _ h => h.par

/-! ### Memory -/

theorem Drv.load_does (hf : c.Free) {a : Nat} {bs : List Byte} (h : c.HostReads a bs) {n : Nat}
    (hn : bs.length = n) : (Drv.load a n).Does al c.Idle (.ok bs) c.Idle [] := by
  intro s hs
  have hF := hs.free hf
  have hread : s.fresh.hostRead a n = .ok bs := State.hostRead_of_reads (hs.reads h) hn
  have hstep : hostStep (.hstLd a n) s.fresh = .next { s.fresh with reply := .bytes bs } := by
    simp only [hostStep, hostLoad, hread]
    rfl
  exact ⟨_, (Drv.act_ends_host hF rfl hstep hF.fault rfl).next (.pure _), hs⟩

theorem Drv.store_does (hf : c.Free) {a : Nat} {bs : List Byte} (hr : Fits a bs.length)
    (ha : c.Admits a bs.length) :
    (Drv.store a bs).Does al c.Idle (.ok ()) (c.withMem (c.mem.write a bs)).Idle [] := by
  intro s hs
  have hF := hs.free hf
  have hstep : hostStep (.hstSt a bs) s.fresh = .next (s.fresh.storeHost a bs) := by
    have : s.fresh.hostWrite a bs = .ok (s.fresh.storeHost a bs) :=
      State.hostWrite_eq_ok.mpr ⟨hr, hs.admits ha, rfl⟩
    simp only [hostStep, hostStore, this, State.complete_ok]
  exact ⟨_, (Drv.act_ends_host hF rfl hstep hF.fault rfl).next (.pure _), hs.withMem rfl⟩

/-! ### The engines -/

/-- `crc32 addr, len` (40_crc.md R212). -/
theorem crc32Op_does (hf : c.Free) {a n : Nat} {bs : List Byte} (h : c.HostReads a bs) (hn : bs.length = n)
    (ha : a < addrTop) (hl : n < addrTop) :
    (crc32Op a n).Does al c.Idle (.ok (crc32 bs).toNat) c.Idle [] := by
  intro s hs
  have hF := hs.free hf
  let u : State := ({ s.withArgs a n with crcAcc := some (crcLoop crcInit bs) }.setRes 0 (crc32 bs)).done
  have hread : (s.withArgs a n).hostRead a n = .ok bs := State.hostRead_of_reads (hs.reads h) hn
  have hexec : exec .crcCompute (s.withArgs a n) = .next u := by
    show execCrcCompute _ = _
    simp only [execCrcCompute, State.withArgs_pair ha hl, ok_bind', State.argBytes, hread, pure_ok',
      State.complete_ok]
    rfl
  have hres : u.fresh.portVal (.res 0) = .ok (crc32 bs) := by
    have : u.fresh.res[(0 : Fin 8)] = some (crc32 bs) := Vector.getElem_set_self ..
    rw [State.portVal, this, written_some]
  exact ⟨_, Drv.args_ends hF ha hl ((Drv.cmd_ends (s := s.withArgs a n) (by decide) ⟨hF.fault, hF.waiting⟩ hexec
    hF.fault rfl).next (Drv.port_ends (s := u) ⟨hF.fault, hF.waiting⟩ hres rfl)), hs⟩

/-- `calc_ecc src, dst` (43_ecc.md R368). -/
theorem calcEccOp_does (hf : c.Free) {a b : Nat} {d : List Byte} (h : c.HostReads a d) (hd : d.length = 512)
    (hb : Fits b 4) (hadm : c.Admits b 4) (ha : a < addrTop) (hb' : b < addrTop) :
    (calcEccOp a b).Does al c.Idle (.ok ()) (c.withMem (c.mem.write b (calcEcc d))).Idle [] := by
  intro s hs
  have hF := hs.free hf
  let u : State := ((s.withArgs a b).storeHost b (calcEcc d)).done
  obtain ⟨hfit, hh, hclean⟩ := hs.reads h
  rw [hd] at hfit hclean
  obtain ⟨code, hcode, -, -⟩ := State.fetch_admits (s := s.withArgs a b) (hs.admits hadm)
  have hexec : exec .eccCalc (s.withArgs a b) = .next u := by
    show execEccCalc _ = _
    simp only [execEccCalc, State.withArgs_pair ha hb', ok_bind', eccDataBytes, eccCodeBytes,
      (rangeOk_iff a 512).mpr hfit, (rangeOk_iff b 4).mpr hb, require_true,
      State.fetch_holds (s := s.withArgs a b) hd hh, hcode,
      (addrTouches_not_iff a 512 (s.withArgs a b).coh.devDirty).mpr hclean, pure_ok', State.complete_ok]
    rfl
  exact ⟨_, Drv.args_ends hF ha hb' (Drv.cmd_ends (s := s.withArgs a b) (by decide) ⟨hF.fault, hF.waiting⟩ hexec
    hF.fault rfl), hs.withMem rfl⟩

/-! ### The validator -/

/-- `ctr_verify p, L` (44_container.md R410) on a container that passes, and the program after it. -/
theorem ctrVerifyOp_ends {x : ResultCode → Drv α} {a n : Nat} (hF : s.Free) (ha : a < addrTop) (hn : n < addrTop)
    (hfit : Fits a n) {info : CtrInfo}
    (hv : (s.withArgs a n).verifyContainer { addr := a, len := n } = .ok info)
    (hx : ∀ t, t.core = s.core → t.res = info.results → ∃ u, (x .ok).Ends al t e u T ∧ Q u) :
    ∃ u, (ctrVerifyOp a n >>= x).Ends al s e u T ∧ Q u := by
  let t : State := { s.withArgs a n with res := info.results }.done
  have hexec : exec .ctrVerify (s.withArgs a n) = .next t := by
    have hrun : (s.withArgs a n).ctrRun (fun t => t.verifyContainer { addr := a, len := n }) = .ok info :=
      (ctrRun_of_yields (verifyContainer_yields _ _) (by rw [hv]; exact fun _ h => nomatch h)).trans hv
    show execCtrVerify _ = _
    simp only [execCtrVerify, State.ctrBuffer, State.withArgs_pair ha hn, ok_bind', (rangeOk_iff a n).mpr hfit,
      require_true, pure_ok', hrun, State.ctrFinish, State.complete_ok]
    rfl
  have hst : t.fresh.portVal .status = .ok 0#32 := rfl
  obtain ⟨u, hu, hq⟩ := hx { t.fresh with reply := .word 0#32 } rfl rfl
  exact ⟨u, Drv.Ends.next (a := .ok) (Drv.args_ends hF ha hn ((Drv.cmd_ends (s := s.withArgs a n) (by decide)
    ⟨hF.fault, hF.waiting⟩ hexec hF.fault rfl).next ((Drv.port_ends (s := t) ⟨hF.fault, hF.waiting⟩ hst rfl).next
      (.pure _)))) hu, hq⟩

/-! ### The cipher -/

/-- SYS.FLUSH of a range. -/
theorem flush_ends {x : Drv α} (hF : s.Free) {a n : Nat} (ha : a < addrTop) (hn : n < addrTop) (hfit : Fits a n)
    (hx : ∀ t, t.core = s.core → t.aes = s.aes → t.coh.hostDirty = addrRemoveRange a n s.coh.hostDirty →
      ∃ u, x.Ends al t e u T ∧ Q u) :
    ∃ u, (Drv.setArg 0 a >>= fun _ => Drv.setArg 1 n >>= fun _ => Drv.cmd .sysFlush >>= fun _ => x).Ends
      al s e u T ∧ Q u := by
  have hexec : exec .sysFlush (s.withArgs a n) = .next { s.withArgs a n with
      coh := { s.coh with hostDirty := addrRemoveRange a n s.coh.hostDirty } }.done := by
    show execSysFlush _ = _
    simp only [execSysFlush, State.withArgs_pair ha hn, ok_bind', (rangeOk_iff a n).mpr hfit, require_true,
      pure_ok', State.complete_ok]
    rfl
  obtain ⟨u, hu, hq⟩ := hx { s.withArgs a n with
      coh := { s.coh with hostDirty := addrRemoveRange a n s.coh.hostDirty } }.done rfl rfl rfl
  exact ⟨u, Drv.args_ends hF ha hn ((Drv.cmd_ends (s := s.withArgs a n) (by decide) ⟨hF.fault, hF.waiting⟩ hexec
    hF.fault rfl).next hu), hq⟩

theorem addrRemoveRange_insertRange (a n : Nat) : addrRemoveRange a n (addrInsertRange a n []) = [] :=
  List.eq_nil_iff_forall_not_mem.mpr fun x hx => by
    rw [mem_addrRemoveRange, mem_addrInsertRange] at hx
    exact hx.2 (hx.1.resolve_right (by simp))

theorem avoids_removeRange (a n : Nat) (set : List Nat) : Avoids (addrRemoveRange a n set) a n :=
  fun _ hx => ((mem_addrRemoveRange _ _ _ _).mp hx).2

theorem Avoids.removeRange {set : List Nat} {a n : Nat} (h : Avoids set a n) (b m : Nat) :
    Avoids (addrRemoveRange b m set) a n :=
  fun x hx => h x ((mem_addrRemoveRange _ _ _ _).mp hx).1

/-- What a one-block cipher command does to its input: F is the CBC function, and g what it makes of the block
from the zero IV. -/
structure OneBlock (x : Nat → Bool → Instr) (key bytes : List Byte) (g : Block) : Prop where
  code : decodeWord (encodeWord (x 1 false)) = .ok (x 1 false)
  run : ∀ (s : State) (dst : Nat), (s.cipherOps 1 false = .ok ⟨key, zeroBlock, dst, bytes⟩) →
    ∃ k, exec (x 1 false) s = .next (s.cipherFinish dst ([g], k))

/-- The key load, the zero IV and the one-block pass of `bank_encrypt` and `bank_decrypt`
(45_host_protocols.md R442). -/
theorem oneBlock_does {x : Nat → Bool → Instr} {key bytes : List Byte} {g : Block} (hx : OneBlock x key bytes g)
    (hf : c.Free) (hclean : c.coh.devDirty = []) {ka src dst : Nat} (hka : ka < addrTop)
    (hkey : c.HostReads ka key) (hkl : key.length = c.par.keyBytes) (hsrc : c.HostReads src bytes)
    (hl : bytes.length = 16) (hdst : c.Admits dst 16) (hs16 : src + 16 ≤ addrTop) (hd16 : dst + 16 ≤ addrTop)
    (hal : src % 16 = 0 ∧ dst % 16 = 0) (hap : NoOverlap src dst 16) :
    (aesSetKeyOp ka >>= fun _ => Drv.cmd .aesClriv >>= fun _ => aesLoop x 1 src dst 1 false).Does al c.Idle
      (.ok ()) (c.withMem (c.mem.write dst g.toList)).Idle [] := by
  intro s hs
  have hF := hs.free hf
  have htop : addrTop = 4294967296 := rfl
  -- the key and the IV
  let s1 : State := s.fresh.setArg 0 (BitVec.ofNat 32 ka)
  let s2 : State := { s1 with aes := { s.aes with key := some key, chain := none } }.done
  let s3 : State := { s2 with aes := ⟨some key, some zeroBlock, none⟩ }.done
  have h1 : s1.argAddr = .ok ka := by
    have : s1.arg[(0 : Fin 4)] = some (BitVec.ofNat 32 ka) := Vector.getElem_set_self ..
    rw [State.argAddr, State.argVal_some this, BitVec.toNat_ofNat, Nat.mod_eq_of_lt (show ka < 2 ^ 32 from hka)]
  have h2 : exec .aesSetkey s1 = .next s2 := by
    have hread : s1.hostRead ka s1.par.keyBytes = .ok key :=
      State.hostRead_of_reads (hs.reads hkey) (by rw [hkl]; exact congrArg Params.keyBytes hs.par.symm)
    show execAesSetkey _ = _
    simp only [execAesSetkey, h1, ok_bind', hread, pure_ok', State.complete_ok]
    rfl
  have h3 : exec .aesClriv s2 = .next s3 := rfl
  have hset : (aesSetKeyOp ka).Ends al s (.ok ()) s2 [] :=
    (Drv.setArg_ends hF 0 hka).next (Drv.cmd_ends (s := s1) (by decide) ⟨hF.fault, hF.waiting⟩ h2 hF.fault rfl)
  have hclr : (Drv.cmd .aesClriv).Ends al s2 (.ok ()) s3 [] :=
    Drv.cmd_ends (by decide) ⟨hF.fault, hF.waiting⟩ h3 hF.fault rfl
  suffices hloop : ∃ t, (aesLoop x 1 src dst 1 false).Ends al s3 (.ok ()) t [] ∧
      t.core = s.core.withMem (s.mem.write dst g.toList) by
    obtain ⟨t, ht, hc⟩ := hloop
    exact ⟨t, hset.next (hclr.next ht), hs.withMem hc⟩
  -- the loop has one chunk
  suffices hchunk : ∃ t, (aesChunk x src dst 1 false).Ends al s3 (.ok ()) t [] ∧
      t.core = s.core.withMem (s.mem.write dst g.toList) by
    obtain ⟨t, ht, hc⟩ := hchunk
    exact ⟨t, ht.next (.pure ()), hc⟩
  refine flush_ends (s := s3) ⟨hF.fault, hF.waiting⟩ (by omega) (by omega) (.inr hs16) fun f1 hc1 ha1 hh1 => ?_
  refine flush_ends (hF.congr hc1) (by omega) (by omega) (.inr hd16) fun f2 hc2 ha2 hh2 => ?_
  have hs2 : c.Idle f2 := hs.of_core (hc2.trans hc1)
  have hF2 : f2.Free := hF.congr (hc2.trans hc1)
  -- the cipher command
  have hops : (f2.withArgs src dst).cipherOps 1 false = .ok ⟨key, zeroBlock, dst, bytes⟩ := by
    obtain ⟨out, hout, -, -⟩ := State.fetch_admits (s := f2.withArgs src dst) (n := 16) (hs2.admits hdst)
    have hkey2 : (f2.withArgs src dst).aes = ⟨some key, some zeroBlock, none⟩ := ha2.trans ha1
    have hd2 : (f2.withArgs src dst).coh.hostDirty =
        addrRemoveRange dst 16 (addrRemoveRange src 16 s.coh.hostDirty) := hh2.trans (by rw [hh1]; rfl)
    simp only [State.cipherOps, State.withArgs_pair (show src < addrTop by omega) (show dst < addrTop by omega),
      ok_bind', hkey2, written_some, State.startChain, Bool.false_eq_true, if_false, (aligned_iff _ _).mpr hal,
      require_true, Nat.mul_one, (noOverlap_iff _ _ _).mpr hap, (rangeOk_iff _ _).mpr (.inr hs16),
      (rangeOk_iff _ _).mpr (.inr hd16), State.fetch_holds (s := f2.withArgs src dst) hl (hs2.holds hsrc.2.1),
      hout, hd2, (addrTouches_not_iff _ _ _).mpr ((avoids_removeRange src 16 _).removeRange dst 16),
      (addrTouches_not_iff _ _ _).mpr (avoids_removeRange dst 16 _), pure_ok']
  obtain ⟨k, hk⟩ := hx.run (f2.withArgs src dst) dst hops
  let t : State := (f2.withArgs src dst).cipherFinish dst ([g], k)
  have hlen : (ofBlocks [g]).length = 16 := ofBlocks_length [g]
  have hcipher : (Drv.cmd (x 1 false)).Ends al (f2.withArgs src dst) (.ok ()) t [] :=
    Drv.cmd_ends hx.code ⟨hF2.fault, hF2.waiting⟩ hk hF2.fault rfl
  -- the invalidate
  let v : State := { t.withArgs dst 16 with coh := { t.coh with devDirty := addrRemoveRange dst 16 t.coh.devDirty } }.done
  have hinval : exec .sysInval (t.withArgs dst 16) = .next v := by
    have hav : (!addrTouches dst 16 (t.withArgs dst 16).coh.hostDirty) = true := by
      refine (addrTouches_not_iff _ _ _).mpr ?_
      show Avoids f2.coh.hostDirty dst 16
      rw [hh2]
      exact avoids_removeRange _ _ _
    show execSysInval _ = _
    simp only [execSysInval, State.withArgs_pair (s := t) (show dst < addrTop by omega) (show 16 < addrTop by omega),
      ok_bind', (rangeOk_iff _ _).mpr (.inr hd16), require_true, hav, pure_ok', State.complete_ok]
    rfl
  refine ⟨v, Drv.args_ends hF2 (by omega) (by omega) (hcipher.next (Drv.args_ends (s := t) ⟨hF2.fault, hF2.waiting⟩
    (by omega) (by omega) (Drv.cmd_ends (s := t.withArgs dst 16) (by decide) ⟨hF2.fault, hF2.waiting⟩ hinval
    hF2.fault rfl))), ?_⟩
  have hdev : addrRemoveRange dst 16 t.coh.devDirty = s.coh.devDirty := by
    show addrRemoveRange dst 16 (addrInsertRange dst (ofBlocks [g]).length f2.coh.devDirty) = _
    rw [hs2.devDirty, hs.devDirty, hclean, hlen, addrRemoveRange_insertRange]
  have hv : v.core = { f2.core.withMem (f2.mem.write dst (ofBlocks [g])) with
      coh := ⟨[], addrRemoveRange dst 16 t.coh.devDirty⟩ } := rfl
  rw [hv, hdev, hs2.mem, hs.mem, hc2, hc1, ofBlocks_cons, ofBlocks_nil, List.append_nil]
  rfl

theorem xorBlock_zeroBlock (b : Block) : xorBlock b zeroBlock = b := by
  ext i hi : 1
  rw [xorBlock_getElem _ _ _ hi, zeroBlock, Vector.getElem_replicate]
  exact BitVec.xor_zero

/-- AES.ENC and AES.DEC on one block from the zero IV. -/
theorem oneBlock_enc (key bytes : List Byte) :
    OneBlock .aesEnc key bytes (Config.blockEnc key (blockOf (bytes.take 16))) where
  code := by decide
  run s dst h := by
    refine ⟨Config.blockEnc key (blockOf (bytes.take 16)), ?_⟩
    show execAesEnc _ _ _ = _
    simp only [execAesEnc, h, ok_bind', pure_ok', State.complete_ok, toBlocks, cbcEnc, xorBlock_zeroBlock]

theorem oneBlock_dec (key bytes : List Byte) :
    OneBlock .aesDec key bytes (Config.blockDec key (blockOf (bytes.take 16))) where
  code := by decide
  run s dst h := by
    refine ⟨blockOf (bytes.take 16), ?_⟩
    show execAesDec _ _ _ = _
    simp only [execAesDec, h, ok_bind', pure_ok', State.complete_ok, toBlocks, cbcDec, xorBlock_zeroBlock]

end Sys2Proof.Machine
end

