-- ==== Sys2Proof/Laws/Bank.lean ====
section
/-! SUPPORT. The EEPROM driver's transfers and the operations of the parameter store, from a device at rest
(42_eeprom.md R343-R346, 45_host_protocols.md R442, R450-R454). -/

namespace Sys2Proof.Machine

variable {α β : Type} {al : Bool} {s t : State} {c c' : State} {T : List Event} {e : Except Ending α}
  {Q : State → Prop}

/-! ### Memory after a store -/

theorem Memory.write_append (xs ys : List Byte) (m : Memory) (a : Nat) :
    m.write a (xs ++ ys) = (m.write a xs).write (a + xs.length) ys := by
  induction xs generalizing m a with
  | nil => rfl
  | cons x xs ih =>
    show ((m.set a x).write (a + 1) (xs ++ ys)) = _
    rw [ih, List.length_cons, show a + 1 + xs.length = a + (xs.length + 1) by omega]
    rfl

theorem State.Admits.write {m n a : Nat} {bs : List Byte} (h : c.Admits m n) :
    (c.withMem (c.mem.write a bs)).Admits m n := fun i hi => by
  show (Memory.get (c.mem.write a bs) (m + i)).isSome = true
  by_cases hx : a ≤ m + i ∧ m + i < a + bs.length
  · rw [show m + i = a + (m + i - a) by omega, Memory.get_write_inside _ _ _ _ (by omega)]
    rfl
  · rw [Memory.get_write_outside _ _ _ _ (by omega)]
    exact h i hi

theorem State.Admits.part {m n k l : Nat} (h : c.Admits m n) (h1 : m ≤ k) (h2 : k + l ≤ m + n) : c.Admits k l :=
  fun i hi => by
    have := h (k - m + i) (by omega)
    rwa [show m + (k - m + i) = k + i by omega] at this

theorem State.HostReads.write {k a : Nat} {xs bs : List Byte} (h : c.HostReads k xs)
    (ha : RangesApart (k, xs.length) (a, bs.length)) : (c.withMem (c.mem.write a bs)).HostReads k xs := by
  refine ⟨h.1, fun i hi => ?_, h.2.2⟩
  simp only [RangesApart] at ha
  show Memory.get (c.mem.write a bs) (k + i) = _
  rw [Memory.get_write_outside _ _ _ _ (by omega)]
  exact h.2.1 i hi

theorem State.hostReads_written {a : Nat} {bs : List Byte} (hf : Fits a bs.length) (hc : c.coh.devDirty = []) :
    (c.withMem (c.mem.write a bs)).HostReads a bs :=
  ⟨hf, fun i hi => Memory.get_write_inside bs c.mem a i hi, fun x hx => by
    rw [show (c.withMem (c.mem.write a bs)).coh.devDirty = [] from hc] at hx
    cases hx⟩

/-- A part of what is read. -/
theorem State.HostReads.part {a : Nat} {bs : List Byte} (h : c.HostReads a bs) (off n : Nat)
    (hn : off + n ≤ bs.length) : c.HostReads (a + off) ((bs.drop off).take n) := by
  obtain ⟨hf, hh, hc⟩ := h
  have hl : ((bs.drop off).take n).length = n := by rw [List.length_take, List.length_drop]; omega
  refine ⟨?_, fun i hi => ?_, ?_⟩
  · rw [hl]
    rcases Nat.eq_zero_or_pos n with rfl | hp
    · exact .inl rfl
    · exact .inr (by rcases hf with hf | hf <;> omega)
  · rw [hl] at hi
    have := hh (off + i) (by omega)
    rw [← Nat.add_assoc] at this
    rw [this]
    simp
  · intro x hx hr
    rw [hl] at hr
    exact hc x hx (by omega)

/-! ### Reading words -/

/-- The n words from word address a on, as bytes (42_eeprom.md R341). -/
def Device.bytesAt (d : Device) (a n : Nat) : List Byte :=
  (List.range' a n).flatMap fun j => toLE 2 ((d.array[j]?).getD 0#16).toNat

theorem Device.bytesAt_length (d : Device) (a n : Nat) : (d.bytesAt a n).length = 2 * n := by
  induction n generalizing a with
  | zero => rfl
  | succ n ih =>
    rw [Device.bytesAt, List.range'_succ, List.flatMap_cons, List.length_append, toLE_length]
    have := ih (a + 1)
    rw [Device.bytesAt] at this
    omega

theorem eepRead_words_does (hc : c.Calm) (off dst : Nat) (n k : Nat) (hk : off + k + n ≤ 256)
    (hadm : c.Admits (dst + 2 * k) (2 * n)) (hfit : dst + 2 * (k + n) ≤ addrTop) :
    ((List.range' k n).forM fun i => do
      let w ← eepReadWord (off + i)
      Drv.store (dst + 2 * i) (toLE 2 w)).Does al c.Idle (.ok ())
      (c.withMem (c.mem.write (dst + 2 * k) (c.dev.bytesAt (off + k) n))).Idle [] := by
  induction n generalizing k c with
  | zero => exact .pure _
  | succ n ih =>
    have hlt : off + k < 256 := by omega
    let w : Half := c.dev.array[off + k]
    have htop : addrTop = 4294967296 := rfl
    have hread := eepReadWord_does (al := al) hc (BitVec.ofNat 8 (off + k))
    have ha : (BitVec.ofNat 8 (off + k)).toNat = off + k := by
      rw [BitVec.toNat_ofNat]
      exact Nat.mod_eq_of_lt hlt
    simp only [ha] at hread
    have hstore := Drv.store_does (al := al) (c := c) (a := dst + 2 * k) (bs := toLE 2 w.toNat) hc.free
      (by rw [toLE_length]; exact .inr (by omega)) (by rw [toLE_length]; exact hadm.part (by omega) (by omega))
    have hrest := ih (c := c.withMem (c.mem.write (dst + 2 * k) (toLE 2 w.toNat))) ⟨⟨hc.free.1, hc.free.2⟩, hc.dev⟩ (k + 1)
      (by omega) ((hadm.part (by omega) (by omega)).write) (by omega)
    have hb : c.dev.bytesAt (off + k) (n + 1) = toLE 2 w.toNat ++ c.dev.bytesAt (off + (k + 1)) n := by
      rw [Device.bytesAt, List.range'_succ, List.flatMap_cons]
      congr 2
      simp [w, hlt]
    rw [hb, Memory.write_append, toLE_length, List.range'_succ]
    exact (hread.next hstore).next hrest

/-- `eep_read` (R343). -/
theorem eepRead_does (hc : c.Calm) {off n dst : Nat} (hk : off + n ≤ 256) (hadm : c.Admits dst (2 * n))
    (hfit : dst + 2 * n ≤ addrTop) :
    (eepRead off n dst).Does al c.Idle (.ok ()) (c.withMem (c.mem.write dst (c.dev.bytesAt off n))).Idle [] := by
  unfold eepRead
  rw [if_pos hk, List.range_eq_range']
  exact eepRead_words_does hc off dst n 0 (by omega) hadm (by omega)

/-! ### Writing words -/

/-- The words of bytes (42_eeprom.md R341). -/
def wordsOf : List Byte → List Half
  | a :: b :: rest => BitVec.ofNat 16 (leVal [a, b]) :: wordsOf rest
  | _ => []

theorem wordsOf_length (n : Nat) (bs : List Byte) (h : bs.length = 2 * n) : (wordsOf bs).length = n := by
  induction n generalizing bs with
  | zero => rw [List.length_eq_zero_iff.mp h]; rfl
  | succ n ih =>
    rcases bs with _ | ⟨a, _ | ⟨b, rest⟩⟩ <;> simp only [List.length_cons, List.length_nil] at h
    · omega
    · omega
    · rw [wordsOf, List.length_cons, ih rest (by omega)]

theorem wordsOf_bytes (n : Nat) (bs : List Byte) (h : bs.length = 2 * n) :
    (wordsOf bs).flatMap (fun w => toLE 2 w.toNat) = bs := by
  induction n generalizing bs with
  | zero => rw [List.length_eq_zero_iff.mp h]; rfl
  | succ n ih =>
    rcases bs with _ | ⟨a, _ | ⟨b, rest⟩⟩ <;> simp only [List.length_cons, List.length_nil] at h
    · omega
    · omega
    · have hl := leVal_lt [a, b]
      simp only [List.length_cons, List.length_nil] at hl
      rw [wordsOf, List.flatMap_cons, ih rest (by omega), BitVec.toNat_ofNat,
        Nat.mod_eq_of_lt (show leVal [a, b] < 2 ^ 16 by omega), show (2 : Nat) = [a, b].length from rfl,
        toLE_leVal [a, b]]
      rfl

/-- The device with words from a word address on. -/
def Device.withWords (d : Device) (a : Nat) : List Half → Device
  | [] => d
  | w :: ws => (d.withWord (BitVec.ofNat 8 a) w).withWords (a + 1) ws

theorem Device.withWords_rest (d : Device) (a : Nat) (ws : List Half) :
    d.withWords a ws = { d with array := (d.withWords a ws).array } := by
  induction ws generalizing d a with
  | nil => rfl
  | cons w ws ih => rw [Device.withWords, ih]; rfl

theorem Device.Rested.withWords {d : Device} (h : d.Rested) (a : Nat) (ws : List Half) :
    (d.withWords a ws).Rested := by
  rw [Device.withWords_rest]
  exact ⟨h.1, h.2, h.3, h.4, h.5, h.6, h.7, h.8⟩

theorem Device.withWel_withWords (d : Device) (wel : Bool) (a : Nat) (ws : List Half) :
    (d.withWel wel).withWords a ws = (d.withWords a ws).withWel wel := by
  induction ws generalizing d a with
  | nil => rfl
  | cons w ws ih => exact ih (d.withWord (BitVec.ofNat 8 a) w) (a + 1)

theorem Device.withWords_getElem? (d : Device) (a : Nat) (ws : List Half) (ha : a + ws.length ≤ 256) (j : Nat) :
    (d.withWords a ws).array[j]? = if a ≤ j ∧ j < a + ws.length then ws[j - a]? else d.array[j]? := by
  induction ws generalizing d a with
  | nil => simp [Device.withWords]
  | cons w ws ih =>
    simp only [List.length_cons] at ha ⊢
    rw [Device.withWords, ih _ _ (by omega)]
    have hm : a % 256 = a := Nat.mod_eq_of_lt (by omega)
    by_cases h1 : a + 1 ≤ j ∧ j < a + 1 + ws.length
    · rw [if_pos h1, if_pos (by omega), show j - a = j - (a + 1) + 1 by omega, List.getElem?_cons_succ]
    · rw [if_neg h1]
      by_cases h2 : j = a
      · subst h2
        rw [if_pos (by omega)]
        simp [Device.withWord, hm]
      · rw [if_neg (by omega)]
        simp [Device.withWord, hm, Ne.symm h2]

/-- The words written are the bytes read back. -/
theorem Device.bytesAt_withWords (d : Device) (a : Nat) (ws : List Half) (ha : a + ws.length ≤ 256) :
    (d.withWords a ws).bytesAt a ws.length = ws.flatMap (fun w => toLE 2 w.toNat) := by
  have key : ∀ (k : Nat) (vs : List Half), k + vs.length = ws.length → ws.drop k = vs →
      (d.withWords a ws).bytesAt (a + k) vs.length = vs.flatMap (fun w => toLE 2 w.toNat) := by
    intro k vs
    induction vs generalizing k with
    | nil => intro _ _; rfl
    | cons v vs ih =>
      intro hk hd
      simp only [List.length_cons] at hk ⊢
      have hv : ws[k]? = some v := by
        have := congrArg List.head? hd
        rwa [List.head?_drop] at this
      have hd' : ws.drop (k + 1) = vs := by
        have := congrArg List.tail hd
        rwa [List.tail_drop] at this
      have := ih (k + 1) (by omega) hd'
      rw [Device.bytesAt] at this ⊢
      rw [List.range'_succ, List.flatMap_cons, List.flatMap_cons, Device.withWords_getElem? _ _ _ ha,
        if_pos (by omega), Nat.add_sub_cancel_left, hv]
      exact congrArg _ this
  exact key 0 ws (by omega) rfl

/-- Words elsewhere stay. -/
theorem Device.bytesAt_withWords_apart (d : Device) (a b n : Nat) (ws : List Half) (ha : a + ws.length ≤ 256)
    (h : RangesApart (b, n) (a, ws.length)) : (d.withWords a ws).bytesAt b n = d.bytesAt b n := by
  simp only [RangesApart] at h
  refine List.flatMap_congr fun j hj => ?_
  rw [List.mem_range'_1] at hj
  rw [Device.withWords_getElem? _ _ _ ha, if_neg (by omega)]

theorem eepWriteWords_does (hc : c.Calm) (hw : c.dev.wel = true) (off src : Nat) (ws : List Half) (k : Nat)
    (hk : off + k + ws.length ≤ 256) (hr : c.HostReads (src + 2 * k) (ws.flatMap fun w => toLE 2 w.toNat)) :
    (eepWriteWords off src (List.range' k ws.length)).Does false c.Idle (.ok (some (ws.map (·.toNat))))
      (c.withDev (c.dev.withWords (off + k) ws)).Idle [] := by
  induction ws generalizing k c with
  | nil => exact .pure _
  | cons w ws ih =>
    simp only [List.length_cons] at hk ⊢
    rw [List.flatMap_cons] at hr
    have h1 := hr.part 0 2 (by simp [toLE_length])
    rw [List.drop_zero, List.take_left' (toLE_length _ _), Nat.add_zero] at h1
    have h2 := hr.part 2 (ws.flatMap fun w => toLE 2 w.toNat).length (by simp [toLE_length])
    rw [List.drop_left' (toLE_length _ _), List.take_length] at h2
    have ha : (BitVec.ofNat 8 (off + k)).toNat = off + k := by
      rw [BitVec.toNat_ofNat]
      exact Nat.mod_eq_of_lt (show off + k < 2 ^ 8 by omega)
    have hval : leVal (toLE 2 w.toNat) = w.toNat := leVal_toLE 2 _ w.isLt
    have hrest := ih (c := c.withDev (c.dev.withWord (BitVec.ofNat 8 (off + k)) w))
      ⟨⟨hc.free.1, hc.free.2⟩, hc.dev.withWord _ _⟩ hw (k + 1) (by omega) (by
        rw [show src + 2 * (k + 1) = src + 2 * k + 2 by omega]
        exact h2)
    rw [List.range'_succ]
    refine (Drv.load_does hc.free h1 (toLE_length _ _)).next ?_
    simp only [hval]
    have := writeWord_does (e := .ok (some ((w :: ws).map (·.toNat)))) hc hw (BitVec.ofNat 8 (off + k)) w
      (f := fun b => if b = true then (do
          match ← eepWriteWords off src (List.range' (k + 1) ws.length) with
          | some ws => return some (w.toNat :: ws)
          | none => return none) else return none) (hrest.next (.pure _))
    rw [ha] at this
    exact this

theorem eepVerifyWords_does (hc : c.Calm) (ws : List Half) (a : Nat)
    (h : ∀ (i : Nat) (hi : i < ws.length), c.dev.array[a + i]? = some ws[i]) :
    (eepVerifyWords a (ws.map (·.toNat))).Does al c.Idle (.ok true) c.Idle [] := by
  induction ws generalizing a with
  | nil => exact .pure _
  | cons w ws ih =>
    have h0 := h 0 (Nat.succ_pos _)
    have hlt : a < 256 := by
      by_contra hn
      rw [Nat.add_zero, Vector.getElem?_eq_none (by omega)] at h0
      cases h0
    have ha : (BitVec.ofNat 8 a).toNat = a := by
      rw [BitVec.toNat_ofNat]
      exact Nat.mod_eq_of_lt hlt
    have hread := eepReadWord_does (al := al) hc (BitVec.ofNat 8 a)
    have hw : c.dev.array[a] = w := by
      rw [Nat.add_zero, Vector.getElem?_eq_getElem hlt] at h0
      exact Option.some.inj h0
    simp only [ha, hw] at hread
    refine hread.next ?_
    rw [if_pos rfl]
    refine ih (a + 1) fun i hi => ?_
    have := h (i + 1) (by simpa using hi)
    rw [show a + 1 + i = a + (i + 1) by omega, this]
    rfl

/-- `eep_write` (R345): the words stand in the EEPROM, and the latch is clear. -/
theorem eepWrite_does (hc : c.Calm) {off n src : Nat} {bs : List Byte} (hn : off + n ≤ 256)
    (hr : c.HostReads src bs) (hl : bs.length = 2 * n) :
    (eepWrite off n src).Does false c.Idle (.ok (.ok (2 * n)))
      (c.withDev ((c.dev.withWords off (wordsOf bs)).withWel false)).Idle [] := by
  have hwl := wordsOf_length n bs hl
  let d1 := c.dev.withWel true
  let d2 := d1.withWords off (wordsOf bs)
  let d3 := d2.withWel false
  have hc1 : (c.withDev d1).Calm := ⟨⟨hc.free.1, hc.free.2⟩, hc.dev.withWel _⟩
  have hc2 : (c.withDev d2).Calm := ⟨⟨hc.free.1, hc.free.2⟩, (hc.dev.withWel _).withWords _ _⟩
  have hc3 : (c.withDev d3).Calm := ⟨⟨hc.free.1, hc.free.2⟩, ((hc.dev.withWel _).withWords _ _).withWel _⟩
  have hwrite := eepWriteWords_does hc1 rfl off src (wordsOf bs) 0 (by omega) (by
    rw [wordsOf_bytes n bs hl]
    exact hr)
  have hver := eepVerifyWords_does (al := false) hc3 (wordsOf bs) off (by
    intro i hi
    show d2.array[off + i]? = _
    rw [Device.withWords_getElem? _ _ _ (by omega), if_pos (by omega), Nat.add_sub_cancel_left,
      List.getElem?_eq_getElem hi])
  rw [hwl] at hwrite
  have hd3 : d3 = (c.dev.withWords off (wordsOf bs)).withWel false := by
    simp only [d3, d2, d1, Device.withWel_withWords]
    rfl
  rw [← hd3]
  unfold eepWrite
  rw [if_pos hn, List.range_eq_range']
  exact (eepEwen_does hc).next (hwrite.next ((eepEwds_does hc2).next (hver.next (.pure _))))

end Sys2Proof.Machine
end

