-- ==== Sys2Proof/Laws/Crc.lean ====
section
/-! SUPPORT. The round of the CRC shift register is linear over exclusive-or, and so are several rounds. -/

namespace Sys2Proof.Machine

theorem crcRound_xor (a b : Word) : crcRound (a ^^^ b) = crcRound a ^^^ crcRound b := by
  simp only [crcRound, BitVec.getLsbD_xor]
  cases a.getLsbD 0 <;> cases b.getLsbD 0 <;>
    simp only [Bool.xor_false, Bool.xor_true, Bool.not_true, Bool.not_false, if_true,
      BitVec.ushiftRight_xor_distrib] <;>
    ext i hi <;> simp <;> grind

theorem crcRounds_xor (n : Nat) (a b : Word) :
    Nat.repeat crcRound n (a ^^^ b) = Nat.repeat crcRound n a ^^^ Nat.repeat crcRound n b := by
  induction n with
  | zero => rfl
  | succ n ih => simp only [Nat.repeat, ih, crcRound_xor]

/-- The top byte of the accumulator after a step is the top byte of the table entry used. -/
theorem crcStep_top (a : Word) (b : Byte) :
    crcStep a b >>> 24 = crcTable ((a ^^^ b.setWidth 32).setWidth 8) >>> 24 := by
  rw [crcStep, BitVec.ushiftRight_xor_distrib]
  have : a >>> 8 >>> 24 = 0#32 := by
    ext i hi
    simp
  rw [this, BitVec.xor_zero]

end Sys2Proof.Machine
end

