-- ==== Sys2Proof/Laws/Store.lean ====
section
/-! SUPPORT. The operations of the parameter store, from a store that can work: what each returns, what it leaves
in memory and in the EEPROM, and what it keeps (45_host_protocols.md R450-R454). -/

namespace Sys2Proof.Machine

variable {α β : Type} {al : Bool} {s t : State} {c c' c'' : State} {T : List Event} {e : Except Ending α}
  {Q : State → Prop} {key : List Byte}

/-! ### A store that can work -/

/-- The store can work, the device rests, and no address is device-dirty. -/
structure State.Working (c : State) (key : List Byte) : Prop where
  calm : c.Calm
  ready : c.StoreReady key
  clean : c.coh.devDirty = []

/-- c' keeps what c reads and admits, outside the given buffers, and its parameters. -/
structure State.Keeps (c c' : State) (buffers : List (Nat × Nat)) : Prop where
  reads : ∀ k xs, c.HostReads k xs → (∀ b ∈ buffers, RangesApart (k, xs.length) b) → c'.HostReads k xs
  admits : ∀ k n, c.Admits k n → c'.Admits k n
  par : c'.par = c.par

variable {bs bs' : List (Nat × Nat)}

theorem State.Keeps.refl : c.Keeps c [] := ⟨fun _ _ h _ => h, fun _ _ h => h, rfl⟩

theorem State.Keeps.trans (h : c.Keeps c' bs) (h' : c'.Keeps c'' bs') : c.Keeps c'' (bs ++ bs') :=
  ⟨fun k xs hr ha => h'.reads k xs (h.reads k xs hr fun b hb => ha b (List.mem_append_left _ hb))
      fun b hb => ha b (List.mem_append_right _ hb),
    fun k n ha => h'.admits k n (h.admits k n ha), h'.par.trans h.par⟩

theorem State.Keeps.mono (h : c.Keeps c' bs) (hb : ∀ b ∈ bs, b ∈ bs') : c.Keeps c' bs' :=
  ⟨fun k xs hr ha => h.reads k xs hr fun b hm => ha b (hb b hm), h.admits, h.par⟩

/-- What is read in two adjacent parts. -/
theorem State.HostReads.append {a : Nat} {xs ys : List Byte} (h1 : c.HostReads a xs)
    (h2 : c.HostReads (a + xs.length) ys) : c.HostReads a (xs ++ ys) := by
  obtain ⟨f1, g1, e1⟩ := h1
  obtain ⟨f2, g2, e2⟩ := h2
  refine ⟨?_, fun i hi => ?_, fun x hx hr => ?_⟩
  · rw [List.length_append]
    rcases f2 with f2 | f2
    · rw [f2, Nat.add_zero]; exact f1
    · exact .inr (by omega)
  · by_cases h : i < xs.length
    · rw [List.getElem_append_left h]
      exact g1 i h
    · rw [List.getElem_append_right (by omega)]
      have := g2 (i - xs.length) (by rw [List.length_append] at hi; omega)
      rwa [show a + xs.length + (i - xs.length) = a + i by omega] at this
  · rw [List.length_append] at hr
    by_cases h : x < a + xs.length
    · exact e1 x hx ⟨hr.1, h⟩
    · exact e2 x hx (by omega)

theorem RangesApart.part {x b a : Nat × Nat} (h : RangesApart x b) (h1 : b.1 ≤ a.1)
    (h2 : a.1 + a.2 ≤ b.1 + b.2) : RangesApart x a := by
  simp only [RangesApart] at h ⊢
  omega

/-- A store into a buffer keeps what is outside it. -/
theorem State.keeps_write (c : State) {a : Nat} {xs : List Byte} {b : Nat × Nat} (h1 : b.1 ≤ a)
    (h2 : a + xs.length ≤ b.1 + b.2) : c.Keeps (c.withMem (c.mem.write a xs)) [b] :=
  ⟨fun k ys hr ha => hr.write (by
      have := ha b List.mem_cons_self
      simp only [RangesApart] at this ⊢
      omega),
    fun _ _ ha => ha.write, rfl⟩

theorem State.keeps_withDev (c : State) (d : Device) : c.Keeps (c.withDev d) [] :=
  ⟨fun _ _ h _ => h, fun _ _ h => h, rfl⟩

/-- A store that can work still can after changes to the host's buffers and to a device at rest. -/
theorem State.Working.keeps (h : c.Working key) (hk : c.Keeps c' bs) (hb : ∀ b ∈ bs, b ∈ hostBuffers c.par)
    (hd : c'.dev.Rested) (hf : c'.fault = c.fault) (hw : c'.waiting = c.waiting) (hc : c'.coh = c.coh) :
    c'.Working key := by
  obtain ⟨hcalm, ⟨h1, h2, h3, h4, h5, h6, h7, h8⟩, hclean⟩ := h
  refine ⟨⟨⟨hf.trans h1, hw.trans h2⟩, hd⟩, ⟨hf.trans h1, hw.trans h2, ?_, ?_, ?_, ?_, ?_, ?_⟩, ?_⟩
  · rw [hk.par]; exact h3
  · rw [hk.par]; exact h4
  · rw [hk.par]; exact h5
  · rw [hk.par]
    exact hk.reads _ _ h6 fun b hm => by
      rw [h5]
      exact h7 b (hb b hm)
  · rw [hk.par]; exact h7
  · rw [hk.par]
    exact ⟨hk.admits _ _ h8.1, hk.admits _ _ h8.2.1, hk.admits _ _ h8.2.2⟩
  · rw [hc]; exact hclean

/-- The buffer of a slot's record. -/
def recBuffer (par : Params) (slot : Bool) : Nat × Nat := (recAddr par slot, 16)

/-- The buffer of the banks. -/
def bankBuffer (par : Params) : Nat × Nat := (par.bankBuf.toNat, 16)

theorem recBuffer_mem (par : Params) (slot : Bool) : recBuffer par slot ∈ hostBuffers par := by
  cases slot <;> simp [recBuffer, recAddr, hostBuffers]

theorem bankBuffer_mem (par : Params) : bankBuffer par ∈ hostBuffers par := by
  simp [bankBuffer, hostBuffers]

/-- What the side conditions on the parameters say of a slot's buffer, the bank buffer and the banks. -/
structure StoreLayout (par : Params) (slot : Bool) : Prop where
  word : bankWord par slot + 8 ≤ 256
  words : RangesApart (bankWord par (!slot), 8) (bankWord par slot, 8)
  rec16 : recAddr par slot % 16 = 0
  bank16 : par.bankBuf.toNat % 16 = 0
  recTop : recAddr par slot + 16 ≤ addrTop
  bankTop : par.bankBuf.toNat + 16 ≤ addrTop
  recBank : RangesApart (recBuffer par slot) (bankBuffer par)
  recRec : RangesApart (recBuffer par slot) (recBuffer par (!slot))

theorem bankOk_layout {par : Params} (h : bankOk par = true) (slot : Bool) : StoreLayout par slot := by
  have h0 := par.recAddr0.isLt
  have h1 := par.recAddr1.isLt
  have h2 := par.bankBuf.isLt
  simp only [bankOk, hostBuffers, Bool.and_eq_true, Bool.or_eq_true, decide_eq_true_eq, List.all_cons, beq_iff_eq,
    List.pairwise_cons, RangesApart, List.mem_cons, forall_eq_or_imp] at h
  have htop : addrTop = 4294967296 := rfl
  obtain ⟨⟨⟨⟨w0, w1⟩, w01⟩, a0, a1, a2, -⟩, ⟨r01, r0b, -⟩, ⟨r1b, -⟩, -⟩ := h
  cases slot <;> constructor <;> first
    | omega
    | (simp only [RangesApart, bankWord, recAddr, recBuffer, bankBuffer, Bool.not_true, Bool.not_false,
        Bool.false_eq_true, if_true, if_false]; omega)

/-! ### The banks -/

/-- The device with a slot's bank at the given bytes. -/
def State.withBank (c : State) (slot : Bool) (bytes : List Byte) : State :=
  c.withDev ((c.dev.withWords (bankWord c.par slot) (wordsOf bytes)).withWel false)

/-- The bytes of a slot's bank. -/
abbrev State.bank (c : State) (slot : Bool) : List Byte := c.dev.bytesAt (bankWord c.par slot) 8

theorem State.bank_length (c : State) (slot : Bool) : (c.bank slot).length = 16 := Device.bytesAt_length _ _ _

theorem State.withBank_bank (h : bankOk c.par = true) (slot : Bool) {bytes : List Byte} (hl : bytes.length = 16) :
    (c.withBank slot bytes).bank slot = bytes ∧ (c.withBank slot bytes).bank (!slot) = c.bank (!slot) := by
  have L := bankOk_layout h slot
  have hw := wordsOf_length 8 bytes hl
  constructor
  · have := Device.bytesAt_withWords c.dev (bankWord c.par slot) (wordsOf bytes) (by rw [hw]; exact L.word)
    rw [hw, wordsOf_bytes 8 bytes hl] at this
    exact this
  · exact Device.bytesAt_withWords_apart c.dev _ _ _ _ (by rw [hw]; exact L.word) (by rw [hw]; exact L.words)

theorem State.Working.withBank (h : c.Working key) (slot : Bool) (bytes : List Byte) :
    (c.withBank slot bytes).Working key :=
  h.keeps (c.keeps_withDev _) (by simp) ((h.calm.dev.withWords _ _).withWel _) rfl rfl rfl

/-- A store into one of the host's buffers. -/
theorem State.Working.write (h : c.Working key) {a : Nat} {xs : List Byte} {b : Nat × Nat}
    (hb : b ∈ hostBuffers c.par) (h1 : b.1 ≤ a) (h2 : a + xs.length ≤ b.1 + b.2) :
    (c.withMem (c.mem.write a xs)).Working key :=
  h.keeps (c.keeps_write h1 h2) (by simpa using hb) h.calm.dev rfl rfl rfl

theorem State.Working.admitsRec (h : c.Working key) (slot : Bool) : c.Admits (recAddr c.par slot) 16 := by
  cases slot
  · exact h.ready.admits.1
  · exact h.ready.admits.2.1

/-- Sixteen bytes stored into one of the host's buffers, and what the store leaves. -/
theorem State.Working.fill (h : c.Working key) {b : Nat × Nat} {xs : List Byte} (hb : b ∈ hostBuffers c.par)
    (h16 : b.2 = 16) (hl : xs.length = 16) (htop : b.1 + 16 ≤ addrTop) :
    ∃ c', c' = c.withMem (c.mem.write b.1 xs) ∧ c'.Working key ∧ c.Keeps c' [b] ∧ c'.HostReads b.1 xs ∧
      c'.dev = c.dev :=
  ⟨_, rfl, h.write hb (Nat.le_refl _) (by rw [hl, h16]), c.keeps_write (Nat.le_refl _) (by rw [hl, h16]),
    State.hostReads_written (by rw [hl]; exact .inr htop) h.clean, State.withMem_dev _ _⟩

/-- `load_all` for one slot (R450): the bank's bytes, decrypted, are in the slot's record. -/
theorem loadSlot_does (h : c.Working key) (slot : Bool) : ∃ c', (loadSlot slot).Does al c.Idle (.ok ()) c'.Idle [] ∧
    c'.Working key ∧ c.Keeps c' [bankBuffer c.par, recBuffer c.par slot] ∧ c'.dev = c.dev ∧
    c'.HostReads (recAddr c.par slot) (Config.blockDec key (blockOf (c.bank slot))).toList := by
  have L := bankOk_layout h.ready.params slot
  have hbl := c.bank_length slot
  obtain ⟨c1, e1, h1, k1, r1, d1⟩ := h.fill (bankBuffer_mem c.par) rfl hbl L.bankTop
  have hgl : (Config.blockDec key (blockOf (c.bank slot))).toList.length = 16 := Vector.length_toList
  obtain ⟨c2, e2, h2, k2, r2, d2⟩ := h1.fill (by rw [k1.par]; exact recBuffer_mem c.par slot) rfl hgl L.recTop
  refine ⟨c2, ?_, h2, k1.trans k2, d2.trans d1, r2⟩
  have hread := eepRead_does (al := al) h.calm (off := bankWord c.par slot) (n := 8) (dst := c.par.bankBuf.toNat)
    L.word h.ready.admits.2.2 L.bankTop
  have hdec := oneBlock_does (al := al) (ka := c.par.devKeyAddr.toNat) (src := c.par.bankBuf.toNat)
    (dst := recAddr c.par slot) (oneBlock_dec key (c.bank slot)) h1.calm.free h1.clean c.par.devKeyAddr.isLt
    (by have := h1.ready.key; rwa [k1.par] at this) h1.ready.keyLength r1 hbl
    (by have := h1.admitsRec slot; rwa [k1.par] at this) L.bankTop L.recTop ⟨L.bank16, L.rec16⟩
    (by have := L.recBank; simp only [RangesApart, recBuffer, bankBuffer, NoOverlap] at this ⊢; omega)
  rw [List.take_of_length_le (by rw [hbl])] at hdec
  rw [← show c1 = c.withMem (c.mem.write c.par.bankBuf.toNat (c.bank slot)) from e1] at hread
  rw [← show c2 = c1.withMem (c1.mem.write (recAddr c.par slot) _) from e2] at hdec
  have hpar : Drv.par.Does al c1.Idle (.ok c.par) c1.Idle [] := by rw [← k1.par]; exact Drv.par_idle
  exact Drv.par_idle.next (hread.next (hpar.next hdec))

/-- `persist` (R454): the slot's record, encrypted, is in its bank. -/
theorem persist_does (h : c.Working key) (slot : Bool) {r : List Byte} (hr : c.HostReads (recAddr c.par slot) r)
    (hl : r.length = 16) : ∃ c', (persist slot).Does false c.Idle (.ok (.ok 16)) c'.Idle [] ∧ c'.Working key ∧
    c.Keeps c' [bankBuffer c.par] ∧ c'.bank slot = (Config.blockEnc key (blockOf r)).toList ∧
    c'.bank (!slot) = c.bank (!slot) := by
  have L := bankOk_layout h.ready.params slot
  have hgl : (Config.blockEnc key (blockOf r)).toList.length = 16 := Vector.length_toList
  obtain ⟨c1, e1, h1, k1, r1, d1⟩ := h.fill (bankBuffer_mem c.par) rfl hgl L.bankTop
  have hb := State.withBank_bank (c := c1) h1.ready.params slot hgl
  refine ⟨c1.withBank slot _, ?_, h1.withBank _ _, (k1.trans (c1.keeps_withDev _)).mono (by simp), hb.1, ?_⟩
  · have henc := oneBlock_does (al := false) (ka := c.par.devKeyAddr.toNat) (src := recAddr c.par slot)
      (dst := c.par.bankBuf.toNat) (oneBlock_enc key r) h.calm.free h.clean c.par.devKeyAddr.isLt
      h.ready.key h.ready.keyLength hr hl h.ready.admits.2.2 L.recTop L.bankTop ⟨L.rec16, L.bank16⟩
      (by have := L.recBank; simp only [RangesApart, recBuffer, bankBuffer, NoOverlap] at this ⊢; omega)
    rw [List.take_of_length_le (by rw [hl])] at henc
    rw [← show c1 = c.withMem (c.mem.write c.par.bankBuf.toNat _) from e1] at henc
    have hwr : (eepWrite (bankWord c.par slot) 8 c.par.bankBuf.toNat).Does false c1.Idle (.ok (.ok 16))
        (c1.withBank slot (Config.blockEnc key (blockOf r)).toList).Idle [] := by
      rw [State.withBank, k1.par]
      exact eepWrite_does h1.calm L.word r1 hgl
    exact Drv.par_idle.next ((Drv.par_idle.next henc).next hwr)
  · rw [hb.2, State.bank, State.bank, k1.par, d1]

/-! ### Durable operations -/

/-- A durable operation that returns (OK, 16). -/
theorem Drv.call_does {P : State → Prop} {x : Drv (Except ResultCode Nat)} (call : StoreCall)
    (hx : x.Does al P (.ok (.ok 16)) Q []) :
    (Drv.call call x).Does al P (.ok (.ok 16)) Q [.called call, .returned call true] := by
  unfold Drv.call
  refine Drv.Does.bind (T := [.called call]) (Drv.mark_does _) (hx.next ?_)
  exact Drv.Does.bind (T := [.returned call true]) (Drv.mark_does _) (.pure _)

/-- `invalidate` (R452) returns (OK, 16). -/
theorem invalidate_does (h : c.Working key) (slot : Bool) {r : List Byte}
    (hr : c.HostReads (recAddr c.par slot) r) (hl : r.length = 16) :
    ∃ c', (invalidate slot).Does false c.Idle (.ok (.ok 16)) c'.Idle
        [.called (.invalidate slot), .returned (.invalidate slot) true] ∧
      c'.Working key ∧ c.Keeps c' [recBuffer c.par slot, bankBuffer c.par] ∧
      c'.HostReads (recAddr c.par slot) (r.take 12 ++ [0#8, 0#8, 0#8, 0#8]) ∧
      c'.bank slot = (Config.blockEnc key (blockOf (r.take 12 ++ [0#8, 0#8, 0#8, 0#8]))).toList ∧
      c'.bank (!slot) = c.bank (!slot) := by
  have L := bankOk_layout h.ready.params slot
  have htop : addrTop = 4294967296 := rfl
  have hrt := L.recTop
  let a := recAddr c.par slot
  let z : List Byte := [0#8, 0#8, 0#8, 0#8]
  let c1 := c.withMem (c.mem.write (a + 0xC) z)
  have h1 : c1.Working key := h.write (recBuffer_mem c.par slot) (by simp [recBuffer, a]) (by simp [recBuffer, a, z])
  have hk1 : c.Keeps c1 [recBuffer c.par slot] := c.keeps_write (by simp [recBuffer, a]) (by simp [recBuffer, a, z])
  have hr1 : c1.HostReads a (r.take 12 ++ z) := by
    have hz : c1.HostReads (a + 0xC) z := State.hostReads_written (.inr (by simp [z, a]; omega)) h.clean
    have hh := (hr.part 0 12 (by omega)).write (a := a + 0xC) (bs := z) (by simp [hl, RangesApart, a])
    rw [List.drop_zero] at hh
    exact hh.append (by simpa [hl] using hz)
  have hl1 : (r.take 12 ++ z).length = 16 := by simp [hl, z]
  obtain ⟨c', hp, hw', hk', hb1, hb2⟩ := persist_does h1 slot hr1 hl1
  refine ⟨c', ?_, hw', hk1.trans hk', hk'.reads _ _ hr1 ?_, hb1, hb2⟩
  · have hst : (Drv.store (a + 0xC) z).Does false c.Idle (.ok ()) c1.Idle [] :=
      Drv.store_does h.calm.free (.inr (by simp only [z, a, List.length_cons, List.length_nil]; omega))
        ((h.admitsRec slot).part (by simp [a]) (by simp [a, z]))
    exact Drv.call_does _ (Drv.par_idle.next (hst.next hp))
  · intro b hb
    rw [List.mem_singleton] at hb
    subst hb
    have := L.recBank
    rw [hl1]
    exact this

/-- The fields of a record that `commit` makes, before its checksum (R453, 30_encoding.md R155). -/
def committedFields (r : List Byte) (version : Nat) : List Byte :=
  r.take 2 ++ toLE 2 version ++ List.replicate 8 0#8

/-- A store into a slot's record. -/
theorem storeRec_does (h : c.Working key) (slot : Bool) (off : Nat) (bs : List Byte) (hb : off + bs.length ≤ 16) :
    ∃ c', (Drv.store (recAddr c.par slot + off) bs).Does al c.Idle (.ok ()) c'.Idle [] ∧ c'.Working key ∧
      c.Keeps c' [recBuffer c.par slot] ∧ c'.HostReads (recAddr c.par slot + off) bs ∧ c'.dev = c.dev ∧
      ∀ k xs, c.HostReads k xs → RangesApart (k, xs.length) (recAddr c.par slot + off, bs.length) →
        c'.HostReads k xs := by
  have hrt := (bankOk_layout h.ready.params slot).recTop
  have htop : addrTop = 4294967296 := rfl
  have h1 : (recBuffer c.par slot).1 ≤ recAddr c.par slot + off := Nat.le_add_right _ _
  have h2 : recAddr c.par slot + off + bs.length ≤ (recBuffer c.par slot).1 + (recBuffer c.par slot).2 := by
    simp only [recBuffer]; omega
  have hf : Fits (recAddr c.par slot + off) bs.length := .inr (by omega)
  exact ⟨_, Drv.store_does h.calm.free hf ((h.admitsRec slot).part (by omega) (by omega)),
    h.write (recBuffer_mem c.par slot) h1 h2, c.keeps_write h1 h2, State.hostReads_written hf h.clean,
    State.withMem_dev _ _, fun k xs hr ha => hr.write ha⟩

/-- `commit` (R453) returns (OK, 16), and makes a valid record with its reserved bytes zero. -/
theorem commit_does (h : c.Working key) (slot : Bool) {version : Nat} (hv : version ≤ 0xFFFF) {r : List Byte}
    (hr : c.HostReads (recAddr c.par slot) r) (hl : r.length = 16) :
    let fields := committedFields r version
    ∃ c', (commit slot version).Does false c.Idle (.ok (.ok 16)) c'.Idle
        [.called (.commit slot), .returned (.commit slot) true] ∧
      c'.Working key ∧ c.Keeps c' [recBuffer c.par slot, bankBuffer c.par] ∧
      c'.HostReads (recAddr c.par slot) (fields ++ toLE 4 (crc32 fields).toNat) ∧
      c'.bank (!slot) = c.bank (!slot) := by
  intro fields
  have L := bankOk_layout h.ready.params slot
  have hrt := L.recTop
  have htop : addrTop = 4294967296 := rfl
  have hfl : fields.length = 12 := by
    simp only [fields, committedFields, List.length_append, List.length_take, toLE_length, List.length_replicate]
    omega
  obtain ⟨c1, d1, w1, k1, r1, e1, f1⟩ := storeRec_does (al := false) h slot 2 (toLE 2 version)
    (by rw [toLE_length]; omega)
  obtain ⟨c2, d2, w2, k2, r2, e2, f2⟩ := storeRec_does (al := false) w1 slot 4 (List.replicate 8 0#8)
    (by rw [List.length_replicate]; omega)
  rw [k1.par] at d2 k2 r2 f2
  have hf : c2.HostReads (recAddr c.par slot) fields := by
    have h0 := f1 _ _ (hr.part 0 2 (by omega)) (by simp [RangesApart, hl])
    have h0 := f2 _ _ h0 (by simp [RangesApart, hl])
    have h1 := f2 _ _ r1 (by simp [RangesApart, toLE_length])
    rw [List.drop_zero, Nat.add_zero] at h0
    refine State.HostReads.append (h0.append ?_) ?_
    · simpa [hl] using h1
    · simpa [hl, toLE_length] using r2
  obtain ⟨c3, d3, w3, k3, r3, e3, f3⟩ := storeRec_does (al := false) w2 slot 0xC (toLE 4 (crc32 fields).toNat)
    (by rw [toLE_length])
  rw [k2.par, k1.par] at d3 k3 r3 f3
  have hrec : c3.HostReads (recAddr c.par slot) (fields ++ toLE 4 (crc32 fields).toNat) :=
    (f3 _ _ hf (by simp [RangesApart, hfl])).append (by rw [hfl]; exact r3)
  have hp3 : c3.par = c.par := by rw [k3.par, k2.par, k1.par]
  rw [← hp3] at hrec
  have hlen : (fields ++ toLE 4 (crc32 fields).toNat).length = 16 := by
    rw [List.length_append, hfl, toLE_length]
  obtain ⟨c', hp, hw', hk', hb1, hb2⟩ := persist_does w3 slot hrec hlen
  rw [hp3] at hk'
  refine ⟨c', ?_, hw', (((k1.trans k2).trans k3).trans hk').mono (by simp), ?_, ?_⟩
  · have hcrc := crc32Op_does (al := false) w2.calm.free hf hfl (by omega) (by omega)
    have : (do
        let addr := recAddr (← Drv.par) slot
        if 0xFFFF < version then Drv.refuse
        Drv.store (addr + 0x2) (toLE 2 version)
        Drv.store (addr + 0x4) (List.replicate 8 0#8)
        let c ← crc32Op addr 12
        Drv.store (addr + 0xC) (toLE 4 c)
        persist slot).Does false c.Idle (.ok (.ok 16)) c'.Idle [] := by
      refine Drv.par_idle.next ?_
      rw [if_neg (by omega)]
      exact d1.next (d2.next (hcrc.next (d3.next hp)))
    exact Drv.call_does _ this
  · rw [hp3] at hrec
    refine hk'.reads _ _ hrec fun b hb => ?_
    rw [List.mem_singleton] at hb
    subst hb
    rw [hlen]
    exact L.recBank
  · rw [hb2]
    simp only [State.bank, hp3, e3, e2, e1]

/-! ### The current slot -/

/-- The check of a slot's record (R441). -/
theorem checkRec_does (h : c.Working key) (slot : Bool) {r : List Byte}
    (hr : c.HostReads (recAddr c.par slot) r) (hl : r.length = 16) :
    (checkRec slot).Does al c.Idle (.ok (recValid r, r)) c.Idle [] := by
  have hrt := (bankOk_layout h.ready.params slot).recTop
  have htop : addrTop = 4294967296 := rfl
  have hp := hr.part 0 12 (by omega)
  rw [List.drop_zero, Nat.add_zero] at hp
  have hcrc := crc32Op_does (al := al) h.calm.free hp (by rw [List.length_take, hl]) (by omega) (by omega)
  exact Drv.par_idle.next (hcrc.next ((Drv.par_idle.next (Drv.load_does h.calm.free hr hl)).next (.pure _)))

/-- `current_slot` (R451), where the draw does not matter. -/
theorem currentSlot_does (h : c.Working key) {r0 r1 : List Byte} {slot : Option Bool}
    (h0 : c.HostReads (recAddr c.par false) r0) (h1 : c.HostReads (recAddr c.par true) r1)
    (hl0 : r0.length = 16) (hl1 : r1.length = 16) (hs : ∀ drawn, selectSlot r0 r1 drawn = slot) :
    currentSlot.Does al c.Idle (.ok slot) c.Idle [] := by
  refine (checkRec_does h false h0 hl0).next ((checkRec_does h true h1 hl1).next ?_)
  intro s hi
  refine ⟨s.draw.2, Drv.draw_ends.next ?_, hi.of_core rfl⟩
  have := hs (s.draw.1.getLsbD 0)
  rw [← this]
  exact .pure _

/-! ### The environment -/

/-- The user's event ends the host's wait (R472). -/
theorem Drv.waitUser_does (hf : c.Free) (ev : UserEvent) : Drv.waitUser.Does false c.Idle (.ok ev) c.Idle
    [.took .waitUser .nothing, .took (.userEvent ev) (.user ev)] :=
  fun _ hs => ⟨_, Drv.waitUser_ends ev (hs.free hf), hs.of_core rfl⟩

/-- The state with the given NAND pages known. -/
def State.withNand (c : State) (pages : List NandPage) : State := { c with nand := pages }

theorem State.Idle.withNand {pages : List NandPage} (h : c.Idle s)
    (ht : t.core = s.core.withNand pages) : (c.withNand pages).Idle t := by
  obtain ⟨di, h⟩ := h
  refine ⟨di, ht.trans ?_⟩
  rw [show s.core = c.core.wired _ _ from h]
  rfl

theorem State.Working.withNand (h : c.Working key) (pages : List NandPage) : (c.withNand pages).Working key :=
  ⟨⟨⟨h.calm.1.1, h.calm.1.2⟩, h.calm.2⟩,
    ⟨h.ready.1, h.ready.2, h.ready.3, h.ready.4, h.ready.5, h.ready.6, h.ready.7, h.ready.8⟩, h.clean⟩

theorem State.keeps_withNand (c : State) (pages : List NandPage) : c.Keeps (c.withNand pages) [] :=
  ⟨fun _ _ h _ => h, fun _ _ h => h, rfl⟩

/-- A NAND call of the host, with the result that the environment gives it. -/
theorem Drv.nand_does {a : NandResult → List Byte → Action} (r : NandResult) (bytes : List Byte) (hf : c.Free)
    (ha : (a r bytes).byHost = true)
    (h : ∀ s : State, c.Idle s → ∃ t, hostStep (a r bytes) s = .next t ∧ t.fault = s.fault ∧
      t.refused = s.refused ∧ t.reply = .nand r ∧ c'.Idle t) :
    (Drv.nand a).Does false c.Idle (.ok r) c'.Idle [.took (a r bytes) (.nand r)] := by
  intro s hs
  have hF := hs.free hf
  obtain ⟨t, h1, h2, h3, h4, h5⟩ := h s.fresh (hs.of_core rfl)
  refine ⟨t, Drv.nand_ends r bytes hF.fault ?_ (h2.trans hF.fault) h3 h4, h5⟩
  rw [← h1]
  exact takeAction_host hF.waiting (by intro h; rw [h] at ha; cases ha) (by intro _ _ h; rw [h] at ha; cases ha)
    (by intro _ h; rw [h] at ha; cases ha)

/-- `HST.NAND_ERASE` that returns OK. -/
theorem nandErase_does (hf : c.Free) (b : NandBlock) :
    (Drv.nand fun r _ => .nandErase b (nandOk r)).Does false c.Idle (.ok .ok)
      (c.withNand (nandForget b c.nand)).Idle [.took (.nandErase b true) (.nand .ok)] :=
  Drv.nand_does .ok [] hf rfl fun s hs =>
    ⟨{ s with nand := nandForget b s.nand, reply := .nand .ok }, rfl, rfl, rfl, rfl, hs.withNand (by rw [← hs.nand]; rfl)⟩

/-- `HST.NAND_WRITE` of a page's data that returns OK. -/
theorem nandWriteData_does (hf : c.Free) (b : NandBlock) {page src : Nat} {data : List Byte}
    (hp : page < c.par.pagesPerBlock) (hr : c.HostReads src data) (hl : data.length = 2048) :
    (Drv.nand fun r _ => .nandWrite b page (some src) none (nandOk r)).Does false c.Idle (.ok .ok)
      (c.withNand (nandLearn ⟨b, page, data⟩ (nandForget b c.nand))).Idle
      [.took (.nandWrite b page (some src) none true) (.nand .ok)] :=
  Drv.nand_does .ok [] hf rfl fun s hs => by
    refine ⟨{ s with nand := nandLearn ⟨b, page, data⟩ (nandForget b s.nand), reply := .nand .ok },
      ?_, rfl, rfl, rfl, hs.withNand (by rw [← hs.nand]; rfl)⟩
    have hread : s.hostRead src pageSize = .ok data := State.hostRead_of_reads (hs.reads hr) hl
    have hpar : page < s.par.pagesPerBlock := by rw [hs.par]; exact hp
    simp only [hostStep, nandPage, hpar, if_true, State.nandWrite, State.optRead, hread]
    rfl

/-- `HST.NAND_WRITE` of a page's spare area that returns OK. -/
theorem nandWriteSpare_does (hf : c.Free) (b : NandBlock) {page src : Nat} {spare : List Byte}
    (hp : page < c.par.pagesPerBlock) (hr : c.HostReads src spare) (hl : spare.length = c.par.spareSize) :
    (Drv.nand fun r _ => .nandWrite b page none (some src) (nandOk r)).Does false c.Idle (.ok .ok)
      (c.withNand (nandForget b c.nand)).Idle
      [.took (.nandWrite b page none (some src) true) (.nand .ok)] :=
  Drv.nand_does .ok [] hf rfl fun s hs => by
    refine ⟨{ s with nand := nandForget b s.nand, reply := .nand .ok },
      ?_, rfl, rfl, rfl, hs.withNand (by rw [← hs.nand]; rfl)⟩
    have hread : s.hostRead src s.par.spareSize = .ok spare :=
      State.hostRead_of_reads (hs.reads hr) (by rw [hl, hs.par])
    have hpar : page < s.par.pagesPerBlock := by rw [hs.par]; exact hp
    simp only [hostStep, nandPage, hpar, if_true, State.nandWrite, State.optRead, hread]
    rfl

/-- `HST.NAND_READ` that returns OK, of a page whose contents nothing fixes. -/
theorem nandRead_does (hf : c.Free) (b : NandBlock) {page dst : Nat} (bytes : List Byte)
    {data : List Byte} (hd : pageOf bytes = data) (hp : page < c.par.pagesPerBlock) (hk : nandKnown b page c.nand = none) (hr : Fits dst 2048)
    (ha : c.Admits dst 2048) :
    (Drv.nand fun r bs => .nandRead b page dst r bs).Does false c.Idle (.ok .ok)
      (c.withMem (c.mem.write dst data)).Idle [.took (.nandRead b page dst .ok bytes) (.nand .ok)] :=
  Drv.nand_does .ok bytes hf rfl fun s hs => by
    have hl : data.length = 2048 := by rw [← hd]; exact pageOf_length bytes
    refine ⟨{ s.storeHost dst data with reply := .nand .ok }, ?_, rfl, rfl, rfl, hs.withMem rfl⟩
    have hw : s.hostWrite dst data = .ok (s.storeHost dst data) :=
      State.hostWrite_eq_ok.mpr ⟨by rw [hl]; exact hr, by rw [hl]; exact hs.admits ha, rfl⟩
    have hpar : page < s.par.pagesPerBlock := by rw [hs.par]; exact hp
    simp only [hostStep, nandPage, hpar, if_true, State.nandRead, hs.nand, hk, Option.getD_none, hd, hw]
    rfl

/-- An interruption before an action of the host: the run ends in the state the interruption leaves. -/
theorem Drv.act_cut_does {a : Action} (cells : List Host.Cell) (hf : c.Free) :
    (Drv.act a).Does false c.Idle (.error .interrupted)
      (fun t => ∃ s, c.Idle s ∧ t = s.interrupt cells none) [] :=
  fun s hs => ⟨_, Drv.act_cut cells none (hs.free hf).fault, s.fresh, hs.of_core rfl, rfl⟩

end Sys2Proof.Machine
end

