-- ==== Sys2Proof/Laws/Install.lean ====
section
/-! SUPPORT. One small instance of the block and its installation, run to its end: a machine on which the host's
program completes, for the statements about its runs (45_host_protocols.md R460). -/

namespace Sys2Proof.Machine

variable {al : Bool} {s t : State} {c c' : State} {T : List Event}

/-! ### The instance -/

/-- An instance with one page a block, a digest of no bytes and no reserved tail. -/
def Demo.par : Params where
  keyBytes := 16
  magic := #v[0x46#8, 0x57#8, 0x43#8, 0x31#8]
  hashLen := 0
  infoPad := 0
  bankWord0 := 0
  bankWord1 := 8
  pagesPerBlock := 1
  spareSize := 32
  spareEccOff := 0
  markerOff := 16
  markerValue := 0x5A#8
  loadAddr := []
  encClass := 0#4
  encBit := 0
  enableRetire := true
  devKeyAddr := 0#32
  fwKeyAddr := 0#32
  fwIvAddr := 0#32
  recAddr0 := 16#32
  recAddr1 := 32#32
  bankBuf := 48#32
  spareBuf := 64#32
  rbAddr := 96#32
  imgIoOk := true
  imgAddr := 2144#32
  imgLen := 2048

/-- A container of one page: type 1, a body of 16 bytes, version 7. -/
def Demo.image : List Byte :=
  Demo.par.magic.toList ++ List.replicate 4 0#8 ++ toLE 4 0x20 ++ List.replicate 20 0#8 ++ toLE 4 1 ++
    List.replicate 0x88 0#8 ++ toLE 4 16 ++ toLE 4 7 ++ List.replicate 1868 0xA5#8

theorem Demo.image_length : Demo.image.length = 2048 := by
  simp only [Demo.image, List.length_append, List.length_replicate, toLE_length, Vector.length_toList]

/-- What the validator finds in it. -/
def Demo.info : CtrInfo where
  sig := .type1
  sigOff := 0x20
  bodyOff := 0xB4
  bodySize := 16
  device := 0
  version := 7
  infoType := 0

/-- CTR.VERIFY accepts it wherever it is read. -/
theorem Demo.verify {p : Nat} (hp : s.par = Demo.par) (hr : s.HostReads p Demo.image) :
    s.verifyContainer { addr := p, len := 2048 } = .ok Demo.info := by
  have field : ∀ off n v, off + n ≤ 2048 → (Demo.image.drop off).take n = v →
      s.field { addr := p, len := 2048 } off n = .ok v := by
    intro off n v hn hv
    refine field_of_reads (hv ▸ hr.part off n (by rw [Demo.image_length]; exact hn)) ?_
    rw [← hv, List.length_take, List.length_drop, Demo.image_length]
    omega
  have field32 : ∀ off v bs, off + 4 ≤ 2048 → (Demo.image.drop off).take 4 = bs → leVal bs = v →
      s.field32 { addr := p, len := 2048 } off = .ok v := by
    intro off v bs hn hb hv
    rw [State.field32, field off 4 bs hn hb, ok_bind', pure_ok', hv]
  have need : ∀ off n, off + n ≤ 2048 → (⟨p, 2048⟩ : Buffer).need off n = .ok () :=
    fun off n h => need_of_le (b := ⟨p, 2048⟩) h
  have hinfo : infoSize Demo.par = 0x14 := rfl
  simp only [State.verifyContainer, State.ctrHeader, State.ctrType, ok_bind', hp,
    need 0 4 (by decide), field 0 4 Demo.par.magic.toList (by decide) (by decide), beq_self_eq_true, check_true,
    need 8 4 (by decide), field32 8 0x20 (toLE 4 0x20) (by decide) (by decide) (by decide), sigOffsetExpected,
    need 0x20 4 (by decide), field32 0x20 1 (toLE 4 1) (by decide) (by decide) (by decide),
    show SigType.ofTag 1 = some .type1 from rfl, SigType.infoOff, SigType.sigLen, SigType.sigPad, hinfo,
    need 0xA0 0x14 (by decide), field32 (0xA0 + 0x0C) 16 (toLE 4 16) (by decide) (by decide) (by decide)]
  have hdig : ∀ body stored : List Byte, stored.length = 0 → (digest Demo.par body == stored) = true := by
    intro body stored hs
    rw [beq_iff_eq, List.length_eq_zero_iff.mp hs]
    exact List.eq_nil_of_length_eq_zero Vector.length_toList
  simp only [need (0xA0 + 0x14) 16 (by decide), ok_bind', show Demo.par.hashLen = 0 from rfl,
    show Demo.par.infoPad = 0 from rfl,
    field (0x20 + 4 + 0x38) 0x44 (List.replicate 0x44 0#8) (by decide) (by decide),
    show allZero (List.replicate 0x44 0#8) = true from by decide, check_true,
    field 0xA0 4 (List.replicate 4 0#8) (by decide) (by decide),
    show allZero (List.replicate 4 0#8) = true from by decide,
    field (0xA0 + 0x14 + 0) 0 [] (by decide) (by decide), show allZero [] = true from rfl,
    field (0xA0 + 0x14) 16 (List.replicate 16 0xA5#8) (by decide) (by decide),
    field (0xA0 + 0x10) 0 [] (by decide) (by decide), hdig _ [] rfl,
    field32 (0xA0 + 0x04) 0 (List.replicate 4 0#8) (by decide) (by decide) (by decide),
    field32 (0xA0 + 0x08) 0 (List.replicate 4 0#8) (by decide) (by decide) (by decide),
    field32 (0xA0 + 0x10 + 0) 7 (toLE 4 7) (by decide) (by decide) (by decide), pure_ok']
  rfl

/-! ### The machine before the installation -/

/-- The device key. -/
def Demo.key : List Byte := List.replicate 16 0x2B#8

/-- The fields of a slot's record at launch: slot 0 holds version 5 of block 1, slot 1 version 3 of block 2. -/
def Demo.fields (slot : Bool) : List Byte :=
  (if slot then [0x02#8, 0x00#8, 0x03#8, 0x00#8] else [0x01#8, 0x00#8, 0x05#8, 0x00#8]) ++ List.replicate 8 0#8

/-- A slot's record at launch. -/
def Demo.record (slot : Bool) : List Byte := Demo.fields slot ++ toLE 4 (crc32 (Demo.fields slot)).toNat

/-- A slot's bank at launch. -/
def Demo.bank (slot : Bool) : List Byte := (Config.blockEnc Demo.key (blockOf (Demo.record slot))).toList

/-- The EEPROM at launch. -/
def Demo.words : Vector Half 256 :=
  (((Device.atReset (Vector.replicate 256 0#16)).withWords 0 (wordsOf (Demo.bank false))).withWords 8
    (wordsOf (Demo.bank true))).array

/-- The byte of the launch memory at an address. -/
def Demo.byte (a : Nat) : Byte := (Demo.key ++ List.replicate 2128 0#8 ++ Demo.image).getD a 0#8

/-- The launch memory: the key, the host's buffers, the image. -/
@[irreducible] def Demo.cells : List Host.Cell :=
  (List.range 4192).map fun a => (a, Demo.byte a)

/-- The launch of the instance. -/
def Demo.launch : Launch where
  par := Demo.par
  mem := Demo.cells
  words := Demo.words
  nand := []
  lines := ⟨false, false, false⟩
  agenda := []
  restarts := []

/-- What a launch memory of consecutive cells from address 0 reads as. -/
theorem Memory.get_ofCells (f : Nat → Byte) (n : Nat) (hn : n ≤ addrTop) (a : Nat) :
    Memory.get (Memory.ofCells ((List.range n).map fun i => (i, f i))) a = if a < n then some (f a) else none := by
  induction n with
  | zero => rfl
  | succ n ih =>
    have : Memory.ofCells ((List.range (n + 1)).map fun i => (i, f i)) =
        (Memory.ofCells ((List.range n).map fun i => (i, f i))).set n (f n) := by
      rw [List.range_succ, List.map_append, Memory.ofCells, List.foldl_append]
      show (if n < addrTop then _ else _) = _
      rw [if_pos (by omega)]
      rfl
    rw [this]
    by_cases h : a = n
    · subst h
      rw [Memory.get_set_same, if_pos (by omega)]
    · rw [Memory.get_set_other _ _ _ _ h, ih (by omega)]
      by_cases h' : a < n
      · rw [if_pos h', if_pos (by omega)]
      · rw [if_neg h', if_neg (by omega)]

theorem Demo.get_cells {a : Nat} (h : a < 4192) : (Memory.ofCells Demo.cells).get a = some (Demo.byte a) := by
  unfold Demo.cells
  exact (Memory.get_ofCells Demo.byte 4192 (by decide) a).trans (if_pos h)

/-- What the instance has in memory, whatever else: the key, the image, and its buffers admitted. -/
structure State.IsDemo (c : State) : Prop where
  working : c.Working Demo.key
  par : c.par = Demo.par
  image : c.HostReads 2144 Demo.image
  admits : c.Admits 0 2144

theorem State.IsDemo.keeps (h : c.IsDemo) (hw : c'.Working Demo.key) {bs : List (Nat × Nat)} (hk : c.Keeps c' bs)
    (hb : ∀ b ∈ bs, b ∈ hostBuffers Demo.par) : c'.IsDemo where
  working := hw
  par := hk.par.trans h.par
  image := hk.reads _ _ h.image fun b hm => by
    have : ∀ b ∈ hostBuffers Demo.par, RangesApart (2144, 2048) b := by decide
    rw [Demo.image_length]
    exact this b (hb b hm)
  admits := hk.admits _ _ h.admits

/-- A reset event of the instance with its launch memory. -/
theorem Demo.of_reset (hd : s.AtReset) (hm : s.mem = Memory.ofCells Demo.cells) (hp : s.par = Demo.par)
    (hf : s.fault = none) (hw : s.waiting = false) : s.IsDemo := by
  obtain ⟨-, -, -, -, -, -, -, d1, d2, d3, d4, d5, d6, d7, d8, d9, -, hclean⟩ := hd
  have hbytes : ∀ a, a < 4192 →
      s.mem.get a = some ((Demo.key ++ List.replicate 2128 0#8 ++ Demo.image).getD a 0#8) := by
    intro a ha
    rw [hm]
    exact Demo.get_cells ha
  have hkey : s.HostReads 0 Demo.key := by
    refine ⟨.inr (by decide), fun i hi => ?_, by rw [hclean]; exact fun _ h => nomatch h⟩
    have hi' : i < 16 := hi
    rw [Nat.zero_add, hbytes i (by omega), List.append_assoc, List.getD_eq_getElem?_getD,
      List.getElem?_append_left hi, List.getElem?_eq_getElem hi]
    rfl
  have himage : s.HostReads 2144 Demo.image := by
    refine ⟨.inr (by rw [Demo.image_length]; decide), fun i hi => ?_, by rw [hclean]; exact fun _ h => nomatch h⟩
    have hi' : i < 2048 := Demo.image_length ▸ hi
    rw [hbytes (2144 + i) (by omega), List.getD_eq_getElem?_getD, List.getElem?_append_right (by
      rw [List.length_append, List.length_replicate]
      show 16 + 2128 ≤ 2144 + i
      omega)]
    rw [List.length_append, List.length_replicate, show Demo.key.length = 16 from rfl,
      show 2144 + i - (16 + 2128) = i by omega, List.getElem?_eq_getElem hi]
    rfl
  have hadm : s.Admits 0 2144 := fun i hi => by rw [hbytes (0 + i) (by omega)]; rfl
  refine ⟨⟨⟨⟨hf, hw⟩, ⟨d2, d3, d4, d1, d8, d7, d9, d6⟩⟩, ⟨hf, hw, ?_, ?_, ?_, ?_, ?_, ?_⟩, hclean⟩, hp, himage, hadm⟩
  · rw [hp]; decide
  · rw [hp]; decide
  · rw [hp]; rfl
  · rw [hp]; exact hkey
  · rw [hp]; decide
  · rw [hp]
    exact ⟨hadm.part (by decide) (by decide), hadm.part (by decide) (by decide), hadm.part (by decide) (by decide)⟩

/-! ### The steps of the installation -/

/-- The record of slot 1 once it is invalidated. -/
def Demo.invalidated : List Byte := (Demo.record true).take 12 ++ [0#8, 0#8, 0#8, 0#8]

/-- The states of the instance with the given records in memory. -/
def Demo.With (r0 r1 : List Byte) (s : State) : Prop :=
  ∃ c : State, c.Idle s ∧ c.IsDemo ∧ c.HostReads 16 r0 ∧ c.HostReads 32 r1

/-- From every state of the instance with the given records. -/
theorem Demo.With.does {r0 r1 : List Byte} {α : Type} {x : Drv α} {e : Except Ending α} {Q : State → Prop}
    (h : ∀ c : State, c.IsDemo → c.HostReads 16 r0 → c.HostReads 32 r1 → x.Does al c.Idle e Q T) :
    x.Does al (Demo.With r0 r1) e Q T := by
  rintro s ⟨c, hs, hc, h0, h1⟩
  exact h c hc h0 h1 s hs

theorem Demo.par_does {r0 r1 : List Byte} :
    Drv.par.Does al (Demo.With r0 r1) (.ok Demo.par) (Demo.With r0 r1) [] :=
  Drv.par_does fun _ ⟨_, hs, hc, _⟩ => hs.par.trans hc.par

theorem Demo.record_length (slot : Bool) : (Demo.record slot).length = 16 := by
  cases slot <;> simp only [Demo.record, Demo.fields, List.length_append, toLE_length] <;> rfl

/-- A bank decrypts to its record. -/
theorem Demo.bank_decrypts (slot : Bool) :
    (Config.blockDec Demo.key (blockOf (Demo.bank slot))).toList = Demo.record slot := by
  rw [Demo.bank, blockOf_toList, blockDec_blockEnc, toList_blockOf _ (Demo.record_length slot)]

theorem Demo.invalidated_length : Demo.invalidated.length = 16 := by
  rw [Demo.invalidated, List.length_append, List.length_take, Demo.record_length]
  rfl

theorem Demo.select (drawn : Bool) :
    selectSlot (Demo.record false) (Demo.record true) drawn = some false := by
  have h0 : recValid (Demo.record false) = true := by decide +kernel
  have h1 : recValid (Demo.record true) = true := by decide +kernel
  have v0 : recVersion (Demo.record false) = 5 := by decide
  have v1 : recVersion (Demo.record true) = 3 := by decide
  rw [selectSlot, h0, h1, v0, v1]
  rfl

theorem Demo.block : recBlock Demo.invalidated = ⟨false, 2#12⟩ := by decide

/-- Steps 1 to 5 (R460), and the user confirms: what follows runs with both records loaded. -/
theorem Demo.opening_does {Q : State → Prop} {e : Except Ending ResultCode} (hd : c.IsDemo)
    (hb : ∀ slot, c.bank slot = Demo.bank slot)
    (h : (installSlot false 7 0xB4).Does false (Demo.With (Demo.record false) (Demo.record true)) e Q T) :
    hostMain.Does false (c.Wired c.gpio c.dev) e Q T := by
  refine (eepInit_does hd.working.calm c.gpio).next ?_
  -- the checks of the image
  refine Drv.par_idle.next ?_
  rw [hd.par]
  simp only [show (!Demo.par.imgIoOk) = false from rfl, Bool.false_eq_true, if_false,
    show ¬ (Demo.par.imgLen ≠ Demo.par.pagesPerBlock * 2048) from fun h => h rfl]
  intro s hs
  have hp : s.par = Demo.par := hs.par.trans hd.par
  have hF := hs.free hd.working.calm.free
  refine ctrVerifyOp_ends hF (by decide) (by decide) (.inr (by decide)) (info := Demo.info)
    (Demo.verify hp (hs.reads hd.image : State.HostReads s _ _)) fun t ht hres => ?_
  rw [if_neg (by decide)]
  have htF : t.Free := hF.congr ht
  have hport : ∀ (u : State) (i : Fin 8) (w : Word), u.res = Demo.info.results → Demo.info.results[i] = some w →
      u.fresh.portVal (.res i) = .ok w := by
    intro u i w hu hw
    show written u.res[i] = _
    rw [hu, hw]
    rfl
  have h6 := Drv.port_ends (al := false) htF (hport t 6 7#32 hres rfl) rfl
  have h3 := Drv.port_ends (al := false) (s := { t.fresh with reply := .word 7#32 }) ⟨htF.fault, htF.waiting⟩
    (hport { t.fresh with reply := .word 7#32 } 3 0xB4#32 hres rfl) rfl
  suffices hrest : Drv.Does false (do
      loadAll
      match ← currentSlot with
      | none => return .noneValid
      | some boot =>
        let rb ← loadRec boot
        let ri ← loadRec (!boot)
        if (recBlock rb).bank || (recBlock ri).bank then return .safetyCompatBank
        match ← Drv.waitUser with
        | .cancel => return .cancelled
        | .confirm => installSlot boot 7 0xB4) c.Idle e Q T by
    obtain ⟨v, hv, hq⟩ := hrest { t.fresh with reply := .word 0xB4#32 } (hs.of_core ht)
    exact ⟨v, h6.next (h3.next hv), hq⟩
  -- the records
  obtain ⟨c1, d1, w1, k1, e1, r1⟩ := loadSlot_does (al := false) hd.working false
  obtain ⟨c2, d2, w2, k2, e2, r2⟩ := loadSlot_does (al := false) w1 true
  rw [hd.par] at k1 r1
  rw [k1.par, hd.par] at k2 r2
  rw [hb false, Demo.bank_decrypts] at r1
  have hb1 : c1.bank true = Demo.bank true := by rw [← hb true, State.bank, State.bank, e1, k1.par]
  rw [hb1, Demo.bank_decrypts] at r2
  have hd2 : c2.IsDemo := hd.keeps w2 (k1.trans k2) (by decide)
  have r1' : c2.HostReads 16 (Demo.record false) :=
    k2.reads _ _ r1 (by rw [Demo.record_length]; decide)
  refine (d1.next d2 : loadAll.Does false c.Idle (.ok ()) c2.Idle []).next ?_
  have hp0 : recAddr c2.par false = 16 := by rw [hd2.par]; rfl
  have hp1 : recAddr c2.par true = 32 := by rw [hd2.par]; rfl
  have hl0 := Demo.record_length false
  have hl1 := Demo.record_length true
  have hrec0 : (loadRec false).Does false c2.Idle (.ok (Demo.record false)) c2.Idle [] :=
    Drv.par_idle.next (Drv.load_does w2.calm.free (hp0.symm ▸ r1') hl0)
  have hrec1 : (loadRec true).Does false c2.Idle (.ok (Demo.record true)) c2.Idle [] :=
    Drv.par_idle.next (Drv.load_does w2.calm.free (hp1.symm ▸ r2) hl1)
  refine (currentSlot_does w2 (hp0.symm ▸ r1') (hp1.symm ▸ r2) hl0 hl1 Demo.select).next ?_
  refine hrec0.next (hrec1.next ?_)
  rw [if_neg (by decide)]
  refine ((Drv.waitUser_does w2.calm.free .confirm).weaken (T' := []) ⟨by simp, rfl⟩).next ?_
  exact h.narrow fun s hs => ⟨c2, hs, hd2, r1', r2⟩

/-- Step 6 (R460): the install slot is invalidated. -/
theorem Demo.invalidate_does : (invalidate true).Does false (Demo.With (Demo.record false) (Demo.record true))
    (.ok (.ok 16)) (Demo.With (Demo.record false) Demo.invalidated)
    [.called (.invalidate true), .returned (.invalidate true) true] := by
  refine Demo.With.does fun c hc h0 h1 => ?_
  have hp1 : recAddr c.par true = 32 := by rw [hc.par]; rfl
  obtain ⟨c', hx, hw, hk, hr, -⟩ := Sys2Proof.Machine.invalidate_does hc.working true (hp1.symm ▸ h1)
    (Demo.record_length true)
  rw [hc.par] at hk hr
  exact hx.widen fun s hs => ⟨c', hs, hc.keeps hw hk (by decide),
    hk.reads _ _ h0 (by rw [Demo.record_length]; decide), hr⟩

/-- The record of the install slot, read after step 6. -/
theorem Demo.loadRec_does : (loadRec true).Does al (Demo.With (Demo.record false) Demo.invalidated)
    (.ok Demo.invalidated) (Demo.With (Demo.record false) Demo.invalidated) [] := by
  refine Demo.With.does fun c hc h0 h1 => ?_
  have hp1 : recAddr c.par true = 32 := by rw [hc.par]; rfl
  exact (Drv.par_idle.next (Drv.load_does hc.working.calm.free (hp1.symm ▸ h1) Demo.invalidated_length)).widen
    fun s hs => ⟨c, hs, hc, h0, h1⟩

/-- A store into the spare buffer. -/
theorem State.IsDemo.writeSpare (h : c.IsDemo) {a : Nat} {xs : List Byte} (h1 : 64 ≤ a) (h2 : a + xs.length ≤ 96) :
    (c.withMem (c.mem.write a xs)).IsDemo ∧ c.Keeps (c.withMem (c.mem.write a xs)) [(64, 32)] := by
  have hm : (64, 32) ∈ hostBuffers Demo.par := by decide
  have hk := c.keeps_write (xs := xs) (b := (64, 32)) h1 h2
  exact ⟨h.keeps (h.working.write (b := (64, 32)) (h.par ▸ hm) h1 h2) hk (by decide), hk⟩

/-- The spare area of the image's page (43_ecc.md R370). -/
theorem Demo.spare_does (h : c.IsDemo) : ∃ c', (spareAssemble 2144 64).Does false c.Idle (.ok ()) c'.Idle [] ∧
    c'.IsDemo ∧ c.Keeps c' [(64, 32)] := by
  have ecc : ∀ (k : Nat) (c : State), k < 4 → c.IsDemo → ∃ c',
      (calcEccOp (2144 + 512 * k) (64 + Demo.par.spareEccOff + 4 * k)).Does false c.Idle (.ok ()) c'.Idle [] ∧
      c'.IsDemo ∧ c.Keeps c' [(64, 32)] := by
    intro k c hk hc
    have htop : addrTop = 4294967296 := rfl
    have hl : ∀ d, (calcEcc d).length = 4 := fun d => by rw [calcEcc, List.length_append, toLE_length, toLE_length]
    have he : Demo.par.spareEccOff = 0 := rfl
    rw [he, Nat.add_zero]
    have hr := hc.image.part (512 * k) 512 (by rw [Demo.image_length]; omega)
    have hdl : ((Demo.image.drop (512 * k)).take 512).length = 512 := by
      rw [List.length_take, List.length_drop, Demo.image_length]; omega
    have hw := hc.writeSpare (a := 64 + 4 * k) (xs := calcEcc ((Demo.image.drop (512 * k)).take 512)) (by omega)
      (by rw [hl]; omega)
    exact ⟨_, calcEccOp_does hc.working.calm.free hr hdl (.inr (by omega))
      (hc.admits.part (by omega) (by omega)) (by omega) (by omega), hw.1, hw.2⟩
  obtain ⟨c0, d0, i0, k0⟩ := ecc 0 c (by omega) h
  obtain ⟨c1, d1, i1, k1⟩ := ecc 1 c0 (by omega) i0
  obtain ⟨c2, d2, i2, k2⟩ := ecc 2 c1 (by omega) i1
  obtain ⟨c3, d3, i3, k3⟩ := ecc 3 c2 (by omega) i2
  obtain ⟨i4, k4⟩ := i3.writeSpare (a := 64 + Demo.par.markerOff) (xs := [Demo.par.markerValue]) (by decide) (by decide)
  refine ⟨_, ?_, i4, ((((k0.trans k1).trans k2).trans k3).trans k4).mono (by simp)⟩
  refine Drv.par_idle.next ?_
  rw [h.par]
  refine Drv.Does.next (Q := c3.Idle) (d0.next (d1.next (d2.next (d3.next (.pure ()))))) ?_
  exact Drv.store_does i3.working.calm.free (.inr (by decide)) (i3.admits.part (by decide) (by decide))

/-- Step 7 (R460): the page is erased, and its data and its spare area are written. -/
theorem Demo.flash_does : (flashSlot ⟨false, 2#12⟩).Does false (Demo.With (Demo.record false) Demo.invalidated)
    (.ok true)
    (fun s => ∃ c : State, c.Idle s ∧ c.IsDemo ∧ c.HostReads 16 (Demo.record false) ∧
      c.HostReads 32 Demo.invalidated ∧ nandKnown ⟨false, 2#12⟩ 0 c.nand = none)
    [.took (.nandErase ⟨false, 2#12⟩ true) (.nand .ok),
     .took (.nandWrite ⟨false, 2#12⟩ 0 (some 2144) none true) (.nand .ok),
     .took (.nandWrite ⟨false, 2#12⟩ 0 none (some 64) true) (.nand .ok)] := by
  refine Demo.With.does fun c hc h0 h1 => ?_
  let b : NandBlock := ⟨false, 2#12⟩
  have hnand : ∀ (c : State) (pages : List NandPage), c.IsDemo → (c.withNand pages).IsDemo := fun c pages h =>
    h.keeps (h.working.withNand pages) (c.keeps_withNand pages) (by simp)
  let c1 := c.withNand (nandForget b c.nand)
  have i1 : c1.IsDemo := hnand _ _ hc
  let c2 := c1.withNand (nandLearn ⟨b, 0, Demo.image⟩ (nandForget b c1.nand))
  have i2 : c2.IsDemo := hnand _ _ i1
  obtain ⟨c3, d3, i3, k3⟩ := Demo.spare_does i2
  let c4 := c3.withNand (nandForget b c3.nand)
  have i4 : c4.IsDemo := hnand _ _ i3
  have herase := nandErase_does hc.working.calm.free b
  have hdata := nandWriteData_does i1.working.calm.free b (page := 0) (src := 2144) (data := Demo.image)
    (by rw [i1.par]; decide) i1.image Demo.image_length
  obtain ⟨spare, hs⟩ : ∃ spare : List Byte, spare.length = 32 ∧ c3.HostReads 64 spare := by
    obtain ⟨bs, -, hl, hh⟩ := State.fetch_admits (i3.admits.part (k := 64) (l := 32) (by decide) (by decide))
    exact ⟨bs, hl, .inr (by rw [hl]; decide), hh, by rw [i3.working.clean]; exact fun _ h => nomatch h⟩
  have hspare := nandWriteSpare_does i3.working.calm.free b (page := 0) (src := 64) (spare := spare)
    (by rw [i3.par]; decide) hs.2 (by rw [i3.par]; exact hs.1)
  have r0 : c4.HostReads 16 (Demo.record false) :=
    k3.reads _ _ h0 (by rw [Demo.record_length]; decide)
  have r1 : c4.HostReads 32 Demo.invalidated := k3.reads _ _ h1 (by rw [Demo.invalidated_length]; decide)
  refine Drv.Does.widen (Q := c4.Idle) ?_ fun s hs => ⟨c4, hs, i4, r0, r1, nandKnown_forgotten _ _ _⟩
  refine Drv.par_idle.next ?_
  rw [hc.par]
  refine Drv.Does.bind (T := [_]) herase ?_
  refine Drv.Does.bind (T := [_]) (a := true) (Q := c2.Idle) ?_ ?_
  · have : ([Event.took (Action.nandWrite b 0 (some 2144) none true) (Reply.nand NandResult.ok)] ++ []) =
      [Event.took (Action.nandWrite b 0 (some 2144) none true) (Reply.nand NandResult.ok)] := rfl
    rw [← this]
    exact hdata.bind (.pure true)
  · exact (d3.next (hspare.bind (.pure true)))

theorem pageOf_eq {bs : List Byte} (h : bs.length = 2048) : pageOf bs = bs := by
  refine List.ext_getElem (by rw [pageOf_length, h]) fun i h1 h2 => ?_
  simp [pageOf, h2]

/-- Step 8 (R460): the page is read back, verified and compared. -/
theorem Demo.verify_does : (verifySlot ⟨false, 2#12⟩ 0xB4).Does false
    (fun s => ∃ c : State, c.Idle s ∧ c.IsDemo ∧ c.HostReads 16 (Demo.record false) ∧
      c.HostReads 32 Demo.invalidated ∧ nandKnown ⟨false, 2#12⟩ 0 c.nand = none)
    (.ok none) (Demo.With (Demo.record false) Demo.invalidated)
    [.took (.nandRead ⟨false, 2#12⟩ 0 96 .ok Demo.image) (.nand .ok)] := by
  rintro s0 ⟨c, hs0, hc, h0, h1, hn⟩
  have hl := Demo.image_length
  let c1 := c.withMem (c.mem.write 96 Demo.image)
  have hm : (96, 2048) ∈ hostBuffers Demo.par := by decide
  have hk : c.Keeps c1 [(96, 2048)] := c.keeps_write (Nat.le_refl _) (by rw [hl])
  have i1 : c1.IsDemo :=
    hc.keeps (hc.working.write (b := (96, 2048)) (hc.par ▸ hm) (Nat.le_refl _) (by rw [hl])) hk (by decide)
  have hrb : c1.HostReads 96 Demo.image :=
    State.hostReads_written (by rw [hl]; exact .inr (by decide)) hc.working.clean
  have r0 : c1.HostReads 16 (Demo.record false) := hk.reads _ _ h0 (by rw [Demo.record_length]; decide)
  have r1 : c1.HostReads 32 Demo.invalidated := hk.reads _ _ h1 (by rw [Demo.invalidated_length]; decide)
  have hread := nandRead_does hc.working.calm.free ⟨false, 2#12⟩ Demo.image (dst := 96) (pageOf_eq hl)
    (by rw [hc.par]; decide) hn (.inr (by decide)) (hc.admits.part (by decide) (by decide))
  have hpass : (readBackPass ⟨false, 2#12⟩ 96 0 1).Does false c.Idle (.ok none) c1.Idle
      [.took (.nandRead ⟨false, 2#12⟩ 0 96 .ok Demo.image) (.nand .ok)] :=
    Drv.Does.bind (T := [_]) hread (.pure none)
  have hload : ∀ a, c1.HostReads a Demo.image →
      (Drv.load a 0xB4).Does false c1.Idle (.ok (Demo.image.take 0xB4)) c1.Idle [] := by
    intro a ha
    have := ha.part 0 0xB4 (by rw [hl]; decide)
    rw [Nat.add_zero, List.drop_zero] at this
    exact Drv.load_does i1.working.calm.free this (by rw [List.length_take, hl]; rfl)
  have hver : (do
      let c ← ctrVerifyOp 96 2048
      if c ≠ .ok then return some .readbackMismatch
      let rb ← Drv.load 96 0xB4
      let img ← Drv.load 2144 0xB4
      if rb = img then return none else return some .readbackMismatch : Drv (Option ResultCode)).Does false c1.Idle
      (.ok none) c1.Idle [] := by
    intro s hs
    refine ctrVerifyOp_ends (hs.free i1.working.calm.free) (by decide) (by decide) (.inr (by decide))
      (info := Demo.info) (Demo.verify (hs.par.trans i1.par) (hs.reads hrb : State.HostReads s _ _))
      fun t ht _ => ?_
    rw [if_neg (by decide)]
    refine ((hload 96 hrb).next ((hload 2144 i1.image).next ?_)) t (hs.of_core ht)
    rw [if_pos rfl]
    exact .pure none
  have hall : (verifySlot ⟨false, 2#12⟩ 0xB4).Does false c.Idle (.ok none) c1.Idle
      [.took (.nandRead ⟨false, 2#12⟩ 0 96 .ok Demo.image) (.nand .ok)] := by
    refine Drv.par_idle.next ?_
    rw [hc.par]
    exact Drv.Does.bind (T := [_]) hpass hver
  obtain ⟨t, h, ht⟩ := hall s0 hs0
  exact ⟨t, h, c1, ht, i1, r0, r1⟩

/-- The first part of step 9 (R460): the install slot is committed, and what follows runs with both records in
memory. -/
theorem Demo.commit_does : (commit true 7).Does false (Demo.With (Demo.record false) Demo.invalidated) (.ok (.ok 16))
    (fun s => ∃ r, r.length = 16 ∧ Demo.With (Demo.record false) r s)
    [.called (.commit true), .returned (.commit true) true] := by
  refine Demo.With.does fun c hc h0 h1 => ?_
  have hp1 : recAddr c.par true = 32 := by rw [hc.par]; rfl
  obtain ⟨c', hx, hw, hk, hr, -⟩ := Sys2Proof.Machine.commit_does hc.working true (version := 7) (by decide)
    (hp1.symm ▸ h1) Demo.invalidated_length
  rw [hc.par] at hk hr
  refine hx.widen fun s hs => ⟨_, ?_, c', hs, hc.keeps hw hk (by decide),
    hk.reads _ _ h0 (by rw [Demo.record_length]; decide), hr⟩
  simp only [committedFields, List.length_append, List.length_take, Demo.invalidated_length, toLE_length,
    List.length_replicate]
  rfl

/-- The last part of step 9 (R460): the user confirms, and the boot slot is invalidated. -/
theorem Demo.retire_does : (Drv.waitUser >>= fun u => match u with
      | .cancel => pure .okCommitted
      | .confirm => do
        match ← invalidate false with
        | .error c => return c
        | .ok _ => return .ok : Drv ResultCode).Does false
    (fun s => ∃ r, r.length = 16 ∧ Demo.With (Demo.record false) r s) (.ok .ok) (fun _ => True)
    [.called (.invalidate false), .returned (.invalidate false) true] := by
  rintro s ⟨r, hl, c, hs, hc, h0, h1⟩
  have hp0 : recAddr c.par false = 16 := by rw [hc.par]; rfl
  obtain ⟨c', hx, hw, hk, hr, -⟩ := Sys2Proof.Machine.invalidate_does hc.working false (hp0.symm ▸ h0)
    (Demo.record_length false)
  refine (show Drv.Does false _ c.Idle _ (fun _ => True) _ from ?_) s hs
  refine ((Drv.waitUser_does hc.working.calm.free .confirm).weaken (T' := []) ⟨by simp, rfl⟩).next ?_
  exact Drv.Does.bind (T := [_, _]) hx ((Drv.Does.pure (P := c'.Idle) ResultCode.ok).widen fun _ _ => trivial)

/-! ### Runs -/

theorem State.atReset_of (hd : t.dev = Device.atReset t.dev.array) (hc : t.coh = ⟨[], []⟩)
    (ha : t.arg = Vector.replicate 4 none) (hs : t.status = none) (hr : t.res = Vector.replicate 8 none)
    (hq : t.crcAcc = none) (hx : t.aes = Aes.unwritten) : t.AtReset := by
  refine ⟨fun i => ?_, hs, fun i => ?_, hq, ?_, ?_, ?_, ?_, ?_, ?_, ?_, ?_, ?_, ?_, ?_, ?_, ?_, ?_⟩
  · rw [ha]; exact Vector.getElem_replicate ..
  · rw [hr]; exact Vector.getElem_replicate ..
  all_goals first | (rw [hx]; rfl) | (rw [hc]) | (rw [hd]; rfl)

theorem State.launch_atReset (l : Launch) : (State.launch l).AtReset :=
  State.atReset_of rfl rfl rfl rfl rfl rfl rfl

theorem State.interrupt_atReset (s : State) (cells : List Host.Cell) (nb : Option NandBlock) :
    (s.interrupt cells nb).AtReset :=
  State.atReset_of rfl rfl rfl rfl rfl rfl rfl

/-- What a launch of the instance's parameters and launch memory has. -/
theorem State.launch_isDemo (l : Launch) (hp : l.par = Demo.par) (hm : l.mem = Demo.cells) :
    (State.launch l).IsDemo :=
  Demo.of_reset (State.launch_atReset l) (congrArg Memory.ofCells hm) hp rfl rfl

theorem State.wired_self (c : State) : c.Wired c.gpio c.dev c := rfl

theorem Demo.launch_isDemo : (State.launch Demo.launch).IsDemo :=
  State.launch_isDemo Demo.launch rfl rfl

/-- The banks at launch. -/
theorem Demo.launch_bank (slot : Bool) : (State.launch Demo.launch).bank slot = Demo.bank slot := by
  have hl : ∀ slot, (wordsOf (Demo.bank slot)).length = 8 := fun slot => wordsOf_length 8 _ Vector.length_toList
  have hb : ∀ slot, (wordsOf (Demo.bank slot)).flatMap (fun w => toLE 2 w.toNat) = Demo.bank slot :=
    fun slot => wordsOf_bytes 8 _ Vector.length_toList
  let d0 := Device.atReset (Vector.replicate 256 0#16)
  let d1 := d0.withWords 0 (wordsOf (Demo.bank false))
  have h1 : d1.bytesAt 0 8 = Demo.bank false := by
    have := Device.bytesAt_withWords d0 0 (wordsOf (Demo.bank false)) (by rw [hl]; decide)
    rwa [hl, hb] at this
  cases slot with
  | false =>
    rw [← h1]
    exact Device.bytesAt_withWords_apart d1 8 0 8 (wordsOf (Demo.bank true)) (by rw [hl]; decide)
      (by rw [hl]; decide)
  | true =>
    have := Device.bytesAt_withWords d1 8 (wordsOf (Demo.bank true)) (by rw [hl]; decide)
    rw [hl, hb] at this
    exact this

/-- The events of an installation that completes. -/
def Demo.events : List Event :=
  [.called (.invalidate true), .returned (.invalidate true) true,
   .took (.nandErase ⟨false, 2#12⟩ true) (.nand .ok),
   .took (.nandWrite ⟨false, 2#12⟩ 0 (some 2144) none true) (.nand .ok),
   .took (.nandWrite ⟨false, 2#12⟩ 0 none (some 64) true) (.nand .ok),
   .took (.nandRead ⟨false, 2#12⟩ 0 96 .ok Demo.image) (.nand .ok),
   .called (.commit true), .returned (.commit true) true,
   .called (.invalidate false), .returned (.invalidate false) true]

/-- A run of the instance in which the installation completes, and the events it passes. -/
theorem Demo.installs : ∃ t, hostMain.Ends false (State.launch Demo.launch) (.ok .ok) t Demo.events := by
  have hinstall : (installSlot false 7 0xB4).Does false (Demo.With (Demo.record false) (Demo.record true)) (.ok .ok)
      (fun _ => True) Demo.events := by
    refine Drv.Does.bind (T := [_, _]) Demo.invalidate_does ?_
    refine Demo.loadRec_does.next ?_
    rw [Demo.block]
    refine Drv.Does.bind (T := [_, _, _]) Demo.flash_does ?_
    refine Drv.Does.bind (T := [_]) Demo.verify_does ?_
    exact Demo.par_does.next (Drv.Does.bind (T := [_, _]) Demo.commit_does Demo.retire_does)
  obtain ⟨t, h, -⟩ := Demo.opening_does Demo.launch_isDemo Demo.launch_bank hinstall _ (State.wired_self _)
  exact ⟨t, h⟩

/-! ### Runs that an interruption cuts -/

/-- An interruption that installs the launch memory again. -/
theorem State.IsDemo.interrupt (h : c.IsDemo) (hs : c.Idle s) : (s.interrupt Demo.cells none).IsDemo :=
  Demo.of_reset (State.interrupt_atReset _ _ _) rfl (hs.par.trans h.par) (hs.free h.working.calm.free).fault rfl

/-- A run cut before its first action. -/
theorem Demo.cut_first : ∃ t : State, t.IsDemo ∧
    hostMain.Ends false (State.launch Demo.launch) (.error .interrupted) t [] := by
  have h := Demo.launch_isDemo
  exact ⟨_, h.interrupt ⟨false, State.wired_self _⟩,
    (Drv.act_cut Demo.cells none h.working.calm.free.fault).stop.stop.stop⟩

/-- A run cut between the invalidation of the install slot and the erase. -/
theorem Demo.cut_invalidated : ∃ t : State, t.IsDemo ∧
    hostMain.Ends false (State.launch Demo.launch) (.error .interrupted) t
      [.called (.invalidate true), .returned (.invalidate true) true] := by
  have hcut : (loadRec true).Does false (Demo.With (Demo.record false) Demo.invalidated) (.error .interrupted)
      State.IsDemo [] := by
    refine Demo.par_does.next (Demo.With.does fun c hc _ _ => ?_)
    refine Drv.Does.stop ?_
    refine (Drv.act_cut_does Demo.cells hc.working.calm.free).widen ?_
    rintro _ ⟨s, hs, rfl⟩
    exact hc.interrupt hs
  have hinstall : (installSlot false 7 0xB4).Does false (Demo.With (Demo.record false) (Demo.record true))
      (.error .interrupted) State.IsDemo [.called (.invalidate true), .returned (.invalidate true) true] :=
    Drv.Does.bind (T := [_, _]) Demo.invalidate_does hcut.stop
  obtain ⟨t, h, ht⟩ := Demo.opening_does Demo.launch_isDemo Demo.launch_bank hinstall _ (State.wired_self _)
  exact ⟨t, ht, h⟩

/-- A run cut after the commit of the install slot, before the user is asked. -/
theorem Demo.cut_committed : ∃ t : State, t.IsDemo ∧
    hostMain.Ends false (State.launch Demo.launch) (.error .interrupted) t
      [.called (.invalidate true), .returned (.invalidate true) true,
       .called (.commit true), .returned (.commit true) true] := by
  have hcut : Drv.waitUser.Does false (fun s => ∃ r, r.length = 16 ∧ Demo.With (Demo.record false) r s)
      (.error .interrupted) State.IsDemo [] := by
    rintro s ⟨r, -, c, hs, hc, -, -⟩
    have h := (Drv.act_cut_does (a := .waitUser) Demo.cells hc.working.calm.free).widen (Q' := State.IsDemo) (by
      rintro _ ⟨s, hs, rfl⟩
      exact hc.interrupt hs)
    exact h.stop s hs
  have hinstall : (installSlot false 7 0xB4).Does false (Demo.With (Demo.record false) (Demo.record true))
      (.error .interrupted) State.IsDemo
      [.called (.invalidate true), .returned (.invalidate true) true,
       .called (.commit true), .returned (.commit true) true] := by
    refine Drv.Does.bind (T := [_, _]) Demo.invalidate_does ?_
    refine Demo.loadRec_does.next ?_
    rw [Demo.block]
    refine (Demo.flash_does.weaken (T' := []) ⟨by simp, rfl⟩).next ?_
    refine (Demo.verify_does.weaken (T' := []) ⟨by simp, rfl⟩).next ?_
    exact Demo.par_does.next (Drv.Does.bind (T := [_, _]) Demo.commit_does hcut.stop)
  obtain ⟨t, h, ht⟩ := Demo.opening_does Demo.launch_isDemo Demo.launch_bank hinstall _ (State.wired_self _)
  exact ⟨t, ht, h⟩

/-- The bank of a slot as the statements name it. -/
theorem State.bankBytes_eq (c : State) (slot : Bool) : c.bankBytes slot = c.bank slot := by
  rw [State.bankBytes, State.bank, Device.bytesAt, List.range'_eq_map_range, List.flatMap_map]

/-- The records that the banks of the instance decrypt to at launch. -/
theorem Demo.launch_record (slot : Bool) : (State.launch Demo.launch).bankRecord Demo.key slot = Demo.record slot := by
  rw [State.bankRecord, State.bankBytes_eq, Demo.launch_bank, Demo.bank_decrypts]

end Sys2Proof.Machine
end

