-- ==== Sys2Proof/Laws/PerInstr.lean ====
section
/-! SUPPORT. The family CodeShape: what kind of code each instruction has. -/

namespace Sys2Proof.Laws.CodeShape

open Sys2Proof

/-- A well-formed instruction's code is a command word that a row of the opcode map selects, or a frame that
begins with the start bit and has the length its opcode calls for. -/
def Statement (i : Instr) : Prop :=
  i.WellFormed →
    (∃ w, encode i = .word w ∧ ∃ r ∈ opcodeMap, r.selects w = true) ∨
    (∃ op1 op0 rest, encode i = .frame (true :: op1 :: op0 :: rest) ∧
      rest.length + 3 = frameBits op1 op0)

/-- A code without operands: its row selects it. -/
theorem of_word {i : Instr} (w : Word) (h : encode i = .word w)
    (hr : (opcodeMap.any fun r => r.selects w) = true) : Statement i := fun _ =>
  .inl ⟨w, h, by simpa using hr⟩

theorem of_frame11 {i : Instr} (op1 op0 : Bool) (a : Byte) (h : encode i = frame11 op1 op0 a)
    (hn : frameBits op1 op0 = 11) : Statement i := fun _ =>
  .inr ⟨op1, op0, _, h, by rw [valBits_length, hn]⟩

theorem of_frame00 {i : Instr} (a7 a6 : Bool) (x : BitVec 6) (h : encode i = frame00 a7 a6 x) :
    Statement i := fun _ => .inr ⟨false, false, _, h, by simp [valBits_length, frameBits]⟩

/-- The immediate of a cipher command keeps to its fields. -/
theorem blocksImm_masked (n : Nat) (keep : Bool) (hn : blockCountOk n = true) :
    blocksImm n keep &&& 0xFFFFEF80#32 = 0#32 := by
  simp only [blockCountOk, Bool.and_eq_true, decide_eq_true_eq] at hn
  obtain ⟨m, rfl⟩ : ∃ m : Fin 128, n = m.val + 1 := ⟨⟨n - 1, by omega⟩, by simp; omega⟩
  simp only [blocksImm, Nat.add_sub_cancel]
  revert m keep
  decide +kernel

theorem selects_blocks (base : Word) (n : Nat) (keep : Bool) (hn : blockCountOk n = true)
    (build : Word → Instr) (hb : base &&& 0xFFFFEF80#32 = base) :
    Row.selects ⟨base, 0xFFFFEF80#32, build⟩ (base ||| blocksImm n keep) = true := by
  simp only [Row.selects, beq_iff_eq]
  rw [BitVec.and_comm, BitVec.and_or_distrib_left, BitVec.and_comm _ base, hb,
    BitVec.and_comm _ (blocksImm n keep), blocksImm_masked n keep hn, BitVec.or_zero]

theorem sysNop : Statement .sysNop := of_word _ rfl (by decide)
theorem sysFlush : Statement .sysFlush := of_word _ rfl (by decide)
theorem sysInval : Statement .sysInval := of_word _ rfl (by decide)
theorem crcInit : Statement .crcInit := of_word _ rfl (by decide)

theorem crcByte (b : Byte) : Statement (.crcByte b) := of_word _ rfl (by revert b; decide +kernel)

theorem crcRange : Statement .crcRange := of_word _ rfl (by decide)
theorem crcFinal : Statement .crcFinal := of_word _ rfl (by decide)
theorem crcCompute : Statement .crcCompute := of_word _ rfl (by decide)
theorem aesReset : Statement .aesReset := of_word _ rfl (by decide)
theorem aesSetkey : Statement .aesSetkey := of_word _ rfl (by decide)
theorem aesSetiv : Statement .aesSetiv := of_word _ rfl (by decide)
theorem aesClriv : Statement .aesClriv := of_word _ rfl (by decide)

theorem aesEnc (n : Nat) (keep : Bool) : Statement (.aesEnc n keep) := fun h =>
  .inl ⟨_, rfl, _, by simp [opcodeMap, rowsAes], selects_blocks 0x24000000#32 n keep h
    (fun w => .aesEnc (fieldN w) (fieldK w)) (by decide)⟩

theorem aesDec (n : Nat) (keep : Bool) : Statement (.aesDec n keep) := fun h =>
  .inl ⟨_, rfl, _, by simp [opcodeMap, rowsAes], selects_blocks 0x25000000#32 n keep h
    (fun w => .aesDec (fieldN w) (fieldK w)) (by decide)⟩

theorem eepSetCs : Statement .eepSetCs := of_word _ rfl (by decide)
theorem eepSetSk : Statement .eepSetSk := of_word _ rfl (by decide)
theorem eepSetDi : Statement .eepSetDi := of_word _ rfl (by decide)
theorem eepClrCs : Statement .eepClrCs := of_word _ rfl (by decide)
theorem eepClrSk : Statement .eepClrSk := of_word _ rfl (by decide)
theorem eepClrDi : Statement .eepClrDi := of_word _ rfl (by decide)
theorem eepIn : Statement .eepIn := of_word _ rfl (by decide)
theorem eepDelay : Statement .eepDelay := of_word _ rfl (by decide)
theorem eccCalc : Statement .eccCalc := of_word _ rfl (by decide)
theorem ctrParse : Statement .ctrParse := of_word _ rfl (by decide)
theorem ctrVerify : Statement .ctrVerify := of_word _ rfl (by decide)

theorem frameRead (a : Byte) : Statement (.frameRead a) := of_frame11 _ _ _ rfl rfl
theorem frameEwen (x : BitVec 6) : Statement (.frameEwen x) := of_frame00 _ _ _ rfl
theorem frameEwds (x : BitVec 6) : Statement (.frameEwds x) := of_frame00 _ _ _ rfl

theorem frameWrite (a : Byte) (d : Half) : Statement (.frameWrite a d) := fun _ =>
  .inr ⟨_, _, _, rfl, by simp [valBits_length, frameBits]⟩

theorem frameReserved11 (a : Byte) : Statement (.frameReserved11 a) := of_frame11 _ _ _ rfl rfl
theorem frameReserved0001 (x : BitVec 6) : Statement (.frameReserved0001 x) := of_frame00 _ _ _ rfl
theorem frameReserved0010 (x : BitVec 6) : Statement (.frameReserved0010 x) := of_frame00 _ _ _ rfl

end Sys2Proof.Laws.CodeShape
end

