-- ==== Sys2Proof/Tests/Slice0.lean ====
section
/-! SUPPORT. Tests: words and bits written out from the spec's encodings, the spec's test vectors, one step each,
and a witness for the hypotheses of each obligation that has any. The expected values are the spec's
(95_test_vectors.md and the rules named). -/

set_option Elab.async false

namespace Sys2Proof.Machine

/-! ## Decoding, from the bits of 30_encoding.md R128 and R141-R144 -/

theorem test_decode_sys : decodeWord 0x00000000#32 = .ok .sysNop ∧
    decodeWord 0x01000000#32 = .ok .sysFlush ∧ decodeWord 0x02000000#32 = .ok .sysInval := by decide

theorem test_decode_crc : decodeWord 0x10000000#32 = .ok .crcInit ∧
    decodeWord 0x11000031#32 = .ok (.crcByte 0x31#8) ∧ decodeWord 0x12000000#32 = .ok .crcRange ∧
    decodeWord 0x13000000#32 = .ok .crcFinal ∧ decodeWord 0x14000000#32 = .ok .crcCompute := by decide

theorem test_decode_aes : decodeWord 0x20000000#32 = .ok .aesReset ∧
    decodeWord 0x21000000#32 = .ok .aesSetkey ∧ decodeWord 0x22000000#32 = .ok .aesSetiv ∧
    decodeWord 0x23000000#32 = .ok .aesClriv ∧ decodeWord 0x2400007F#32 = .ok (.aesEnc 128 false) ∧
    decodeWord 0x24001000#32 = .ok (.aesEnc 1 true) ∧
    decodeWord 0x25000001#32 = .ok (.aesDec 2 false) := by decide

theorem test_decode_eep : decodeWord 0x30000000#32 = .ok .eepSetCs ∧
    decodeWord 0x30000001#32 = .ok .eepSetSk ∧ decodeWord 0x30000002#32 = .ok .eepSetDi ∧
    decodeWord 0x31000000#32 = .ok .eepClrCs ∧ decodeWord 0x31000001#32 = .ok .eepClrSk ∧
    decodeWord 0x31000002#32 = .ok .eepClrDi ∧ decodeWord 0x32000000#32 = .ok .eepIn ∧
    decodeWord 0x33000000#32 = .ok .eepDelay := by decide

theorem test_decode_ecc_ctr : decodeWord 0x40000000#32 = .ok .eccCalc ∧
    decodeWord 0x50000000#32 = .ok .ctrParse ∧ decodeWord 0x51000000#32 = .ok .ctrVerify := by decide

/-- The bits of L2.EEP.2 and L2.EEP.4, and of the reserved opcode 0b11. -/
theorem test_decode_frames :
    decodeFrame [true, true, false, false, false, false, false, false, true, false, true] =
      .ok (.frameRead 0x05#8) ∧
    decodeFrame ([true, false, true] ++ [false, false, false, false, false, true, false, true] ++
      [true, false, true, true, true, true, true, false] ++
      [true, true, true, false, true, true, true, true]) = .ok (.frameWrite 0x05#8 0xBEEF#16) ∧
    decodeFrame [true, true, true, true, false, false, false, false, false, false, true] =
      .ok (.frameReserved11 0x81#8) := by decide

/-- The bits of L2.EEP.5 and L2.EEP.6, and of the reserved frames of opcode 0b00. -/
theorem test_decode_frames_00 :
    decodeFrame [true, false, false, true, true, false, false, false, false, false, false] =
      .ok (.frameEwen 0#6) ∧
    decodeFrame [true, false, false, false, false, false, false, false, false, false, false] =
      .ok (.frameEwds 0#6) ∧
    decodeFrame [true, false, false, false, true, true, false, false, false, false, true] =
      .ok (.frameReserved0001 0x21#6) ∧
    decodeFrame [true, false, false, true, false, false, false, false, false, true, true] =
      .ok (.frameReserved0010 0x03#6) := by decide

/-- One word at the edge of each class of reserved words (R127). -/
theorem test_reserved_words :
    decodeWord 0x60000000#32 = .error .reservedUnit ∧ decodeWord 0xF0000000#32 = .error .reservedUnit ∧
    decodeWord 0x03000000#32 = .error .reservedOp ∧ decodeWord 0x15000000#32 = .error .reservedOp ∧
    decodeWord 0x26000000#32 = .error .reservedOp ∧ decodeWord 0x34000000#32 = .error .reservedOp ∧
    decodeWord 0x41000000#32 = .error .reservedOp ∧ decodeWord 0x52000000#32 = .error .reservedOp ∧
    decodeWord 0x30000003#32 = .error .reservedLine ∧ decodeWord 0x31000003#32 = .error .reservedLine ∧
    decodeWord 0x30000004#32 = .error .reservedImm ∧ decodeWord 0x11000100#32 = .error .reservedImm ∧
    decodeWord 0x24000080#32 = .error .reservedImm ∧ decodeWord 0x24002000#32 = .error .reservedImm ∧
    decodeWord 0x25000800#32 = .error .reservedImm ∧ decodeWord 0x00000001#32 = .error .reservedImm := by
  decide

theorem test_not_a_frame : decodeFrame [] = .error .noStartBit ∧
    decodeFrame (false :: List.replicate 10 true) = .error .noStartBit ∧
    decodeFrame (List.replicate 10 true) = .error .frameLength ∧
    decodeFrame (List.replicate 12 true) = .error .frameLength ∧
    decodeFrame ([true, false, true] ++ List.replicate 8 true) = .error .frameLength := by decide

/-! ## Well-formedness: each check refuses an ill-formed term -/

theorem test_wf_refuses_no_blocks :
    (Instr.aesEnc 0 false).wellFormed = false ∧ (Instr.aesDec 0 true).wellFormed = false := by decide

theorem test_wf_refuses_129_blocks :
    (Instr.aesEnc 129 false).wellFormed = false ∧ (Instr.aesDec 129 true).wellFormed = false := by decide

theorem test_wf_block_bounds : (Instr.aesEnc 1 false).WellFormed ∧ (Instr.aesEnc 128 true).WellFormed ∧
    (Instr.aesDec 1 true).WellFormed ∧ (Instr.aesDec 128 false).WellFormed := by decide

/-! ## The CRC table of R213 -/

theorem test_crc_table_00 : (List.range 32).map (fun k => crcTable (BitVec.ofNat 8 (0x00 + k))) =
    [0x00000000#32, 0x77073096#32, 0xEE0E612C#32, 0x990951BA#32,
     0x076DC419#32, 0x706AF48F#32, 0xE963A535#32, 0x9E6495A3#32] ++
    [0x0EDB8832#32, 0x79DCB8A4#32, 0xE0D5E91E#32, 0x97D2D988#32,
     0x09B64C2B#32, 0x7EB17CBD#32, 0xE7B82D07#32, 0x90BF1D91#32] ++
    [0x1DB71064#32, 0x6AB020F2#32, 0xF3B97148#32, 0x84BE41DE#32,
     0x1ADAD47D#32, 0x6DDDE4EB#32, 0xF4D4B551#32, 0x83D385C7#32] ++
    [0x136C9856#32, 0x646BA8C0#32, 0xFD62F97A#32, 0x8A65C9EC#32,
     0x14015C4F#32, 0x63066CD9#32, 0xFA0F3D63#32, 0x8D080DF5#32] := by decide +kernel

theorem test_crc_table_20 : (List.range 32).map (fun k => crcTable (BitVec.ofNat 8 (0x20 + k))) =
    [0x3B6E20C8#32, 0x4C69105E#32, 0xD56041E4#32, 0xA2677172#32,
     0x3C03E4D1#32, 0x4B04D447#32, 0xD20D85FD#32, 0xA50AB56B#32] ++
    [0x35B5A8FA#32, 0x42B2986C#32, 0xDBBBC9D6#32, 0xACBCF940#32,
     0x32D86CE3#32, 0x45DF5C75#32, 0xDCD60DCF#32, 0xABD13D59#32] ++
    [0x26D930AC#32, 0x51DE003A#32, 0xC8D75180#32, 0xBFD06116#32,
     0x21B4F4B5#32, 0x56B3C423#32, 0xCFBA9599#32, 0xB8BDA50F#32] ++
    [0x2802B89E#32, 0x5F058808#32, 0xC60CD9B2#32, 0xB10BE924#32,
     0x2F6F7C87#32, 0x58684C11#32, 0xC1611DAB#32, 0xB6662D3D#32] := by decide +kernel

theorem test_crc_table_40 : (List.range 32).map (fun k => crcTable (BitVec.ofNat 8 (0x40 + k))) =
    [0x76DC4190#32, 0x01DB7106#32, 0x98D220BC#32, 0xEFD5102A#32,
     0x71B18589#32, 0x06B6B51F#32, 0x9FBFE4A5#32, 0xE8B8D433#32] ++
    [0x7807C9A2#32, 0x0F00F934#32, 0x9609A88E#32, 0xE10E9818#32,
     0x7F6A0DBB#32, 0x086D3D2D#32, 0x91646C97#32, 0xE6635C01#32] ++
    [0x6B6B51F4#32, 0x1C6C6162#32, 0x856530D8#32, 0xF262004E#32,
     0x6C0695ED#32, 0x1B01A57B#32, 0x8208F4C1#32, 0xF50FC457#32] ++
    [0x65B0D9C6#32, 0x12B7E950#32, 0x8BBEB8EA#32, 0xFCB9887C#32,
     0x62DD1DDF#32, 0x15DA2D49#32, 0x8CD37CF3#32, 0xFBD44C65#32] := by decide +kernel

theorem test_crc_table_60 : (List.range 32).map (fun k => crcTable (BitVec.ofNat 8 (0x60 + k))) =
    [0x4DB26158#32, 0x3AB551CE#32, 0xA3BC0074#32, 0xD4BB30E2#32,
     0x4ADFA541#32, 0x3DD895D7#32, 0xA4D1C46D#32, 0xD3D6F4FB#32] ++
    [0x4369E96A#32, 0x346ED9FC#32, 0xAD678846#32, 0xDA60B8D0#32,
     0x44042D73#32, 0x33031DE5#32, 0xAA0A4C5F#32, 0xDD0D7CC9#32] ++
    [0x5005713C#32, 0x270241AA#32, 0xBE0B1010#32, 0xC90C2086#32,
     0x5768B525#32, 0x206F85B3#32, 0xB966D409#32, 0xCE61E49F#32] ++
    [0x5EDEF90E#32, 0x29D9C998#32, 0xB0D09822#32, 0xC7D7A8B4#32,
     0x59B33D17#32, 0x2EB40D81#32, 0xB7BD5C3B#32, 0xC0BA6CAD#32] := by decide +kernel

theorem test_crc_table_80 : (List.range 32).map (fun k => crcTable (BitVec.ofNat 8 (0x80 + k))) =
    [0xEDB88320#32, 0x9ABFB3B6#32, 0x03B6E20C#32, 0x74B1D29A#32,
     0xEAD54739#32, 0x9DD277AF#32, 0x04DB2615#32, 0x73DC1683#32] ++
    [0xE3630B12#32, 0x94643B84#32, 0x0D6D6A3E#32, 0x7A6A5AA8#32,
     0xE40ECF0B#32, 0x9309FF9D#32, 0x0A00AE27#32, 0x7D079EB1#32] ++
    [0xF00F9344#32, 0x8708A3D2#32, 0x1E01F268#32, 0x6906C2FE#32,
     0xF762575D#32, 0x806567CB#32, 0x196C3671#32, 0x6E6B06E7#32] ++
    [0xFED41B76#32, 0x89D32BE0#32, 0x10DA7A5A#32, 0x67DD4ACC#32,
     0xF9B9DF6F#32, 0x8EBEEFF9#32, 0x17B7BE43#32, 0x60B08ED5#32] := by decide +kernel

theorem test_crc_table_A0 : (List.range 32).map (fun k => crcTable (BitVec.ofNat 8 (0xA0 + k))) =
    [0xD6D6A3E8#32, 0xA1D1937E#32, 0x38D8C2C4#32, 0x4FDFF252#32,
     0xD1BB67F1#32, 0xA6BC5767#32, 0x3FB506DD#32, 0x48B2364B#32] ++
    [0xD80D2BDA#32, 0xAF0A1B4C#32, 0x36034AF6#32, 0x41047A60#32,
     0xDF60EFC3#32, 0xA867DF55#32, 0x316E8EEF#32, 0x4669BE79#32] ++
    [0xCB61B38C#32, 0xBC66831A#32, 0x256FD2A0#32, 0x5268E236#32,
     0xCC0C7795#32, 0xBB0B4703#32, 0x220216B9#32, 0x5505262F#32] ++
    [0xC5BA3BBE#32, 0xB2BD0B28#32, 0x2BB45A92#32, 0x5CB36A04#32,
     0xC2D7FFA7#32, 0xB5D0CF31#32, 0x2CD99E8B#32, 0x5BDEAE1D#32] := by decide +kernel

theorem test_crc_table_C0 : (List.range 32).map (fun k => crcTable (BitVec.ofNat 8 (0xC0 + k))) =
    [0x9B64C2B0#32, 0xEC63F226#32, 0x756AA39C#32, 0x026D930A#32,
     0x9C0906A9#32, 0xEB0E363F#32, 0x72076785#32, 0x05005713#32] ++
    [0x95BF4A82#32, 0xE2B87A14#32, 0x7BB12BAE#32, 0x0CB61B38#32,
     0x92D28E9B#32, 0xE5D5BE0D#32, 0x7CDCEFB7#32, 0x0BDBDF21#32] ++
    [0x86D3D2D4#32, 0xF1D4E242#32, 0x68DDB3F8#32, 0x1FDA836E#32,
     0x81BE16CD#32, 0xF6B9265B#32, 0x6FB077E1#32, 0x18B74777#32] ++
    [0x88085AE6#32, 0xFF0F6A70#32, 0x66063BCA#32, 0x11010B5C#32,
     0x8F659EFF#32, 0xF862AE69#32, 0x616BFFD3#32, 0x166CCF45#32] := by decide +kernel

theorem test_crc_table_E0 : (List.range 32).map (fun k => crcTable (BitVec.ofNat 8 (0xE0 + k))) =
    [0xA00AE278#32, 0xD70DD2EE#32, 0x4E048354#32, 0x3903B3C2#32,
     0xA7672661#32, 0xD06016F7#32, 0x4969474D#32, 0x3E6E77DB#32] ++
    [0xAED16A4A#32, 0xD9D65ADC#32, 0x40DF0B66#32, 0x37D83BF0#32,
     0xA9BCAE53#32, 0xDEBB9EC5#32, 0x47B2CF7F#32, 0x30B5FFE9#32] ++
    [0xBDBDF21C#32, 0xCABAC28A#32, 0x53B39330#32, 0x24B4A3A6#32,
     0xBAD03605#32, 0xCDD70693#32, 0x54DE5729#32, 0x23D967BF#32] ++
    [0xB3667A2E#32, 0xC4614AB8#32, 0x5D681B02#32, 0x2A6F2B94#32,
     0xB40BBE37#32, 0xC30C8EA1#32, 0x5A05DF1B#32, 0x2D02EF8D#32] := by decide +kernel

/-! ## States to test on -/

/-- The state a step gives; the reset state where it gives none. -/
def after : Result → State
  | .next t => t
  | _ => State.reset

/-- The step has a next state. -/
def goesOn : Result → Bool
  | .next _ => true
  | _ => false

theorem ne_stop {r : Result} {f : Fault} (h : goesOn r = true) : r ≠ .fault f := by
  rintro rfl
  cases h

/-- Memory that holds the bytes from a on, and admits no other address. -/
def memAt (a : Nat) (bs : List Byte) : Memory := bs.zipIdx.map fun p => (a + p.2, p.1)

/-- An instance: no digest, one byte of reserved tail. -/
def testPar : Params :=
  { keyBytes := 16, magic := #v[0xEF#8, 0xA2#8, 0x82#8, 0xD9#8], hashLen := 0, infoPad := 1
    bankWord0 := 0, bankWord1 := 8, pagesPerBlock := 1, spareSize := 64, spareEccOff := 0
    markerOff := 16, markerValue := 0x55#8, loadAddr := [], encClass := 0#4, encBit := 0
    enableRetire := false, devKeyAddr := 0#32, fwKeyAddr := 0#32, fwIvAddr := 0#32, recAddr0 := 0#32
    recAddr1 := 0#32, bankBuf := 0#32, spareBuf := 0#32, rbAddr := 0#32, imgIoOk := true
    imgAddr := 0#32, imgLen := 2048 }

/-- The reset state with known lines, EEPROM words and parameters. -/
def base : State :=
  { State.reset with
    gpio := ⟨false, false, false⟩
    dev := Device.atReset (Vector.replicate 256 0xBEEF#16)
    par := testPar }

/-- A state with the first two arguments, an accumulator and memory. -/
def withArgs (a b : Word) (m : Memory) : State :=
  { base with arg := #v[some a, some b, none, none], mem := m, crcAcc := some 0xFFFFFFFF#32 }

/-- A state ready for a cipher command. -/
def cipherState (src dst : Word) (m : Memory) : State :=
  { withArgs src dst m with
    aes := ⟨some (List.replicate 16 0#8), some (Vector.replicate 16 0#8), some (Vector.replicate 16 1#8)⟩ }

/-- The device in RECV mode, with chip-select 1 and the write-enable latch as given, having received the
bits. -/
def recvState (wel : Bool) (bits : List Bool) : State :=
  { base with
    gpio := ⟨true, false, true⟩
    dev := { base.dev with mode := .recv, shift := bits, wel := wel } }

/-- The bytes "123456789". -/
def digits : List Byte :=
  [0x31#8, 0x32#8, 0x33#8, 0x34#8, 0x35#8, 0x36#8, 0x37#8, 0x38#8, 0x39#8]

/-! ## SYS (L2.SYS) -/

theorem test_sys_nop : (after (exec .sysNop base)).status = some 0#32 := by decide +kernel

theorem test_sys_flush_to_top :
    (after (exec .sysFlush
      { withArgs 0xFFFFFFF0#32 0x10#32 [] with coh := ⟨[0x10, 0xFFFFFFF0, 0xFFFFFFFF], []⟩ })).coh =
      ⟨[0x10], []⟩ := by decide +kernel

theorem test_sys_flush_wraps :
    (after (exec .sysFlush (withArgs 0xFFFFFFF0#32 0x11#32 []))).fault = some .rangeWrap := by
  decide +kernel

theorem test_sys_inval :
    (after (exec .sysInval
      { withArgs 0x1000#32 4#32 [] with coh := ⟨[0x1004], [0x0FFF, 0x1000, 0x1003, 0x1004]⟩ })).coh =
      ⟨[0x1004], [0x0FFF, 0x1004]⟩ := by decide +kernel

theorem test_sys_inval_host_dirty :
    (after (exec .sysInval { withArgs 0x2000#32 16#32 [] with coh := ⟨[0x2000], []⟩ })).fault =
      some .coherence := by decide +kernel

/-! ## CRC (L2.CRC) -/

theorem test_crc_init : (after (exec .crcInit base)).crcAcc = some 0xFFFFFFFF#32 := by decide +kernel

theorem test_crc_byte :
    (after (exec (.crcByte 0x32#8) { base with crcAcc := some 0x7C231048#32 })).crcAcc =
      some 0xB0ACBB32#32 := by decide +kernel

theorem test_crc_byte_at_reset : (after (exec (.crcByte 0x31#8) base)).fault = some .readUnwritten ∧
    (after (exec (.crcByte 0x31#8) base)).status = none := by decide +kernel

theorem test_crc_range :
    (after (exec .crcRange (withArgs 0x1000#32 4#32 (memAt 0x1000 digits)))).crcAcc =
      some 0x641C1F5C#32 := by decide +kernel

theorem test_crc_range_of_nothing :
    (after (exec .crcRange (withArgs 0xFFFFFFFF#32 0#32 []))).crcAcc = some 0xFFFFFFFF#32 := by
  decide +kernel

theorem test_crc_final :
    let t := after (exec .crcFinal { base with crcAcc := some 0x340BC6D9#32 })
    t.res[0] = some 0xCBF43926#32 ∧ t.crcAcc = some 0x340BC6D9#32 := by decide +kernel

theorem test_crc_compute :
    let t := after (exec .crcCompute (withArgs 0x1000#32 9#32 (memAt 0x1000 digits)))
    t.res[0] = some 0xCBF43926#32 ∧ t.crcAcc = some 0x340BC6D9#32 ∧ t.status = some 0#32 := by
  decide +kernel

theorem test_crc_vectors : crc32 [] = 0x00000000#32 ∧ crc32 [0x00#8] = 0xD202EF8D#32 ∧
    crc32 [0xFF#8] = 0xFF000000#32 ∧ crc32 [0x61#8] = 0xE8B7BE43#32 ∧
    crc32 (List.replicate 4 0xFF#8) = 0xFFFFFFFF#32 ∧
    crc32 (List.replicate 32 0#8) = 0x190A55AD#32 := by decide +kernel

/-! ## The cipher (L2.AES; the block cipher itself is not evaluated) -/

theorem test_aes_reset : (after (exec .aesReset (cipherState 0#32 0#32 []))).aes = ⟨none, none, none⟩ := by
  decide +kernel

theorem test_aes_setkey :
    (after (exec .aesSetkey
      { cipherState 0x3000#32 0#32 (memAt 0x3000 (valBits 16 0x1234 |>.map fun b => if b then 1#8 else 0#8))
        with status := none })).aes.key =
      some [0#8, 0#8, 0#8, 1#8, 0#8, 0#8, 1#8, 0#8, 0#8, 0#8, 1#8, 1#8, 0#8, 1#8, 0#8, 0#8] := by
  decide +kernel

theorem test_aes_setiv :
    let t := after (exec .aesSetiv (cipherState 0x3000#32 0#32 (memAt 0x3000 (List.replicate 16 7#8))))
    t.aes.iv = some (Vector.replicate 16 7#8) ∧ t.aes.chain = none := by decide +kernel

theorem test_aes_clriv :
    let t := after (exec .aesClriv { cipherState 0#32 0#32 [] with
      aes := ⟨none, some (Vector.replicate 16 9#8), some (Vector.replicate 16 1#8)⟩ })
    t.aes.iv = some (Vector.replicate 16 0#8) ∧ t.aes.chain = none := by decide +kernel

/-- L2.AES.10 and L2.AES.11. -/
theorem test_aes_enc_faults :
    (after (exec (.aesEnc 2 false) (cipherState 0x2008#32 0x2000#32 []))).fault = some .misaligned ∧
    (after (exec (.aesEnc 2 false) (cipherState 0x2000#32 0x2010#32 []))).fault = some .overlap := by
  decide +kernel

/-- L2.AES.13 and L2.AES.14: the range before admission, admission before coherence. -/
theorem test_aes_dec_faults :
    (after (exec (.aesDec 2 false) (cipherState 0xFFFFFFF0#32 0x2000#32 []))).fault = some .rangeWrap ∧
    (after (exec (.aesDec 1 false)
      { cipherState 0x2000#32 0x2000#32 (memAt 0x2000 (List.replicate 16 0#8)) with
        coh := ⟨[0x200F], []⟩ })).fault = some .coherence := by decide +kernel

/-- R242: the first block is enciphered after the exclusive-or with the chaining value, and ends the chain. -/
theorem test_cbc_first_block (enc : Block → Block) :
    (cbcEnc enc (Vector.replicate 16 1#8) [Vector.replicate 16 2#8]).2 = enc (Vector.replicate 16 3#8) :=
  congrArg enc (by decide +kernel)

theorem test_aes_enc_completes :
    (after (exec (.aesEnc 1 false)
      (cipherState 0x20#32 0x10#32 (memAt 0x10 (List.replicate 32 2#8))))).status = some 0#32 := by
  decide +kernel

theorem test_aes_dec_chain :
    (after (exec (.aesDec 2 true) (cipherState 0x10#32 0x10#32
      (memAt 0x10 (List.replicate 16 3#8 ++ List.replicate 16 5#8))))).aes.chain =
      some (Vector.replicate 16 5#8) := by decide +kernel

/-! ## The EEPROM (L2.EEP) -/

theorem test_eep_set_cs : (after (exec .eepSetCs base)).dev.mode = .recv ∧
    (after (exec .eepSetCs { recvState false [true] with gpio := ⟨true, false, false⟩ })).dev.shift = [true] :=
  by decide +kernel

/-- L2.EEP.16, and the first bit of a frame. -/
theorem test_eep_set_sk :
    (after (exec .eepSetSk { recvState false [] with gpio := ⟨true, false, false⟩ })).dev.shift = [] ∧
    (after (exec .eepSetSk (recvState false []))).dev.shift = [true] := by decide +kernel

/-- L2.EEP.15. -/
theorem test_eep_set_sk_in_status :
    (after (exec .eepSetSk { base with
      gpio := ⟨true, false, true⟩, dev := { base.dev with mode := .status } })).fault = some .eepProtocol :=
  by decide +kernel

theorem test_eep_set_di : (after (exec .eepSetDi base)).gpio = ⟨false, false, true⟩ := by decide +kernel

/-- L2.EEP.17: a frame cut short is discarded. -/
theorem test_eep_clr_cs :
    let t := after (exec .eepClrCs (recvState false [true, true, false, false, false]))
    t.dev.mode = .idle ∧ t.dev.shift = [] ∧ t.dev.busy = false := by decide +kernel

theorem test_eep_clr_cs_starts_write :
    let s := recvState true []
    let t := after (exec .eepClrCs { s with dev := { s.dev with mode := .idle, armed := some (6#8, 0x1234#16) } })
    t.dev.busy = true ∧ t.dev.prog = some (6#8, 0x1234#16) ∧ t.dev.statusPending = true := by decide +kernel

theorem test_eep_clr_sk :
    (after (exec .eepClrSk { base with gpio := ⟨true, true, true⟩ })).gpio = ⟨true, false, true⟩ := by
  decide +kernel

theorem test_eep_clr_di :
    (after (exec .eepClrDi { base with gpio := ⟨true, true, true⟩ })).gpio = ⟨true, true, false⟩ := by
  decide +kernel

theorem test_eep_in : (after (exec .eepIn { base with dev := { base.dev with dout := .one } })).res[0] =
    some 1#32 := by decide +kernel

/-- An undriven line: some value, one free value drawn. -/
theorem test_eep_in_undriven : (after (exec .eepIn base)).draws = 4 ∧
    (after (exec .eepIn base)).status = some 0#32 := by decide +kernel

theorem test_eep_delay : (after (exec .eepDelay base)).status = some 0#32 := by decide +kernel

theorem test_frame_read :
    (after (exec (.frameRead 5#8) (recvState false []))).dev.out =
      [true, false, true, true, true, true, true, false, true, true, true, false, true, true, true, true] :=
  by decide +kernel

theorem test_frame_ewen : (after (exec (.frameEwen 0x2A#6) (recvState false []))).dev.wel = true := by
  decide +kernel

theorem test_frame_ewds : (after (exec (.frameEwds 0x15#6) (recvState true []))).dev.wel = false := by
  decide +kernel

theorem test_frame_write :
    (after (exec (.frameWrite 6#8 0x1234#16) (recvState true []))).dev.armed = some (6#8, 0x1234#16) ∧
    (after (exec (.frameWrite 6#8 0x1234#16) (recvState false []))).dev.armed = none := by decide +kernel

/-- L2.EEP.13 and L2.EEP.14. -/
theorem test_frame_reserved :
    (after (exec (.frameReserved11 0xFF#8) (recvState true []))).fault = some .eepProtocol ∧
    (after (exec (.frameReserved0001 0#6) (recvState true []))).fault = some .eepProtocol ∧
    (after (exec (.frameReserved0010 0#6) (recvState true []))).fault = some .eepProtocol := by
  decide +kernel

/-- The eleventh clock rise of L2.EEP.13. -/
theorem test_wire_reserved :
    let t := after (exec .eepSetSk (recvState false (List.replicate 10 true)))
    t.fault = some .eepProtocol ∧ t.dev.shift = List.replicate 10 true := by decide +kernel

theorem test_dev_complete :
    let t := after (takeAction .devComplete { base with
      dev := { base.dev with busy := true, prog := some (6#8, 0x1234#16), mode := .status, dout := .zero } })
    t.dev.array[6] = 0x1234#16 ∧ t.dev.array[7] = 0xBEEF#16 ∧ t.dev.busy = false ∧ t.dev.dout = .one := by
  decide +kernel

/-- L3.6, without its store: the driver reads word 5. -/
theorem test_eep_read_word : ((eepReadWord 5).run { state := base, env := [], trace := [] }).1.toOption =
    some 0xBEEF := by decide +kernel

/-! ## ECC (L2.ECC) -/

theorem test_ecc_first_bit : calcEcc (1#8 :: List.replicate 511 0#8) = [0xFF#8, 0x0F#8, 0x00#8, 0x00#8] := by
  decide +kernel

theorem test_ecc_last_bit : calcEcc (List.replicate 511 0#8 ++ [0x80#8]) = [0x00#8, 0x00#8, 0xFF#8, 0x0F#8] :=
  by decide +kernel

theorem test_ecc_middle_bit :
    calcEcc ((List.replicate 512 0#8).set 0x155 0x10#8) = [0x53#8, 0x05#8, 0xAC#8, 0x0A#8] := by
  decide +kernel

/-- L2.ECC.10: the pinned pseudo-random block. -/
def pinned : Nat → Nat → List Byte
  | 0, _ => []
  | n + 1, x =>
    let y := (1103515245 * x + 12345) % 0x80000000
    BitVec.ofNat 8 (y / 0x10000) :: pinned n y

theorem test_ecc_pinned : (pinned 512 1).take 4 = [0xC6#8, 0x7E#8, 0x81#8, 0x6B#8] ∧
    calcEcc (pinned 512 1) = [0xAB#8, 0x03#8, 0xAB#8, 0x03#8] := by decide +kernel

theorem test_ecc_calc_checks :
    (after (exec .eccCalc (withArgs 0x0#32 0xFFFFFFFD#32 []))).fault = some .rangeWrap ∧
    (after (exec .eccCalc base)).fault = some .readUnwritten ∧
    goesOn (exec .eccCalc (withArgs 0x0#32 0xFFFFFFFC#32 [])) = false := by decide +kernel

/-! ## The container validator (L2.CTR, with no digest and one byte of tail) -/

/-- A type 1 container with a body of two bytes: the example of L2.CTR, cut to `testPar`. -/
def ctrBytes : List Byte :=
  [0xEF#8, 0xA2#8, 0x82#8, 0xD9#8] ++ List.replicate 4 0#8 ++ toLE 4 0x20 ++ List.replicate 20 0#8 ++
  toLE 4 1 ++ List.replicate 0x38 0x5A#8 ++ List.replicate 0x44 0#8 ++
  List.replicate 4 0#8 ++ toLE 4 0x21 ++ toLE 4 2 ++ toLE 4 2 ++ toLE 4 7 ++ [0#8] ++ [0x11#8, 0x22#8]

/-- The container at 0x8000, of length 0xB7, with one byte changed. -/
def ctrState (at' : Nat) (x : Byte) : State :=
  withArgs 0x8000#32 0xB7#32 (memAt 0x8000 (ctrBytes.set at' x))

/-- What a validator command reports. -/
def ctrReport (r : Result) : Option Word × List (Option Word) := ((after r).status, (after r).res.toList)

/-- L2.CTR.19 and L2.CTR.21: CTR.PARSE looks at no padding. -/
theorem test_ctr_parse :
    ctrReport (exec .ctrParse (ctrState 0x5C 1#8)) =
      (some 0#32, [some 1#32, some 0x20#32, some 0xA0#32, some 0xB5#32, some 2#32, some 0x21#32, some 7#32,
        some 2#32]) := by decide +kernel

/-- L2.CTR.20: CTR.PARSE follows the signature offset it finds. -/
theorem test_ctr_parse_offset :
    ctrReport (exec .ctrParse (ctrState 0x08 0x24#8)) = (some 0x12#32, List.replicate 8 none) := by
  decide +kernel

/-- L2.CTR.2, L2.CTR.3 and L2.CTR.4. -/
theorem test_ctr_verify_header :
    (after (exec .ctrVerify (ctrState 0x00 0xEE#8))).status = some 0x10#32 ∧
    (after (exec .ctrVerify (ctrState 0x08 0x24#8))).status = some 0x11#32 ∧
    (after (exec .ctrVerify (ctrState 0x20 3#8))).status = some 0x12#32 := by decide +kernel

/-- L2.CTR.7, L2.CTR.8, L2.CTR.9 and L2.CTR.10. -/
theorem test_ctr_verify_zeros :
    (after (exec .ctrVerify (ctrState 0x5C 1#8))).status = some 0x13#32 ∧
    (after (exec .ctrVerify (ctrState 0x9F 0x80#8))).status = some 0x13#32 ∧
    (after (exec .ctrVerify (ctrState 0xA1 1#8))).status = some 0x14#32 ∧
    (after (exec .ctrVerify (ctrState 0xB4 1#8))).status = some 0x14#32 := by decide +kernel

/-- 60_exceptions.md R513: with the device field device-dirty and the version field not admitted, no step; with a
dirty magic that does not match, Coherence before BAD_MAGIC. -/
theorem test_ctr_order_of_stops :
    let cut := withArgs 0x8000#32 0xB7#32 (memAt 0x8000 (ctrBytes.take 0xB3))
    goesOn (exec .ctrParse { cut with coh := ⟨[], [0x80A4]⟩ }) = false ∧
    (after (exec .ctrParse { ctrState 0 0xEF#8 with coh := ⟨[], [0x80A4]⟩ })).fault = some .coherence ∧
    (after (exec .ctrVerify { ctrState 0 0xEE#8 with coh := ⟨[], [0x8003]⟩ })).fault = some .coherence ∧
    (after (exec .ctrVerify { ctrState 0 0xEE#8 with coh := ⟨[], [0x8004]⟩ })).status = some 0x10#32 := by
  decide +kernel

/-! ## The port, memory and the agents (L2.SYS.2 to L2.SYS.5) -/

theorem test_port_at_reset : (after (takeAction (.portRd .status) State.reset)).fault = some .readUnwritten ∧
    (after (takeAction (.portRd .cmd) State.reset)).fault = some .illegalPortAccess ∧
    (after (takeAction (.portWr (.res 0) 5#32) State.reset)).fault = some .illegalPortAccess := by
  decide +kernel

theorem test_reserved_word_keeps_status :
    let t := after (takeAction (.portWr .cmd 0x60000000#32) State.reset)
    t.fault = some .illegalCommand ∧ t.status = none := by decide +kernel

theorem test_host_store :
    let t := after (takeAction (.hstSt 0x1000 [0x00#8, 0x11#8])
      { base with mem := memAt 0x1000 (List.replicate 4 0xAA#8) })
    t.mem.read 0x1000 4 = some [0x00#8, 0x11#8, 0xAA#8, 0xAA#8] ∧ t.coh.hostDirty = [0x1000, 0x1001] := by
  decide +kernel

/-! ## Records (L2.REC) -/

def rec1 : List Byte := [1#8, 0#8, 3#8, 0#8] ++ List.replicate 8 0#8 ++ [0x03#8, 0x31#8, 0x47#8, 0x0B#8]
def rec2 : List Byte := [2#8, 0#8, 5#8, 0#8] ++ List.replicate 8 0#8 ++ [0xB4#8, 0x93#8, 0xC7#8, 0x71#8]
def rec3 : List Byte := [1#8, 0x10#8, 5#8, 0#8] ++ List.replicate 8 0#8 ++ [0x8F#8, 0x85#8, 0xAF#8, 0xA8#8]

theorem test_slot_selection : selectSlot rec1 rec2 false = some true ∧
    selectSlot rec1 (rec2.set 12 0xB5#8) true = some false ∧
    selectSlot (rec1.set 12 2#8) (rec2.set 12 0xB5#8) true = none ∧
    selectSlot rec2 rec3 false = some false ∧ selectSlot rec2 rec3 true = some true := by decide +kernel

theorem test_record_fields : recBlock rec3 = { bank := true, index := 1#12 } ∧
    crc32 (rec2.take 2 ++ [6#8, 0#8] ++ List.replicate 8 0#8) = 0x9AF028B7#32 := by decide +kernel

/-! ## Witnesses: a state and operands that meet each obligation's hypotheses, at the bounds of its clauses -/

theorem memAt_get (a : Nat) (bs : List Byte) (i : Nat) (h : i < bs.length) :
    Memory.get (memAt a bs) (a + i) = some bs[i] := by
  have : ∀ (bs : List Byte) (k i : Nat) (h : i < bs.length),
      Memory.get ((bs.zipIdx k).map fun p => (a + p.2, p.1)) (a + (k + i)) = some bs[i] := by
    intro bs
    induction bs with
    | nil => intro k i h; simp at h
    | cons b bs ih =>
      intro k i h
      cases i with
      | zero => simp [Memory.get]
      | succ i =>
        simp only [List.zipIdx_cons, List.map_cons, Memory.get, List.getElem_cons_succ]
        rw [if_neg (by omega), show k + (i + 1) = k + 1 + i by omega]
        exact ih (k + 1) i (by simpa using h)
  simpa [memAt] using this bs 0 i h

theorem holds_memAt {s : State} {a : Nat} {bs : List Byte} (hm : s.mem = memAt a bs) : s.Holds a bs :=
  fun i h => by rw [hm]; exact memAt_get a bs i h

theorem reads_memAt {s : State} {a : Nat} {bs : List Byte} (hm : s.mem = memAt a bs)
    (hd : s.coh.devDirty = []) (hf : a + bs.length ≤ 4294967296) : s.HostReads a bs :=
  ⟨.inr hf, holds_memAt hm, by rw [hd]; intro x hx; cases hx⟩

theorem reads_of {s : State} {a : Nat} {bs : List Byte} (h : s.hostRead a bs.length = .ok bs) :
    s.HostReads a bs := (State.hostRead_eq_ok.mp h).2

theorem field_of {s : State} {b : Buffer} {off v : Nat} (hv : v < 4294967296)
    (h : s.hostRead (b.addr + off) (toLE 4 v).length = .ok (toLE 4 v)) : s.Field32 b off v :=
  ⟨hv, reads_of h⟩

theorem witness_DecodeEncodeIdentity : (Instr.aesEnc 1 false).WellFormed ∧
    (Instr.aesDec 128 true).WellFormed ∧ (Instr.frameWrite 0xFF#8 0xFFFF#16).WellFormed := by decide

theorem witness_EncodeDecodeIdentity : decode (.word 0x2500107F#32) = .ok (.aesDec 128 true) ∧
    decode (.frame (valBits 27 0x505BEEF)) = .ok (.frameWrite 5#8 0xBEEF#16) := by decide

theorem witness_CommandWordSelectsOneRow :
    (∃ r ∈ opcodeMap, 0x110000FF#32 &&& r.mask = r.value) ∧
    ∀ r ∈ opcodeMap, 0x60000000#32 &&& r.mask ≠ r.value := by decide

theorem witness_ReservedWordFaults :
    [0x60000000#32, 0x03000000#32, 0x15000000#32, 0x26000000#32, 0x34000000#32, 0x41000000#32,
      0x52000000#32, 0x30000003#32, 0x31FFFFFF#32, 0x11000100#32, 0x24000080#32, 0x25800000#32,
      0x00000001#32, 0x32000001#32].all (fun w => opcodeMap.all fun r => !r.selects w) = true := by
  decide +kernel

theorem witness_StepRunsIssuedCommand :
    let s := { base with agenda := [.portWr .cmd 0x10000000#32] }
    let t := { base with agenda := [.portWr .cmd 0x60000000#32] }
    (s.fault = none ∧ s.waiting = false ∧ s.agenda = .portWr .cmd 0x10000000#32 :: [] ∧
      decodeWord 0x10000000#32 = .ok .crcInit) ∧
    (t.fault = none ∧ t.waiting = false ∧ t.agenda = .portWr .cmd 0x60000000#32 :: [] ∧
      decodeWord 0x60000000#32 = .error .reservedUnit) := by decide +kernel

theorem witness_PlacedInstructionIsRun :
    (decodeTableWord 32 0x24001000 = some (.aesEnc 1 true) ∧
      tableCode 32 0x24001000 = .word 0x24001000#32) ∧
    (∃ nbits w bits, decodeTableWord nbits w = some (.frameRead 5#8) ∧ tableCode nbits w = .frame bits) ∧
    (∃ nbits w bits, decodeTableWord nbits w = some (.frameReserved11 5#8) ∧
      tableCode nbits w = .frame bits) := by
  refine ⟨by decide +kernel, ⟨16, 0x605, valBits 11 0x605, by decide +kernel, by decide +kernel⟩,
    16, 0x705, valBits 11 0x705, by decide +kernel, by decide +kernel⟩

theorem witness_ClockRiseRunsDecodedFrame :
    let s := recvState false [true, true, false, false, false, false, false, false, true, false]
    let t := recvState false (List.replicate 10 true)
    (s.gpio.cs = true ∧ s.gpio.sk = false ∧ s.gpio.di = true ∧ s.dev.mode = .recv ∧
      decodeFrame (s.dev.shift ++ [true]) = .ok (.frameRead 5#8)) ∧
    (t.gpio.cs = true ∧ t.gpio.sk = false ∧ t.gpio.di = true ∧ t.dev.mode = .recv ∧
      decodeFrame (t.dev.shift ++ [true]) = .ok (.frameReserved11 0xFF#8)) := by decide +kernel

theorem witness_StepStopsOnFaultAndIdles :
    ({ base with fault := some .overlap } : State).fault = some .overlap ∧ base.fault = none ∧
    base.agenda = [] := by decide +kernel

theorem witness_FaultAndRefusedAreSticky :
    ∃ s t : State, takeAction .waitUser s = .next t ∧ s.fault = some .overlap ∧ s.refused = true :=
  ⟨{ base with fault := some .overlap, refused := true }, _, rfl, rfl, rfl⟩

theorem witness_InstructionOutcomes : readsMemory .sysNop = false ∧ unitOf .sysNop ≠ .device ∧
    unitOf (.frameRead 0#8) = .device := by decide

theorem witness_UnitsKeepToTheirState : ∃ t, exec .sysNop base = .next t ∧ unitOf .sysNop ≠ .crc ∧
    unitOf .sysNop ≠ .aes ∧ unitOf .sysNop ≠ .eep ∧ unitOf .sysNop ≠ .ctr := ⟨_, rfl, by decide⟩

/-- The clauses of SYS.FLUSH, SYS.INVAL and of every command with the argument pair: `⊥`, the range that
just fits, the one that just wraps, the empty one. -/
theorem witness_argument_ranges :
    (base.arg[0] = none ∨ base.arg[1] = none) ∧
    (withArgs 0xFFFFFFFF#32 1#32 []).arg[0] = some 0xFFFFFFFF#32 ∧
    (withArgs 0xFFFFFFFF#32 1#32 []).arg[1] = some 1#32 ∧
    Fits 0xFFFFFFFF 1 ∧ ¬ Fits 0xFFFFFFFF 2 ∧ Fits 0xFFFFFFFF 0 :=
  ⟨.inl rfl, rfl, rfl, .inr (by decide), by simp [Fits], .inl rfl⟩

theorem witness_SysInvalResult :
    Fits 0x2000 16 ∧ ¬ Avoids [0x200F] 0x2000 16 ∧ Avoids [0x2010, 0x1FFF] 0x2000 16 :=
  ⟨.inr (by decide), fun h => absurd (h 0x200F (by decide)) (by decide), by
    intro x hx; simp only [List.mem_cons, List.not_mem_nil, or_false] at hx; omega⟩

theorem witness_CrcByteResult : (0x11000100#32).toNat / 0x1000000 = 0x11 ∧
    0x11000100#32 &&& 0x00FFFF00#32 ≠ 0#32 ∧ base.crcAcc = none ∧
    (withArgs 0#32 0#32 []).crcAcc = some 0xFFFFFFFF#32 := by decide +kernel

/-- The clauses of a host-view read: the range, the admission, the coherence, the read itself. -/
theorem witness_ReadStops :
    let m := memAt 0xFFFFFFF8 (List.replicate 8 7#8)
    let s := withArgs 0xFFFFFFF8#32 8#32 m
    ¬ Fits 0xFFFFFFF8 9 ∧ (Fits 0xFFFFFFF7 9 ∧ ¬ s.Admits 0xFFFFFFF7 9) ∧
    (Fits 0xFFFFFFF8 8 ∧ s.Admits 0xFFFFFFF8 8 ∧ ¬ Avoids [0xFFFFFFFF] 0xFFFFFFF8 8) ∧
    s.HostReads 0xFFFFFFF8 (List.replicate 8 7#8) ∧ s.HostReads 0xFFFFFFFF [] := by
  have hr : (withArgs 0xFFFFFFF8#32 8#32 (memAt 0xFFFFFFF8 (List.replicate 8 7#8))).HostReads
      0xFFFFFFF8 (List.replicate 8 7#8) := reads_memAt rfl rfl (by decide)
  refine ⟨by simp [Fits], ⟨.inr (by decide), fun h => ?_⟩,
    ⟨.inr (by decide), hr.2.1.admits, fun h => absurd (h 0xFFFFFFFF (by decide)) (by decide)⟩, hr,
    reads_of rfl⟩
  exact absurd (h 0 (by decide)) (by decide +kernel)

theorem witness_CrcDetectsOneWrongByte : (0x31#8 : Byte) ≠ 0x30#8 := by decide

theorem witness_CrcComputeIsInitRangeFinal :
    ∃ s t u v : State, s.fault = none ∧ exec .crcInit s = .next t ∧ exec .crcRange t = .next u ∧
      u.fault = none ∧ exec .crcFinal u = .next v :=
  ⟨withArgs 0#32 0#32 [], _, _, _, rfl, rfl, rfl, rfl, rfl⟩

theorem witness_AesKeyAndIvLoads :
    let s := cipherState 0x3000#32 0#32 (memAt 0x3000 (List.replicate 16 7#8))
    s.arg[0] = some 0x3000#32 ∧ (List.replicate 16 7#8).length = s.par.keyBytes ∧
    s.HostReads 0x3000 (List.replicate 16 7#8) ∧
    s.HostReads 0x3000 (Vector.replicate 16 (7#8 : Byte)).toList :=
  ⟨rfl, rfl, reads_memAt rfl rfl (by decide), reads_memAt rfl rfl (by decide)⟩

/-- AES.ENC and AES.DEC can complete: one block at the top of the address space, in place, chained. -/
theorem witness_CipherReady :
    let s := cipherState 0xFFFFFFF0#32 0xFFFFFFF0#32 (memAt 0xFFFFFFF0 (List.replicate 16 7#8))
    s.CipherReady true 0xFFFFFFF0#32 0xFFFFFFF0#32 1 (List.replicate 16 0#8) (Vector.replicate 16 1#8) ∧
    s.Holds 0xFFFFFFF0 (ofBlocks [Vector.replicate 16 7#8]) := by
  have hh : (cipherState 0xFFFFFFF0#32 0xFFFFFFF0#32
      (memAt 0xFFFFFFF0 (List.replicate 16 7#8))).Holds 0xFFFFFFF0 (List.replicate 16 7#8) :=
    holds_memAt rfl
  exact ⟨⟨rfl, rfl, rfl, rfl, ⟨rfl, rfl⟩, .inl rfl, ⟨.inr (by decide), .inr (by decide)⟩,
    ⟨hh.admits, hh.admits⟩, ⟨(by intro x hx; cases hx), (by intro x hx; cases hx)⟩⟩, hh⟩

/-- Two chunks of one block each, from the IV, that end at the top of the address space; and the longest
two. -/
theorem witness_CbcChunksChain :
    let s := cipherState 0xFFFFFFE0#32 0xFFFFFFE0#32 (memAt 0xFFFFFFE0 (List.replicate 32 7#8))
    let chunk : List Block := [Vector.replicate 16 7#8]
    s.CipherReady false 0xFFFFFFE0#32 0xFFFFFFE0#32 (chunk.length + chunk.length) (List.replicate 16 0#8)
      (Vector.replicate 16 0#8) ∧
    s.Holds 0xFFFFFFE0 (ofBlocks (chunk ++ chunk)) := by
  have hh : (cipherState 0xFFFFFFE0#32 0xFFFFFFE0#32
      (memAt 0xFFFFFFE0 (List.replicate 32 7#8))).Holds 0xFFFFFFE0 (List.replicate 32 7#8) :=
    holds_memAt rfl
  exact ⟨⟨rfl, rfl, rfl, rfl, ⟨rfl, rfl⟩, .inl rfl, ⟨.inr (by decide), .inr (by decide)⟩,
    ⟨hh.admits, hh.admits⟩, ⟨(by intro x hx; cases hx), (by intro x hx; cases hx)⟩⟩, hh⟩

/-- The exceptions of AES.ENC and AES.DEC, each with the ones before it passed. -/
theorem witness_CipherStops :
    let s := cipherState 0x2000#32 0x2010#32 []
    s.arg[0] = some 0x2000#32 ∧ s.aes.key ≠ none ∧ s.startChain true ≠ none ∧ s.startChain false ≠ none ∧
    base.aes.key = none ∧ base.startChain true = none ∧ base.startChain false = none ∧
    ¬ (0x2008 % 16 = 0 ∧ 0x2010 % 16 = 0) ∧ ¬ NoOverlap 0x2000 0x2010 (16 * 2) ∧
    NoOverlap 0x2000 0x2010 (16 * 1) ∧ ¬ (Fits 0xFFFFFFF0 (16 * 2) ∧ Fits 0x2000 (16 * 2)) ∧
    (Fits 0xFFFFFFF0 (16 * 1) ∧ Fits 0x2000 (16 * 1)) ∧
    ¬ (s.Admits 0x2000 (16 * 1) ∧ s.Admits 0x2010 (16 * 1)) ∧
    ¬ (Avoids [0x200F] 0x2000 (16 * 1) ∧ Avoids [0x200F] 0x2010 (16 * 1)) := by
  refine ⟨rfl, by decide +kernel, by decide +kernel, by decide +kernel, rfl, rfl, rfl, by decide,
    by simp [NoOverlap], by simp [NoOverlap], by simp [Fits], by simp [Fits], ?_, ?_⟩
  · rintro ⟨h, -⟩
    exact absurd (h 0 (by decide)) (by decide +kernel)
  · rintro ⟨h, -⟩
    exact absurd (h 0x200F (by decide)) (by decide)

theorem witness_AesReservedBits :
    ((0x24000080#32).toNat / 0x1000000 = 0x24 ∧ 0x24000080#32 &&& 0x00FFEF80#32 ≠ 0#32) ∧
    ((0x25800000#32).toNat / 0x1000000 = 0x25 ∧ 0x25800000#32 &&& 0x00FFEF80#32 ≠ 0#32) := by decide

theorem witness_AesInPlaceRoundTrip :
    ∃ s t : State, s.arg[0] = s.arg[1] ∧ s.fault = none ∧ exec (.aesEnc 1 false) s = .next t ∧
      t.fault = none :=
  ⟨cipherState 0x20#32 0x20#32 (memAt 0x20 (List.replicate 16 7#8)), _, rfl, rfl, rfl, rfl⟩

theorem witness_EepChipSelect :
    (base.gpio.cs = false ∧ base.dev.statusPending = false ∧ base.dev.busy = false) ∧
    (∃ s : State, s.gpio.cs = false ∧ (s.dev.statusPending = true ∨ s.dev.busy = true)) ∧
    ((recvState true []).gpio.cs = true ∧ (recvState true []).dev.armed = none) ∧
    ∃ s : State, s.gpio.cs = true ∧ s.dev.armed = some (6#8, 0x1234#16) :=
  ⟨⟨rfl, rfl, rfl⟩, ⟨{ base with dev := { base.dev with statusPending := true } }, rfl, .inl rfl⟩, ⟨rfl, rfl⟩,
    ⟨{ recvState true [] with dev := { base.dev with armed := some (6#8, 0x1234#16) } }, rfl, rfl⟩⟩

/-- The state of a clock rise in the given mode. -/
def clockState (mode : Mode) (shift out : List Bool) (di : Bool) : State :=
  { base with gpio := ⟨true, false, di⟩, dev := { base.dev with mode := mode, shift := shift, out := out } }

theorem witness_EepClockRiseByMode :
    (clockState .idle [] [] true).dev.mode = .idle ∧
    (clockState .out [] [true] false).dev.out = true :: [] ∧ (clockState .out [] [] false).dev.out = [] ∧
    (clockState .status [] [] false).gpio.di = false ∧ (clockState .status [] [] true).gpio.di = true ∧
    (clockState .recv [] [] false).dev.shift = [] ∧
    (∀ m sh o di, (clockState m sh o di).gpio.sk = false ∧ (clockState m sh o di).gpio.cs = true) ∧
    FramePartial [true] ∧ FramePartial ([true, true, false] ++ List.replicate 7 false) ∧
    FramePartial ([true, false, true] ++ List.replicate 23 false) :=
  ⟨rfl, rfl, rfl, rfl, rfl, rfl, fun _ _ _ _ => ⟨rfl, rfl⟩, .inr ⟨rfl, .inl (by decide)⟩,
    .inr ⟨rfl, .inl (by decide)⟩, .inr ⟨rfl, .inr ⟨by decide, rfl, rfl⟩⟩⟩

theorem witness_EepInResult : base.dev.dout = .z ∧
    ({ base with dev := { base.dev with dout := .zero } } : State).dev.dout = .zero ∧
    ({ base with dev := { base.dev with dout := .one } } : State).dev.dout = .one := ⟨rfl, rfl, rfl⟩

theorem witness_FrameReactions : (recvState true []).gpio.cs = true ∧ (recvState true []).dev.mode = .recv ∧
    (recvState true []).dev.wel = true ∧ (recvState false []).dev.wel = false := ⟨rfl, rfl, rfl, rfl⟩

theorem witness_FrameOutsideReceive :
    encode (.frameRead 5#8) = .frame (valBits 11 0x605) ∧ base.gpio.cs = false ∧
    ((clockState .status [] [] false).gpio.cs = true ∧ (clockState .status [] [] false).dev.mode = .status) ∧
    (let s := clockState .out [] (List.replicate 11 true) false
     s.dev.out.length ≤ 16 ∧ 11 ≤ s.dev.out.length ∧ (valBits 11 0x605).length = 11 ∧
      s.dev.out[10]? = some true) ∧
    (let s := clockState .out [] (List.replicate 10 true) false
     s.gpio.cs = true ∧ s.dev.mode = .out ∧ s.dev.out.length < (valBits 11 0x605).length) := by
  decide +kernel

theorem witness_WireFrameIsExecuted :
    encode (.frameRead 5#8) = .frame (valBits 11 0x605) ∧
    encode (.frameReserved11 5#8) = .frame (valBits 11 0x705) ∧
    (recvState true []).gpio.cs = true ∧ (recvState true []).gpio.sk = false ∧
    (recvState true []).dev.mode = .recv ∧ (recvState true []).dev.shift = [] ∧
    (recvState true []).fault = none := by decide +kernel

theorem witness_ReadWordReturnsStoredWord : base.fault = none ∧ base.waiting = false ∧
    base.gpio.cs = false ∧ base.gpio.sk = false ∧ base.dev.busy = false ∧ base.dev.statusPending = false ∧
    base.dev.armed = none := by decide +kernel

theorem witness_WriteFrameProgramsWord :
    ∃ s t u : State, s.gpio.cs = true ∧ s.dev.mode = .recv ∧ s.dev.wel = true ∧
      exec (.frameWrite 0xFF#8 0x1234#16) s = .next t ∧ exec .eepClrCs t = .next u :=
  ⟨recvState true [], _, _, rfl, rfl, rfl, rfl, rfl⟩

theorem witness_EepromWordsChangeOnlyAtCompletion :
    ∃ t : State, takeAction .waitUser base = .next t ∧ ∀ v, base.dev.prog ≠ some (0#8, v) :=
  ⟨_, rfl, fun v h => by cases h⟩

theorem witness_DevCompleteResult : base.dev.busy = false ∧
    ∃ s : State, s.dev.busy = true ∧ s.dev.prog = some (0xFF#8, 0x1234#16) :=
  ⟨rfl, { base with dev := { base.dev with busy := true, prog := some (0xFF#8, 0x1234#16) } }, rfl, rfl⟩

/-- A block that ends where its code begins, the code at the top of the address space. -/
theorem ecc_state (data code : List Byte) (hd : data.length = 512) (hc : code.length = 4) :
    let s := withArgs 0xFFFFFDFC#32 0xFFFFFFFC#32 (memAt 0xFFFFFDFC (data ++ code))
    (s.Admits 0xFFFFFDFC 512 ∧ s.Admits 0xFFFFFFFC 4) ∧ s.HostReads 0xFFFFFDFC data := by
  intro s
  have hh : s.Holds 0xFFFFFDFC (data ++ code) := holds_memAt rfl
  have ha := hh.admits
  rw [List.length_append, hd, hc] at ha
  refine ⟨⟨fun i hi => ha i (by omega), fun i hi => ?_⟩, .inr (by omega), fun i hi => ?_, ?_⟩
  · have := ha (512 + i) (by omega)
    rwa [show 0xFFFFFDFC + (512 + i) = 0xFFFFFFFC + i by omega] at this
  · rw [hh i (by rw [List.length_append]; omega), List.getElem_append_left hi]
  · intro x hx; cases hx

theorem witness_EccCalcResult :
    ∃ (s : State) (data : List Byte), s.arg[0] = some 0xFFFFFDFC#32 ∧ s.arg[1] = some 0xFFFFFFFC#32 ∧
    (Fits 0xFFFFFDFC 512 ∧ Fits 0xFFFFFFFC 4) ∧ ¬ (Fits 0xFFFFFE01 512 ∧ Fits 0xFFFFFFFC 4) ∧
    ¬ (Fits 0xFFFFFDFC 512 ∧ Fits 0xFFFFFFFD 4) ∧
    (s.Admits 0xFFFFFDFC 512 ∧ s.Admits 0xFFFFFFFC 4) ∧ ¬ Avoids [0xFFFFFFFB] 0xFFFFFDFC 512 ∧
    data.length = 512 ∧ s.HostReads 0xFFFFFDFC data ∧ ¬ base.Admits 0xFFFFFDFC 512 := by
  have hd : (List.replicate 512 1#8 : List Byte).length = 512 := List.length_replicate
  generalize (List.replicate 512 1#8 : List Byte) = data at hd
  obtain ⟨ha, hr⟩ := ecc_state data [0#8, 0#8, 0#8, 0#8] hd rfl
  exact ⟨_, data, rfl, rfl, ⟨.inr (by decide), .inr (by decide)⟩, by simp [Fits], by simp [Fits], ha,
    fun h => absurd (h 0xFFFFFFFB (by decide)) (by decide), hd, hr,
    fun h => absurd (h 0 (by decide)) (by decide +kernel)⟩

theorem witness_EccCodeProperties : (List.replicate 512 1#8 : List Byte).length = 512 ∧
    (List.replicate 512 1#8 : List Byte)[511]? = some 1#8 := by decide +kernel

/-- The buffer of the test container. -/
def ctrBuf : Buffer := { addr := 0x8000, len := 0xB7 }

/-- The test container meets what CTR.PARSE asks, and the checks of CTR.VERIFY up to its bounds. -/
theorem witness_CtrParseResult :
    let s := ctrState 0 0xEF#8
    (s.arg[0] = some 0x8000#32 ∧ s.arg[1] = some 0xB7#32 ∧ Fits 0x8000 0xB7 ∧ ¬ Fits 0xFFFFFF00 0x200) ∧
    s.ParsesAs ctrBuf { sig := .type1, sigOff := 0x20, bodyOff := 0xB5, bodySize := 2, device := 0x21,
                        version := 7, infoType := 2 } := by
  refine ⟨⟨rfl, rfl, .inr (by decide), by simp [Fits]⟩, ?_⟩
  exact ⟨⟨by decide, reads_of (by decide +kernel)⟩, by decide, field_of (by decide) (by decide +kernel),
    by decide, field_of (by decide) (by decide +kernel), by decide +kernel,
    field_of (by decide) (by decide +kernel), field_of (by decide) (by decide +kernel),
    field_of (by decide) (by decide +kernel), field_of (by decide) (by decide +kernel), rfl,
    by decide +kernel⟩

/-- The rejections: a wrong magic, a buffer too short at each bound, a wrong offset, a wrong type, a body
that does not fit. -/
theorem witness_CtrRejections :
    ((ctrState 0 0xEE#8).HostReads 0x8000 [0xEE#8, 0xA2#8, 0x82#8, 0xD9#8] ∧
      [0xEE#8, 0xA2#8, 0x82#8, 0xD9#8] ≠ testPar.magic.toList) ∧
    (ctrState 0 0xEF#8).MagicOk { addr := 0x8000, len := 11 } ∧
    (ctrState 8 0xB4#8).Field32 ctrBuf 8 0xB4 ∧ ctrBuf.len < 0xB4 + 4 ∧
    (ctrState 0x20 3#8).Field32 ctrBuf 0x20 3 ∧
    ({ addr := 0x8000, len := 0xB4 } : Buffer).len < SigType.type1.infoOff + infoSize testPar ∧
    (ctrState 0xAC 3#8).Field32 ctrBuf (SigType.type1.infoOff + 0x0C) 3 ∧
    ctrBuf.len < SigType.type1.infoOff + infoSize testPar + 3 ∧ ((3 : Nat) ≠ 1 ∧ (3 : Nat) ≠ 2) :=
  ⟨⟨reads_of (by decide +kernel), by decide⟩, ⟨by decide, reads_of (by decide +kernel)⟩,
    field_of (by decide) (by decide +kernel), by decide, field_of (by decide) (by decide +kernel),
    by decide, field_of (by decide) (by decide +kernel), by decide, by decide⟩

theorem witness_BoundsPass : (ctrState 0 0xEF#8).BoundsPass ctrBuf .type1 2 :=
  ⟨⟨by decide, reads_of (by decide +kernel)⟩, by decide, field_of (by decide) (by decide +kernel),
    by decide, field_of (by decide) (by decide +kernel), by decide,
    field_of (by decide) (by decide +kernel), by decide⟩

/-- The last checks of CTR.VERIFY, each failing at its first or last byte, and all passing. -/
theorem witness_CtrVerifyZeros :
    ((ctrState 0x9F 0x80#8).HostReads (0x8000 + 0x24 + 0x38) (List.replicate 0x43 0#8 ++ [0x80#8])) ∧
    ((ctrState 0xA3 1#8).PadZero ctrBuf .type1 ∧
      (ctrState 0xA3 1#8).HostReads (0x8000 + 0xA0) [0#8, 0#8, 0#8, 1#8]) ∧
    ((ctrState 0xB4 1#8).ReservedZero ctrBuf .type1 ∧
      (ctrState 0xB4 1#8).HostReads (0x8000 + 0xA0 + 0x14 + 0) [1#8]) ∧
    (ctrState 0 0xEF#8).TailZero ctrBuf .type1 ∧
    (ctrState 0 0xEF#8).HostReads (0x8000 + (0xA0 + infoSize testPar)) [0x11#8, 0x22#8] ∧
    (ctrState 0 0xEF#8).HostReads (0x8000 + 0xA0 + 0x10) [] :=
  ⟨reads_of (by decide +kernel), ⟨reads_of (by decide +kernel), reads_of (by decide +kernel)⟩,
    ⟨reads_of (by decide +kernel), reads_of (by decide +kernel)⟩, reads_of (by decide +kernel),
    reads_of (by decide +kernel), reads_of (by decide +kernel)⟩

/-- A field of four bytes that is not admitted, at its first and at its last byte; one that holds a device-dirty
byte there; and the empty field, which does not stop. -/
theorem witness_FieldStops :
    let s := ctrState 0 0xEF#8
    ¬ s.Admits 0x7FFF 4 ∧ ¬ s.Admits 0x80B4 4 ∧
    (s.Admits 0x8000 4 ∧ ¬ Avoids [0x8000] 0x8000 4 ∧ ¬ Avoids [0x8003] 0x8000 4 ∧
      Avoids [0x7FFF, 0x8004] 0x8000 4) ∧
    s.Admits 0x80B4 0 ∧ Avoids [0x80B4] 0x80B4 0 ∧
    (let cut : State := { withArgs 0x8000#32 0xB7#32 (memAt 0x8000 (ctrBytes.take 3)) with coh := ⟨[], [0x8000]⟩ }
     exec .ctrParse cut.coherent = .fault .notAdmitted ∧ exec .ctrVerify cut.coherent = .fault .notAdmitted) := by
  refine ⟨fun h => absurd (h 0 (by decide)) (by decide +kernel),
    fun h => absurd (h 3 (by decide)) (by decide +kernel), ⟨?_, ?_, ?_, ?_⟩,
    fun _ h => absurd h (Nat.not_lt_zero _), ?_,
    rfl, rfl⟩
  · exact State.Holds.admits (bs := [0xEF#8, 0xA2#8, 0x82#8, 0xD9#8]) (reads_of (by decide +kernel)).2.1
  · exact fun h => absurd (h 0x8000 (by decide)) (by decide)
  · exact fun h => absurd (h 0x8003 (by decide)) (by decide)
  · intro x hx; simp only [List.mem_cons, List.not_mem_nil, or_false] at hx; omega
  · intro x hx; omega

/-- A device-dirty field in a command all of whose accesses are admitted. -/
theorem witness_FieldStops_coherence :
    let s : State := { ctrState 0 0xEE#8 with coh := ⟨[], [0x8000]⟩ }
    s.Admits 0x8000 4 ∧ ¬ Avoids s.coh.devDirty 0x8000 4 ∧ exec .ctrParse s.coherent ≠ .fault .notAdmitted ∧
    exec .ctrVerify s.coherent ≠ .fault .notAdmitted := by
  intro s
  have hh : (ctrState 0 0xEE#8).Holds 0x8000 [0xEE#8, 0xA2#8, 0x82#8, 0xD9#8] := (reads_of (by decide +kernel)).2.1
  have hp : goesOn (exec .ctrParse s.coherent) = true := by decide +kernel
  have hv : goesOn (exec .ctrVerify s.coherent) = true := by decide +kernel
  exact ⟨hh.admits, fun h => absurd (h 0x8000 (by decide)) (by decide), ne_stop hp, ne_stop hv⟩

/-- A digest that matches, and one that does not. -/
theorem witness_CtrVerifyHash :
    ([] : List Byte) = (Config.hash 0 [0x11#8, 0x22#8]).toList ∧
    ∃ hash : List Byte, hash.length = 1 ∧ hash ≠ (Config.hash 1 [0x11#8, 0x22#8]).toList := by
  refine ⟨(List.eq_nil_of_length_eq_zero (Vector.length_toList)).symm,
    (Config.hash 1 [0x11#8, 0x22#8]).toList.map (fun x => x ^^^ 1#8), by simp, fun h => ?_⟩
  obtain ⟨x, hx⟩ := List.length_eq_one_iff.mp (Vector.length_toList (xs := Config.hash 1 [0x11#8, 0x22#8]))
  rw [hx] at h
  simp only [List.map_cons, List.map_nil, List.cons.injEq, and_true] at h
  have : (1#8 : Byte) = 0#8 := by simpa using congrArg (fun y => x ^^^ y) h
  exact absurd this (by decide)

theorem witness_CtrFailureClearsResults :
    ∃ t : State, exec .ctrVerify (ctrState 0 0xEE#8) = .next t ∧ (ctrState 0 0xEE#8).fault = none ∧
      t.fault = none ∧ t.status ≠ some 0#32 ∧ t.waiting = false :=
  ⟨_, rfl, rfl, by decide +kernel, by decide +kernel, by decide +kernel⟩

/-- The container with its first and last signature bytes changed. -/
theorem witness_CtrVerifyIgnoresSignature :
    let s := ctrState 0 0xEF#8
    let m' := (s.mem.write 0x8024 [0#8]).write 0x805B [1#8]
    s.arg[0] = some 0x8000#32 ∧ s.Holds (0x8000 + 0x20) (toLE 4 SigType.type1.tag) ∧
    (∀ a, a < 0x8024 ∨ 0x8024 + SigType.type1.sigLen ≤ a → Memory.get m' a = s.mem.get a) ∧
    Memory.get m' 0x8024 ≠ s.mem.get 0x8024 := by
  refine ⟨rfl, (reads_of (by decide +kernel)).2.1, fun a ha => ?_, by decide +kernel⟩
  have h : a < 0x8024 ∨ 0x805C ≤ a := ha
  rw [Memory.get_write_outside _ _ _ _ (by simp only [List.length_singleton]; omega),
    Memory.get_write_outside _ _ _ _ (by simp only [List.length_singleton]; omega)]

theorem witness_StepKeepsInvariant :
    ∃ s t : State, s.Inv ∧ step s = .next t ∧ s.agenda = [.portWr .cmd 0x10000000#32] :=
  ⟨{ State.reset with agenda := [.portWr .cmd 0x10000000#32] }, _,
    ⟨rfl, ⟨rfl, by intro x hx; cases hx⟩, ⟨rfl, by intro x hx; cases hx⟩, .inl rfl, fun h => absurd rfl h,
      (by intro k hk; cases hk), Device.atReset_inv _ _, .nil, (by intro p hp; cases hp)⟩, rfl, rfl⟩

theorem witness_ResetEventsGiveResetValues :
    (∀ v, base.dev.prog ≠ some (0#8, v)) ∧
    (∃ q ∈ (State.launch { Demo.launch with nand :=
        [⟨⟨false, 2#12⟩, 0, [7#8]⟩, ⟨⟨false, 2#12⟩, 1, [7#8]⟩] }).nand, q.page = 0) :=
  ⟨(fun v h => nomatch h), ⟨⟨false, 2#12⟩, 0, pageOf [7#8]⟩, by decide +kernel, rfl⟩

theorem witness_InterruptEffect :
    (∃ s : State, s.dev.busy = true ∧ s.dev.prog = some (0xFF#8, 0x1234#16)) ∧ base.dev.busy = false ∧
    ∃ s : State, s.restarts = [.waitUser] :: [[]] :=
  ⟨⟨{ base with dev := { base.dev with busy := true, prog := some (0xFF#8, 0x1234#16) } }, rfl, rfl⟩, rfl,
    { base with restarts := [[.waitUser], []] }, rfl⟩

theorem witness_PortAccessRules : base.waiting = false ∧ base.status = none ∧ base.res[(7 : Fin 8)] = none ∧
    base.arg[(3 : Fin 4)] = none ∧ (base.done).status = some 0#32 ∧
    (base.setRes 7 5#32).res[(7 : Fin 8)] = some 5#32 ∧
    (base.setArg 3 5#32).arg[(3 : Fin 4)] = some 5#32 := by decide +kernel

theorem witness_HostMemoryActions :
    let s := withArgs 0#32 0#32 (memAt 0xFFFFFFFF [7#8])
    s.waiting = false ∧ s.HostReads 0xFFFFFFFF [7#8] ∧ ¬ Fits 0xFFFFFFFF 2 ∧
    (Fits 0xFFFFFFFE 2 ∧ ¬ s.Admits 0xFFFFFFFE 2) ∧ (Fits 0xFFFFFFFF 1 ∧ s.Admits 0xFFFFFFFF 1) := by
  have hr : (withArgs 0#32 0#32 (memAt 0xFFFFFFFF [7#8])).HostReads 0xFFFFFFFF [7#8] :=
    reads_memAt rfl rfl (by decide)
  exact ⟨rfl, hr, by simp [Fits], ⟨.inr (by decide), fun h => absurd (h 0 (by decide)) (by decide +kernel)⟩,
    .inr (by decide), hr.2.1.admits⟩

/-- A write of a page at address 0, and a read of it back to the same place. -/
theorem nand_write_read (data : List Byte) (hl : data.length = 2048) :
    let b : NandBlock := { bank := false, index := 1#12 }
    let s := withArgs 0#32 0#32 (memAt 0 data)
    let t := { s with nand := [{ block := b, page := 0, data := data }], reply := .nand .ok }
    s.HostReads 0 data ∧ takeAction (.nandWrite b 0 (some 0) none true) s = .next t ∧
    takeAction (.nandRead b 0 0 .ok []) t = .next { t.storeHost 0 data with reply := .nand .ok } := by
  intro b s t
  have hr : s.HostReads 0 data := reads_memAt rfl rfl (by omega)
  refine ⟨hr, ?_, ?_⟩
  · show s.complete (s.nandWrite b 0 (some 0) none true) = _
    have h : s.hostRead 0 pageSize = .ok data := State.hostRead_of_reads hr hl
    simp only [State.nandWrite, State.optRead, h]
    rfl
  · show t.complete (t.nandRead b 0 0 .ok []) = _
    have hk : nandKnown b 0 t.nand = some data := rfl
    have hs : t.hostWrite 0 data = .ok (t.storeHost 0 data) :=
      State.hostWrite_eq_ok.mpr ⟨hr.1, hr.2.1.admits, rfl⟩
    simp only [State.nandRead, hk, Option.getD_some, hs]
    rfl

theorem witness_NandDeliversWrittenPage :
    ∃ (s t v : State) (b : NandBlock) (data : List Byte), s.fault = none ∧ s.waiting = false ∧
      0 < s.par.pagesPerBlock ∧ data.length = 2048 ∧ s.HostReads 0 data ∧
      takeAction (.nandWrite b 0 (some 0) none true) s = .next t ∧ t.fault = none ∧
      takeAll [] t = .next t ∧ takeAction (.nandRead b 0 0 .ok []) t = .next v ∧ v.fault = none := by
  have hl : (List.replicate 2048 7#8 : List Byte).length = 2048 := List.length_replicate
  generalize (List.replicate 2048 7#8 : List Byte) = data at hl
  obtain ⟨h1, h2, h3⟩ := nand_write_read data hl
  exact ⟨_, _, _, _, data, rfl, rfl, Nat.zero_lt_one, hl, h1, h2, rfl, rfl, h3, rfl⟩

theorem witness_UserConfirmation : base.waiting = false ∧
    ({ base with waiting := true } : State).waiting = true ∧
    [Action.nandErase ⟨false, 0#12⟩ true, .nandWrite ⟨false, 0#12⟩ 0 none none false,
      .nandRead ⟨false, 0#12⟩ 0 0 .ok [], .other, .waitUser, .hstLd 0 0].all
      (fun a => a != .devComplete && a != .interrupt [] none && a != .userEvent .confirm) = true :=
  ⟨rfl, rfl, by decide⟩

theorem witness_SlotSelection : recValid rec1 = true ∧ recValid rec2 = true ∧ recValid rec3 = true ∧
    recValid (rec1.set 15 0#8) = false ∧ recVersion rec1 = 3 ∧ recVersion rec2 = 5 ∧ recVersion rec3 = 5 := by
  decide +kernel

theorem witness_RecordValidity : (rec1.take 12).length = 12 ∧ rec1.length = 16 ∧
    rec1[0]? ≠ some 0#8 ∧ rec1[11]? ≠ some 1#8 ∧ recValid rec1 = true := by decide +kernel

/-- A run in which the installation completes: every event that the clauses speak of occurs. -/
theorem witness_InstallationOrdering : ∃ r : Run, r.trace = [] ∧
    let events := (hostMain.run r).2.trace
    .called (.invalidate true) ∈ events ∧
    (∃ e ∈ events, e.destroys = some ⟨false, 2#12⟩) ∧
    .took (.nandRead ⟨false, 2#12⟩ 0 96 .ok Demo.image) (.nand .ok) ∈ events ∧
    .called (.commit true) ∈ events ∧ .called (.invalidate false) ∈ events := by
  obtain ⟨t, h⟩ := Demo.installs
  obtain ⟨env, tr, hs, hr⟩ := h.run
  refine ⟨⟨State.launch Demo.launch, env, []⟩, rfl, ?_⟩
  have hm : ∀ e ∈ Demo.events, e ∈ (hostMain.run ⟨State.launch Demo.launch, env, []⟩).2.trace := by
    rw [hr]
    exact fun e he => hs.1.subset he
  exact ⟨hm _ (by simp [Demo.events]), ⟨_, hm (.took (.nandErase ⟨false, 2#12⟩ true) (.nand .ok))
      (by simp [Demo.events]), rfl⟩, hm _ (by simp [Demo.events]), hm _ (by simp [Demo.events]),
    hm _ (by simp [Demo.events])⟩

theorem witness_RestartSelectsSlot : (State.launch Demo.launch).AtReset ∧
    (State.launch Demo.launch).StoreReady Demo.key :=
  ⟨State.launch_atReset _, Demo.launch_isDemo.working.ready⟩

/-- A run of the instance from its launch that an interruption ends, with the calls of the store that it makes
and whose return it sees. -/
structure CutRun (calls : List Event) (r r' : Run) : Prop where
  start : r.trace = [] ∧ r.state.AtReset ∧ r.state.StoreReady Demo.key
  run : hostMain.run r = (.error .interrupted, r')
  ready : r'.state.StoreReady Demo.key
  record : ∀ slot, r.state.bankRecord Demo.key slot = Demo.record slot
  calls : r'.trace.filter Event.isCall = calls

theorem cutRun {T : List Event} (hT : T.filter Event.isCall = T)
    (h : ∃ t : State, t.IsDemo ∧ hostMain.Ends false (State.launch Demo.launch) (.error .interrupted) t T) :
    ∃ r r' : Run, CutRun T r r' := by
  obtain ⟨t, ht, he⟩ := h
  obtain ⟨env, tr, hs, hr⟩ := he.run
  exact ⟨_, _, ⟨rfl, State.launch_atReset _, Demo.launch_isDemo.working.ready⟩, hr, ht.working.ready,
    Demo.launch_record, hs.2.trans hT⟩

theorem demo_records : recValid (Demo.record false) = true ∧ crc32 ((Demo.record true).take 12) ≠ 0#32 := by
  decide +kernel

/-- Whether a call is in the trace can be read off the calls. -/
theorem CutRun.mem_iff {T : List Event} {r r' : Run} (h : CutRun T r r') {e : Event} (he : e.isCall = true) :
    e ∈ r'.trace ↔ e ∈ T := by
  rw [← h.calls, List.mem_filter, and_iff_left he]

/-- Before the first durable action: slot 0 is untouched. -/
theorem witness_CrashSafety_untouched : ∃ r r' : Run, CutRun [] r r' ∧
    recValid (r.state.bankRecord Demo.key false) = true ∧
    .called (.invalidate false) ∉ r'.trace ∧ .called (.commit false) ∉ r'.trace := by
  obtain ⟨r, r', h⟩ := cutRun rfl Demo.cut_first
  exact ⟨r, r', h, by rw [h.record]; exact demo_records.1, by rw [h.mem_iff rfl]; simp,
    by rw [h.mem_iff rfl]; simp⟩

/-- After the invalidation of slot 1, before its commit. -/
theorem witness_CrashSafety_invalidated : ∃ (T : List Event) (r r' : Run), CutRun T r r' ∧
    recValid (r.state.bankRecord Demo.key false) = true ∧
    .called (.invalidate false) ∉ r'.trace ∧ .called (.commit false) ∉ r'.trace ∧
    .returned (.invalidate true) true ∈ r'.trace ∧ .called (.commit true) ∉ r'.trace ∧
    crc32 ((r.state.bankRecord Demo.key true).take 12) ≠ 0#32 := by
  obtain ⟨r, r', h⟩ := cutRun rfl Demo.cut_invalidated
  exact ⟨_, r, r', h, by rw [h.record]; exact demo_records.1, by rw [h.mem_iff rfl]; simp,
    by rw [h.mem_iff rfl]; simp, by rw [h.mem_iff rfl]; simp, by rw [h.mem_iff rfl]; simp,
    by rw [h.record]; exact demo_records.2⟩

/-- After the commit of slot 1, before slot 0 is retired. -/
theorem witness_CrashSafety_committed : ∃ (T : List Event) (r r' : Run), CutRun T r r' ∧
    recValid (r.state.bankRecord Demo.key false) = true ∧ .returned (.commit true) true ∈ r'.trace := by
  obtain ⟨r, r', h⟩ := cutRun rfl Demo.cut_committed
  exact ⟨_, r, r', h, by rw [h.record]; exact demo_records.1, by rw [h.mem_iff rfl]; simp⟩

end Sys2Proof.Machine
end

/-! # Proofs: the statements of 10_state.md

First the rules of the single operations (raising a fault, the port, the device's reactions), then one
inversion of `exec` (`exec_next`), from which the frame of every instruction, the sticky marks and the
invariant are read off. -/

namespace Sys2Proof.Machine

section StateRules

variable {s t : State}

/-! ### Raising a fault -/

/-- The first fault is kept, else the new one is set, and nothing else changes (10_state.md R60). -/
theorem State.raise_eq (s : State) (k : FaultKind) :
    s.raise k = { s with fault := some (s.fault.getD k) } := by
  unfold State.raise
  cases s.fault <;> rfl

theorem State.raise_of_noFault (h : s.fault = none) (k : FaultKind) :
    s.raise k = { s with fault := some k } := by
  rw [State.raise_eq, h, Option.getD_none]

/-! ### The command port -/

theorem takeAction_portWr (hw : s.waiting = false) (r : PortReg) (v : Word) :
    takeAction (.portWr r v) s = portWrite r v s :=
  takeAction_host hw (by simp) (by simp) (by simp)

theorem takeAction_portRd (hw : s.waiting = false) (r : PortReg) :
    takeAction (.portRd r) s = portRead r s :=
  takeAction_host hw (by simp) (by simp) (by simp)

theorem issue_of_decode {w : Word} {i : Instr} (h : decodeWord w = .ok i) (s : State) :
    issue w s = exec i s := by rw [issue, h]

theorem issue_of_reject {w : Word} {e : Reject} (h : decodeWord w = .error e) (s : State) :
    issue w s = .next (s.raise .illegalCommand) := by rw [issue, h]

/-- The step of a state whose next action issues a command word. -/
theorem step_issue {w : Word} {rest : List Action} (hf : s.fault = none) (hw : s.waiting = false)
    (ha : s.agenda = .portWr .cmd w :: rest) : step s = issue w (s.begin rest) := by
  rw [step_cons hf ha, takeAction_portWr (s := s.begin rest) hw]
  rfl

theorem portRead_ok {r : PortReg} {v : Word} (h : s.portVal r = .ok v) :
    portRead r s = .next { s.markRead r with reply := .word v } := by
  rw [portRead, h]
  rfl

theorem portRead_raise {r : PortReg} {k : FaultKind} (h : s.portVal r = .error (.raise k)) :
    portRead r s = .next ((s.markRead r).raise k) := by
  rw [portRead, h]
  rfl

/-! ### The frame that a clock rise completes -/

/-- The device reacts to a frame, or the frame is a reserved one. -/
theorem react_ok_or_protocol (d : Device) (i : Instr) :
    (∃ e, d.react i = .ok e) ∨ d.react i = .error (.raise .eepProtocol) := by
  rcases react_cases d i with ⟨a, h⟩ | h | h | ⟨a, v, h⟩ | h | ⟨h, -⟩
  · exact .inl ⟨_, h⟩
  · exact .inl ⟨_, h⟩
  · exact .inl ⟨_, h⟩
  · exact .inl ⟨_, h⟩
  · exact .inr h
  · exact .inl ⟨_, h⟩

/-- A wire frame is encoded as bits. -/
theorem encode_of_device {i : Instr} (h : unitOf i = .device) : ∃ bits, encode i = .frame bits := by
  cases i <;> simp [unitOf, encode, frame11, frame00] at h ⊢

/-- A frame at a receiving device is the device's reaction to it (42_eeprom.md R322). -/
theorem exec_frame_recv {i : Instr} (hi : unitOf i = .device) (hc : s.gpio.cs = true)
    (hm : s.dev.mode = .recv) :
    exec i s = s.complete ((s.dev.react i).map fun d => { s with dev := d }) := by
  obtain ⟨bits, hb⟩ := encode_of_device hi
  rw [exec_frame hb, State.frameOutcome, if_pos hc, hm]

/-- The clock rise that brings a frame's last bit is the device's reaction to the frame (R300, R322). -/
theorem execEepSetSk_frame {i : Instr} (hc : s.gpio.cs = true) (hk : s.gpio.sk = false)
    (hm : s.dev.mode = .recv) (hi : decodeFrame (s.dev.shift ++ [s.gpio.di]) = .ok i) :
    execEepSetSk s = s.complete ((Device.react { s.dev with shift := s.dev.shift ++ [s.gpio.di] } i).map
      fun d => { s.setLine .sk true with dev := d }.done) := by
  have hr := skRecv_complete (d := s.dev) (frameComplete_of_decode hi) hi
  rw [execEepSetSk, hc, hk, ← hr]
  simp only [Device.skEdge, hm]
  cases s.dev.skRecv s.gpio.di <;> rfl

end StateRules

/-! ### What the device's reactions keep -/

section DeviceReactions

variable {d e : Device}

/-- The device went from d, with chip-select at cs, to e, with chip-select at cs': it kept its words and, if
it had it, its invariant. -/
structure Device.Reaction (d : Device) (cs : Bool) (e : Device) (cs' : Bool) : Prop where
  array : e.array = d.array
  inv : d.Inv cs → e.Inv cs'

theorem Device.Reaction.refl (d : Device) (cs : Bool) : d.Reaction cs d cs := ⟨rfl, id⟩

theorem csRise_array (d : Device) : d.csRise.array = d.array := by
  unfold Device.csRise
  split <;> rfl

theorem csFall_array (d : Device) : d.csFall.array = d.array := by
  unfold Device.csFall
  dsimp only
  split <;> rfl

theorem react_array {i : Instr} (h : d.react i = .ok e) : e.array = d.array := by
  rcases react_cases d i with ⟨a, hr⟩ | hr | hr | ⟨a, v, hr⟩ | hr | ⟨hr, -⟩ <;> rw [hr] at h <;> cases h <;>
    rfl

theorem skRecv_array {b : Bool} (h : d.skRecv b = .ok e) : e.array = d.array := by
  unfold Device.skRecv at h
  split at h
  · cases h; rfl
  · dsimp only at h
    split at h
    · split at h
      · exact (react_array h).trans rfl
      · cases h; rfl
    · cases h; rfl

theorem skOut_array (d : Device) : d.skOut.array = d.array := by
  unfold Device.skOut
  split <;> rfl

theorem skOut_mode (d : Device) : d.skOut.mode = d.mode := by
  unfold Device.skOut
  split <;> rfl

theorem skEdge_array {rise di : Bool} (h : d.skEdge rise di = .ok e) : e.array = d.array := by
  unfold Device.skEdge at h
  split at h
  · cases h; rfl
  · cases rise
    · cases h; rfl
    · exact skRecv_array h
  · cases rise
    · cases h; rfl
    · cases h; exact skOut_array d
  · split at h
    · cases h
    · cases h; rfl

/-- Chip-select driven to 1: the device reacts if it was 0. -/
theorem csRise_reaction (d : Device) (cs : Bool) :
    d.Reaction cs (if cs = true then d else d.csRise) true := by
  cases cs
  · exact ⟨csRise_array d, Device.Inv.csRise⟩
  · exact .refl d true

/-- Chip-select driven to 0: the device reacts if it was 1. -/
theorem csFall_reaction (d : Device) (cs : Bool) :
    d.Reaction cs (if cs = true then d.csFall else d) false := by
  cases cs
  · exact .refl d false
  · exact ⟨csFall_array d, Device.Inv.csFall⟩

theorem skEdge_reaction {rise di cs : Bool} (hc : rise = true → cs = true)
    (h : d.skEdge rise di = .ok e) : d.Reaction cs e cs :=
  ⟨skEdge_array h, fun hd => hd.skEdge hc h⟩

/-- The reaction to a frame at a receiving device. -/
theorem react_reaction {i : Instr} (hi : unitOf i = .device) (hm : d.mode = .recv)
    (h : d.react i = .ok e) : d.Reaction true e true :=
  ⟨react_array h, fun hd => hd.react hm d.shift hi h⟩

/-- Clock rises while the device shifts out. -/
theorem skOutN_reaction (n : Nat) (hm : d.mode = .out) : d.Reaction true (d.skOutN n) true := by
  induction n generalizing d with
  | zero => exact .refl d true
  | succ n ih =>
    obtain ⟨harray, hinv⟩ := ih ((skOut_mode d).trans hm)
    exact ⟨harray.trans (skOut_array d), fun hd => hinv (hd.skOut hm)⟩

end DeviceReactions

/-! ### What an instruction does when it completes -/

section Effects

variable {s t : State} {i : Instr}

/-- The completion of each instruction, by what it writes: the parts of the state that its unit owns, and
under which conditions. -/
inductive Effect (s : State) : Instr → State → Prop
  | sysNop : Effect s .sysNop s.done
  | eepDelay : Effect s .eepDelay s.done
  | sysFlush (a n : Nat) : Effect s .sysFlush
      { s with coh := { s.coh with hostDirty := addrRemoveRange a n s.coh.hostDirty } }.done
  | sysInval (a n : Nat) : Effect s .sysInval
      { s with coh := { s.coh with devDirty := addrRemoveRange a n s.coh.devDirty } }.done
  | crcAcc {i : Instr} (hu : unitOf i = .crc) (acc : Word) : Effect s i { s with crcAcc := some acc }.done
  | crcFinal (w : Word) : Effect s .crcFinal (s.setRes 0 w).done
  | crcCompute (acc w : Word) : Effect s .crcCompute ({ s with crcAcc := some acc }.setRes 0 w).done
  | aesRegs {i : Instr} (hu : unitOf i = .aes) (r : Aes) (hc : r.chain = none)
      (hk : ∀ key, r.key = some key → key.length = s.par.keyBytes ∨ s.aes.key = some key) :
      Effect s i { s with aes := r }.done
  | cipher {i : Instr} (hu : unitOf i = .aes) {keep : Bool} {src dst : Word} {n : Nat} {key : List Byte}
      {c : Block} (hr : s.CipherReady keep src dst n key c) (out : List Block × Block)
      (hl : out.1.length = n) : Effect s i (s.cipherFinish dst.toNat out)
  | line {i : Instr} (hu : unitOf i = .eep) (l : Line) (v : Bool) (d : Device)
      (hd : s.dev.Reaction s.gpio.cs d (s.setLine l v).gpio.cs) :
      Effect s i { s.setLine l v with dev := d }.done
  | eepIn (w : Word) (n : Nat) : Effect s .eepIn ({ s with draws := n }.setRes 0 w).done
  | eccCalc (dst : Nat) (code : List Byte) (hf : Fits dst code.length) (ha : s.Admits dst code.length) :
      Effect s .eccCalc (s.storeHost dst code).done
  | ctrInfo {i : Instr} (hu : unitOf i = .ctr) (c : CtrInfo) : Effect s i { s with res := c.results }.done
  | ctrReject {i : Instr} (hu : unitOf i = .ctr) (c : ResultCode) (hc : c ∈ commandCodes) :
      Effect s i (s.clearRes.finish c)
  | frame {i : Instr} (hu : unitOf i = .device) (d : Device)
      (hd : s.dev.Reaction s.gpio.cs d s.gpio.cs) : Effect s i { s with dev := d }

theorem calcEcc_length (data : List Byte) : (calcEcc data).length = 4 := by
  simp [calcEcc, toLE_length]

theorem parseContainer_code_mem {b : Buffer} {c : ResultCode}
    (h : s.parseContainer b = .error (.code c)) : c ∈ commandCodes := by
  rcases parseContainer_code h with rfl | rfl | rfl <;> decide

/-- A validator command whose rejections all have codes of commands. -/
theorem ctr_effect (hu : unitOf i = .ctr) {f : State → Buffer → Except CtrStop CtrInfo}
    (hf : ∀ b c, f s b = .error (.code c) → c ∈ commandCodes)
    (h : (s.complete do
      let b ← s.ctrBuffer
      s.ctrFinish (s.ctrRun fun u => f u b)) = .next t) : Raises s t ∨ Effect s i t := by
  rcases ctr_next h with h | ⟨b, c, -, -, rfl⟩ | ⟨b, c, -, hr, rfl⟩
  · exact .inl h
  · exact .inr (.ctrInfo hu c)
  · exact .inr (.ctrReject hu c (hf b c (ctrRun_eq_of_ne_halt hr (by simp))))

/-- A wire frame: the device reacts, or does nothing. -/
theorem frame_effect (hu : unitOf i = .device) (h : exec i s = .next t) : Raises s t ∨ Effect s i t := by
  obtain ⟨bits, hb⟩ := encode_of_device hu
  rw [exec_frame hb] at h
  rcases frameOutcome_next h with h | rfl | ⟨hc, hm, d, hd, rfl⟩ | ⟨hc, hm, rfl⟩
  · exact .inl h
  · exact .inr (.frame hu _ (.refl _ _))
  · exact .inr (.frame hu d (hc ▸ react_reaction hu hm hd))
  · exact .inr (.frame hu _ (hc ▸ skOutN_reaction _ hm))

theorem execEepIn_effect (s : State) : ∃ w n, execEepIn s = .next ({ s with draws := n }.setRes 0 w).done := by
  unfold execEepIn State.sample
  cases s.dev.dout
  · exact ⟨_, s.draws, rfl⟩
  · exact ⟨_, s.draws, rfl⟩
  · exact ⟨_, s.draws + 1, rfl⟩

/-- An instruction that gives a next state raises a fault or completes with its effect. -/
theorem exec_next (h : exec i s = .next t) : Raises s t ∨ Effect s i t := by
  cases i with
  | sysNop => cases h; exact .inr .sysNop
  | sysFlush => exact (execSysFlush_next h).imp_right fun ⟨a, n, _, ht⟩ => ht ▸ .sysFlush a n
  | sysInval => exact (execSysInval_next h).imp_right fun ⟨a, n, _, _, ht⟩ => ht ▸ .sysInval a n
  | crcInit => cases h; exact .inr (.crcAcc rfl _)
  | crcByte b => exact (execCrcByte_next h).imp_right fun ⟨_, _, ht⟩ => ht ▸ .crcAcc rfl _
  | crcRange =>
    exact (execCrcRange_next h).imp_right fun ⟨_, _, _, _, _, _, _, _, _, ht⟩ => ht ▸ .crcAcc rfl _
  | crcFinal => exact (execCrcFinal_next h).imp_right fun ⟨_, _, ht⟩ => ht ▸ .crcFinal _
  | crcCompute =>
    exact (execCrcCompute_next h).imp_right fun ⟨_, _, _, _, _, _, _, ht⟩ => ht ▸ .crcCompute _ _
  | aesReset => cases h; exact .inr (.aesRegs rfl _ rfl (by simp [Aes.unwritten]))
  | aesSetkey =>
    refine (execAesSetkey_next h).imp_right fun ⟨_, key, _, hl, _, ht⟩ => ht ▸ .aesRegs rfl _ rfl ?_
    rintro _ ⟨⟩
    exact .inl hl
  | aesSetiv =>
    exact (execAesSetiv_next h).imp_right fun ⟨_, _, _, _, _, ht⟩ =>
      ht ▸ .aesRegs rfl _ rfl fun _ hk => .inr hk
  | aesClriv => cases h; exact .inr (.aesRegs rfl _ rfl fun _ hk => .inr hk)
  | aesEnc n keep =>
    exact (execAesEnc_next h).imp_right fun ⟨_, _, _, _, _, hr, _, _, ht⟩ =>
      ht ▸ .cipher rfl hr _ (by rw [cbcEnc_length, toBlocks_length])
  | aesDec n keep =>
    exact (execAesDec_next h).imp_right fun ⟨_, _, _, _, _, hr, _, _, ht⟩ =>
      ht ▸ .cipher rfl hr _ (by rw [cbcDec_length, toBlocks_length])
  | eepSetCs => cases h; exact .inr (.line rfl .cs true _ (csRise_reaction s.dev s.gpio.cs))
  | eepSetSk =>
    exact (execEepSetSk_next h).imp_right fun ⟨d, hd, ht⟩ =>
      ht ▸ .line rfl .sk true d (skEdge_reaction (by simp) hd)
  | eepSetDi => cases h; exact .inr (.line rfl .di true _ (.refl _ _))
  | eepClrCs => cases h; exact .inr (.line rfl .cs false _ (csFall_reaction s.dev s.gpio.cs))
  | eepClrSk => cases h; exact .inr (.line rfl .sk false _ (.refl _ _))
  | eepClrDi => cases h; exact .inr (.line rfl .di false _ (.refl _ _))
  | eepIn =>
    obtain ⟨w, n, hw⟩ := execEepIn_effect s
    cases hw.symm.trans h
    exact .inr (.eepIn w n)
  | eepDelay => cases h; exact .inr .eepDelay
  | eccCalc =>
    refine (execEccCalc_next h).imp_right fun ⟨_, _, data, _, _, _, _, hf, ha, ht⟩ => ht ▸ .eccCalc _ _ ?_ ?_
    · rwa [calcEcc_length]
    · rwa [calcEcc_length]
  | ctrParse => exact ctr_effect rfl (fun _ _ => parseContainer_code_mem) h
  | ctrVerify => exact ctr_effect rfl (fun _ _ => verifyContainer_code) h
  | frameRead a => exact frame_effect rfl h
  | frameEwen x => exact frame_effect rfl h
  | frameEwds x => exact frame_effect rfl h
  | frameWrite a v => exact frame_effect rfl h
  | frameReserved11 a => exact frame_effect rfl h
  | frameReserved0001 x => exact frame_effect rfl h
  | frameReserved0010 x => exact frame_effect rfl h

end Effects

/-! ### Issuing a command, and the accesses of the port -/

/-- Settles O6: the step takes the issue off the agenda, and issuing decodes. -/
theorem stepRunsIssuedCommand : Obligations.StepRunsIssuedCommand := by
  intro s w rest hf hw ha
  rw [step_issue hf hw ha]
  refine ⟨fun i hi => issue_of_decode hi _, fun e he => ?_⟩
  rw [issue_of_reject he, State.raise_of_noFault (s := s.begin rest) hf]
  rfl

/-- Settles O52, one rule of the port after the other. -/
theorem portAccessRules : Obligations.PortAccessRules := by
  intro s hw
  simp only [takeAction_portWr hw, takeAction_portRd hw]
  refine ⟨fun i v => ⟨_, rfl, rfl⟩, fun _ => rfl, fun _ _ => rfl, portRead_raise rfl, fun h => ?_,
    fun i h => ?_, fun i h => ?_, fun v h => ?_, fun i v h => ?_, fun i v h => ?_⟩
  · exact portRead_raise (written_eq_error.mpr ⟨h, rfl⟩)
  · exact portRead_raise (r := .res i) (written_eq_error.mpr ⟨h, rfl⟩)
  · exact portRead_raise (r := .arg i) (written_eq_error.mpr ⟨h, rfl⟩)
  · exact portRead_ok (r := .status) (written_eq_ok.mpr h)
  · exact portRead_ok (r := .res i) (written_eq_ok.mpr h)
  · exact portRead_ok (r := .arg i) (written_eq_ok.mpr h)

/-! ### The frame of every instruction -/

/-- A result written to RES0 leaves the other result registers. -/
theorem res_set_zero (v : Vector (Option Word) 8) (x : Option Word) {j : Fin 8} (hj : j ≠ 0) :
    (v.set 0 x)[j.val] = v[j.val] :=
  Vector.getElem_set_ne _ _ fun h => hj (Fin.ext h.symm)

/-- Settles O12: a fault changes nothing but its mark, and a completion writes what its effect says. -/
theorem unitsKeepToTheirState : Obligations.UnitsKeepToTheirState := by
  intro i s t h
  rcases exec_next h with ⟨k, rfl⟩ | h
  · simp
  · cases h with
    | sysNop => simp [State.done]
    | eepDelay => simp [State.done]
    | sysFlush a n => simp [State.done]
    | sysInval a n => simp [State.done]
    | crcAcc hu acc => simp [State.done, hu]
    | crcFinal w => simp +contextual [State.done, unitOf, res_set_zero]
    | crcCompute acc w => simp +contextual [State.done, unitOf, res_set_zero]
    | aesRegs hu r hc hk => simp [State.done, hu]
    | cipher hu hr out hl => simp [State.cipherFinish, State.done, hu]
    | line hu l v d hd => simp [State.done, hu, hd.array]
    | eepIn w n => simp +contextual [State.done, unitOf, res_set_zero]
    | eccCalc dst code hf ha => simp [State.done, unitOf]
    | ctrInfo hu c => simp [State.done, hu]
    | ctrReject hu c hc => simp [hu]
    | frame hu d hd => simp [hu, hd.array]

/-! ### The sticky marks -/

section Sticky

variable {s t : State} {i : Instr}

/-- No completion touches the marks. -/
theorem Effect.marks (h : Effect s i t) : t.fault = s.fault ∧ t.refused = s.refused := by
  cases h <;> exact ⟨rfl, rfl⟩

/-- The marks of s are still there in t. -/
def MarksKept (s t : State) : Prop :=
  (∀ k, s.fault = some k → t.fault = some k) ∧ (s.refused = true → t.refused = true)

theorem MarksKept.of_eq (h : t.fault = s.fault ∧ t.refused = s.refused) : MarksKept s t :=
  ⟨fun _ hk => h.1.trans hk, fun hr => h.2.trans hr⟩

theorem MarksKept.raise (s : State) (k : FaultKind) : MarksKept s (s.raise k) :=
  ⟨fun k' hk => by rw [State.raise_fault, hk, Option.getD_some], id⟩

theorem MarksKept.trans {u : State} (h : MarksKept s t) (h' : MarksKept t u) : MarksKept s u :=
  ⟨fun k hk => h'.1 k (h.1 k hk), fun hr => h'.2 (h.2 hr)⟩

theorem MarksKept.refused (s : State) : MarksKept s { s with refused := true } := ⟨fun _ => id, fun _ => rfl⟩

theorem MarksKept.markRead (s : State) (r : PortReg) : MarksKept s (s.markRead r) := by
  cases r with
  | arg i => exact .refused s
  | cmd => exact .of_eq ⟨rfl, rfl⟩
  | status => exact .of_eq ⟨rfl, rfl⟩
  | res i => exact .of_eq ⟨rfl, rfl⟩

theorem exec_marksKept (h : exec i s = .next t) : MarksKept s t := by
  rcases exec_next h with ⟨k, rfl⟩ | h
  · exact .raise s k
  · exact .of_eq h.marks

theorem takeAction_marksKept {a : Action} (h : takeAction a s = .next t) : MarksKept s t := by
  rcases takeAction_next h with ⟨k, rfl⟩ | ⟨w, i, -, -, -, h⟩ | ⟨r, rfl⟩ | ⟨addr, bs, -, -, -, rfl⟩ |
    ⟨i, v, -, rfl⟩ | ⟨-, rfl⟩ | ⟨b, ok, -, rfl⟩ | ⟨b, page, data, spare, ok, -, -, h⟩ |
    ⟨b, page, dst, r, bytes, -, -, h⟩ | rfl | ⟨-, -, rfl⟩ | ⟨m, nb, -, rfl⟩ | ⟨e, -, rfl⟩ |
    ⟨r, -, ⟨k, rfl⟩ | ⟨v, rfl⟩⟩
  case inl => exact .raise s k
  · exact exec_marksKept h
  · exact .of_eq ⟨rfl, rfl⟩
  · exact .of_eq ⟨rfl, rfl⟩
  · exact .of_eq ⟨rfl, rfl⟩
  · exact .of_eq ⟨rfl, rfl⟩
  · exact .of_eq ⟨rfl, rfl⟩
  · rcases nandWrite_eq_ok h with rfl | ⟨_, _, -, -, -, -, rfl⟩ <;> exact .of_eq ⟨rfl, rfl⟩
  · rcases nandRead_eq_ok h with ⟨-, _, -, -, -, rfl⟩ | ⟨-, rfl⟩ <;> exact .of_eq ⟨rfl, rfl⟩
  · exact .refused s
  · exact .of_eq ⟨rfl, rfl⟩
  · exact .of_eq ⟨rfl, rfl⟩
  · split <;> exact .of_eq ⟨rfl, rfl⟩
  · exact (MarksKept.markRead s r).trans (.raise _ k)
  · exact (MarksKept.markRead s r).trans (.of_eq ⟨rfl, rfl⟩)

end Sticky

/-- Settles O10, by the rule of `raise` and by cases on what an action can do. -/
theorem faultAndRefusedAreSticky : Obligations.FaultAndRefusedAreSticky :=
  ⟨State.raise_eq, fun _ _ _ h => takeAction_marksKept h⟩

/-! ### The invariant of the machine -/

section Invariant

variable {s t : State} {i : Instr}

theorem State.Inv.raise (h : s.Inv) (k : FaultKind) : (s.raise k).Inv := { h with }

/-- A command that finishes with a command's code keeps the invariant. -/
theorem State.Inv.finish (h : s.Inv) {c : ResultCode} (hc : c ∈ commandCodes) : (s.finish c).Inv :=
  { h with status := .inr ⟨c, hc, rfl⟩ }

theorem State.Inv.done (h : s.Inv) : s.done.Inv := h.finish (by decide)

theorem State.Inv.storeHost (h : s.Inv) {a : Nat} {bs : List Byte} (hf : Fits a bs.length)
    (ha : s.Admits a bs.length) : (s.storeHost a bs).Inv :=
  have ⟨hm, hh, hd⟩ := storeHost_keeps hf ha h.mem h.hostDirty h.devDirty
  { h with mem := hm, hostDirty := hh, devDirty := hd }

theorem State.Inv.storeDev (h : s.Inv) {a : Nat} {bs : List Byte} (hf : Fits a bs.length)
    (ha : s.Admits a bs.length) : (s.storeDev a bs).Inv :=
  have ⟨hm, hh, hd⟩ := storeDev_keeps hf ha h.mem h.hostDirty h.devDirty
  { h with mem := hm, hostDirty := hh, devDirty := hd }

/-- Addresses taken out of the host-dirty set. -/
theorem State.Inv.flush (h : s.Inv) (a n : Nat) :
    State.Inv { s with coh := { s.coh with hostDirty := addrRemoveRange a n s.coh.hostDirty } } :=
  { h with
    hostDirty := ⟨addrRisesFrom_removeRange _ _ _ _ h.hostDirty.1,
      fun x hx => h.hostDirty.2 x ((mem_addrRemoveRange _ _ _ _).mp hx).1⟩ }

/-- Addresses taken out of the device-dirty set. -/
theorem State.Inv.inval (h : s.Inv) (a n : Nat) :
    State.Inv { s with coh := { s.coh with devDirty := addrRemoveRange a n s.coh.devDirty } } :=
  { h with
    devDirty := ⟨addrRisesFrom_removeRange _ _ _ _ h.devDirty.1,
      fun x hx => h.devDirty.2 x ((mem_addrRemoveRange _ _ _ _).mp hx).1⟩ }

/-- A key or an IV written ends the chain (41_aes_cbc.md R250-R253). -/
theorem State.Inv.aesRegs (h : s.Inv) {r : Aes} (hc : r.chain = none)
    (hk : ∀ key, r.key = some key → key.length = s.par.keyBytes ∨ s.aes.key = some key) :
    State.Inv { s with aes := r } :=
  { h with
    chain := fun hn => absurd hc hn
    key := fun key hkey => (hk key hkey).elim id (h.key key) }

/-- A cipher command that could start has its key and its IV. -/
theorem State.CipherReady.key_iv {keep : Bool} {src dst : Word} {n : Nat} {key : List Byte} {c : Block}
    (hr : s.CipherReady keep src dst n key c) (h : s.Inv) : s.aes.key ≠ none ∧ s.aes.iv ≠ none := by
  have hs := hr.start
  refine ⟨by simp [hr.key], ?_⟩
  cases keep
  · have hiv : s.aes.iv = some c := hs
    simp [hiv]
  · have hch : s.aes.chain = some c := hs
    exact (h.chain (by simp [hch])).2

theorem State.Inv.cipherFinish (h : s.Inv) {keep : Bool} {src dst : Word} {n : Nat} {key : List Byte}
    {c : Block} (hr : s.CipherReady keep src dst n key c) {out : List Block × Block}
    (hl : out.1.length = n) : (s.cipherFinish dst.toNat out).Inv := by
  have hlen : (ofBlocks out.1).length = 16 * n := by rw [ofBlocks_length, hl]
  have hst : (s.storeDev dst.toNat (ofBlocks out.1)).Inv :=
    h.storeDev (hlen ▸ hr.fits.2) (hlen ▸ hr.admitted.2)
  exact State.Inv.done { hst with chain := fun _ => hr.key_iv h }

/-- The completion of an instruction keeps the invariant. -/
theorem Effect.inv (he : Effect s i t) (h : s.Inv) : t.Inv := by
  cases he with
  | sysNop => exact h.done
  | eepDelay => exact h.done
  | sysFlush a n => exact (h.flush a n).done
  | sysInval a n => exact (h.inval a n).done
  | crcAcc hu acc => exact State.Inv.done { h with }
  | crcFinal w => exact State.Inv.done { h with }
  | crcCompute acc w => exact State.Inv.done { h with }
  | aesRegs hu r hc hk => exact (h.aesRegs hc hk).done
  | cipher hu hr out hl => exact h.cipherFinish hr hl
  | line hu l v d hd => exact State.Inv.done { h with dev := hd.inv h.dev }
  | eepIn w n => exact State.Inv.done { h with }
  | eccCalc dst code hf ha => exact (h.storeHost hf ha).done
  | ctrInfo hu c => exact State.Inv.done { h with }
  | ctrReject hu c hc => exact State.Inv.finish (s := s.clearRes) { h with } hc
  | frame hu d hd => exact { h with dev := hd.inv h.dev }

theorem exec_inv (h : s.Inv) (he : exec i s = .next t) : t.Inv := by
  rcases exec_next he with ⟨k, rfl⟩ | he
  · exact h.raise k
  · exact he.inv h

/-! The actions of the agents keep it. -/

theorem State.Inv.markRead (h : s.Inv) (r : PortReg) : (s.markRead r).Inv := by
  cases r with
  | arg i => exact { h with }
  | cmd => exact h
  | status => exact h
  | res i => exact h

theorem State.Inv.nandForget (h : s.Inv) (b : NandBlock) :
    State.Inv { s with nand := nandForget b s.nand } :=
  { h with
    nand := ⟨nandForget_pairwise b h.nand.1, fun p hp => h.nand.2 p (mem_nandForget.mp hp).1⟩ }

/-- A whole page learned. -/
theorem State.Inv.nandLearn (h : s.Inv) {p : NandPage} (hl : p.data.length = 2048)
    (hp : p.page < s.par.pagesPerBlock) : State.Inv { s with nand := nandLearn p s.nand } :=
  { h with
    nand := ⟨nandLearn_pairwise p h.nand.1, fun q hq => by
      rcases mem_nandLearn hq with rfl | hq
      · exact ⟨hl, hp⟩
      · exact h.nand.2 q hq⟩ }

theorem nandWrite_inv (h : s.Inv) {b : NandBlock} {page : Nat} {data spare : Option Nat} {ok : Bool}
    (hp : page < s.par.pagesPerBlock) (hw : s.nandWrite b page data spare ok = .ok t) : t.Inv := by
  rcases nandWrite_eq_ok hw with rfl | ⟨src, bs, -, -, hl, -, rfl⟩
  · exact { h.nandForget b with }
  · exact { (h.nandForget b).nandLearn (p := ⟨b, page, bs⟩) hl hp with }

theorem nandRead_inv (h : s.Inv) {b : NandBlock} {page dst : Nat} {r : NandResult} {bytes : List Byte}
    (hr : s.nandRead b page dst r bytes = .ok t) : t.Inv := by
  rcases nandRead_eq_ok hr with ⟨-, bs, -, hf, ha, rfl⟩ | ⟨-, rfl⟩
  · exact { h.storeHost hf ha with }
  · exact { h with }

/-- An interruption gives the volatile state its reset values and keeps whole the NAND pages still known. -/
theorem State.Inv.interrupt (h : s.Inv) (cells : List Host.Cell) (nb : Option NandBlock) :
    (s.interrupt cells nb).Inv where
  mem := Memory.wf_ofCells cells
  hostDirty := ⟨rfl, fun _ hx => nomatch hx⟩
  devDirty := ⟨rfl, fun _ hx => nomatch hx⟩
  status := .inl rfl
  chain := fun hn => absurd rfl hn
  key := fun _ hk => nomatch hk
  dev := Device.atReset_inv _ _
  nand := by
    cases nb with
    | none => exact h.nand
    | some b => exact (h.nandForget b).nand

/-- Every action that has a step keeps the invariant. -/
theorem takeAction_inv {a : Action} (h : s.Inv) (ha : takeAction a s = .next t) : t.Inv := by
  rcases takeAction_next ha with ⟨k, rfl⟩ | ⟨w, i, -, -, -, he⟩ | ⟨r, rfl⟩ | ⟨addr, bs, -, hf, had, rfl⟩ |
    ⟨i, v, -, rfl⟩ | ⟨-, rfl⟩ | ⟨b, ok, -, rfl⟩ | ⟨b, page, data, spare, ok, -, hp, hw⟩ |
    ⟨b, page, dst, r, bytes, -, -, hr⟩ | rfl | ⟨-, hb, rfl⟩ | ⟨m, nb, -, rfl⟩ | ⟨e, -, rfl⟩ |
    ⟨r, -, ⟨k, rfl⟩ | ⟨v, rfl⟩⟩
  case inl => exact h.raise k
  · exact exec_inv h he
  · exact { h with }
  · exact h.storeHost hf had
  · exact { h with }
  · exact { h with }
  · exact { h.nandForget b with }
  · exact nandWrite_inv h hp hw
  · exact nandRead_inv h hr
  · exact { h with }
  · exact { h with dev := h.dev.complete hb }
  · exact h.interrupt m nb
  · split
    · exact { h with }
    · exact h
  · exact (h.markRead r).raise k
  · exact { h.markRead r with }

end Invariant

/-- Settles O48: a step is idle, or it takes the next action in a state that has the invariant. -/
theorem stepKeepsInvariant : Obligations.StepKeepsInvariant := by
  intro s t h hs
  obtain ⟨-, ⟨-, rfl⟩ | ⟨a, rest, -, ha⟩⟩ := step_eq_next.mp hs
  · exact h
  · exact takeAction_inv (s := s.begin rest) { h with } ha

/-! ### The instruction that is placed -/

section Placed

variable {s t : State} {i : Instr}

theorem decode_of_tableWord {nbits w : Nat} (h : decodeTableWord nbits w = some i) :
    decode (tableCode nbits w) = .ok i := by
  rw [decodeTableWord] at h
  cases hd : decode (tableCode nbits w) with
  | ok j => rw [hd] at h; cases h; rfl
  | error e => rw [hd] at h; cases h

theorem decode_setSk : decodeWord (encodeWord .eepSetSk) = .ok .eepSetSk := by decide

/-- The step after a command word is placed. -/
theorem step_place_word {w : Word} (hi : decodeWord w = .ok i) :
    step (s.place (.word w)) = exec i { s with fault := none, waiting := false, reply := .nothing } :=
  (step_issue rfl rfl rfl).trans (issue_of_decode hi _)

/-- The step after a frame is placed is the clock rise that brings its last bit, and with it the device's
reaction to the frame. -/
theorem step_place_frame {bits : List Bool} (hi : decodeFrame bits = .ok i) :
    step (s.place (.frame bits)) =
      State.complete
        { s with
          fault := none, waiting := false, reply := .nothing
          gpio := ⟨true, false, bits.getLastD false⟩
          dev := { s.dev with mode := .recv, shift := bits.dropLast } }
        ((Device.react { s.dev with mode := .recv, shift := bits } i).map fun d =>
          { s with
            fault := none, waiting := false, reply := .nothing
            gpio := ⟨true, true, bits.getLastD false⟩, dev := d, status := some 0#32 }) := by
  have hbits : bits.dropLast ++ [bits.getLastD false] = bits := by
    rcases bits.eq_nil_or_concat with rfl | ⟨first, b, rfl⟩
    · cases hi
    · simp
  refine (step_issue rfl rfl rfl).trans ((issue_of_decode decode_setSk _).trans ?_)
  refine (execEepSetSk_frame (i := i) rfl rfl rfl ?_).trans ?_
  · exact hbits.symm ▸ hi
  · simp only [State.place, State.begin, hbits]
    rfl

end Placed

/-- Settles O7: a word is issued; a frame is clocked in, and the device reacts or raises its fault. -/
theorem placedInstructionIsRun : Obligations.PlacedInstructionIsRun := by
  intro s nbits w i h
  have hd := decode_of_tableWord h
  refine ⟨fun v hv => ?_, fun bits hbits => ?_⟩
  · rw [hv] at hd
    rw [State.withFetchWord, hv]
    exact step_place_word hd
  · rw [hbits] at hd
    have hi : decodeFrame bits = .ok i := hd
    intro t
    have hexec : exec i t = t.complete ((t.dev.react i).map fun d => { t with dev := d }) :=
      exec_frame_recv (unitOf_decodeFrame hi) rfl rfl
    rw [State.withFetchWord, hbits, step_place_frame hi, hexec]
    rcases react_ok_or_protocol t.dev i with ⟨d, hr⟩ | hr
    · exact .inl ⟨d, by rw [hr]; rfl, by rw [hr]; rfl⟩
    · exact .inr ⟨.eepProtocol, _, by rw [hr]; rfl, by rw [hr]; rfl, rfl⟩

end Sys2Proof.Machine

/-! # Proofs: the statements of 20_memory.md

First how a step ends whose first act is an operand or range check or a host-view read; then the commands of
the SYS unit and the host's own accesses. The EEPROM words come last, by what an action can do to them. -/

namespace Sys2Proof.Machine

section MemorySteps

variable {s : State}

/-! ### The first checks of a step -/

theorem complete_argPair_unwritten (h : s.arg[0] = none ∨ s.arg[1] = none)
    (f : Nat × Nat → Except Halt State) :
    s.complete (s.argPair >>= f) = .next (s.raise .readUnwritten) := by
  rw [State.argPair_none h]
  rfl

theorem complete_argPair_written {a n : Word} (ha : s.arg[0] = some a) (hn : s.arg[1] = some n)
    (f : Nat × Nat → Except Halt State) :
    s.complete (s.argPair >>= f) = s.complete (f (a.toNat, n.toNat)) := by
  rw [State.argPair_some ha hn]
  rfl

/-- The range check comes before everything that follows it (20_memory.md R88). -/
theorem complete_rangeWrap {a n : Nat} (h : ¬ Fits a n) (f : Unit → Except Halt State) :
    s.complete (require (rangeOk a n) .rangeWrap >>= f) = .next (s.raise .rangeWrap) := by
  rw [(rangeOk_eq_false_iff a n).mpr h]
  rfl

theorem complete_range_fits {a n : Nat} (h : Fits a n) (f : Unit → Except Halt State) :
    s.complete (require (rangeOk a n) .rangeWrap >>= f) = s.complete (f ()) := by
  rw [(rangeOk_iff a n).mpr h]
  rfl

/-- A step that begins with a host-view read stops as the read does, whatever it does with the bytes. -/
theorem readStops_hostRead (s : State) (a n : Nat) (f : List Byte → Except Halt State) :
    s.ReadStops a n (s.complete (s.hostRead a n >>= f)) := by
  refine ⟨fun hf => ?_, fun hf ha => ?_, fun hf ha hc => ?_⟩
  · rw [State.hostRead_eq_error.mpr (.inl ⟨hf, rfl⟩)]
    rfl
  · rw [State.hostRead_eq_error.mpr (.inr (.inl ⟨hf, ha, rfl⟩))]
    rfl
  · rw [State.hostRead_eq_error.mpr (.inr (.inr ⟨hf, ha, hc, rfl⟩))]
    rfl

theorem complete_hostRead_reads {a : Nat} {bs : List Byte} (h : s.HostReads a bs)
    (f : List Byte → Except Halt State) :
    s.complete (s.hostRead a bs.length >>= f) = s.complete (f bs) := by
  rw [State.hostRead_of_reads h rfl]
  rfl

/-! ### SYS.FLUSH and SYS.INVAL with both operands written -/

theorem execSysFlush_fits {a n : Word} (ha : s.arg[0] = some a) (hn : s.arg[1] = some n)
    (hf : Fits a.toNat n.toNat) : execSysFlush s =
      .next { s with coh := { s.coh with
        hostDirty := addrRemoveRange a.toNat n.toNat s.coh.hostDirty } }.done :=
  (complete_argPair_written ha hn _).trans (complete_range_fits hf _)

/-- Once the range fits, the host-dirty bytes in it decide (R99). -/
theorem execSysInval_fits {a n : Word} (ha : s.arg[0] = some a) (hn : s.arg[1] = some n)
    (hf : Fits a.toNat n.toNat) : execSysInval s =
      s.complete (require (!addrTouches a.toNat n.toNat s.coh.hostDirty) .coherence >>= fun _ =>
        .ok { s with coh := { s.coh with
          devDirty := addrRemoveRange a.toNat n.toNat s.coh.devDirty } }.done) :=
  (complete_argPair_written ha hn _).trans (complete_range_fits hf _)

end MemorySteps

/-! ### The SYS unit -/

/-- Settles O14: the operands, the range, then the set without the range. -/
theorem sysFlushResult : Obligations.SysFlushResult := by
  refine ⟨by decide, fun s => ⟨fun h => complete_argPair_unwritten h _, fun a n ha hn =>
    ⟨fun hf => ?_, fun hf => ?_⟩⟩⟩
  · exact (complete_argPair_written ha hn _).trans (complete_rangeWrap hf _)
  · exact ⟨_, execSysFlush_fits ha hn hf, unmarked_removeRange _ _ _⟩

/-- Settles O15: the operands, the range, the host-dirty bytes, then the set without the range. -/
theorem sysInvalResult : Obligations.SysInvalResult := by
  refine ⟨by decide, fun s => ⟨fun h => complete_argPair_unwritten h _, fun a n ha hn =>
    ⟨fun hf => ?_, fun hf hd => ?_, fun hf hd => ⟨_, ?_, unmarked_removeRange _ _ _⟩⟩⟩⟩
  · exact (complete_argPair_written ha hn _).trans (complete_rangeWrap hf _)
  · refine (execSysInval_fits ha hn hf).trans ?_
    rw [(addrTouches_not_eq_false_iff _ _ _).mpr hd]
    rfl
  · refine (execSysInval_fits ha hn hf).trans ?_
    rw [(addrTouches_not_iff _ _ _).mpr hd]
    rfl

/-- A word decodes by a row that it selects (30_encoding.md R122). -/
theorem selected_of_decodeWord {w : Word} {i : Instr} (h : decodeWord w = .ok i) :
    ∃ r ∈ opcodeMap, w &&& r.mask = r.value ∧ r.build w = i := by
  rw [decodeWord] at h
  split at h
  · next r hr =>
    exact ⟨r, List.mem_of_find?_eq_some hr, by simpa [Row.selects] using List.find?_some hr, by
      simpa using h⟩
  · cases h

/-- Only the row of all 32 zeros builds SYS.NOP. -/
theorem row_of_build_sysNop (w : Word) :
    ∀ r ∈ opcodeMap, r.build w = .sysNop → r.mask = 0xFFFFFFFF#32 ∧ r.value = 0x00000000#32 := by
  simp [opcodeMap, rowsSysCrc, rowsAes, rowsEepEccCtr]

/-- Settles O13: its row compares every bit of the word, and its meaning is `done`. -/
theorem sysNopResult : Obligations.SysNopResult := by
  refine ⟨by decide, fun w h => ?_, fun s => rfl⟩
  obtain ⟨r, hr, hsel, hbuild⟩ := selected_of_decodeWord h
  obtain ⟨hmask, hvalue⟩ := row_of_build_sysNop w r hr hbuild
  calc
    w = w &&& 0xFFFFFFFF#32 := BitVec.and_allOnes.symm
    _ = 0x00000000#32 := by rw [← hmask, hsel, hvalue]

/-! ### The host's loads and stores -/

section HostAccesses

variable {s : State}

theorem takeAction_hstLd (hw : s.waiting = false) (a n : Nat) :
    takeAction (.hstLd a n) s = hostLoad a n s :=
  takeAction_host hw (by simp) (by simp) (by simp)

theorem takeAction_hstSt (hw : s.waiting = false) (a : Nat) (bs : List Byte) :
    takeAction (.hstSt a bs) s = s.complete (s.hostWrite a bs) :=
  takeAction_host hw (by simp) (by simp) (by simp)

end HostAccesses

/-- Settles O53: a load is a host-view read, a store a host-view write. -/
theorem hostMemoryActions : Obligations.HostMemoryActions := by
  intro s hw
  simp only [takeAction_hstLd hw, takeAction_hstSt hw]
  refine ⟨fun a bs h => complete_hostRead_reads h _, fun a n => readStops_hostRead s a n _, fun a bs =>
    ⟨fun hf => ?_, fun hf ha => ?_, fun hf ha =>
      ⟨_, _, ?_, stored_write s.mem a bs, marked_insertRange s.coh.hostDirty a bs.length⟩⟩⟩
  · rw [State.hostWrite_eq_error.mpr (.inl ⟨hf, rfl⟩)]
    rfl
  · rw [State.hostWrite_eq_error.mpr (.inr ⟨hf, ha, rfl⟩)]
    rfl
  · rw [State.hostWrite_eq_ok.mpr ⟨hf, ha, rfl⟩]
    rfl

/-! ### The EEPROM words -/

section EepromWords

variable {s t : State}

theorem getElem_set_of_ne (words : Vector Half 256) {a b : Byte} (v : Half) (h : a ≠ b) :
    (words.set a.toNat v a.isLt)[b.toNat]'b.isLt = words[b.toNat]'b.isLt :=
  Vector.getElem_set_ne _ _ fun hab => h (BitVec.eq_of_toNat_eq hab)

/-- A completion changes only the word in progress (42_eeprom.md R331). -/
theorem complete_array_of_not_prog (d : Device) {b : Byte} (h : ∀ v, d.prog ≠ some (b, v)) :
    d.complete.array[b.toNat]'b.isLt = d.array[b.toNat]'b.isLt := by
  rcases hp : d.prog with _ | ⟨a, v⟩
  · simp only [Device.complete, hp]
  · have hab : a ≠ b := fun hab => h v (hab ▸ hp)
    simpa only [Device.complete, hp] using getElem_set_of_ne d.array v hab

/-- An interruption changes only the word in progress (45_host_protocols.md R480). -/
theorem interruptedWords_of_not_prog (d : Device) (x : Half) {b : Byte} (h : ∀ v, d.prog ≠ some (b, v)) :
    (d.interruptedWords x)[b.toNat]'b.isLt = d.array[b.toNat]'b.isLt := by
  unfold Device.interruptedWords
  split
  · next a v _ hp => exact getElem_set_of_ne d.array x fun hab => h v (hab ▸ hp)
  · rfl

theorem exec_array {i : Instr} (h : exec i s = .next t) : t.dev.array = s.dev.array := by
  obtain ⟨⟨-, -, -, -, -, -, -, -, harray⟩, -⟩ := unitsKeepToTheirState i s t h
  exact harray

theorem markRead_dev (s : State) (r : PortReg) : (s.markRead r).dev = s.dev := by
  cases r <;> rfl

/-- What an action can do to the EEPROM words: nothing, unless it is the device's completion or an
interruption. -/
theorem takeAction_array {a : Action} (h : takeAction a s = .next t) :
    t.dev.array = s.dev.array ∨ (a = .devComplete ∧ t.dev.array = s.dev.complete.array) ∨
      ∃ m nb v, a = .interrupt m nb ∧ t.dev.array = s.dev.interruptedWords v := by
  rcases takeAction_next h with ⟨k, rfl⟩ | ⟨w, i, -, -, -, h⟩ | ⟨r, rfl⟩ | ⟨addr, bs, -, -, -, rfl⟩ |
    ⟨i, v, -, rfl⟩ | ⟨-, rfl⟩ | ⟨b, ok, -, rfl⟩ | ⟨b, page, data, spare, ok, -, -, h⟩ |
    ⟨b, page, dst, r, bytes, -, -, h⟩ | rfl | ⟨rfl, -, rfl⟩ | ⟨m, nb, rfl, rfl⟩ | ⟨e, -, rfl⟩ |
    ⟨r, -, ⟨k, rfl⟩ | ⟨v, rfl⟩⟩
  case inl => exact .inl rfl
  · exact .inl (exec_array h)
  · exact .inl rfl
  · exact .inl rfl
  · exact .inl rfl
  · exact .inl rfl
  · exact .inl rfl
  · rcases nandWrite_eq_ok h with rfl | ⟨_, _, -, -, -, -, rfl⟩ <;> exact .inl rfl
  · rcases nandRead_eq_ok h with ⟨-, _, -, -, -, rfl⟩ | ⟨-, rfl⟩ <;> exact .inl rfl
  · exact .inl rfl
  · exact .inr (.inl ⟨rfl, rfl⟩)
  · exact .inr (.inr ⟨m, nb, _, rfl, rfl⟩)
  · split <;> exact .inl rfl
  · exact .inl (congrArg Device.array (markRead_dev s r))
  · exact .inl (congrArg Device.array (markRead_dev s r))

end EepromWords

/-- Settles O40, by what an action can do to the words. -/
theorem eepromWordsChangeOnlyAtCompletion : Obligations.EepromWordsChangeOnlyAtCompletion := by
  intro a s t h
  rcases takeAction_array h with harray | ⟨rfl, harray⟩ | ⟨m, nb, v, rfl, harray⟩
  · exact ⟨fun _ _ => harray, fun b _ => by rw [harray]⟩
  · refine ⟨fun hne => absurd rfl hne, fun b hb => ?_⟩
    rw [harray]
    exact complete_array_of_not_prog s.dev hb
  · refine ⟨fun _ hne => absurd rfl (hne m nb), fun b hb => ?_⟩
    rw [harray]
    exact interruptedWords_of_not_prog s.dev v hb

end Sys2Proof.Machine

/-! # Proofs: the statements of 30_encoding.md

First the numbers and fields of the words with operands; then the rows of the opcode map, the reserved words and
the two round trips; last a frame clocked in bit by bit. -/

namespace Sys2Proof

/-! ### The words with operands -/

section Words

variable {w base : Word} {n k : Nat} {keep : Bool}

/-- A word is given by its masked bits and the rest. -/
theorem and_mask_or (w m : Word) : (w &&& m) ||| (w &&& ~~~m) = w := by
  rw [← BitVec.and_or_distrib_left, BitVec.or_not_self, BitVec.and_allOnes]

/-- A base of whole multiples of 2 ^ j and an immediate below it add up. -/
theorem or_toNat_of_lt {imm : Word} {j : Nat} (hb : base.toNat = 2 ^ j * k) (hi : imm.toNat < 2 ^ j) :
    (base ||| imm).toNat = base.toNat + imm.toNat := by
  rw [BitVec.toNat_or, hb, Nat.two_pow_add_eq_or_of_lt hi]

theorem fieldB_toNat (w : Word) : (fieldB w).toNat = w.toNat % 256 := by
  simp [fieldB, BitVec.extractLsb'_toNat]

theorem fieldN_eq (w : Word) : fieldN w = w.toNat % 128 + 1 := by
  simp [fieldN, BitVec.extractLsb'_toNat]

theorem fieldK_eq (w : Word) : fieldK w = decide (w.toNat / 4096 % 2 = 1) := by
  rw [fieldK, ← BitVec.testBit_toNat, Nat.testBit_eq_decide_div_mod_eq]

/-- The number of CRC.BYTE's word (30_encoding.md R128). -/
theorem byteWord_toNat (b : Byte) : (0x11000000#32 ||| b.setWidth 32).toNat = 0x11000000 + b.toNat := by
  have hb : (b.setWidth 32).toNat = b.toNat := BitVec.toNat_setWidth_of_le (by decide)
  rw [or_toNat_of_lt (j := 8) (k := 0x110000) (by decide) (by omega), hb]
  rfl

theorem blockCountOk_iff : blockCountOk n = true ↔ 1 ≤ n ∧ n ≤ 128 := by simp [blockCountOk]

/-- The immediate of a cipher command as a number: the flag at bit 12, the count less one below bit 7. -/
theorem blocksImm_toNat (hn : blockCountOk n = true) :
    (blocksImm n keep).toNat = 4096 * keep.toNat + (n - 1) := by
  obtain ⟨h1, h2⟩ := blockCountOk_iff.mp hn
  have hcount : (BitVec.ofNat 32 (n - 1)).toNat = n - 1 := by
    rw [BitVec.toNat_ofNat, Nat.mod_eq_of_lt (by omega)]
  rw [blocksImm, or_toNat_of_lt (j := 12) (k := keep.toNat) (by cases keep <;> rfl) (by omega), hcount]
  cases keep <;> rfl

/-- The number of a cipher command's word. -/
theorem cipherWord_toNat (hb : base.toNat = 8192 * k) (hn : blockCountOk n = true) :
    (base ||| blocksImm n keep).toNat = base.toNat + 4096 * keep.toNat + (n - 1) := by
  obtain ⟨h1, h2⟩ := blockCountOk_iff.mp hn
  have himm := blocksImm_toNat (keep := keep) hn
  have hkeep := keep.toNat_le
  rw [or_toNat_of_lt (j := 13) hb (by omega), himm, Nat.add_assoc]

theorem fieldB_byteWord (b : Byte) : fieldB (0x11000000#32 ||| b.setWidth 32) = b := by
  apply BitVec.eq_of_toNat_eq
  rw [fieldB_toNat, byteWord_toNat]
  omega

theorem fieldN_cipherWord (hb : base.toNat = 8192 * k) (hn : blockCountOk n = true) :
    fieldN (base ||| blocksImm n keep) = n := by
  obtain ⟨h1, h2⟩ := blockCountOk_iff.mp hn
  rw [fieldN_eq, cipherWord_toNat hb hn]
  omega

theorem fieldK_cipherWord (hb : base.toNat = 8192 * k) (hn : blockCountOk n = true) :
    fieldK (base ||| blocksImm n keep) = keep := by
  obtain ⟨h1, h2⟩ := blockCountOk_iff.mp hn
  rw [fieldK_eq, cipherWord_toNat hb hn]
  cases keep <;> simp only [Bool.toNat_false, Bool.toNat_true, decide_eq_true_eq, decide_eq_false_iff_not] <;>
    omega

theorem blockCountOk_fieldN (w : Word) : blockCountOk (fieldN w) = true := by
  rw [blockCountOk_iff, fieldN_eq]
  omega

/-- The bits that the row of CRC.BYTE leaves free are its byte. -/
theorem and_byteMask (w : Word) : w &&& 0x000000FF#32 = (fieldB w).setWidth 32 := by
  apply BitVec.eq_of_toNat_eq
  rw [BitVec.toNat_and, BitVec.toNat_setWidth_of_le (by decide), fieldB_toNat]
  exact Nat.and_two_pow_sub_one_eq_mod w.toNat 8

/-- The bits that the rows of the cipher commands leave free are their flag and their count. -/
theorem and_cipherMask (w : Word) : w &&& 0x0000107F#32 = blocksImm (fieldN w) (fieldK w) := by
  have hflag : w &&& 0x1000#32 = if fieldK w = true then 0x1000#32 else 0#32 := BitVec.and_twoPow w 12
  have hcount : w &&& 0x7F#32 = BitVec.ofNat 32 (fieldN w - 1) := by
    have hlow : (BitVec.ofNat 32 (fieldN w - 1)).toNat = w.toNat % 128 := by
      rw [fieldN_eq, BitVec.toNat_ofNat]
      omega
    apply BitVec.eq_of_toNat_eq
    rw [BitVec.toNat_and, hlow]
    exact Nat.and_two_pow_sub_one_eq_mod w.toNat 7
  rw [blocksImm, ← hflag, ← hcount, ← BitVec.and_or_distrib_left]
  rfl

theorem byteWord_of_selected (h : w &&& 0xFFFFFF00#32 = 0x11000000#32) :
    w = 0x11000000#32 ||| (fieldB w).setWidth 32 := by
  rw [← and_byteMask, ← h]
  exact (and_mask_or w _).symm

theorem cipherWord_of_selected (h : w &&& 0xFFFFEF80#32 = base) :
    w = base ||| blocksImm (fieldN w) (fieldK w) := by
  rw [← and_cipherMask, ← h]
  exact (and_mask_or w _).symm

end Words

/-! ### The rows of the opcode map -/

section Rows

variable {w : Word} {r : Row}

theorem Row.selects_iff : r.selects w = true ↔ w &&& r.mask = r.value := by simp [Row.selects]

/-- The values of two rows differ in a bit that both compare. -/
theorem opcodeMap_values : opcodeMap.Pairwise fun r q => r.value &&& q.mask ≠ q.value &&& r.mask := by
  decide

/-- No word selects two rows (30_encoding.md R122). -/
theorem opcodeMap_disjoint :
    opcodeMap.Pairwise fun r q => ∀ w : Word, ¬ (w &&& r.mask = r.value ∧ w &&& q.mask = q.value) := by
  refine opcodeMap_values.imp fun {r q} hne w ⟨hr, hq⟩ => hne ?_
  rw [← hr, ← hq, BitVec.and_assoc, BitVec.and_assoc, BitVec.and_comm r.mask]

/-- A word decodes by the row that it selects. -/
theorem decodeWord_of_selected (hr : r ∈ opcodeMap) (h : w &&& r.mask = r.value) :
    decodeWord w = .ok (r.build w) := by
  have hdis := opcodeMap_disjoint
  obtain ⟨before, after, hmap⟩ := List.append_of_mem hr
  have hfind : opcodeMap.find? (fun r => r.selects w) = some r := by
    rw [hmap, List.pairwise_append] at hdis
    obtain ⟨-, -, hbefore⟩ := hdis
    refine List.find?_eq_some_iff_append.mpr ⟨Row.selects_iff.mpr h, before, after, hmap, fun q hq => ?_⟩
    have := hbefore q hq r (by simp) w
    simpa [Row.selects, h] using this
  rw [decodeWord, hfind]

/-- A word that no row matches is reserved. -/
theorem decodeWord_of_unselected (h : ∀ r ∈ opcodeMap, w &&& r.mask ≠ r.value) :
    decodeWord w = .error (rejectReason w) := by
  have hfind : opcodeMap.find? (fun r => r.selects w) = none := by
    simpa [List.find?_eq_none, Row.selects] using h
  rw [decodeWord, hfind]

/-- The row of CRC.BYTE (30_encoding.md R128). -/
abbrev byteRow : Row := ⟨0x11000000#32, 0xFFFFFF00#32, fun w => .crcByte (fieldB w)⟩

/-- The row of a cipher command. -/
abbrev cipherRow (base : Word) (cmd : Nat → Bool → Instr) : Row :=
  ⟨base, 0xFFFFEF80#32, fun w => cmd (fieldN w) (fieldK w)⟩

/-- The rows without operands compare all bits; the others are those of CRC.BYTE and of the cipher commands. -/
theorem opcodeMap_cases : ∀ r ∈ opcodeMap, r.mask = 0xFFFFFFFF#32 ∨
    r = byteRow ∨ r = cipherRow 0x24000000#32 .aesEnc ∨ r = cipherRow 0x25000000#32 .aesDec := by
  simp [opcodeMap, rowsSysCrc, rowsAes, rowsEepEccCtr]

/-- A row without operands is the code of its instruction. -/
theorem encode_build_of_full :
    ∀ r ∈ opcodeMap, r.mask = 0xFFFFFFFF#32 →
      (r.build r.value).WellFormed ∧ encode (r.build r.value) = .word r.value := by decide

theorem eq_value_of_full (hm : r.mask = 0xFFFFFFFF#32) (h : w &&& r.mask = r.value) : w = r.value := by
  rw [← h, hm]
  exact BitVec.and_allOnes.symm

/-- A word that selects a row is the code of what the row builds from it. -/
theorem encode_build_of_selected (hr : r ∈ opcodeMap) (h : w &&& r.mask = r.value) :
    (r.build w).WellFormed ∧ encode (r.build w) = .word w := by
  rcases opcodeMap_cases r hr with hm | rfl | rfl | rfl
  · obtain rfl := eq_value_of_full hm h
    exact encode_build_of_full r hr hm
  · exact ⟨rfl, congrArg Code.word (byteWord_of_selected h).symm⟩
  · exact ⟨blockCountOk_fieldN w, congrArg Code.word (cipherWord_of_selected h).symm⟩
  · exact ⟨blockCountOk_fieldN w, congrArg Code.word (cipherWord_of_selected h).symm⟩

end Rows

/-- Settles O3: disjoint rows, the row selected is the one found, and no row selected is none found. -/
theorem commandWordSelectsOneRow : Obligations.CommandWordSelectsOneRow :=
  ⟨opcodeMap_disjoint, fun _ hr _ h => decodeWord_of_selected hr h,
    fun w h => ⟨rejectReason w, decodeWord_of_unselected h⟩⟩

/-! ### Reserved words -/

section Reserved

variable {w : Word} {k : Nat}

/-- The operations of each unit, as bounds. -/
theorem unit_of_lt_opCount {unit op : Nat} (h : op < opCount unit) :
    unit = 0 ∧ op < 3 ∨ unit = 1 ∧ op < 5 ∨ unit = 2 ∧ op < 6 ∨ unit = 3 ∧ op < 4 ∨ unit = 4 ∧ op < 1 ∨
      unit = 5 ∧ op < 2 := by
  unfold opCount at h
  split at h <;> omega

/-- The fields of the word w are defined: an operation of its unit, and an immediate with no bit set that the
operation does not define (30_encoding.md R127, R128). -/
abbrev DefinedFields (w : Word) (unit op imm : Nat) : Prop :=
  op < opCount unit ∧
    (unit = 3 ∧ op ≤ 1 ∧ imm ≤ 2 ∨ unit = 1 ∧ op = 1 ∧ imm < 256 ∨
      unit = 2 ∧ 4 ≤ op ∧ w &&& 0x00FFEF80#32 = 0#32 ∨ ¬ (unit = 2 ∧ 4 ≤ op) ∧ imm = 0)

/-- The word's own unit, operation and immediate (30_encoding.md R120) are defined. -/
abbrev DefinedWord (w : Word) : Prop :=
  DefinedFields w (w.toNat / 0x10000000) (w.toNat / 0x1000000 % 16) (w.toNat % 0x1000000)

theorem definedWord_of_full :
    ∀ r ∈ opcodeMap, r.mask = 0xFFFFFFFF#32 → DefinedWord r.value := by decide

theorem definedWord_of_byte {b : Nat} (hb : b < 256) (hw : w.toNat = 0x11000000 + b) : DefinedWord w := by
  have hunit : w.toNat / 0x10000000 = 1 := by omega
  have hop : w.toNat / 0x1000000 % 16 = 1 := by omega
  refine ⟨?_, .inr (.inl ⟨hunit, hop, by omega⟩)⟩
  rw [hunit, hop]
  decide

theorem definedWord_of_cipher {op imm : Nat} (hop : op = 4 ∨ op = 5) (himm : imm < 8192)
    (hw : w.toNat = 0x20000000 + 0x1000000 * op + imm) (hfree : w &&& 0x00FFEF80#32 = 0#32) :
    DefinedWord w := by
  have hunit : w.toNat / 0x10000000 = 2 := by omega
  have hop' : w.toNat / 0x1000000 % 16 = op := by omega
  refine ⟨?_, .inr (.inr (.inl ⟨hunit, by omega, hfree⟩))⟩
  rw [hunit, hop', opCount]
  omega

/-- A word of a cipher command has an immediate of 13 bits. -/
theorem cipherWord_toNat_of_selected {base : Word} (hb : base.toNat = 8192 * k)
    (h : w &&& 0xFFFFEF80#32 = base) : ∃ imm < 8192, w.toNat = base.toNat + imm := by
  have hn := blockCountOk_fieldN w
  obtain ⟨h1, h2⟩ := blockCountOk_iff.mp hn
  have hkeep := (fieldK w).toNat_le
  have hw := congrArg BitVec.toNat (cipherWord_of_selected h)
  rw [cipherWord_toNat hb hn, Nat.add_assoc] at hw
  exact ⟨_, by omega, hw⟩

/-- The bits of the immediate that the cipher commands do not define. -/
theorem and_undefined_of_selected {base : Word} (h : w &&& 0xFFFFEF80#32 = base)
    (hb : base &&& 0x00FFEF80#32 = 0#32) : w &&& 0x00FFEF80#32 = 0#32 := by
  rw [← hb, ← h, BitVec.and_assoc]
  rfl

/-- A word that selects a row is defined. -/
theorem definedWord_of_selected {r : Row} (hr : r ∈ opcodeMap) (h : w &&& r.mask = r.value) :
    DefinedWord w := by
  rcases opcodeMap_cases r hr with hm | rfl | rfl | rfl
  · obtain rfl := eq_value_of_full hm h
    exact definedWord_of_full r hr hm
  · exact definedWord_of_byte (fieldB w).isLt
      ((congrArg BitVec.toNat (byteWord_of_selected h)).trans (byteWord_toNat _))
  · obtain ⟨imm, himm, hw⟩ := cipherWord_toNat_of_selected (k := 0x12000) rfl h
    exact definedWord_of_cipher (.inl rfl) himm hw (and_undefined_of_selected h (by decide))
  · obtain ⟨imm, himm, hw⟩ := cipherWord_toNat_of_selected (k := 0x12800) rfl h
    exact definedWord_of_cipher (.inr rfl) himm hw (and_undefined_of_selected h (by decide))

end Reserved

/-- Settles O4: a reserved word is refused when it is issued, and each class of R127 leaves the defined fields. -/
theorem reservedWordFaults : Obligations.ReservedWordFaults := by
  refine ⟨fun w s h => ?_, fun w => ?_, by decide⟩
  · rw [Machine.issue_of_reject (decodeWord_of_unselected h), Machine.State.raise_eq]
  · intro unit op imm hclass r hr hsel
    have hdef : DefinedFields w unit op imm := definedWord_of_selected hr hsel
    clear_value unit op imm
    obtain ⟨hop, himm⟩ := hdef
    have hunit := unit_of_lt_opCount hop
    rcases himm with himm | himm | ⟨hu, ho, hfree⟩ | himm
    · omega
    · omega
    · -- the class of set undefined bits is the one that the bounds alone do not exclude
      simp only [hfree, ne_eq, not_true_eq_false, and_false, false_or] at hclass
      omega
    · omega

/-! ### Frames -/

section Frames

variable {bits : List Bool} {i : Instr}

/-- The frames of opcode 0b00 carry their low six address bits. -/
theorem decodeFrame_of_op00 {a7 a6 : Bool} {cmd : BitVec 6 → Instr}
    (h : ∀ low, decodeOp00 a7 a6 low = cmd (bitsVec 6 low)) (x : BitVec 6) :
    decodeFrame (true :: false :: false :: a7 :: a6 :: valBits 6 x.toNat) = .ok (cmd x) := by
  simp [decodeFrame, valBits_length, frameBits, h, bitsVec_valBits]

theorem decodeFrame_write (a : Byte) (d : Half) :
    decodeFrame (true :: false :: true :: (valBits 8 a.toNat ++ valBits 16 d.toNat)) =
      .ok (.frameWrite a d) := by
  have ha : (valBits 8 a.toNat).length = 8 := valBits_length 8 _
  simp [decodeFrame, ha, valBits_length, frameBits, bitsVec_valBits]

/-- The frames of opcode 0b10 and 0b11 carry an address. -/
theorem decodeFrame_of_op1 (op0 : Bool) (a : Byte) :
    decodeFrame (true :: true :: op0 :: valBits 8 a.toNat) =
      .ok (if op0 = true then .frameReserved11 a else .frameRead a) := by
  cases op0 <;> simp [decodeFrame, valBits_length, frameBits, bitsVec_valBits]

theorem encode_decodeOp00 (a7 a6 : Bool) {low : List Bool} (h : low.length = 6) :
    (decodeOp00 a7 a6 low).WellFormed ∧
      encode (decodeOp00 a7 a6 low) = .frame (true :: false :: false :: a7 :: a6 :: low) := by
  cases a7 <;> cases a6 <;> exact ⟨rfl, by simp [decodeOp00, encode, frame00, valBits_bitsVec low h]⟩

/-- A bit string that decodes is the code of its frame. -/
theorem encode_of_decodeFrame (h : decodeFrame bits = .ok i) : i.WellFormed ∧ encode i = .frame bits := by
  obtain ⟨op1, op0, rest, rfl, hl⟩ := Machine.decodeFrame_ok h
  simp only [decodeFrame, if_pos hl] at h
  split at h
  · have hlen : rest.length = 8 := by simpa [frameBits] using hl
    cases h
    exact ⟨rfl, by rw [encode, frame11, valBits_bitsVec rest hlen]⟩
  · have hlen : rest.length = 8 := by simpa [frameBits] using hl
    cases h
    exact ⟨rfl, by rw [encode, frame11, valBits_bitsVec rest hlen]⟩
  · have hlen : rest.length = 24 := by simpa [frameBits] using hl
    cases h
    refine ⟨rfl, ?_⟩
    rw [encode, valBits_bitsVec _ (by simp [hlen]), valBits_bitsVec _ (by simp [hlen]), List.take_append_drop]
  · next low =>
    have hlen : low.length = 6 := by simpa [frameBits] using hl
    cases h
    exact encode_decodeOp00 _ _ hlen
  · cases h

end Frames

/-! ### The round trips -/

/-- Settles O2: a word is the code of what its row builds, a frame is rebuilt from its fields. -/
theorem encodeDecodeIdentity : Obligations.EncodeDecodeIdentity := by
  intro c i h
  cases c with
  | word w =>
    obtain ⟨r, hr, hsel, rfl⟩ := Machine.selected_of_decodeWord h
    exact encode_build_of_selected hr hsel
  | frame bits => exact encode_of_decodeFrame h

section DecodeEncode

/-- A row's value with a part in the bits that the row leaves free selects the row. -/
theorem or_and_of_free {value imm mask : Word} (hv : value &&& mask = value) (hi : imm &&& mask = 0#32) :
    (value ||| imm) &&& mask = value := by
  rw [BitVec.and_comm, BitVec.and_or_distrib_left, BitVec.and_comm mask, BitVec.and_comm mask, hv, hi,
    BitVec.or_zero]

theorem byte_and_rowMask (b : Byte) : b.setWidth 32 &&& 0xFFFFFF00#32 = 0#32 := by
  have hb : b.setWidth 32 = (0x11000000#32 ||| b.setWidth 32) &&& 0x000000FF#32 := by
    rw [and_byteMask, fieldB_byteWord]
  rw [hb, BitVec.and_assoc]
  exact BitVec.and_zero

theorem decodeWord_crcByte (b : Byte) :
    decodeWord (0x11000000#32 ||| b.setWidth 32) = .ok (.crcByte b) := by
  have hr : byteRow ∈ opcodeMap := by simp [opcodeMap, rowsSysCrc]
  rw [decodeWord_of_selected hr (or_and_of_free (by decide) (byte_and_rowMask b))]
  exact congrArg (fun b => Except.ok (Instr.crcByte b)) (fieldB_byteWord b)

/-- The word of a cipher command decodes by its row, with the count and the flag it was made of. -/
theorem decodeWord_cipher {base : Word} {n k : Nat} {keep : Bool} {cmd : Nat → Bool → Instr}
    (hr : cipherRow base cmd ∈ opcodeMap) (hb : base.toNat = 8192 * k) (hm : base &&& 0xFFFFEF80#32 = base)
    (hn : blockCountOk n = true) : decodeWord (base ||| blocksImm n keep) = .ok (cmd n keep) := by
  have hsel := or_and_of_free hm (Laws.CodeShape.blocksImm_masked n keep hn)
  rw [decodeWord_of_selected hr hsel]
  simp only [fieldN_cipherWord hb hn, fieldK_cipherWord hb hn]

end DecodeEncode

/-- Settles O1: a code without operands is evaluated, the others give back what their fields hold. -/
theorem decodeEncodeIdentity : Obligations.DecodeEncodeIdentity := by
  intro i hwf
  cases i with
  | crcByte b => exact decodeWord_crcByte b
  | aesEnc n keep =>
    exact decodeWord_cipher (k := 0x12000) (by simp [opcodeMap, rowsAes]) rfl (by decide) hwf
  | aesDec n keep =>
    exact decodeWord_cipher (k := 0x12800) (by simp [opcodeMap, rowsAes]) rfl (by decide) hwf
  | frameRead a => exact decodeFrame_of_op1 false a
  | frameReserved11 a => exact decodeFrame_of_op1 true a
  | frameWrite a d => exact decodeFrame_write a d
  | frameEwen x => exact decodeFrame_of_op00 (cmd := .frameEwen) (fun _ => rfl) x
  | frameEwds x => exact decodeFrame_of_op00 (cmd := .frameEwds) (fun _ => rfl) x
  | frameReserved0001 x => exact decodeFrame_of_op00 (cmd := .frameReserved0001) (fun _ => rfl) x
  | frameReserved0010 x => exact decodeFrame_of_op00 (cmd := .frameReserved0010) (fun _ => rfl) x
  | _ => rfl

/-- Settles O5: the closed codes, evaluated. -/
theorem specCodesDecode : Obligations.SpecCodesDecode := by
  unfold Obligations.SpecCodesDecode
  decide

end Sys2Proof

/-! ### A frame clocked in bit by bit -/

namespace Sys2Proof.Machine

section Wire

variable {s t : State} {i : Instr} {bits : List Bool}

/-- A code that is a frame decodes to it. -/
theorem decodeFrame_of_encode (h : encode i = .frame bits) : decodeFrame bits = .ok i := by
  have hwf : i.WellFormed := by
    cases i with
    | aesEnc n keep => cases h
    | aesDec n keep => cases h
    | _ => rfl
  have hdec := decodeEncodeIdentity i hwf
  rwa [h] at hdec

theorem execAll_cons_next {is : List Instr} (h : exec i s = .next t) (hf : t.fault = none) :
    execAll (i :: is) s = execAll is t := by
  rw [execAll, h]
  exact if_pos hf

theorem execAll_cons_fault {is : List Instr} (h : exec i s = .next t) (hf : t.fault ≠ none) :
    execAll (i :: is) s = .next t := by
  rw [execAll, h]
  exact if_neg hf

/-- The device has received the bits sent, and the lines are those between two bits of a frame. -/
structure State.Receiving (s : State) (sent : List Bool) : Prop where
  cs : s.gpio.cs = true
  sk : s.gpio.sk = false
  mode : s.dev.mode = .recv
  shift : s.dev.shift = sent
  fault : s.fault = none

/-- The state after a bit has been clocked in, with the device as its reaction leaves it. -/
def State.clocked (s : State) (b : Bool) (d : Device) : State :=
  { s with dev := d, gpio := ⟨true, false, b⟩, status := some 0#32 }

/-- The state with the data line driven to the bit that is clocked in next. -/
def State.driven (s : State) (b : Bool) : State := (s.setLine .di b).done

theorem exec_driveDi (s : State) (b : Bool) :
    exec (if b = true then .eepSetDi else .eepClrDi) s = .next (s.driven b) := by
  cases b <;> rfl

/-- The clock rise that brings a bit is the receiving device's reaction to the bit (42_eeprom.md R300, R322). -/
theorem exec_eepSetSk_driven {sent : List Bool} (h : s.Receiving sent) (b : Bool) :
    exec .eepSetSk (s.driven b) = (s.driven b).complete ((s.dev.skRecv b).map
      fun d => { (s.driven b).setLine .sk true with dev := d }.done) := by
  have hedge : (s.driven b).dev.skEdge (!(s.driven b).gpio.sk && (s.driven b).gpio.cs) (s.driven b).gpio.di =
      s.dev.skRecv b := by
    simp [State.driven, State.done, h.cs, h.sk, Device.skEdge, h.mode]
  show execEepSetSk (s.driven b) = _
  rw [execEepSetSk, hedge]
  cases s.dev.skRecv b <;> rfl

/-- A bit that the device takes. -/
theorem execAll_clockBits_ok {sent rest : List Bool} {b : Bool} {d : Device} (h : s.Receiving sent)
    (hd : s.dev.skRecv b = .ok d) :
    execAll (clockBits (b :: rest)) s = execAll (clockBits rest) (s.clocked b d) := by
  have hsk := exec_eepSetSk_driven h b
  rw [hd] at hsk
  have hclr : exec .eepClrSk { (s.driven b).setLine .sk true with dev := d }.done = .next (s.clocked b d) := by
    have hclocked : s.clocked b d =
        { s with dev := d, gpio := ⟨s.gpio.cs, false, b⟩, status := some 0#32 } := by
      rw [h.cs]
      rfl
    rw [hclocked]
    rfl
  exact (execAll_cons_next (exec_driveDi s b) h.fault).trans ((execAll_cons_next hsk h.fault).trans
    (execAll_cons_next hclr h.fault))

/-- A bit at which the device raises a fault: the clock does not rise. -/
theorem execAll_clockBits_raise {sent rest : List Bool} {b : Bool} {k : FaultKind} (h : s.Receiving sent)
    (hd : s.dev.skRecv b = .error (.raise k)) :
    execAll (clockBits (b :: rest)) s = .next ((s.driven b).raise k) := by
  have hsk := exec_eepSetSk_driven h b
  rw [hd] at hsk
  refine (execAll_cons_next (exec_driveDi s b) h.fault).trans (execAll_cons_fault hsk ?_)
  rw [State.raise_eq]
  exact Option.some_ne_none _

/-- Before its last bit a frame only fills the shift register. -/
theorem skRecv_of_frame {sent rest : List Bool} {b : Bool} {d : Device} (hi : decodeFrame bits = .ok i)
    (hbits : sent ++ b :: rest = bits) (hne : rest ≠ []) (hs : d.shift = sent) :
    d.skRecv b = .ok { d with shift := sent ++ [b] } := by
  subst hs
  have htake : d.shift ++ [b] = bits.take (d.shift.length + 1) := by
    rw [← hbits, List.take_append, List.take_of_length_le (by omega)]
    simp
  have hstart : d.shift ≠ [] ∨ b = true := by
    obtain ⟨op1, op0, tl, hfirst, -⟩ := decodeFrame_ok hi
    rw [← hbits] at hfirst
    exact or_iff_not_imp_left.mpr fun h => by simpa [not_not.mp h] using congrArg List.head? hfirst
  refine skRecv_partial hstart ?_
  rw [htake]
  refine frameComplete_take hi _ ?_
  have := List.length_pos_iff.mpr hne
  rw [← hbits, List.length_append, List.length_cons]
  omega

/-- Clocking in what is missing of a frame is the device's reaction to the frame, or its fault at the last bit. -/
theorem execAll_clockBits_frame (hi : decodeFrame bits = .ok i) (rest : List Bool) {sent : List Bool} {b : Bool}
    (hbits : sent ++ b :: rest = bits) (h : s.Receiving sent) :
    (∃ d, Device.react { s.dev with shift := bits } i = .ok d ∧
      execAll (clockBits (b :: rest)) s = .next (s.clocked (rest.getLastD b) d)) ∨
    (Device.react { s.dev with shift := bits } i = .error (.raise .eepProtocol) ∧
      ∃ u, execAll (clockBits (b :: rest)) s = .next u ∧ u.fault = some .eepProtocol ∧
        ∃ bs, u.dev = { s.dev with shift := bs }) := by
  induction rest generalizing s sent b with
  | nil =>
    have hd : s.dev.skRecv b = Device.react { s.dev with shift := bits } i := by
      subst hbits
      rw [← h.shift] at hi ⊢
      exact skRecv_complete (frameComplete_of_decode hi) hi
    rcases react_ok_or_protocol { s.dev with shift := bits } i with ⟨d, hr⟩ | hr
    · exact .inl ⟨d, hr, execAll_clockBits_ok h (hd.trans hr)⟩
    · refine .inr ⟨hr, _, execAll_clockBits_raise h (hd.trans hr), ?_, s.dev.shift, rfl⟩
      exact congrArg State.fault (State.raise_of_noFault (s := s.driven b) h.fault _)
  | cons b' rest ih =>
    rw [execAll_clockBits_ok h (skRecv_of_frame hi hbits (by simp) h.shift), List.getLastD_cons]
    exact ih (s := s.clocked b { s.dev with shift := sent ++ [b] }) (sent := sent ++ [b]) (by simpa using hbits)
      ⟨rfl, rfl, h.mode, rfl, h.fault⟩

end Wire

/-- Settles O37: the first bit begins the frame, and the frame's reaction is what its execution gives. -/
theorem wireFrameIsExecuted : Obligations.WireFrameIsExecuted := by
  intro i bits s henc hcs hsk hmode hshift hfault t
  have hi := decodeFrame_of_encode henc
  have hexec : exec i t = t.complete ((t.dev.react i).map fun d => { t with dev := d }) :=
    exec_frame_recv (unitOf_decodeFrame hi) hcs hmode
  obtain ⟨op1, op0, rest, hbits, -⟩ := decodeFrame_ok hi
  have hclock := execAll_clockBits_frame (s := s) hi (op1 :: op0 :: rest) (sent := []) hbits.symm
    ⟨hcs, hsk, hmode, hshift, hfault⟩
  rw [← hbits] at hclock
  rcases hclock with ⟨d, hr, hrun⟩ | ⟨hr, u, hrun, hu, bs, hdev⟩
  · refine .inl ⟨d, hexec.trans (by rw [hr]; rfl), hrun.trans ?_⟩
    rw [hbits]
    rfl
  · refine .inr ⟨hexec.trans (by rw [hr]; rfl), u, hrun, hu, ?_⟩
    rw [hdev]
    exact ⟨rfl, rfl, rfl⟩

end Sys2Proof.Machine

/-! # Proofs: the statements of 40_crc.md

First the CRC function: a step is eight rounds, and a round loses nothing. Then how the commands of the CRC unit
end, by the registers and the bytes that they read. -/

namespace Sys2Proof.Machine

section CrcFunction

/-! ### Rounds -/

/-- The bit that a round shifts out comes back as the polynomial's top bit (40_crc.md R201). -/
theorem crcRound_msb (c : Word) : (crcRound c).getLsbD 31 = c.getLsbD 0 := by
  rw [crcRound]
  cases hc : c.getLsbD 0 <;> simp [crcPoly]

/-- A round is only a shift when the bit that it shifts out is 0. -/
theorem crcRound_even {c : Word} (h : c.getLsbD 0 = false) : crcRound c = c >>> 1 := by
  rw [crcRound, h]
  exact if_neg Bool.false_ne_true

theorem crcRound_eq_zero {c : Word} (h : crcRound c = 0#32) : c = 0#32 := by
  have hlow : c.getLsbD 0 = false := by rw [← crcRound_msb, h, BitVec.getLsbD_zero]
  rw [crcRound_even hlow] at h
  apply BitVec.eq_of_getLsbD_eq
  intro i _
  cases i with
  | zero => rw [hlow, BitVec.getLsbD_zero]
  | succ i =>
    have hbit := congrArg (BitVec.getLsbD · i) h
    simpa [BitVec.getLsbD_ushiftRight, Nat.add_comm] using hbit

/-- A round is linear and has no kernel, so it loses nothing. -/
theorem crcRound_injective : Function.Injective crcRound := by
  intro a b h
  have hker : crcRound (a ^^^ b) = 0#32 := by rw [crcRound_xor, h, BitVec.xor_self]
  exact BitVec.xor_eq_zero_iff.mp (crcRound_eq_zero hker)

theorem crcRounds_injective (n : Nat) : Function.Injective (Nat.repeat crcRound n) := by
  induction n with
  | zero => exact Function.injective_id
  | succ n ih => exact crcRound_injective.comp ih

/-- As many rounds as the word has low zero bits only shift it. -/
theorem crcRounds_of_low_zero {n : Nat} {c : Word} (h : ∀ i < n, c.getLsbD i = false) :
    Nat.repeat crcRound n c = c >>> n := by
  induction n with
  | zero => exact (BitVec.ushiftRight_zero c).symm
  | succ n ih =>
    have hlow : (c >>> n).getLsbD 0 = false := by
      rw [BitVec.getLsbD_ushiftRight]
      exact h n n.lt_succ_self
    rw [Nat.repeat, ih fun i hi => h i (by omega), crcRound_even hlow, BitVec.shiftRight_add]

/-! ### The table, the step and the loop -/

/-- The table is linear over exclusive-or (40_crc.md R201). -/
theorem crcTable_xor (m n : Byte) : crcTable (m ^^^ n) = crcTable m ^^^ crcTable n := by
  rw [crcTable, BitVec.setWidth_xor, crcRounds_xor]
  rfl

/-- A word is its low byte and the rest. -/
theorem lowByte_xor_rest (c : Word) : (c.setWidth 8).setWidth 32 ^^^ (c >>> 8) <<< 8 = c := by
  apply BitVec.eq_of_getLsbD_eq
  intro i hi
  by_cases h : i < 8
  · simp [h, hi]
  · simp [h, hi, show 8 + (i - 8) = i by omega]

/-- Eight rounds look up the low byte and shift the rest: the table replaces them (R201, R202). -/
theorem crcRounds_eight (c : Word) : Nat.repeat crcRound 8 c = crcTable (c.setWidth 8) ^^^ (c >>> 8) := by
  have hrest : Nat.repeat crcRound 8 ((c >>> 8) <<< 8) = c >>> 8 := by
    rw [crcRounds_of_low_zero fun i hi => by simp [hi]]
    apply BitVec.eq_of_getLsbD_eq
    intro i hi
    by_cases h : 8 + i < 32
    · simp [h]
    · simp [h, BitVec.getLsbD_of_ge c (8 + i) (by omega)]
  conv_lhs => rw [← lowByte_xor_rest c, crcRounds_xor, hrest]
  rfl

/-- A step is eight rounds of the accumulator with the byte added to it. -/
theorem crcStep_eq_rounds (a : Word) (b : Byte) :
    crcStep a b = Nat.repeat crcRound 8 (a ^^^ b.setWidth 32) := by
  have hshift : (a ^^^ b.setWidth 32) >>> 8 = a >>> 8 := by
    rw [BitVec.ushiftRight_xor_distrib]
    have hb : b.setWidth 32 >>> 8 = 0#32 := by
      ext i hi
      simp
    rw [hb, BitVec.xor_zero]
  rw [crcRounds_eight, hshift, crcStep]

theorem crcStep_injective_acc (b : Byte) : Function.Injective (crcStep · b) := by
  intro a a' h
  simp only [crcStep_eq_rounds] at h
  exact (BitVec.xor_left_inj _).mp (crcRounds_injective 8 h)

theorem crcStep_injective_byte (a : Word) : Function.Injective (crcStep a) := by
  intro b b' h
  rw [crcStep_eq_rounds, crcStep_eq_rounds] at h
  have hwide := (BitVec.xor_right_inj _).mp (crcRounds_injective 8 h)
  simpa using congrArg (BitVec.setWidth 8) hwide

theorem crcLoop_append (a : Word) (u v : List Byte) : crcLoop a (u ++ v) = crcLoop (crcLoop a u) v :=
  List.foldl_append

/-- Different accumulators stay different, whatever bytes follow. -/
theorem crcLoop_injective_acc (bs : List Byte) : Function.Injective (crcLoop · bs) := by
  induction bs with
  | nil => exact Function.injective_id
  | cons b bs ih => exact ih.comp (crcStep_injective_acc b)

end CrcFunction

/-- Settles O21: the rounds are the table's own recursion, the loop is a fold, the constants are evaluated. -/
theorem crcFunctionLaws : Obligations.CrcFunctionLaws := by
  refine ⟨fun n => ⟨fun k => Nat.repeat crcRound k (n.setWidth 32), rfl, rfl, fun _ => rfl⟩,
    crcLoop_append, crcTable_xor, fun _ _ => rfl, by decide, by decide, by decide, ?_⟩
  decide +kernel

/-- Settles O22: the steps on the two bytes differ, and the bytes after them keep them different. -/
theorem crcDetectsOneWrongByte : Obligations.CrcDetectsOneWrongByte := by
  intro u v b c hbc h
  have hloop : crcLoop crcInit (u ++ b :: v) = crcLoop crcInit (u ++ c :: v) := (BitVec.xor_left_inj _).mp h
  rw [crcLoop_append, crcLoop_append] at hloop
  exact hbc (crcStep_injective_byte _ (crcLoop_injective_acc v hloop))

section CrcCommands

variable {s : State} {a n acc : Word} {bs : List Byte}

/-! ### The accumulator as an operand -/

theorem complete_unwritten {α : Type} {r : Option α} (h : r = none) (f : α → Except Halt State) :
    s.complete (written r >>= f) = .next (s.raise .readUnwritten) := by
  rw [h]
  rfl

theorem complete_written {α : Type} {r : Option α} {v : α} (h : r = some v) (f : α → Except Halt State) :
    s.complete (written r >>= f) = s.complete (f v) := by
  rw [h]
  rfl

/-! ### The commands with their operands written -/

theorem execCrcByte_written (h : s.crcAcc = some acc) (b : Byte) :
    execCrcByte b s = .next { s with crcAcc := some (crcStep acc b) }.done :=
  complete_written h _

theorem execCrcFinal_written (h : s.crcAcc = some acc) :
    execCrcFinal s = .next (s.setRes 0 (acc ^^^ crcXorOut)).done :=
  complete_written h _

/-- Once its registers are read, CRC.RANGE is a host-view read and a loop (40_crc.md R207). -/
theorem execCrcRange_written (ha : s.arg[0] = some a) (hn : s.arg[1] = some n) (hacc : s.crcAcc = some acc) :
    execCrcRange s = s.complete (s.hostRead a.toNat n.toNat >>= fun bs =>
      .ok { s with crcAcc := some (crcLoop acc bs) }.done) :=
  (complete_argPair_written ha hn _).trans (complete_written hacc _)

/-- CRC.COMPUTE does not read the accumulator (R209). -/
theorem execCrcCompute_written (ha : s.arg[0] = some a) (hn : s.arg[1] = some n) :
    execCrcCompute s = s.complete (s.hostRead a.toNat n.toNat >>= fun bs =>
      .ok ({ s with crcAcc := some (crcLoop crcInit bs) }.setRes 0 (crc32 bs)).done) :=
  complete_argPair_written ha hn _

theorem execCrcRange_unwritten (h : s.arg[0] = none ∨ s.arg[1] = none ∨ s.crcAcc = none) :
    execCrcRange s = .next (s.raise .readUnwritten) := by
  by_cases harg : s.arg[0] = none ∨ s.arg[1] = none
  · exact complete_argPair_unwritten harg _
  · have hacc : s.crcAcc = none := by tauto
    obtain ⟨h0, h1⟩ := not_or.mp harg
    obtain ⟨a, ha⟩ := Option.ne_none_iff_exists'.mp h0
    obtain ⟨n, hn⟩ := Option.ne_none_iff_exists'.mp h1
    exact (complete_argPair_written ha hn _).trans (complete_unwritten hacc _)

theorem execCrcCompute_reads (ha : s.arg[0] = some a) (hn : s.arg[1] = some n) (hl : bs.length = n.toNat)
    (hr : s.HostReads a.toNat bs) : execCrcCompute s =
      .next ({ s with crcAcc := some (crcLoop crcInit bs) }.setRes 0 (crc32 bs)).done := by
  rw [execCrcCompute_written ha hn, ← hl]
  exact complete_hostRead_reads hr _

/-- A step that raises a fault ends with one set. -/
theorem Raises.fault_ne_none {t : State} (h : Raises s t) : t.fault ≠ none := by
  obtain ⟨k, rfl⟩ := h
  rw [State.raise_eq]
  exact Option.some_ne_none _

/-! ### The reserved bits of CRC.BYTE -/

/-- With an immediate below 256 the bits w[23:8] are 0. -/
theorem and_byteReserved_of_lt {w : Word} (h : w.toNat % 0x1000000 < 256) : w &&& 0x00FFFF00#32 = 0#32 := by
  have himm : w &&& 0x00FFFFFF#32 = (fieldB w).setWidth 32 := by
    apply BitVec.eq_of_toNat_eq
    rw [BitVec.toNat_and, BitVec.toNat_setWidth_of_le (by decide), fieldB_toNat]
    refine (Nat.and_two_pow_sub_one_eq_mod w.toNat 24).trans ?_
    omega
  calc w &&& 0x00FFFF00#32 = (w &&& 0x00FFFFFF#32) &&& 0xFFFFFF00#32 := by rw [BitVec.and_assoc]; rfl
    _ = 0#32 := by rw [himm, byte_and_rowMask]

end CrcCommands

/-- Settles O16: its meaning is the state with the accumulator set. -/
theorem crcInitResult : Obligations.CrcInitResult := ⟨by decide, fun _ => rfl⟩

/-- Settles O17: a word with reserved bits set is of a reserved class of R127; else the accumulator decides. -/
theorem crcByteResult : Obligations.CrcByteResult := by
  refine ⟨decodeWord_crcByte, fun w s hop hbits => ?_,
    fun b s => ⟨fun h => complete_unwritten h _, fun acc h => execCrcByte_written h b⟩⟩
  obtain ⟨-, hreserved, -⟩ := reservedWordFaults
  have himm : 256 ≤ w.toNat % 0x1000000 := by
    by_contra hlt
    exact hbits (and_byteReserved_of_lt (by omega))
  exact issue_of_reject (decodeWord_of_unselected (hreserved w (by omega))) s

/-- Settles O18: the registers, the read of the range, then the fold over its bytes. -/
theorem crcRangeResult : Obligations.CrcRangeResult := by
  refine ⟨by decide, fun s => ⟨execCrcRange_unwritten, fun a n acc ha hn hacc => ?_⟩⟩
  have hexec : exec .crcRange s = _ := execCrcRange_written ha hn hacc
  rw [hexec]
  refine ⟨readStops_hostRead s _ _ _, fun bs hl hr => ?_⟩
  rw [← hl]
  exact complete_hostRead_reads hr _

/-- Settles O19: the accumulator is read, and only RES0 and STATUS are written. -/
theorem crcFinalResult : Obligations.CrcFinalResult :=
  ⟨by decide, fun _ => ⟨fun h => complete_unwritten h _, fun _ h => execCrcFinal_written h⟩⟩

/-- Settles O20: the operands, the read of the range, then the CRC of its bytes. -/
theorem crcComputeResult : Obligations.CrcComputeResult := by
  refine ⟨by decide, fun s => ⟨fun h => complete_argPair_unwritten h _, fun a n ha hn =>
    ⟨?_, fun bs hl hr => execCrcCompute_reads ha hn hl hr⟩⟩⟩
  have hexec : exec .crcCompute s = _ := execCrcCompute_written ha hn
  rw [hexec]
  exact readStops_hostRead s _ _ _

/-- Settles O23: CRC.RANGE after CRC.INIT reads the bytes that CRC.COMPUTE reads, and CRC.FINAL takes what it
leaves. -/
theorem crcComputeIsInitRangeFinal : Obligations.CrcComputeIsInitRangeFinal := by
  intro s t u v _ hinit hrange hu hfinal
  cases hinit
  rcases execCrcRange_next hrange with hraise | ⟨a, n, acc, bs, ha, hn, hacc, hl, hr, rfl⟩
  · exact absurd hu hraise.fault_ne_none
  · cases hacc
    cases (execCrcFinal_written rfl).symm.trans hfinal
    exact execCrcCompute_reads (s := s) ha hn hl hr

end Sys2Proof.Machine

/-! # Proofs: the statements of 41_aes_cbc.md

First the CBC functions: what encryption and decryption share (`CbcPass`), and their equations block by block. Then a
cipher command over any such function (`State.cipherRun`), so that AES.ENC and AES.DEC have one proof of how they end,
one of two adjacent chunks and one of what a second pass finds. -/

namespace Sys2Proof.Machine

section CbcFunctions

variable {f : Block → List Block → List Block × Block}

/-! ### The chunking law -/

/-- What CBC encryption and decryption have in common: no block leaves the chaining value, each block gives one, and
a pass over two parts is a pass over each, the second from the chaining value of the first (41_aes_cbc.md R245). -/
structure CbcPass (f : Block → List Block → List Block × Block) : Prop where
  nil : ∀ c, f c [] = ([], c)
  length : ∀ c ps, (f c ps).1.length = ps.length
  append : ∀ c ps qs, f c (ps ++ qs) = ((f c ps).1 ++ (f (f c ps).2 qs).1, (f (f c ps).2 qs).2)

theorem cbcPass_enc (enc : Block → Block) : CbcPass (cbcEnc enc) where
  nil _ := rfl
  length := cbcEnc_length enc
  append c ps qs := by
    induction ps generalizing c with
    | nil => rfl
    | cons p ps ih => simp only [List.cons_append, cbcEnc, ih]

theorem cbcPass_dec (dec : Block → Block) : CbcPass (cbcDec dec) where
  nil _ := rfl
  length := cbcDec_length dec
  append c ps qs := by
    induction ps generalizing c with
    | nil => rfl
    | cons p ps ih => simp only [List.cons_append, cbcDec, ih]

/-- Any number of chunks, each from the chaining value of the one before, are one pass (R245). -/
theorem CbcPass.flatten (h : CbcPass f) (c : Block) (chunks : List (List Block)) :
    f c chunks.flatten = chunks.foldl (fun acc chunk =>
      let r := f acc.2 chunk
      (acc.1 ++ r.1, r.2)) ([], c) := by
  induction chunks using List.reverseRecOn with
  | nil => exact h.nil c
  | append_singleton chunks chunk ih =>
    rw [List.flatten_append, List.flatten_singleton, h.append, List.foldl_append, ← ih]
    rfl

/-! ### The equations block by block -/

/-- The block before position i, with x before the first, looked up in the list that begins with x. -/
theorem getD_cons_eq_previous {l : List Block} {i : Nat} (hi : i < l.length) (x c : Block) :
    (x :: l).getD i c = if i = 0 then x else l.getD (i - 1) x := by
  cases i with
  | zero => rfl
  | succ i =>
    have hi' : i < l.length := by omega
    simp [hi']

/-- C_i is the encryption of P_i exclusive-or C_(i-1) (R242). -/
theorem cbcEnc_getElem? (enc : Block → Block) (c : Block) {ps : List Block} {i : Nat} {p : Block}
    (h : ps[i]? = some p) : (cbcEnc enc c ps).1[i]? =
      some (enc (xorBlock p (if i = 0 then c else (cbcEnc enc c ps).1.getD (i - 1) c))) := by
  induction ps generalizing c i with
  | nil => cases h
  | cons q ps ih =>
    cases i with
    | zero => cases h; rfl
    | succ i =>
      have hi : i < ps.length := Nat.lt_of_succ_lt_succ (List.getElem?_eq_some_iff.mp h).1
      rw [if_neg (by omega), cbcEnc, Nat.add_sub_cancel, getD_cons_eq_previous (by rwa [cbcEnc_length]),
        List.getElem?_cons_succ]
      exact ih _ h

/-- P_i is the decryption of C_i, exclusive-or C_(i-1) (R243). -/
theorem cbcDec_getElem? (dec : Block → Block) (c : Block) {xs : List Block} {i : Nat} {x : Block}
    (h : xs[i]? = some x) : (cbcDec dec c xs).1[i]? =
      some (xorBlock (dec x) (if i = 0 then c else xs.getD (i - 1) c)) := by
  induction xs generalizing c i with
  | nil => cases h
  | cons y xs ih =>
    cases i with
    | zero => cases h; rfl
    | succ i =>
      have hi : i < xs.length := Nat.lt_of_succ_lt_succ (List.getElem?_eq_some_iff.mp h).1
      rw [if_neg (by omega), cbcDec, Nat.add_sub_cancel, getD_cons_eq_previous hi, List.getElem?_cons_succ]
      exact ih _ h

end CbcFunctions

/-! ### Ranges and parts of them -/

section Parts

variable {s : State}

theorem Fits.part {a n o m : Nat} (h : Fits a n) (hm : o + m ≤ n) : Fits (a + o) m := by
  unfold Fits at *
  omega

theorem Avoids.part {set : List Nat} {a n o m : Nat} (h : Avoids set a n) (hm : o + m ≤ n) :
    Avoids set (a + o) m := fun x hx hin => h x hx (by omega)

theorem NoOverlap.part {a b n o m : Nat} (h : NoOverlap a b n) (hm : o + m ≤ n) :
    NoOverlap (a + o) (b + o) m := by
  unfold NoOverlap at *
  omega

theorem holds_append {a : Nat} {xs ys : List Byte} :
    s.Holds a (xs ++ ys) ↔ s.Holds a xs ∧ s.Holds (a + xs.length) ys := by
  constructor
  · refine fun h => ⟨fun i hi => ?_, fun i hi => ?_⟩
    · rw [h i (by rw [List.length_append]; omega), List.getElem_append_left hi]
    · rw [Nat.add_assoc, h (xs.length + i) (by rw [List.length_append]; omega),
        List.getElem_append_right (by omega)]
      simp
  · rintro ⟨hx, hy⟩ i hi
    rw [List.length_append] at hi
    by_cases h : i < xs.length
    · rw [hx i h, List.getElem_append_left h]
    · have := hy (i - xs.length) (by omega)
      rw [List.getElem_append_right (by omega), ← this]
      congr 1
      omega

theorem ofBlocks_append (ps qs : List Block) : ofBlocks (ps ++ qs) = ofBlocks ps ++ ofBlocks qs :=
  List.flatMap_append

theorem addrInsertRange_add (a m n : Nat) (set : List Nat) :
    addrInsertRange a (m + n) set = addrInsertRange (a + m) n (addrInsertRange a m set) := by
  induction m generalizing a set with
  | zero => rw [Nat.zero_add]; rfl
  | succ m ih =>
    rw [show m + 1 + n = (m + n) + 1 by omega, addrInsertRange, addrInsertRange, ih,
      show a + 1 + m = a + (m + 1) by omega]

/-- Storing over a range, and then what the range held, gives every byte back. -/
theorem Memory.get_write_restored {m : Memory} {a : Nat} {xs ys : List Byte} (hl : xs.length = ys.length)
    (hy : ∀ (i : Nat) (h : i < ys.length), m.get (a + i) = some ys[i]) (p : Nat) :
    Memory.get ((m.write a xs).write a ys) p = m.get p := by
  by_cases hp : a ≤ p ∧ p < a + ys.length
  · obtain ⟨i, rfl⟩ := Nat.exists_eq_add_of_le hp.1
    have hi : i < ys.length := by omega
    rw [Memory.get_write_inside _ _ _ _ hi, hy i hi]
  · rw [Memory.get_write_outside _ _ _ _ (by omega), Memory.get_write_outside _ _ _ _ (by omega)]

end Parts

section CipherCommands

variable {s : State} {keep : Bool} {src dst : Word} {key : List Byte} {c iv : Block} {input ps qs : List Block}
  {f : List Byte → Block → List Block → List Block × Block}

/-! ### Key and IV -/

theorem complete_argAddr_unwritten (h : s.arg[0] = none) (g : Nat → Except Halt State) :
    s.complete (s.argAddr >>= g) = .next (s.raise .readUnwritten) := by
  have harg : s.argAddr = .error (.raise .readUnwritten) := State.argVal_eq_error.mpr ⟨h, rfl⟩
  rw [harg]
  rfl

theorem complete_argAddr_written {a : Word} (h : s.arg[0] = some a) (g : Nat → Except Halt State) :
    s.complete (s.argAddr >>= g) = s.complete (g a.toNat) := by
  have harg : s.argAddr = .ok a.toNat := State.argVal_some h
  rw [harg]
  rfl

/-- Once its address is read, AES.SETKEY is a host-view read of the key's bytes (R251). -/
theorem execAesSetkey_written {a : Word} (h : s.arg[0] = some a) :
    execAesSetkey s = s.complete (s.hostRead a.toNat s.par.keyBytes >>= fun key =>
      .ok { s with aes := { s.aes with key := some key, chain := none } }.done) :=
  complete_argAddr_written h _

/-- Once its address is read, AES.SETIV is a host-view read of a block's bytes (R252). -/
theorem execAesSetiv_written {a : Word} (h : s.arg[0] = some a) :
    execAesSetiv s = s.complete (s.hostRead a.toNat 16 >>= fun bs =>
      .ok { s with aes := { s.aes with iv := some (blockOf bs), chain := none } }.done) :=
  complete_argAddr_written h _

theorem execAesSetkey_reads {a : Word} (h : s.arg[0] = some a) (hl : key.length = s.par.keyBytes)
    (hr : s.HostReads a.toNat key) : execAesSetkey s =
      .next { s with aes := { s.aes with key := some key, chain := none } }.done := by
  rw [execAesSetkey_written h, ← hl]
  exact complete_hostRead_reads hr _

theorem execAesSetiv_reads {a : Word} (h : s.arg[0] = some a) (hr : s.HostReads a.toNat iv.toList) :
    execAesSetiv s = .next { s with aes := { s.aes with iv := some iv, chain := none } }.done := by
  have hread := State.hostRead_of_reads hr (Vector.length_toList (xs := iv))
  rw [execAesSetiv_written h, hread, ok_bind', blockOf_toList, State.complete_ok]

/-! ### A reserved cipher word -/

/-- A bit of the immediate that AES.ENC and AES.DEC do not define makes the word a reserved one (30_encoding.md
R127). -/
theorem issue_cipher_undefined {w : Word} (hop : w.toNat / 0x1000000 = 0x24 ∨ w.toNat / 0x1000000 = 0x25)
    (hbits : w &&& 0x00FFEF80#32 ≠ 0#32) (s : State) : issue w s = .next (s.raise .illegalCommand) := by
  obtain ⟨-, hreserved, -⟩ := reservedWordFaults
  have hunit : w.toNat / 0x10000000 = 2 := by omega
  have hop' : 4 ≤ w.toNat / 0x1000000 % 16 := by omega
  exact issue_of_reject (decodeWord_of_unselected (hreserved w (by simp [hunit, hop', hbits]))) s

/-! ### A command on its blocks -/

/-- What AES.ENC and AES.DEC do, with f the CBC function under a key: both are this by definition (`exec_aesEnc`,
`exec_aesDec`). -/
def State.cipherRun (s : State) (n : Nat) (keep : Bool) (f : List Byte → Block → List Block → List Block × Block) :
    Result :=
  s.complete (s.cipherOps n keep >>= fun o =>
    .ok (s.cipherFinish o.dst (f o.key o.start (toBlocks n o.input))))

theorem exec_aesEnc (n : Nat) (keep : Bool) (s : State) :
    exec (.aesEnc n keep) s = s.cipherRun n keep fun key => cbcEnc (Config.blockEnc key) := rfl

theorem exec_aesDec (n : Nat) (keep : Bool) (s : State) :
    exec (.aesDec n keep) s = s.cipherRun n keep fun key => cbcDec (Config.blockDec key) := rfl

theorem cipherRun_stops (s : State) (n : Nat) (keep : Bool) (f : List Byte → Block → List Block → List Block × Block) :
    s.CipherStops keep n (s.cipherRun n keep f) := State.cipherOps_stops s n keep _

/-- With every check passed the command writes what f makes of the blocks in memory. -/
theorem cipherRun_of_ready (h : s.CipherReady keep src dst input.length key c)
    (hin : s.Holds src.toNat (ofBlocks input)) :
    s.cipherRun input.length keep f = .next (s.cipherFinish dst.toNat (f key c input)) := by
  have hops : s.cipherOps input.length keep = .ok ⟨key, c, dst.toNat, ofBlocks input⟩ :=
    State.cipherOps_eq_ok.mpr ⟨src, dst, h, rfl, ofBlocks_length input, hin⟩
  rw [State.cipherRun, hops, ok_bind', State.complete_ok, toBlocks_ofBlocks]

theorem cipherFinish_done (s : State) (a : Nat) (r : List Block × Block) :
    s.CipherDone a r.1 r.2 (.next (s.cipherFinish a r)) := by
  refine ⟨_, _, rfl, stored_write s.mem a (ofBlocks r.1), ?_⟩
  rw [← ofBlocks_length]
  exact marked_insertRange _ _ _

theorem cipherRun_done (h : s.CipherReady keep src dst input.length key c)
    (hin : s.Holds src.toNat (ofBlocks input)) :
    s.CipherDone dst.toNat (f key c input).1 (f key c input).2 (s.cipherRun input.length keep f) := by
  rw [cipherRun_of_ready h hin]
  exact cipherFinish_done _ _ _

/-! ### Two adjacent chunks -/

theorem nextChunk_arg0 (s : State) (src dst : Word) (m : Nat) :
    (s.nextChunk src dst m).arg[0] = some (src + BitVec.ofNat 32 (16 * m)) := by simp [State.nextChunk]

theorem nextChunk_arg1 (s : State) (src dst : Word) (m : Nat) :
    (s.nextChunk src dst m).arg[1] = some (dst + BitVec.ofNat 32 (16 * m)) := by simp [State.nextChunk]

/-- The address of a later chunk does not wrap where the whole range fits. -/
theorem chunkAddr_toNat {a : Word} {m n : Nat} (h : Fits a.toNat (16 * (m + n))) (hn : 1 ≤ n) :
    (a + BitVec.ofNat 32 (16 * m)).toNat = a.toNat + 16 * m := by
  unfold Fits at h
  rw [BitVec.toNat_add, BitVec.toNat_ofNat]
  omega

/-- A shorter run from the same operands is ready too. -/
theorem State.CipherReady.firstChunk {m n : Nat} (h : s.CipherReady keep src dst n key c) (hm : m ≤ n) :
    s.CipherReady keep src dst m key c :=
  { h with
    overlap := h.overlap.part (o := 0) (by omega)
    fits := ⟨h.fits.1.part (o := 0) (by omega), h.fits.2.part (o := 0) (by omega)⟩
    admitted := ⟨h.admitted.1.part le_rfl (by omega), h.admitted.2.part le_rfl (by omega)⟩
    clean := ⟨h.clean.1.part (o := 0) (by omega), h.clean.2.part (o := 0) (by omega)⟩ }

/-- After the first chunk the next one is ready, chained. -/
theorem State.CipherReady.secondChunk {m n : Nat} (h : s.CipherReady keep src dst (m + n) key c) (hn : 1 ≤ n)
    (a : Nat) (r : List Block × Block) :
    ((s.cipherFinish a r).nextChunk src dst m).CipherReady true (src + BitVec.ofNat 32 (16 * m))
      (dst + BitVec.ofNat 32 (16 * m)) n key r.2 := by
  obtain ⟨hfs, hfd⟩ := h.fits
  obtain ⟨hsrc, hdst⟩ := h.aligned
  obtain ⟨has, had⟩ := h.admitted
  obtain ⟨hcs, hcd⟩ := h.clean
  refine ⟨nextChunk_arg0 .., nextChunk_arg1 .., h.key, rfl, ?_, ?_, ?_, ?_, ?_⟩ <;>
    rw [chunkAddr_toNat hfs hn, chunkAddr_toNat hfd hn]
  · omega
  · exact h.overlap.part (by omega)
  · exact ⟨hfs.part (by omega), hfd.part (by omega)⟩
  · exact ⟨State.Admits.write (has.part (by omega) (by omega)), State.Admits.write (had.part (by omega) (by omega))⟩
  · exact ⟨hcs.part (by omega), hcd.part (by omega)⟩

/-- The first chunk's output leaves the next chunk's input as it was. -/
theorem holds_second {m n : Nat} {bytes : List Byte} {r : List Block × Block}
    (h : s.CipherReady keep src dst (m + n) key c) (hn : 1 ≤ n) (hb : bytes.length = 16 * n) (hr : r.1.length = m)
    (hin : s.Holds (src.toNat + 16 * m) bytes) :
    ((s.cipherFinish dst.toNat r).nextChunk src dst m).Holds (src + BitVec.ofNat 32 (16 * m)).toNat bytes := by
  intro i hi
  have hover := h.overlap
  unfold NoOverlap at hover
  have hl : (ofBlocks r.1).length = 16 * m := by rw [ofBlocks_length, hr]
  rw [chunkAddr_toNat h.fits.1 hn]
  exact (Memory.get_write_outside _ s.mem dst.toNat _ (by omega)).trans (hin i hi)

/-- Two outputs stored one behind the other are one output stored. -/
theorem cipherFinish_nextChunk (s : State) (src dst : Word) (a m : Nat) (r q : List Block × Block)
    (hm : r.1.length = m) : ((s.cipherFinish a r).nextChunk src dst m).cipherFinish (a + 16 * m) q =
      (s.nextChunk src dst m).cipherFinish a (r.1 ++ q.1, q.2) := by
  have hl : (ofBlocks r.1).length = 16 * m := by rw [ofBlocks_length, hm]
  simp only [State.cipherFinish, State.storeDev, State.nextChunk, State.done, State.finish, ofBlocks_append,
    Memory.write_append, List.length_append, addrInsertRange_add, hl]

/-- A chunk with K = 0 and then the adjacent chunk with K = 1 are one pass over both, from the IV (R244, R245). -/
theorem cipherRun_twoChunks (hf : ∀ key, CbcPass (f key)) (hsecond : 1 ≤ qs.length)
    (h : s.CipherReady false src dst (ps.length + qs.length) key iv)
    (hin : s.Holds src.toNat (ofBlocks (ps ++ qs))) :
    ∃ u, s.cipherRun ps.length false f = .next u ∧
      (s.nextChunk src dst ps.length).CipherDone dst.toNat (f key iv (ps ++ qs)).1
        (f key iv (ps ++ qs)).2
        ((u.nextChunk src dst ps.length).cipherRun qs.length true f) := by
  rw [ofBlocks_append, holds_append, ofBlocks_length] at hin
  obtain ⟨hin1, hin2⟩ := hin
  have hlen := (hf key).length iv ps
  refine ⟨_, cipherRun_of_ready (h.firstChunk (Nat.le_add_right ..)) hin1, ?_⟩
  rw [cipherRun_of_ready (h.secondChunk hsecond _ _) (holds_second h hsecond (ofBlocks_length _) hlen hin2),
    chunkAddr_toNat h.fits.2 hsecond, cipherFinish_nextChunk _ _ _ _ _ _ _ hlen, (hf key).append]
  exact cipherFinish_done _ _ _

/-! ### A second pass from the IV -/

/-- A completed run leaves the operands of the same run from the IV. -/
theorem State.CipherReady.again {n : Nat} (h : s.CipherReady false src dst n key iv) (a : Nat)
    (r : List Block × Block) : (s.cipherFinish a r).CipherReady false src dst n key iv :=
  { h with admitted := ⟨State.Admits.write h.admitted.1, State.Admits.write h.admitted.2⟩ }

theorem cipherFinish_chain (s : State) (a : Nat) (r : List Block × Block) :
    (s.cipherFinish a r).aes.chain = some r.2 := rfl

/-- The destination holds the output. -/
theorem cipherFinish_holds (s : State) (a : Nat) (r : List Block × Block) :
    (s.cipherFinish a r).Holds a (ofBlocks r.1) :=
  fun i hi => Memory.get_write_inside _ s.mem a i hi

/-- AES.DEC from the IV, after a run in place, decrypts what that run wrote. -/
theorem exec_aesDec_again {n : Nat} (h : s.CipherReady false src src n key iv) {r : List Block × Block}
    (hr : r.1.length = n) : exec (.aesDec n false) (s.cipherFinish src.toNat r) =
      .next ((s.cipherFinish src.toNat r).cipherFinish src.toNat (cbcDec (Config.blockDec key) iv r.1)) := by
  subst hr
  rw [exec_aesDec]
  exact cipherRun_of_ready (h.again src.toNat r) (cipherFinish_holds s src.toNat r)

/-- Two runs over one range, the second of which gives the bytes that stood there, leave memory as it was. -/
theorem cipherFinish_restored {a : Nat} {r q : List Block × Block} (hl : r.1.length = q.1.length)
    (hq : s.Holds a (ofBlocks q.1)) (p : Nat) :
    Memory.get ((s.cipherFinish a r).cipherFinish a q).mem p = s.mem.get p :=
  Memory.get_write_restored (by rw [ofBlocks_length, ofBlocks_length, hl]) hq p

end CipherCommands

/-- Settles O24: the meanings of both commands are the states with the registers set. -/
theorem aesResetAndClriv : Obligations.AesResetAndClriv := ⟨by decide, by decide, fun _ => ⟨rfl, rfl⟩⟩

/-- Settles O25: the address, the read of the bytes, then the register with the chain ended. -/
theorem aesKeyAndIvLoads : Obligations.AesKeyAndIvLoads := by
  refine ⟨by decide, by decide, fun s => ⟨fun h => ⟨complete_argAddr_unwritten h _, complete_argAddr_unwritten h _⟩,
    fun a ha => ⟨?_, ?_, fun key hl hr => execAesSetkey_reads ha hl hr, fun iv hr => execAesSetiv_reads ha hr⟩⟩⟩
  · have hexec : exec .aesSetkey s = _ := execAesSetkey_written ha
    rw [hexec]
    exact readStops_hostRead s _ _ _
  · have hexec : exec .aesSetiv s = _ := execAesSetiv_written ha
    rw [hexec]
    exact readStops_hostRead s _ _ _

/-- Settles O26: the word decodes by its row; the operands are checked, then the blocks are enciphered. -/
theorem aesEncResult : Obligations.AesEncResult := by
  refine ⟨fun n keep h1 h2 => ?_, fun w s hop hbits => issue_cipher_undefined (.inl hop) hbits s,
    fun s n keep _ _ => ?_, fun s keep src dst key c input _ _ h hin => ?_⟩
  · rw [BitVec.or_assoc]
    exact decodeWord_cipher (k := 0x12000) (by simp [opcodeMap, rowsAes]) rfl (by decide)
      (blockCountOk_iff.mpr ⟨h1, h2⟩)
  · rw [exec_aesEnc]
    exact cipherRun_stops s n keep _
  · rw [exec_aesEnc]
    exact cipherRun_done h hin

/-- Settles O27: as AES.ENC, and the chaining value of decryption is the last block of its input. -/
theorem aesDecResult : Obligations.AesDecResult := by
  refine ⟨fun n keep h1 h2 => ?_, fun w s hop hbits => issue_cipher_undefined (.inr hop) hbits s,
    fun s n keep _ _ => ?_, fun s keep src dst key c input _ _ h hin => ?_⟩
  · rw [BitVec.or_assoc]
    exact decodeWord_cipher (k := 0x12800) (by simp [opcodeMap, rowsAes]) rfl (by decide)
      (blockCountOk_iff.mpr ⟨h1, h2⟩)
  · rw [exec_aesDec]
    exact cipherRun_stops s n keep _
  · rw [exec_aesDec, ← cbcDec_snd (Config.blockDec key) c input]
    exact cipherRun_done h hin

/-- Settles O28: the equations by induction on the blocks, the chunking law from what a pass over two parts is. -/
theorem cbcChunksChain : Obligations.CbcChunksChain := by
  simp only [Obligations.CbcChunksChain, exec_aesEnc, exec_aesDec]
  exact ⟨xorBlock_getElem,
    fun _ c blocks => ⟨cbcEnc_length _ c blocks, cbcEnc_snd _ c blocks, fun _ _ h => cbcEnc_getElem? _ c h⟩,
    fun _ c blocks => ⟨cbcDec_length _ c blocks, cbcDec_snd _ c blocks, fun _ _ h => cbcDec_getElem? _ c h⟩,
    fun _ c chunks => ⟨(cbcPass_enc _).flatten c chunks, (cbcPass_dec _).flatten c chunks⟩,
    fun _ _ _ _ _ _ _ _ _ hsecond _ h hin =>
      ⟨cipherRun_twoChunks (fun key => cbcPass_enc (Config.blockEnc key)) hsecond h hin,
        cipherRun_twoChunks (fun key => cbcPass_dec (Config.blockDec key)) hsecond h hin⟩⟩

/-- Settles O29: AES.DEC finds the ciphertext with the same operands, and what it makes of it is the bytes that
AES.ENC read, at the place where they stood. -/
theorem aesInPlaceRoundTrip : Obligations.AesInPlaceRoundTrip := by
  intro n s t _ _ harg hs henc ht
  rcases execAesEnc_next henc with hraise | ⟨src, dst, key, iv, bytes, hready, hlen, hbytes, rfl⟩
  · exact absurd ht hraise.fault_ne_none
  obtain rfl : src = dst := Option.some_inj.mp (hready.arg0.symm.trans (harg.trans hready.arg1))
  have hcount : (cbcEnc (Config.blockEnc key) iv (toBlocks n bytes)).1.length = n := by
    rw [cbcEnc_length, toBlocks_length]
  have hplain := cbcDec_cbcEnc _ _ (blockDec_blockEnc key) iv (toBlocks n bytes)
  refine ⟨_, exec_aesDec_again hready hcount, hs, ?_, cipherFinish_restored ?_ ?_⟩
  · rw [cipherFinish_chain, cipherFinish_chain, cbcDec_snd, cbcEnc_snd]
  · rw [hplain, hcount, toBlocks_length]
  · rwa [hplain, ofBlocks_toBlocks n bytes hlen]

end Sys2Proof.Machine

/-! # Proofs: the statements of 42_eeprom.md

First the lines of the port and the device's reaction to each edge, then the frames outside and inside reception;
last the driver's READ, whose run is that of the driver's laws with the free values drawn counted too. -/

namespace Sys2Proof.Machine

section Edges

variable {s : State} {d : Device} {rise di : Bool}

/-! ### Chip-select -/

/-- Driving a line to the value that it has changes nothing. -/
theorem State.setLine_of_eq {l : Line} {v : Bool} (h : s.line l = v) : s.setLine l v = s := by
  subst h
  exact s.setLine_same l

/-- A rise of chip-select while there is a status to show (42_eeprom.md R321). -/
theorem csRise_of_status (h : d.statusPending = true ∨ d.busy = true) :
    d.csRise = { d with mode := .status, dout := readyLine d.busy } :=
  if_pos (Bool.or_eq_true_iff.mpr h)

/-- A rise of chip-select with no status to show begins a reception (R321). -/
theorem csRise_of_ready (hp : d.statusPending = false) (hb : d.busy = false) :
    d.csRise = { d with mode := .recv, shift := [], out := [], dout := .z } :=
  if_neg (by simp [hp, hb])

/-- A fall of chip-select with no write armed (R328). -/
theorem csFall_of_unarmed (h : d.armed = none) : d.csFall =
    { d with
      statusPending := if d.mode = .status then false else d.statusPending
      mode := .idle, shift := [], out := [], dout := .z } := by
  simp only [Device.csFall, h]

/-- A fall of chip-select starts the write that is armed (R328). -/
theorem csFall_of_armed {w : Byte × Half} (h : d.armed = some w) : d.csFall =
    { d with
      busy := true, prog := some w, armed := none, statusPending := true
      mode := .idle, shift := [], out := [], dout := .z } := by
  simp only [Device.csFall, h]

theorem exec_eepSetCs_high (h : s.gpio.cs = true) : exec .eepSetCs s = .next s.done := by
  show execEepSetCs s = _
  rw [execEepSetCs, if_pos h, State.setLine_of_eq (l := .cs) h]

theorem exec_eepSetCs_rise (h : s.gpio.cs = false) :
    exec .eepSetCs s = .next { s.setLine .cs true with dev := s.dev.csRise }.done := by
  show execEepSetCs s = _
  rw [execEepSetCs, h]
  rfl

theorem exec_eepClrCs_low (h : s.gpio.cs = false) : exec .eepClrCs s = .next s.done := by
  show execEepClrCs s = _
  rw [execEepClrCs, State.setLine_of_eq (l := .cs) h, h]
  rfl

theorem exec_eepClrCs_fall (h : s.gpio.cs = true) :
    exec .eepClrCs s = .next { s.setLine .cs false with dev := s.dev.csFall }.done := by
  show execEepClrCs s = _
  rw [execEepClrCs, if_pos h]

/-! ### The clock -/

/-- Without a rise while chip-select is 1, the device does not react (R332, R333). -/
theorem skEdge_still (d : Device) (di : Bool) : d.skEdge false di = .ok d := by
  unfold Device.skEdge
  cases d.mode <;> rfl

theorem skEdge_idle (h : d.mode = .idle) : d.skEdge rise di = .ok d := by simp only [Device.skEdge, h]

theorem skEdge_recv (h : d.mode = .recv) : d.skEdge true di = d.skRecv di := by
  simp only [Device.skEdge, h, if_true]

theorem skEdge_out (h : d.mode = .out) : d.skEdge true di = .ok d.skOut := by
  simp only [Device.skEdge, h, if_true]

/-- A clock rise in STATUS mode with the data line at 1 is no protocol (R330). -/
theorem skEdge_status (h : d.mode = .status) :
    d.skEdge true di = if di = true then .error (.raise .eepProtocol) else .ok d := by
  simp only [Device.skEdge, h, Bool.true_and]

theorem skOut_cons {b : Bool} {rest : List Bool} (h : d.out = b :: rest) :
    d.skOut = { d with dout := if b = true then .one else .zero, out := rest } := by
  simp only [Device.skOut, h]

theorem skOut_nil (h : d.out = []) : d.skOut = { d with dout := .z } := by
  simp only [Device.skOut, h]

/-- A 0 before the start bit is skipped (R323). -/
theorem skRecv_skip (h : d.shift = []) : d.skRecv false = .ok d := if_pos (by simp [h])

/-- A frame still being received is not complete (R322). -/
theorem frameComplete_of_partial {bits : List Bool} (h : FramePartial bits) : frameComplete bits = false := by
  rcases h with rfl | ⟨-, hshort | ⟨hlong, hop1, hop0⟩⟩
  · rfl
  · have h11 : bits.length ≠ 11 := by omega
    have h27 : bits.length ≠ 27 := by omega
    simp [frameComplete, h11, h27]
  · have h27 : bits.length ≠ 27 := by omega
    simp [frameComplete, h27, hop1, hop0]

theorem exec_eepSetSk_ok (h : s.dev.skEdge (!s.gpio.sk && s.gpio.cs) s.gpio.di = .ok d) :
    exec .eepSetSk s =
      .next { s with gpio := { s.gpio with sk := true }, dev := d, status := some 0#32 } := by
  show execEepSetSk s = _
  rw [execEepSetSk, h]
  rfl

/-- A rise of the clock while chip-select is 1 (R300, R322). -/
theorem exec_eepSetSk_rise (hk : s.gpio.sk = false) (hc : s.gpio.cs = true)
    (h : s.dev.skEdge true s.gpio.di = .ok d) :
    exec .eepSetSk s =
      .next { s with gpio := { s.gpio with sk := true }, dev := d, status := some 0#32 } :=
  exec_eepSetSk_ok (by rwa [hk, hc])

theorem exec_eepSetSk_raise {k : FaultKind} (hk : s.gpio.sk = false) (hc : s.gpio.cs = true)
    (h : s.dev.skEdge true s.gpio.di = .error (.raise k)) : exec .eepSetSk s = .next (s.raise k) := by
  show execEepSetSk s = _
  rw [execEepSetSk, hk, hc, show (!false && true) = true from rfl, h]
  rfl

/-! ### The device's data line -/

/-- EEP.IN where the device drives its line (R302). -/
theorem exec_eepIn_driven {b : Bool} (h : s.dev.dout = if b = true then .one else .zero) :
    exec .eepIn s =
      .next { s with res := s.res.set 0 (some (if b = true then 1#32 else 0#32)), status := some 0#32 } := by
  show execEepIn s = _
  cases b <;> simp only [execEepIn, State.sample, h, if_true, Bool.false_eq_true, if_false] <;> rfl

/-- EEP.IN where the line is not driven: the bit is drawn (R302). -/
theorem exec_eepIn_undriven (h : s.dev.dout = .z) :
    exec .eepIn s =
      .next { s with
        res := s.res.set 0 (some (if Config.drawBit s.draws = true then 1#32 else 0#32))
        status := some 0#32
        draws := s.draws + 1 } := by
  show execEepIn s = _
  simp only [execEepIn, State.sample, h]
  rfl

end Edges

/-- Settles O30: none of the four makes the device react. -/
theorem eepDataLinesAndDelay : Obligations.EepDataLinesAndDelay :=
  ⟨by decide, by decide, by decide, by decide, fun _ => ⟨rfl, rfl, rfl, rfl⟩⟩

/-- Settles O31, by what the rise finds of the device's status. -/
theorem eepChipSelectRise : Obligations.EepChipSelectRise := by
  refine fun s => ⟨exec_eepSetCs_high, fun hc hs => ?_, fun hc hp hb => ?_⟩
  · rw [exec_eepSetCs_rise hc, csRise_of_status hs]
    rfl
  · rw [exec_eepSetCs_rise hc, csRise_of_ready hp hb]
    rfl

/-- Settles O32, by whether a write is armed. -/
theorem eepChipSelectFall : Obligations.EepChipSelectFall := by
  refine fun s => ⟨exec_eepClrCs_low, fun hc ha => ?_, fun w hc ha => ?_⟩
  · rw [exec_eepClrCs_fall hc, csFall_of_unarmed ha]
    rfl
  · rw [exec_eepClrCs_fall hc, csFall_of_armed ha]
    rfl

/-- Settles O33: without a rise the device does nothing, with one it does what its mode says. -/
theorem eepClockRiseByMode : Obligations.EepClockRiseByMode := by
  refine fun s => ⟨fun h => exec_eepSetSk_ok ?_, fun hk hc => ⟨fun b rest hm ho => ?_, fun hm ho => ?_,
    fun hm hd => ?_, fun hm hd => ?_, fun hm hs hd => ?_, fun bits hm hs hbits hp => ?_⟩⟩
  · rcases h with hk | hc | hm
    · rw [hk]
      exact skEdge_still _ _
    · rw [hc, Bool.and_false]
      exact skEdge_still _ _
    · exact skEdge_idle hm
  · exact exec_eepSetSk_rise hk hc ((skEdge_out hm).trans (congrArg _ (skOut_cons ho)))
  · exact exec_eepSetSk_rise hk hc ((skEdge_out hm).trans (congrArg _ (skOut_nil ho)))
  · exact exec_eepSetSk_rise hk hc (by rw [skEdge_status hm, hd]; rfl)
  · exact exec_eepSetSk_raise hk hc (by rw [skEdge_status hm, hd]; rfl)
  · exact exec_eepSetSk_rise hk hc (by rw [skEdge_recv hm, hd, skRecv_skip hs])
  · subst hbits
    exact exec_eepSetSk_rise hk hc ((skEdge_recv hm).trans (skRecv_partial hs (frameComplete_of_partial hp)))

/-- Settles O34, by what the device drives. -/
theorem eepInResult : Obligations.EepInResult :=
  ⟨by decide, fun _ => ⟨exec_eepIn_driven (b := false), exec_eepIn_driven (b := true),
    fun h => ⟨_, exec_eepIn_undriven h⟩⟩⟩

/-- Settles O41, by whether the device is busy. -/
theorem devCompleteResult : Obligations.DevCompleteResult := by
  refine fun s => ⟨fun hb => ?_, fun a d hb hp => ?_⟩
  · rw [deviceStep, hb]
    rfl
  · rw [deviceStep, if_pos hb, Device.complete, hp]

/-! ### Frames -/

section FrameOutcomes

variable {s : State} {i : Instr}

/-- The bits of a word, first bit first, are its own bits from the top. -/
theorem valBits_eq_getMsbD {n : Nat} (v : BitVec n) :
    valBits n v.toNat = (List.range n).map fun j => v.getMsbD j := by
  refine List.ext_getElem (by simp [valBits_length]) fun j hj _ => ?_
  rw [valBits_length] at hj
  simp [valBits_getElem n v.toNat j hj, BitVec.getMsbD_eq_getLsbD, BitVec.getLsbD, hj]

/-- A frame at a receiving device that the device takes. -/
theorem exec_frame_recv_ok {d : Device} (hi : unitOf i = .device) (hc : s.gpio.cs = true)
    (hm : s.dev.mode = .recv) (hr : s.dev.react i = .ok d) : exec i s = .next { s with dev := d } := by
  rw [exec_frame_recv hi hc hm, hr]
  rfl

theorem exec_frame_recv_raise {k : FaultKind} (hi : unitOf i = .device) (hc : s.gpio.cs = true)
    (hm : s.dev.mode = .recv) (hr : s.dev.react i = .error (.raise k)) :
    exec i s = .next (s.raise k) := by
  rw [exec_frame_recv hi hc hm, hr]
  rfl

/-- A WRITE frame with the latch set arms its word (42_eeprom.md R327). -/
theorem react_write_enabled {d : Device} (h : d.wel = true) (a : Byte) (v : Half) :
    d.react (.frameWrite a v) = .ok { d with armed := some (a, v), mode := .idle } := by
  simp only [Device.react, Device.onWrite, h, if_true]

/-- A WRITE frame with the latch clear is ignored (R327). -/
theorem react_write_disabled {d : Device} (h : d.wel = false) (a : Byte) (v : Half) :
    d.react (.frameWrite a v) = .ok { d with mode := .idle } := by
  simp only [Device.react, Device.onWrite, h, Bool.false_eq_true, if_false]

/-- A frame at a device that shifts out is as many clock rises (R325). -/
theorem exec_frame_out {bits : List Bool} (henc : encode i = .frame bits) (hc : s.gpio.cs = true)
    (hm : s.dev.mode = .out) :
    exec i s = .next { s with dev := s.dev.skOutN bits.length } := by
  rw [exec_frame henc, State.frameOutcome, if_pos hc, hm]

end FrameOutcomes

/-- Settles O35: each frame's execution is its reaction, and READ's data bits are those of the word. -/
theorem frameReactions : Obligations.FrameReactions := by
  intro s hc hm
  refine ⟨fun a => ?_, fun x => exec_frame_recv_ok rfl hc hm rfl, fun x => exec_frame_recv_ok rfl hc hm rfl,
    fun a d hw => exec_frame_recv_ok rfl hc hm (react_write_enabled hw a d),
    fun a d hw => exec_frame_recv_ok rfl hc hm (react_write_disabled hw a d),
    fun a => exec_frame_recv_raise rfl hc hm rfl, fun x => exec_frame_recv_raise rfl hc hm rfl,
    fun x => exec_frame_recv_raise rfl hc hm rfl⟩
  rw [← valBits_eq_getMsbD]
  exact exec_frame_recv_ok rfl hc hm rfl

/-- Settles O8: both ends are the device's reaction to the frame. -/
theorem clockRiseRunsDecodedFrame : Obligations.ClockRiseRunsDecodedFrame := by
  intro s bits b i hc hk hd hm hs hi t
  subst hd hs
  have hunit := unitOf_decodeFrame hi
  have hrise := execEepSetSk_frame hc hk hm hi
  rcases react_ok_or_protocol t.dev i with ⟨d, hr⟩ | hr
  · refine .inl ⟨d, exec_frame_recv_ok hunit hc hm hr, hrise.trans ?_⟩
    rw [hr]
    rfl
  · refine .inr ⟨.eepProtocol, exec_frame_recv_raise hunit hc hm hr, hrise.trans ?_⟩
    rw [hr]
    rfl

/-- Settles O36: a frame outside reception is ignored, or raises the fault at its start bit, or is so many clock
rises of the device that shifts out. -/
theorem frameOutsideReceive : Obligations.FrameOutsideReceive := by
  refine fun i bits s henc => ⟨fun h => ?_, fun hc hm => ?_, fun hc hm _ _ hlen b hb => ?_,
    fun hc hm hlen => ?_⟩
  · rw [exec_frame henc, State.frameOutcome]
    rcases h with hc | hm
    · rw [hc]
      rfl
    · rw [hm, ite_self]
  · rw [exec_frame henc, State.frameOutcome, if_pos hc, hm]
    rfl
  · rw [exec_frame_out henc hc hm, hlen, skOutN_succ, hb]
  · obtain ⟨n, hn⟩ := Nat.exists_eq_add_of_lt (Nat.zero_lt_of_lt hlen)
    rw [Nat.zero_add] at hn
    rw [exec_frame_out henc hc hm, hn, skOutN_succ, List.drop_eq_nil_of_le (by omega),
      List.getElem?_eq_none (by omega)]

/-- Settles O39: the frame arms the word, the fall of chip-select starts the write, the completion makes the word
durable. -/
theorem writeFrameProgramsWord : Obligations.WriteFrameProgramsWord := by
  intro a d s t u hc hm hw ht hu
  obtain ⟨-, -, -, harm, -⟩ := frameReactions s hc hm
  cases (harm a d hw).symm.trans ht
  obtain ⟨-, -, hstart⟩ := eepChipSelectFall { s with dev := { s.dev with armed := some (a, d), mode := .idle } }
  cases (hstart (a, d) hc rfl).symm.trans hu
  refine ⟨rfl, rfl, rfl, _, (devCompleteResult _).2 a d rfl rfl, rfl, rfl, fun b => ?_⟩
  by_cases hb : b = a
  · subst hb
    simp
  · rw [if_neg hb]
    exact getElem_set_of_ne s.dev.array d (Ne.symm hb)

/-! ### The driver's READ, with the free values counted -/

section ReadWord

variable {α β : Type} {P : State → Prop} {s t c : State} {d d' : Device} {n : Nat}

/-- No instruction draws a free value but EEP.IN from an undriven line (42_eeprom.md R302). -/
theorem exec_draws {i : Instr} (h : exec i s = .next t) (hi : i = .eepIn → s.dev.dout ≠ .z) :
    t.draws = s.draws := by
  by_cases hin : i = .eepIn
  · subst hin
    cases hd : s.dev.dout with
    | zero => cases (exec_eepIn_driven (b := false) hd).symm.trans h; rfl
    | one => cases (exec_eepIn_driven (b := true) hd).symm.trans h; rfl
    | z => exact absurd hd (hi rfl)
  · obtain ⟨-, -, -, -, -, hdraws, -⟩ := unitsKeepToTheirState i s t h
    exact hdraws hin

theorem markRead_draws (s : State) (r : PortReg) : (s.markRead r).draws = s.draws := by
  cases r <;> rfl

/-- What an action draws: nothing, unless it interrupts or samples an undriven line. -/
theorem takeAction_draws {a : Action} (h : takeAction a s = .next t) (hint : ∀ m nb, a ≠ .interrupt m nb)
    (hin : ∀ w, a = .portWr .cmd w → decodeWord w = .ok .eepIn → s.dev.dout ≠ .z) :
    t.draws = s.draws := by
  rcases takeAction_next h with ⟨k, rfl⟩ | ⟨w, i, ha, -, hw, h⟩ | ⟨r, rfl⟩ | ⟨addr, bs, -, -, -, rfl⟩ |
    ⟨i, v, -, rfl⟩ | ⟨-, rfl⟩ | ⟨b, ok, -, rfl⟩ | ⟨b, page, data, spare, ok, -, -, h⟩ |
    ⟨b, page, dst, r, bytes, -, -, h⟩ | rfl | ⟨-, -, rfl⟩ | ⟨m, nb, rfl, -⟩ | ⟨e, -, rfl⟩ |
    ⟨r, -, ⟨k, rfl⟩ | ⟨v, rfl⟩⟩
  case inl => rfl
  · exact exec_draws h fun hi => hin w ha (hi ▸ hw)
  · rfl
  · rfl
  · rfl
  · rfl
  · rfl
  · rcases nandWrite_eq_ok h with rfl | ⟨_, _, -, -, -, -, rfl⟩ <;> rfl
  · rcases nandRead_eq_ok h with ⟨-, _, -, -, -, rfl⟩ | ⟨-, rfl⟩ <;> rfl
  · rfl
  · rfl
  · exact absurd rfl (hint m nb)
  · split <;> rfl
  · exact markRead_draws s r
  · exact markRead_draws s r

/-- A step of a program takes its action. -/
theorem takeAction_of_stepWith {a : Action} (h : stepWith a s = .next t) :
    takeAction a s.fresh = .next t := by
  obtain ⟨-, ⟨ha, -⟩ | ⟨b, rest, ha, hb⟩⟩ := step_eq_next.mp h
  · cases ha
  · cases ha
    exact hb

/-- Run alone from a state of P, the program draws no free value if it returns. -/
def Drv.KeepsDraws (P : State → Prop) (x : Drv α) : Prop :=
  ∀ (r : Run) (v : α) (r' : Run), P r.state → r.env = [] → x.out r = (.ok v, r') →
    r'.env = [] ∧ r'.state.draws = r.state.draws

theorem Drv.KeepsDraws.pure (v : α) : Drv.KeepsDraws P (Pure.pure v : Drv α) := by
  intro r w r' _ henv h
  cases h
  exact ⟨henv, rfl⟩

theorem Drv.KeepsDraws.bind {x : Drv α} {f : α → Drv β} (hx : x.KeepsDraws P)
    (hf : ∀ v, (f v).KeepsDraws fun _ => True) : (x >>= f).KeepsDraws P := by
  intro r w r' hP henv h
  rw [Drv.out_bind] at h
  rcases hout : x.out r with ⟨e | v, q⟩ <;> rw [hout] at h
  · cases h
  · obtain ⟨hq, hdraws⟩ := hx r v q hP henv hout
    obtain ⟨hr', hdraws'⟩ := hf v q w r' trivial hq h
    exact ⟨hr', hdraws'.trans hdraws⟩

/-- An action taken alone is a step of the machine. -/
theorem Drv.act_out_ok {a : Action} {r r' : Run} {v : Reply} (henv : r.env = [])
    (h : (Drv.act a).out r = (.ok v, r')) : r'.env = [] ∧ stepWith a r.state = .next r'.state := by
  obtain ⟨s, env, tr⟩ := r
  obtain rfl : env = [] := henv
  have htake : (Drv.take a).out ⟨s, [], tr⟩ = (.ok v, r') := by
    rw [← h, Drv.act, Drv.out_bind, Drv.turn_nil]
    rfl
  rw [Drv.take_out] at htake
  cases hstep : stepWith a s with
  | fault f => rw [hstep] at htake; cases htake
  | refused f => rw [hstep] at htake; cases htake
  | next t =>
    rw [hstep] at htake
    dsimp only at htake
    split at htake
    · cases htake
    · split at htake <;> cases htake
      exact ⟨rfl, rfl⟩

theorem Drv.act_keepsDraws {a : Action} (hint : ∀ m nb, a ≠ .interrupt m nb)
    (hin : ∀ w, a = .portWr .cmd w → decodeWord w = .ok .eepIn → ∀ s, P s → s.dev.dout ≠ .z) :
    (Drv.act a).KeepsDraws P := by
  intro r v r' hP henv h
  obtain ⟨henv', hstep⟩ := Drv.act_out_ok henv h
  exact ⟨henv', takeAction_draws (s := r.state.fresh) (takeAction_of_stepWith hstep) hint
    fun w ha hw => hin w ha hw r.state hP⟩

/-- A command keeps the count, EEP.IN if the line is driven. -/
theorem Drv.cmd_keepsDraws {i : Instr}
    (hi : decodeWord (encodeWord i) = .ok .eepIn → ∀ s, P s → s.dev.dout ≠ .z) :
    (Drv.cmd i).KeepsDraws P :=
  (Drv.act_keepsDraws (by simp) (by rintro _ ⟨⟩; exact hi)).bind fun _ => .pure _

theorem Drv.port_keepsDraws (r : PortReg) : (Drv.port r).KeepsDraws P := by
  refine (Drv.act_keepsDraws (by simp) (by simp)).bind fun v => ?_
  split <;> exact .pure _

theorem driveDi_ne_eepIn (b : Bool) :
    decodeWord (encodeWord (if b = true then .eepSetDi else .eepClrDi)) ≠ .ok .eepIn := by
  cases b <;> decide

theorem sendBits_keepsDraws (value k : Nat) : (sendBits value k).KeepsDraws P := by
  have hcmd : ∀ {P : State → Prop} {i : Instr}, decodeWord (encodeWord i) ≠ .ok .eepIn →
      (Drv.cmd i).KeepsDraws P := fun hne => Drv.cmd_keepsDraws fun h => absurd h hne
  induction k generalizing P with
  | zero => exact .pure _
  | succ k ih =>
    exact (hcmd (driveDi_ne_eepIn _)).bind fun _ => (hcmd (by decide)).bind fun _ =>
      (hcmd (by decide)).bind fun _ => (hcmd (by decide)).bind fun _ => (hcmd (by decide)).bind fun _ =>
      (hcmd (by decide)).bind fun _ => ih

/-- The states with the given core, lines and device in which n free values have been drawn. -/
def State.WiredAt (c : State) (g : Gpio) (d : Device) (n : Nat) (s : State) : Prop :=
  c.Wired g d s ∧ s.draws = n

/-- A program that keeps the count does, counted, what it does. -/
theorem Drv.Does.counted {x : Drv α} {v : α} {g g' : Gpio}
    (hx : x.Does true (c.Wired g d) (.ok v) (c.Wired g' d') []) (hd : x.KeepsDraws (c.Wired g d)) :
    x.Does true (c.WiredAt g d n) (.ok v) (c.WiredAt g' d' n) [] := by
  rintro s ⟨hs, hn⟩
  obtain ⟨t, hends, ht⟩ := hx s hs
  have hdraws : t.draws = s.draws := by
    obtain ⟨_, _, -, -, halone⟩ := hends
    obtain ⟨-, h⟩ := hd ⟨s, [], []⟩ v _ hs rfl (halone rfl [])
    exact h
  exact ⟨t, hends, ht, hdraws.trans hn⟩

theorem Drv.Does.cmd_counted {i : Instr} {g g' : Gpio}
    (hx : (Drv.cmd i).Does true (c.Wired g d) (.ok ()) (c.Wired g' d') [])
    (hi : decodeWord (encodeWord i) ≠ .ok .eepIn) :
    (Drv.cmd i).Does true (c.WiredAt g d n) (.ok ()) (c.WiredAt g' d' n) [] :=
  hx.counted (Drv.cmd_keepsDraws fun h => absurd h hi)

/-- EEP.IN and the read of RES0 where the device drives its line: nothing is drawn. -/
theorem Drv.sample_counted {g : Gpio} (hf : c.Free) (b : Bool) (hb : d.dout = if b then .one else .zero) :
    (Drv.cmd .eepIn >>= fun _ => Drv.port (.res 0)).Does true (c.WiredAt g d n) (.ok b.toNat)
      (c.WiredAt g d n) [] := by
  have hdriven : d.dout ≠ .z := by rw [hb]; cases b <;> simp
  refine Drv.Does.counted ?_ ((Drv.cmd_keepsDraws fun _ _ (hs : c.Wired g d _) =>
    hs.dev ▸ hdriven).bind fun _ =>
      Drv.port_keepsDraws _)
  simpa only [bind_pure] using Drv.sample_does (al := true) (c := c) (g := g) hf b hb (.pure b.toNat)

/-- `recv_bits` from a device that shifts out enough bits (R311): each bit is driven when it is sampled. -/
theorem recvBits_counted (hf : c.Free) {di : Bool} (hm : d.mode = .out) (bits rest : List Bool) (v : Nat)
    (ho : d.out = bits ++ rest) : ∃ dout,
    (recvBitsFrom v bits.length).Does true (c.WiredAt ⟨true, false, di⟩ d n)
      (.ok (bits.foldl (fun v b => 2 * v + b.toNat) v))
      (c.WiredAt ⟨true, false, di⟩ { d with out := rest, dout := dout } n) [] := by
  induction bits generalizing d v with
  | nil =>
    obtain rfl : d.out = rest := ho
    exact ⟨d.dout, .pure _⟩
  | cons b bits ih =>
    let d1 : Device := { d with dout := if b = true then .one else .zero, out := bits ++ rest }
    have he : d.skEdge true di = .ok d1 := (skEdge_out hm).trans (congrArg _ (skOut_cons ho))
    obtain ⟨dout, h⟩ := ih (d := d1) hm (2 * v + b.toNat) rfl
    have hsample := (Drv.sample_counted (n := n) (d := d1) (g := ⟨true, false, di⟩) hf b rfl).next
      (f := fun b' => recvBitsFrom (2 * v + b') bits.length) h
    rw [bind_assoc] at hsample
    exact ⟨dout, ((Drv.setSk_does hf he).cmd_counted (by decide)).next
      (((Drv.delay_does hf).cmd_counted (by decide)).next
      (((Drv.clrSk_does hf).cmd_counted (by decide)).next
      (((Drv.delay_does hf).cmd_counted (by decide)).next hsample)))⟩

/-- READ of one word from a device with no status to show (R343), whatever mode it was left in: chip-select up,
the frame, the 16 data bits, chip-select down. -/
theorem eepReadWord_counted (hf : c.Free) (hp : d.statusPending = false) (hb : d.busy = false) (a : Byte)
    (di : Bool) : ∃ (di' : Bool) (sent : List Bool) (dout : DataOut),
    (eepReadWord a.toNat).Does true (c.WiredAt ⟨false, false, di⟩ d n)
      (.ok (d.array[a.toNat]'a.isLt).toNat)
      (c.WiredAt ⟨false, false, di'⟩
        (Device.csFall { d with mode := .out, shift := sent, out := [], dout := dout }) n) [] := by
  let w := d.array[a.toNat]'a.isLt
  let sent := valBits 11 (0x600 ||| a.toNat)
  let d1 : Device := { d with mode := .out, shift := sent, dout := .zero, out := valBits 16 w.toNat }
  have hfeed : d.csRise.feed sent = .ok d1 := by
    rw [csRise_of_ready hp hb]
    exact feed_frame _ rfl rfl (decode_read a)
  obtain ⟨dout, hrecv⟩ := recvBits_counted (n := n) (c := c) (di := sent.getLastD di) hf (d := d1) rfl
    (valBits 16 w.toNat) [] 0 (List.append_nil _).symm
  have hword : (valBits 16 w.toNat).foldl (fun v b => 2 * v + b.toNat) 0 = w.toNat :=
    (bitsVal_valBits 16 w.toNat).trans (Nat.mod_eq_of_lt w.isLt)
  rw [valBits_length, hword] at hrecv
  exact ⟨sent.getLastD di, sent, dout, ((Drv.setCs_does hf).cmd_counted (by decide)).next
    (((sendBits_does hf _ _ hfeed).counted (sendBits_keepsDraws _ _)).next
    (hrecv.next (((Drv.clrCs_does hf).cmd_counted (by decide)).next (.pure _))))⟩

theorem csFall_mode (d : Device) : d.csFall.mode = .idle := by
  unfold Device.csFall
  dsimp only
  split <;> rfl

theorem csFall_wel (d : Device) : d.csFall.wel = d.wel := by
  unfold Device.csFall
  dsimp only
  split <;> rfl

end ReadWord

/-- Settles O38: the run of READ from the run's own state, and what the fall of chip-select leaves. -/
theorem readWordReturnsStoredWord : Obligations.ReadWordReturnsStoredWord := by
  rintro a ⟨s, env, tr⟩ rfl hfault hwait (hcs : s.gpio.cs = false) (hsk : s.gpio.sk = false)
    hbusy hpending -
  have hf : s.Free := ⟨hfault, hwait⟩
  obtain ⟨di, sent, dout, hdoes⟩ :=
    eepReadWord_counted (c := s) (d := s.dev) (n := s.draws) hf hpending hbusy a s.gpio.di
  have hstart : s.WiredAt ⟨false, false, s.gpio.di⟩ s.dev s.draws s := by
    have hlines : (⟨s.gpio.cs, s.gpio.sk, s.gpio.di⟩ : Gpio) = ⟨false, false, s.gpio.di⟩ := by rw [hcs, hsk]
    exact ⟨congrArg (s.core.wired · s.dev) hlines, rfl⟩
  obtain ⟨t, ⟨-, tr', -, -, halone⟩, ht, hdraws⟩ := hdoes s hstart
  refine ⟨⟨t, [], tr ++ tr'⟩, halone rfl tr, ?_, ?_, ?_, ?_, ?_, hdraws, (ht.free hf).fault⟩
  · exact (congrArg Device.array ht.dev).trans (csFall_array _)
  · exact (congrArg Device.mode ht.dev).trans (csFall_mode _)
  · exact (congrArg Device.wel ht.dev).trans (csFall_wel _)
  · exact congrArg Gpio.cs ht.gpio
  · exact congrArg Gpio.sk ht.gpio

end Sys2Proof.Machine

/-! # Proofs: the statements of 43_ecc.md

First how ECC.CALC ends, check after check. Then the code function: the row accumulators by induction over the
block, the twelve accumulator pairs by rows and columns, and the words bit by bit. -/

namespace Sys2Proof.Machine

section EccCommand

variable {s : State} {src dst : Word} {data : List Byte}

/-! ### The checks of a step on the bytes of memory -/

theorem complete_fetch_not_admits {a n : Nat} (h : ¬ s.Admits a n) (f : List Byte → Except Halt State) :
    s.complete (s.fetch a n >>= f) = .fault .notAdmitted := by
  rw [State.fetch_not_admits h]
  rfl

theorem complete_fetch_holds {a n : Nat} (hl : data.length = n) (h : s.Holds a data)
    (f : List Byte → Except Halt State) : s.complete (s.fetch a n >>= f) = s.complete (f data) := by
  rw [State.fetch_holds hl h]
  rfl

theorem complete_coherence {a n : Nat} {set : List Nat} (h : ¬ Avoids set a n) (f : Unit → Except Halt State) :
    s.complete (require (!addrTouches a n set) .coherence >>= f) = .next (s.raise .coherence) := by
  rw [(addrTouches_not_eq_false_iff a n set).mpr h]
  rfl

theorem complete_avoids {a n : Nat} {set : List Nat} (h : Avoids set a n) (f : Unit → Except Halt State) :
    s.complete (require (!addrTouches a n set) .coherence >>= f) = s.complete (f ()) := by
  rw [(addrTouches_not_iff a n set).mpr h]
  rfl

/-! ### ECC.CALC -/

theorem execEccCalc_rangeWrap (ha : s.arg[0] = some src) (hb : s.arg[1] = some dst)
    (h : ¬ (Fits src.toNat 512 ∧ Fits dst.toNat 4)) : execEccCalc s = .next (s.raise .rangeWrap) := by
  refine (complete_argPair_written ha hb _).trans ?_
  by_cases hsrc : Fits src.toNat 512
  · exact (complete_range_fits hsrc _).trans (complete_rangeWrap (fun hdst => h ⟨hsrc, hdst⟩) _)
  · exact complete_rangeWrap hsrc _

/-- Once both ranges fit, ECC.CALC fetches the data and the four bytes that the code will replace, and checks the
coherence of the data (43_ecc.md R367). -/
theorem execEccCalc_fits (ha : s.arg[0] = some src) (hb : s.arg[1] = some dst) (hsrc : Fits src.toNat 512)
    (hdst : Fits dst.toNat 4) : execEccCalc s =
      s.complete (s.fetch src.toNat 512 >>= fun data => s.fetch dst.toNat 4 >>= fun _ =>
        require (!addrTouches src.toNat 512 s.coh.devDirty) .coherence >>= fun _ =>
          .ok (s.storeHost dst.toNat (calcEcc data)).done) :=
  (complete_argPair_written ha hb _).trans ((complete_range_fits hsrc _).trans (complete_range_fits hdst _))

theorem execEccCalc_not_admitted (ha : s.arg[0] = some src) (hb : s.arg[1] = some dst) (hsrc : Fits src.toNat 512)
    (hdst : Fits dst.toNat 4) (h : ¬ (s.Admits src.toNat 512 ∧ s.Admits dst.toNat 4)) :
    execEccCalc s = .fault .notAdmitted := by
  refine (execEccCalc_fits ha hb hsrc hdst).trans ?_
  by_cases hdata : s.Admits src.toNat 512
  · obtain ⟨data, -, hl, hh⟩ := State.fetch_admits hdata
    exact (complete_fetch_holds hl hh _).trans (complete_fetch_not_admits (fun hcode => h ⟨hdata, hcode⟩) _)
  · exact complete_fetch_not_admits hdata _

/-- With both ranges admitted, the coherence of the data decides. -/
theorem execEccCalc_holds (ha : s.arg[0] = some src) (hb : s.arg[1] = some dst) (hsrc : Fits src.toNat 512)
    (hdst : Fits dst.toNat 4) (hcode : s.Admits dst.toNat 4) (hl : data.length = 512)
    (hh : s.Holds src.toNat data) : execEccCalc s =
      s.complete (require (!addrTouches src.toNat 512 s.coh.devDirty) .coherence >>= fun _ =>
        .ok (s.storeHost dst.toNat (calcEcc data)).done) := by
  obtain ⟨old, -, hlOld, hhOld⟩ := State.fetch_admits hcode
  exact (execEccCalc_fits ha hb hsrc hdst).trans
    ((complete_fetch_holds hl hh _).trans (complete_fetch_holds hlOld hhOld _))

end EccCommand

/-- Settles O42: the operands, the ranges, the admission of both, the coherence of the data, then the store. -/
theorem eccCalcResult : Obligations.EccCalcResult := by
  refine ⟨by decide, fun s => ⟨fun h => complete_argPair_unwritten h _, fun src dst ha hb =>
    ⟨execEccCalc_rangeWrap ha hb, fun hsrc hdst => ⟨execEccCalc_not_admitted ha hb hsrc hdst,
      fun hdata hcode => ⟨fun hdirty => ?_, fun data hl hr => ?_⟩⟩⟩⟩⟩
  · obtain ⟨data, -, hl, hh⟩ := State.fetch_admits hdata
    exact (execEccCalc_holds ha hb hsrc hdst hcode hl hh).trans (complete_coherence hdirty _)
  · obtain ⟨-, hh, hclean⟩ := hr
    rw [hl] at hclean
    have hmarked := marked_insertRange s.coh.hostDirty dst.toNat (calcEcc data).length
    rw [calcEcc_length] at hmarked
    refine ⟨_, _, ?_, stored_write s.mem dst.toNat (calcEcc data), hmarked⟩
    refine (execEccCalc_holds ha hb hsrc hdst hcode hl hh).trans ((complete_avoids hclean _).trans ?_)
    rw [← calcEcc_length data]
    rfl

section EccCode

variable {d d' : List Byte} {i b k : Nat} {x : Byte}

/-! ### Parity -/

theorem foldl_bits_xor (x y : Byte) (bits : List Nat) (p q : Bool) :
    bits.foldl (fun p i => p ^^ (x ^^^ y).getLsbD i) (p ^^ q) =
      (bits.foldl (fun p i => p ^^ x.getLsbD i) p ^^ bits.foldl (fun p i => p ^^ y.getLsbD i) q) := by
  induction bits generalizing p q with
  | nil => rfl
  | cons i bits ih =>
    rw [List.foldl_cons, List.foldl_cons, List.foldl_cons, ← ih, BitVec.getLsbD_xor]
    simp only [Bool.xor_assoc, Bool.xor_left_comm]

/-- The parity is linear over exclusive-or (00_scope.md R15). -/
theorem parity_xor (x y : Byte) : parity (x ^^^ y) = (parity x ^^ parity y) :=
  foldl_bits_xor x y _ false false

theorem parity_oneBit (hb : b < 8) : parity (1#8 <<< b) = true := by
  have h : ∀ b < 8, parity (1#8 <<< b) = true := by decide
  exact h b hb

/-- The odd mask of column k selects the bits whose number has bit k set, the even mask the others (R363). -/
theorem parity_oneBit_and_mask (hb : b < 8) (hk : k < 3) (v : Bool) :
    parity (1#8 <<< b &&& columnMask k v) = (b.testBit k == v) := by
  have h : ∀ b < 8, ∀ k < 3, ∀ v, parity (1#8 <<< b &&& columnMask k v) = (b.testBit k == v) := by decide
  exact h b hb k hk v

theorem columnMask_xor (hk : k < 3) : columnMask k false ^^^ columnMask k true = 0xFF#8 := by
  have h : ∀ k < 3, columnMask k false ^^^ columnMask k true = 0xFF#8 := by decide
  exact h k hk

theorem and_xor_distrib_byte (x y m : Byte) : (x ^^^ y) &&& m = x &&& m ^^^ y &&& m := by
  ext n hn
  simp [Bool.and_xor_distrib_right]

/-! ### Row accumulators -/

theorem rowAccFrom_zipWith (j : Nat) (v : Bool) (n : Nat) (h : d.length = d'.length) :
    rowAccFrom j v n (List.zipWith (fun x y => x ^^^ y) d d') = rowAccFrom j v n d ^^^ rowAccFrom j v n d' := by
  induction d generalizing n d' with
  | nil =>
    obtain rfl := List.length_eq_zero_iff.mp h.symm
    exact BitVec.xor_self.symm
  | cons x d ih =>
    cases d' with
    | nil => cases h
    | cons y d' =>
      rw [List.zipWith_cons_cons, rowAccFrom, rowAccFrom, rowAccFrom, ih _ (Nat.succ.inj h)]
      split
      · ac_rfl
      · simp

/-- Every byte goes into one of the two accumulators of a row. -/
theorem foldl_xor_eq_rowAccFrom (j n : Nat) (x : Byte) (d : List Byte) :
    d.foldl (fun x y => x ^^^ y) x = x ^^^ (rowAccFrom j false n d ^^^ rowAccFrom j true n d) := by
  induction d generalizing x n with
  | nil => simp [rowAccFrom]
  | cons y d ih =>
    rw [List.foldl_cons, ih (n + 1), rowAccFrom, rowAccFrom]
    cases n.testBit j <;> simp only [if_true, if_false, reduceCtorEq, BitVec.zero_xor] <;> ac_rfl

theorem rowAccFrom_set (j : Nat) (v : Bool) (n : Nat) (h : d[i]? = some x) (e : Byte) :
    rowAccFrom j v n (d.set i (x ^^^ e)) =
      rowAccFrom j v n d ^^^ (if (n + i).testBit j = v then e else 0#8) := by
  induction d generalizing n i with
  | nil => cases h
  | cons y d ih =>
    cases i with
    | zero =>
      obtain rfl : y = x := Option.some_inj.mp h
      rw [List.set_cons_zero, rowAccFrom, rowAccFrom, Nat.add_zero]
      by_cases hbit : n.testBit j = v
      · simp only [hbit, Nat.add_zero, if_true]
        ac_rfl
      · simp [hbit]
    | succ i =>
      rw [List.set_cons_succ, rowAccFrom, rowAccFrom, ih (n + 1) h, Nat.add_right_comm n 1 i, ← Nat.add_assoc]
      ac_rfl

theorem testBit_four_mul_add (m j : Nat) {r : Nat} (hr : r < 4) :
    (4 * m + r).testBit j = if j < 2 then r.testBit j else m.testBit (j - 2) :=
  Nat.testBit_two_pow_mul_add m (i := 2) hr j

/-- Of four equal bytes from a multiple of four on, each accumulator takes none, two or all: they cancel. -/
theorem rowAccFrom_four (j : Nat) (v : Bool) (m : Nat) (c : Byte) (rest : List Byte) :
    rowAccFrom j v (4 * m) (c :: c :: c :: c :: rest) = rowAccFrom j v (4 * m + 4) rest := by
  have h0 : (4 * m).testBit j = _ := testBit_four_mul_add m j (r := 0) (by decide)
  simp only [rowAccFrom, Nat.add_assoc, Nat.reduceAdd, h0, testBit_four_mul_add m j (r := 1) (by decide),
    testBit_four_mul_add m j (r := 2) (by decide), testBit_four_mul_add m j (r := 3) (by decide)]
  match j with
  | 0 => cases v <;> simp
  | 1 => cases v <;> simp [Nat.testBit_succ]
  | j + 2 => cases m.testBit j <;> cases v <;> simp

theorem rowAccFrom_replicate (j : Nat) (v : Bool) (m n : Nat) (c : Byte) :
    rowAccFrom j v (4 * m) (List.replicate (4 * n) c) = 0#8 := by
  induction n generalizing m with
  | zero => rfl
  | succ n ih => exact (rowAccFrom_four j v m c _).trans (ih (m + 1))

/-! ### Accumulator pairs -/

/-- The top-level value is the exclusive-or of all bytes (R363). -/
theorem eccTop_eq_foldl (d : List Byte) : eccTop d = d.foldl (fun x y => x ^^^ y) 0#8 :=
  ((foldl_xor_eq_rowAccFrom 0 0 0#8 d).trans (BitVec.zero_xor)).symm

theorem eccAcc_column (hk : k < 3) (d : List Byte) (v : Bool) :
    eccAcc d k v = eccTop d &&& columnMask k v := if_pos hk

theorem eccAcc_row (hk : ¬ k < 3) (d : List Byte) (v : Bool) : eccAcc d k v = rowAccFrom (k - 3) v 0 d :=
  if_neg hk

theorem eccTop_zipWith (h : d.length = d'.length) :
    eccTop (List.zipWith (fun x y => x ^^^ y) d d') = eccTop d ^^^ eccTop d' := by
  simp only [eccTop, rowAcc, rowAccFrom_zipWith 0 _ 0 h]
  ac_rfl

theorem eccAcc_zipWith (h : d.length = d'.length) (k : Nat) (v : Bool) :
    eccAcc (List.zipWith (fun x y => x ^^^ y) d d') k v = eccAcc d k v ^^^ eccAcc d' k v := by
  by_cases hk : k < 3
  · simp only [eccAcc_column hk, eccTop_zipWith h, and_xor_distrib_byte]
  · simp only [eccAcc_row hk, rowAccFrom_zipWith _ v 0 h]

/-- The accumulators of a pair share the bytes, or the bits of the top-level value. -/
theorem eccAcc_false_xor_true (d : List Byte) (k : Nat) :
    eccAcc d k false ^^^ eccAcc d k true = eccTop d := by
  by_cases hk : k < 3
  · rw [eccAcc_column hk, eccAcc_column hk, BitVec.and_comm, BitVec.and_comm (eccTop d), ← and_xor_distrib_byte,
      columnMask_xor hk, BitVec.and_comm]
    exact BitVec.and_allOnes
  · rw [eccAcc_row hk, eccAcc_row hk, eccTop_eq_foldl, foldl_xor_eq_rowAccFrom (k - 3) 0, BitVec.zero_xor]

theorem eccTop_set (h : d[i]? = some x) (e : Byte) : eccTop (d.set i (x ^^^ e)) = eccTop d ^^^ e := by
  simp only [eccTop, rowAcc, rowAccFrom_set 0 _ 0 h]
  cases (0 + i).testBit 0 <;> simp only [if_true, if_false, reduceCtorEq, BitVec.xor_zero] <;> ac_rfl

/-- Flipping bit b of byte i flips the parity of the accumulator of pair k that bit k of `8 * i + b` selects. -/
theorem parity_eccAcc_set (h : d[i]? = some x) (hb : b < 8) (k : Nat) (v : Bool) :
    parity (eccAcc (d.set i (x ^^^ (1#8 <<< b))) k v) =
      (parity (eccAcc d k v) ^^ ((8 * i + b).testBit k == v)) := by
  have hbit : (8 * i + b).testBit k = if k < 3 then b.testBit k else i.testBit (k - 3) :=
    Nat.testBit_two_pow_mul_add i (i := 3) hb k
  rw [hbit]
  by_cases hk : k < 3
  · rw [eccAcc_column hk, eccAcc_column hk, eccTop_set h, and_xor_distrib_byte, parity_xor,
      parity_oneBit_and_mask hb hk, if_pos hk]
  · rw [eccAcc_row hk, eccAcc_row hk, rowAccFrom_set _ v 0 h, parity_xor, if_neg hk, Nat.zero_add]
    by_cases hv : i.testBit (k - 3) = v
    · rw [if_pos hv, parity_oneBit hb, hv, beq_self_eq_true]
    · rw [if_neg hv, beq_eq_false_iff_ne.mpr hv]
      rfl

theorem eccAcc_replicate (n : Nat) (c : Byte) (k : Nat) (v : Bool) :
    eccAcc (List.replicate (4 * n) c) k v = 0#8 := by
  have hrow : ∀ j v, rowAccFrom j v 0 (List.replicate (4 * n) c) = 0#8 := fun j v =>
    rowAccFrom_replicate j v 0 n c
  by_cases hk : k < 3
  · rw [eccAcc_column hk, eccTop, rowAcc, rowAcc, hrow, hrow, BitVec.xor_self, BitVec.zero_and]
  · rw [eccAcc_row hk, hrow]

/-! ### The words -/

theorem foldl_setBit_getLsbD (p : Nat → Bool) (n : Nat) (hk : k < 16) :
    ((List.range n).foldl (fun w k => w ||| (if p k then 1#16 <<< k else 0#16)) 0#16).getLsbD k =
      (decide (k < n) && p k) := by
  induction n with
  | zero => simp
  | succ n ih =>
    rw [List.range_succ, List.foldl_append, List.foldl_cons, List.foldl_nil, BitVec.getLsbD_or, ih]
    rcases Nat.lt_trichotomy k n with hlt | rfl | hgt
    · cases p n <;> simp [hlt, Nat.lt_succ_of_lt hlt]
    · cases p k <;> simp [hk]
    · cases p n <;> simp [Nat.not_lt_of_gt hgt, hk, show ¬ k < n + 1 by omega, show ¬ k - n = 0 by omega]

/-- Bit k of a word is the parity of pair k; the bits from 12 on are 0 (R364, R365). -/
theorem eccWord_getLsbD (d : List Byte) (v : Bool) (hk : k < 16) :
    (eccWord d v).getLsbD k = (decide (k < 12) && parity (eccAcc d k v)) :=
  foldl_setBit_getLsbD (fun k => parity (eccAcc d k v)) 12 hk

theorem getLsbD_twelveOnes (hk : k < 16) : (0xFFF#16).getLsbD k = decide (k < 12) := by
  have h : ∀ k < 16, (0xFFF#16).getLsbD k = decide (k < 12) := by decide
  exact h k hk

theorem eccWord_zipWith (h : d.length = d'.length) (v : Bool) :
    eccWord (List.zipWith (fun x y => x ^^^ y) d d') v = eccWord d v ^^^ eccWord d' v := by
  apply BitVec.eq_of_getLsbD_eq
  intro k hk
  rw [BitVec.getLsbD_xor, eccWord_getLsbD _ v hk, eccWord_getLsbD d v hk, eccWord_getLsbD d' v hk,
    eccAcc_zipWith h, parity_xor, Bool.and_xor_distrib_left]

theorem eccWord_false_xor_true (d : List Byte) :
    eccWord d false ^^^ eccWord d true = if parity (eccTop d) then 0xFFF#16 else 0#16 := by
  apply BitVec.eq_of_getLsbD_eq
  intro k hk
  rw [BitVec.getLsbD_xor, eccWord_getLsbD d _ hk, eccWord_getLsbD d _ hk, ← Bool.and_xor_distrib_left,
    ← parity_xor, eccAcc_false_xor_true, apply_ite (BitVec.getLsbD · k), getLsbD_twelveOnes hk]
  cases parity (eccTop d) <;> simp

/-- The single-bit syndrome (R366): the odd word changes by the bit's position, the even word by its complement. -/
theorem eccWord_set (h : d[i]? = some x) (hi : i < 512) (hb : b < 8) (v : Bool) :
    eccWord (d.set i (x ^^^ (1#8 <<< b))) v =
      eccWord d v ^^^ (BitVec.ofNat 16 (8 * i + b) ^^^ (if v then 0#16 else 0xFFF#16)) := by
  apply BitVec.eq_of_getLsbD_eq
  intro k hk
  rw [BitVec.getLsbD_xor, BitVec.getLsbD_xor, eccWord_getLsbD _ v hk, eccWord_getLsbD d v hk,
    parity_eccAcc_set h hb, BitVec.getLsbD_ofNat, apply_ite (BitVec.getLsbD · k), getLsbD_twelveOnes hk]
  by_cases h12 : k < 12
  · cases v <;> simp [hk, h12]
  · have hlt : 8 * i + b < 2 ^ k :=
      calc 8 * i + b < 2 ^ 12 := by omega
        _ ≤ 2 ^ k := Nat.pow_le_pow_right (by decide) (by omega)
    simp [h12, Nat.testBit_lt_two_pow hlt]

theorem eccWord_replicate (n : Nat) (c : Byte) (v : Bool) : eccWord (List.replicate (4 * n) c) v = 0#16 := by
  apply BitVec.eq_of_getLsbD_eq
  intro k hk
  rw [eccWord_getLsbD _ v hk, eccAcc_replicate, show parity 0#8 = false from rfl, Bool.and_false,
    BitVec.getLsbD_zero]

/-! ### The code -/

theorem toLE_xor (n v w : Nat) :
    toLE n (v ^^^ w) = List.zipWith (fun x y => x ^^^ y) (toLE n v) (toLE n w) := by
  induction n generalizing v w with
  | zero => rfl
  | succ n ih =>
    have hdiv : (v ^^^ w) / 256 = v / 256 ^^^ w / 256 := Nat.xor_div_two_pow (n := 8)
    rw [toLE, toLE, toLE, List.zipWith_cons_cons, BitVec.ofNat_xor, hdiv, ih]

theorem calcEcc_zipWith (h : d.length = d'.length) :
    calcEcc (List.zipWith (fun x y => x ^^^ y) d d') =
      List.zipWith (fun x y => x ^^^ y) (calcEcc d) (calcEcc d') := by
  have hl : ∀ v, (toLE 2 (eccWord d v).toNat).length = (toLE 2 (eccWord d' v).toNat).length := fun v => by
    rw [toLE_length, toLE_length]
  rw [calcEcc, eccWord_zipWith h, eccWord_zipWith h, BitVec.toNat_xor, BitVec.toNat_xor, toLE_xor, toLE_xor,
    ← List.zipWith_append (hl false)]
  rfl

theorem calcEcc_replicate (n : Nat) (c : Byte) :
    calcEcc (List.replicate (4 * n) c) = [0#8, 0#8, 0#8, 0#8] := by
  rw [calcEcc, eccWord_replicate, eccWord_replicate]
  rfl

end EccCode

/-- Settles O43: the code is linear in the bytes, and each word's bit k reads one accumulator of pair k. -/
theorem eccCodeProperties : Obligations.EccCodeProperties := by
  refine ⟨fun d d' hd hd' => calcEcc_zipWith (hd.trans hd'.symm), calcEcc_replicate 128 0#8, fun d _ => ?_,
    fun d i b x _ hi hb h => ⟨?_, ?_⟩, calcEcc_replicate 128⟩
  · rw [eccWord_false_xor_true, eccTop_eq_foldl]
  · exact (eccWord_set h hi hb true).trans (congrArg _ BitVec.xor_zero)
  · exact eccWord_set h hi hb false

end Sys2Proof.Machine

/-! # Proofs: the statements of 44_container.md

A validator command is a sequence of checks and reads. `State.CtrLeft` says which of them are left once the ones
before have passed; one rule takes the next of them, and three say how the command ends at it. The results of a
failing command follow from what the command can do, and its independence of the signature from where it reads. -/

namespace Sys2Proof.Machine

section Validators

variable {α β : Type}

/-! ### Accesses inside the buffer -/

/-- The computation raises no fault; it may still have no step. -/
def CtrStop.NoRaise (x : Except CtrStop α) : Prop := ∀ k, x ≠ .error (.halt (.raise k))

theorem CtrStop.NoRaise.ok (a : α) : NoRaise (.ok a) := fun _ => nofun

theorem CtrStop.NoRaise.bind {x : Except CtrStop α} {f : α → Except CtrStop β} (hx : NoRaise x)
    (hf : ∀ a, x = .ok a → NoRaise (f a)) : NoRaise (x >>= f) := by
  cases x with
  | ok a => exact hf a rfl
  | error e =>
    intro k h
    cases h
    exact hx k rfl

theorem check_noRaise (ok : Bool) (c : ResultCode) : CtrStop.NoRaise (check ok c) := by
  cases ok <;> exact fun _ => nofun

/-- What follows a bounds check may rely on it. -/
theorem CtrStop.NoRaise.need {b : Buffer} {off n : Nat} {f : Unit → Except CtrStop β}
    (hf : off + n ≤ b.len → NoRaise (f ())) : NoRaise (b.need off n >>= f) :=
  (check_noRaise _ _).bind fun _ h => hf (need_eq_ok.mp h)

theorem Buffer.fits {b : Buffer} (h : Fits b.addr b.len) {off n : Nat} (hin : off + n ≤ b.len) :
    Fits (b.addr + off) n := by
  unfold Fits at h ⊢
  omega

theorem field_noRaise {s : State} {b : Buffer} (h : Fits b.addr b.len) {off n : Nat} (hin : off + n ≤ b.len) :
    CtrStop.NoRaise (s.coherent.field b off n) := by
  intro k he
  rw [State.field] at he
  split at he
  · cases he
  · next hr =>
    cases he
    rcases State.hostRead_eq_error.mp hr with ⟨hf, -⟩ | ⟨-, -, hk⟩ | ⟨-, -, hd, -⟩
    · exact hf (Buffer.fits h hin)
    · cases hk
    · exact hd (by intro x hx; cases hx)

theorem field32_noRaise {s : State} {b : Buffer} (h : Fits b.addr b.len) {off : Nat} (hin : off + 4 ≤ b.len) :
    CtrStop.NoRaise (s.coherent.field32 b off) :=
  (field_noRaise h hin).bind fun _ _ => .ok _

theorem ctrHeader_noRaise (s : State) {b : Buffer} (h : Fits b.addr b.len) :
    CtrStop.NoRaise (s.coherent.ctrHeader b) :=
  .need fun h4 => (field_noRaise h h4).bind fun _ _ => (check_noRaise _ _).bind fun _ _ =>
    .need fun h12 => field32_noRaise h h12

theorem ctrType_noRaise (s : State) {b : Buffer} (h : Fits b.addr b.len) (so : Nat) :
    CtrStop.NoRaise (s.coherent.ctrType b so) :=
  .need fun hin => (field32_noRaise h hin).bind fun tag _ => by
    cases SigType.ofTag tag <;> exact fun _ => nofun

theorem parseContainer_noRaise (s : State) {b : Buffer} (h : Fits b.addr b.len) :
    CtrStop.NoRaise (s.coherent.parseContainer b) :=
  (ctrHeader_noRaise s h).bind fun so _ => (ctrType_noRaise s h so).bind fun t _ => .need fun hin => by
    rw [infoSize] at hin
    exact (field32_noRaise h (by omega)).bind fun _ _ => (field32_noRaise h (by omega)).bind fun _ _ =>
      (field32_noRaise h (by omega)).bind fun _ _ => (field32_noRaise h (by omega)).bind fun _ _ =>
      .need fun _ => .ok _

/-- The info block follows the signature padding (30_encoding.md R151). -/
theorem infoOff_eq (t : SigType) : t.infoOff = 0x24 + t.sigLen + t.sigPad := by cases t <;> rfl

theorem verifyContainer_noRaise (s : State) {b : Buffer} (h : Fits b.addr b.len) :
    CtrStop.NoRaise (s.coherent.verifyContainer b) :=
  (ctrHeader_noRaise s h).bind fun so _ => (check_noRaise _ _).bind fun _ hso =>
    (ctrType_noRaise s h so).bind fun t _ => .need fun hin => by
    have hso : so = 0x20 := beq_iff_eq.mp (check_eq_ok.mp hso)
    have hio := infoOff_eq t
    have hinfo : t.infoOff + (0x14 + s.par.hashLen + s.par.infoPad) ≤ b.len := hin
    exact (field32_noRaise h (by omega)).bind fun _ _ => .need fun hbody =>
      (field_noRaise h (by omega)).bind fun _ _ => (check_noRaise _ _).bind fun _ _ =>
      (field_noRaise h (by omega)).bind fun _ _ => (check_noRaise _ _).bind fun _ _ =>
      (field_noRaise h (by simp only [State.coherent_par]; omega)).bind fun _ _ =>
      (check_noRaise _ _).bind fun _ _ =>
      (field_noRaise h hbody).bind fun _ _ =>
      (field_noRaise h (by simp only [State.coherent_par]; omega)).bind fun _ _ =>
      (check_noRaise _ _).bind fun _ _ =>
      (field32_noRaise h (by omega)).bind fun _ _ => (field32_noRaise h (by omega)).bind fun _ _ =>
      (field32_noRaise h (by simp only [State.coherent_par]; omega)).bind fun _ _ => .ok _

/-! ### A validator command -/

variable {s : State} {i : Instr} {b : Buffer} {checks : Buffer → State → Except CtrStop CtrInfo}
  {f : State → Except CtrStop CtrInfo} {x : State → Except CtrStop α} {g : State → α → Except CtrStop CtrInfo}
  {c : ResultCode}

/-- The instruction is the validator command of the given checks: they differ by coherence faults only when
device-dirty addresses are forgotten, and raise nothing else on a buffer in range. -/
structure CtrCommand (i : Instr) (checks : Buffer → State → Except CtrStop CtrInfo) : Prop where
  exec_eq : ∀ s : State, exec i s = s.complete (s.ctrBuffer >>= fun b => s.ctrFinish (s.ctrRun (checks b)))
  yields : ∀ (b : Buffer) (s : State), CtrStop.Yields (checks b s) (checks b s.coherent)
  noRaise : ∀ (b : Buffer) (s : State), Fits b.addr b.len → CtrStop.NoRaise (checks b s.coherent)

theorem ctrCommand_parse : CtrCommand .ctrParse fun b s => s.parseContainer b :=
  ⟨fun _ => rfl, parseContainer_yields, fun _ s h => parseContainer_noRaise s h⟩

theorem ctrCommand_verify : CtrCommand .ctrVerify fun b s => s.verifyContainer b :=
  ⟨fun _ => rfl, verifyContainer_yields, fun _ s h => verifyContainer_noRaise s h⟩

theorem CtrCommand.unwritten (h : CtrCommand i checks) (ha : s.arg[0] = none ∨ s.arg[1] = none) :
    exec i s = .next (s.raise .readUnwritten) := by
  rw [h.exec_eq, State.ctrBuffer, State.argPair_none ha]
  rfl

theorem CtrCommand.rangeWrap (h : CtrCommand i checks) {p len : Word} (h0 : s.arg[0] = some p)
    (h1 : s.arg[1] = some len) (hf : ¬ Fits p.toNat len.toNat) : exec i s = .next (s.raise .rangeWrap) := by
  have hb : s.ctrBuffer = .error (.raise .rangeWrap) := by
    simp only [State.ctrBuffer, State.argPair_some h0 h1, ok_bind', (rangeOk_eq_false_iff _ _).mpr hf,
      require_false, error_bind']
  rw [h.exec_eq, hb]
  rfl

/-- A first pass without a step has none either once device-dirty addresses count (60_exceptions.md R513). -/
theorem ctrRun_noStep_of_coherent (h : s.coherent.ctrRun f = .error (.halt .noStep)) :
    s.ctrRun f = .error (.halt .noStep) := by
  have hc : f s.coherent = .error (.halt .noStep) := by
    rcases ctrRun_cases s.coherent f with ⟨e, hf, hr⟩ | ⟨-, hr⟩
    · cases h.symm.trans hr
      exact hf
    · exact hr.symm.trans h
  rw [State.ctrRun, hc]

theorem ctrFinish_eq_noStep {r : Except CtrStop CtrInfo} :
    s.ctrFinish r = .error .noStep ↔ r = .error (.halt .noStep) := by
  rcases r with (c | e) | info <;> simp [State.ctrFinish]

theorem CtrCommand.notAdmitted (h : CtrCommand i checks) (hc : exec i s.coherent = .fault .notAdmitted) :
    exec i s = .fault .notAdmitted := by
  rw [h.exec_eq] at hc ⊢
  have hb : s.coherent.ctrBuffer = s.ctrBuffer := rfl
  rw [hb, State.complete_eq_fault, bind_eq_error] at hc
  rw [State.complete_eq_fault, bind_eq_error]
  rcases hc with ⟨hn | ⟨b, hb, hr⟩, -⟩
  · exact ⟨.inl hn, rfl⟩
  · exact ⟨.inr ⟨b, hb, ctrFinish_eq_noStep.mpr (ctrRun_noStep_of_coherent (ctrFinish_eq_noStep.mp hr))⟩, rfl⟩

/-! ### What is left of a validator command -/

/-- The command's outcome, on the buffer b in range, is that of the checks f: those before them have passed. -/
structure State.CtrLeft (s : State) (i : Instr) (b : Buffer) (f : State → Except CtrStop CtrInfo) : Prop where
  fits : Fits b.addr b.len
  exec_eq : exec i s = s.complete (s.ctrFinish (s.ctrRun f))
  coherent_eq : exec i s.coherent = s.coherent.complete (s.coherent.ctrFinish (s.coherent.ctrRun f))
  yields : CtrStop.Yields (f s) (f s.coherent)
  noRaise : CtrStop.NoRaise (f s.coherent)

/-- At the start of a command all of its checks are left. -/
theorem CtrCommand.left (h : CtrCommand i checks) {p len : Word} (h0 : s.arg[0] = some p)
    (h1 : s.arg[1] = some len) (hf : Fits p.toNat len.toNat) :
    s.CtrLeft i { addr := p.toNat, len := len.toNat } (checks { addr := p.toNat, len := len.toNat }) := by
  have hb := ctrBuffer_eq_ok.mpr ⟨p, len, h0, h1, hf, rfl⟩
  have hc : s.coherent.ctrBuffer = s.ctrBuffer := rfl
  exact ⟨hf, by rw [h.exec_eq, hb, ok_bind'], by rw [h.exec_eq, hc, hb, ok_bind'], h.yields _ _,
    h.noRaise _ _ hf⟩

/-- Only the outcomes in the two passes count. -/
theorem State.CtrLeft.congr {f' : State → Except CtrStop CtrInfo} (h : s.CtrLeft i b f) (hs : f s = f' s)
    (hc : f s.coherent = f' s.coherent) : s.CtrLeft i b f' := by
  have hrun : s.ctrRun f = s.ctrRun f' := by rw [State.ctrRun, State.ctrRun, hs, hc]
  have hrunc : s.coherent.ctrRun f = s.coherent.ctrRun f' := by
    have hcc : f s.coherent.coherent = f' s.coherent.coherent := hc
    rw [State.ctrRun, State.ctrRun, hc, hcc]
  exact ⟨h.fits, hrun ▸ h.exec_eq, hrunc ▸ h.coherent_eq, hs ▸ hc ▸ h.yields, hc ▸ h.noRaise⟩

/-- The first check of a group of checks is the next one. -/
theorem State.CtrLeft.unnest {y : State → α → Except CtrStop β} {k : State → β → Except CtrStop CtrInfo}
    (h : s.CtrLeft i b fun u => (x u >>= y u) >>= k u) :
    s.CtrLeft i b fun u => x u >>= fun a => y u a >>= k u :=
  h.congr (bind_assoc _ _ _) (bind_assoc _ _ _)

/-- A check that passes leaves the ones after it. -/
theorem State.CtrLeft.past (h : s.CtrLeft i b fun u => x u >>= g u) {a : α} (hs : x s = .ok a)
    (hy : CtrStop.Yields (x s) (x s.coherent) := by exact .refl _) : s.CtrLeft i b fun u => g u a := by
  have hc : x s.coherent = .ok a := by
    rcases hy with hy | hy
    · exact hy.symm.trans hs
    · cases hs.symm.trans hy
  exact h.congr (by rw [hs, ok_bind']) (by rw [hc, ok_bind'])

/-! What passes: a check, a field read. -/

theorem State.CtrLeft.past_check {ok : State → Bool} {g : State → Unit → Except CtrStop CtrInfo}
    (h : s.CtrLeft i b fun u => check (ok u) c >>= g u) (hok : ok s = true)
    (hc : ok s.coherent = ok s := by rfl) : s.CtrLeft i b fun u => g u () := by
  refine h.past (check_eq_ok.mpr hok) (.inl ?_)
  rw [hc]

theorem State.CtrLeft.past_field {o m : State → Nat} {g : State → List Byte → Except CtrStop CtrInfo}
    (h : s.CtrLeft i b fun u => u.field b (o u) (m u) >>= g u) {a : Nat} {bs : List Byte}
    (hr : s.HostReads a bs) (hl : bs.length = m s) (ha : a = b.addr + o s := by simp only [Nat.add_assoc])
    (ho : o s.coherent = o s := by rfl) (hm : m s.coherent = m s := by rfl) :
    s.CtrLeft i b fun u => g u bs := by
  refine h.past (field_of_reads (ha ▸ hr) hl) ?_
  rw [ho, hm]
  exact field_yields s b (o s) (m s)

theorem State.CtrLeft.past_field32 {o : State → Nat} {g : State → Nat → Except CtrStop CtrInfo}
    (h : s.CtrLeft i b fun u => u.field32 b (o u) >>= g u) {v : Nat} (hv : s.Field32 b (o s) v)
    (ho : o s.coherent = o s := by rfl) : s.CtrLeft i b fun u => g u v := by
  refine h.past (field32_eq_ok.mpr hv) ?_
  rw [ho]
  exact field32_yields s b (o s)

/-! How the command ends. -/

theorem State.CtrLeft.ctrRun_eq (h : s.CtrLeft i b f) (hn : ∀ e, f s ≠ .error (.halt e)) : s.ctrRun f = f s :=
  ctrRun_of_yields h.yields hn

theorem State.CtrLeft.accepted (h : s.CtrLeft i b f) {info : CtrInfo} (hs : f s = .ok info) :
    exec i s = .next { s with res := info.results }.done := by
  rw [h.exec_eq, h.ctrRun_eq (by rw [hs]; nofun), hs]
  rfl

/-- A check that fails rejects the container with its code. -/
theorem State.CtrLeft.rejected (h : s.CtrLeft i b fun u => x u >>= g u) (hs : x s = .error (.code c)) :
    exec i s = s.ctrRejected (statusWord c) := by
  have hf : (x s >>= g s) = .error (.code c) := by rw [hs, error_bind']
  rw [h.exec_eq, h.ctrRun_eq (f := fun u => x u >>= g u) (by rw [hf]; nofun), hf]
  rfl

theorem State.CtrLeft.truncated {o m : State → Nat} {g : State → Unit → Except CtrStop CtrInfo}
    (h : s.CtrLeft i b fun u => b.need (o u) (m u) >>= g u) (hlt : b.len < o s + m s) :
    exec i s = s.ctrRejected 0x15#32 := h.rejected (need_of_lt hlt)

theorem State.CtrLeft.check_fails {ok : State → Bool} {g : State → Unit → Except CtrStop CtrInfo}
    (h : s.CtrLeft i b fun u => check (ok u) c >>= g u) (hok : ok s = false) :
    exec i s = s.ctrRejected (statusWord c) := h.rejected (check_eq_error.mpr ⟨hok, rfl⟩)

theorem State.CtrLeft.noStep (h : s.CtrLeft i b f) (hc : f s.coherent = .error (.halt .noStep)) :
    exec i s = .fault .notAdmitted := by
  rw [h.exec_eq, State.ctrRun, hc]
  rfl

/-- A coherence fault is reported unless an access of the command is not admitted. -/
theorem State.CtrLeft.coherence (h : s.CtrLeft i b f) (hs : f s = .error (.halt (.raise .coherence)))
    (hc : exec i s.coherent ≠ .fault .notAdmitted) : exec i s = .next (s.raise .coherence) := by
  rcases ctrRun_cases s f with ⟨e, he, -⟩ | ⟨-, hr⟩
  · cases e with
    | raise k => exact absurd he (h.noRaise k)
    | noStep =>
      refine absurd ?_ hc
      have hcc : f s.coherent.coherent = .error (.halt .noStep) := he
      rw [h.coherent_eq, State.ctrRun, hcc]
      rfl
  · rw [h.exec_eq, hr, hs]
    rfl

/-- The next access is a field inside the buffer: the command stops there as R513 says. -/
theorem State.CtrLeft.stops {o m : State → Nat} {g : State → List Byte → Except CtrStop CtrInfo}
    (h : s.CtrLeft i b fun u => u.field b (o u) (m u) >>= g u) (hin : o s + m s ≤ b.len) {a : Nat}
    (ha : a = b.addr + o s := by simp only [Nat.add_assoc])
    (ho : o s.coherent = o s := by rfl) (hm : m s.coherent = m s := by rfl) : s.FieldStops i a (m s) := by
  have hf := Buffer.fits h.fits hin
  rw [ha]
  refine ⟨fun hadm => h.noStep ?_, fun hadm hd => h.coherence ?_⟩
  · have hr : s.coherent.hostRead (b.addr + o s) (m s) = .error .noStep :=
      State.hostRead_eq_error.mpr (.inr (.inl ⟨hf, hadm, rfl⟩))
    rw [ho, hm, State.field, hr]
    rfl
  · have hr : s.hostRead (b.addr + o s) (m s) = .error (.raise .coherence) :=
      State.hostRead_eq_error.mpr (.inr (.inr ⟨hf, hadm, hd, rfl⟩))
    rw [State.field, hr]
    rfl

/-! ### The checks that both commands begin with -/

section Header

variable {g : State → Nat → Except CtrStop CtrInfo} {so : Nat}

theorem State.CtrLeft.magic_short (h : s.CtrLeft i b fun u => u.ctrHeader b >>= g u) (hlt : b.len < 4) :
    exec i s = s.ctrRejected 0x15#32 := h.unnest.truncated hlt

theorem State.CtrLeft.magic_stops (h : s.CtrLeft i b fun u => u.ctrHeader b >>= g u) (h4 : 4 ≤ b.len) :
    s.FieldStops i b.addr 4 := (h.unnest.past (need_of_le h4)).unnest.stops h4 rfl

theorem State.CtrLeft.magic_wrong (h : s.CtrLeft i b fun u => u.ctrHeader b >>= g u) {magic : List Byte}
    (h4 : 4 ≤ b.len) (hl : magic.length = 4) (hr : s.HostReads b.addr magic) (hne : magic ≠ s.par.magic.toList) :
    exec i s = s.ctrRejected 0x10#32 :=
  ((h.unnest.past (need_of_le h4)).unnest.past_field hr hl rfl).unnest.check_fails (beq_eq_false_iff_ne.mpr hne)

/-- With the right magic the bounds of the signature offset are next. -/
theorem State.CtrLeft.past_magic (h : s.CtrLeft i b fun u => u.ctrHeader b >>= g u) (hm : s.MagicOk b) :
    s.CtrLeft i b fun u => b.need 8 4 >>= fun _ => u.field32 b 8 >>= g u := by
  obtain ⟨h4, hr⟩ := hm
  have hfield := (h.unnest.past (need_of_le h4)).unnest.past_field hr Vector.length_toList rfl
  exact (hfield.unnest.past_check (beq_self_eq_true _)).unnest

theorem State.CtrLeft.sigOff_short (h : s.CtrLeft i b fun u => u.ctrHeader b >>= g u) (hm : s.MagicOk b)
    (hlt : b.len < 12) : exec i s = s.ctrRejected 0x15#32 := (h.past_magic hm).truncated hlt

theorem State.CtrLeft.sigOff_stops (h : s.CtrLeft i b fun u => u.ctrHeader b >>= g u) (hm : s.MagicOk b)
    (h12 : 12 ≤ b.len) : s.FieldStops i (b.addr + 8) 4 :=
  ((h.past_magic hm).past (need_of_le h12)).unnest.stops h12

theorem State.CtrLeft.past_header (h : s.CtrLeft i b fun u => u.ctrHeader b >>= g u) (hm : s.MagicOk b)
    (h12 : 12 ≤ b.len) (hso : s.Field32 b 8 so) : s.CtrLeft i b fun u => g u so :=
  h.past (ctrHeader_eq_ok.mpr ⟨hm, h12, hso⟩) (ctrHeader_yields s b)

end Header

section TypeTag

variable {g : State → SigType → Except CtrStop CtrInfo} {so tag : Nat}

theorem State.CtrLeft.type_short (h : s.CtrLeft i b fun u => u.ctrType b so >>= g u) (hlt : b.len < so + 4) :
    exec i s = s.ctrRejected 0x15#32 := h.unnest.truncated hlt

theorem State.CtrLeft.type_stops (h : s.CtrLeft i b fun u => u.ctrType b so >>= g u) (hin : so + 4 ≤ b.len) :
    s.FieldStops i (b.addr + so) 4 := (h.unnest.past (need_of_le hin)).unnest.unnest.stops hin

theorem ctrType_wrong (hin : so + 4 ≤ b.len) (ht : s.Field32 b so tag) (h1 : tag ≠ 1) (h2 : tag ≠ 2) :
    s.ctrType b so = .error (.code .badSigType) := by
  rw [State.ctrType, need_of_le hin, ok_bind', field32_eq_ok.mpr ht, ok_bind', ofTag_eq_none h1 h2]

theorem State.CtrLeft.type_wrong (h : s.CtrLeft i b fun u => u.ctrType b so >>= g u) (hin : so + 4 ≤ b.len)
    (ht : s.Field32 b so tag) (h1 : tag ≠ 1) (h2 : tag ≠ 2) : exec i s = s.ctrRejected 0x12#32 :=
  h.rejected (ctrType_wrong hin ht h1 h2)

theorem State.CtrLeft.past_type (h : s.CtrLeft i b fun u => u.ctrType b so >>= g u) (hin : so + 4 ≤ b.len)
    {t : SigType} (ht : s.Field32 b so t.tag) : s.CtrLeft i b fun u => g u t :=
  h.past (ctrType_eq_ok.mpr ⟨hin, ht⟩) (ctrType_yields s b so)

end TypeTag

/-! ### Fields of zeros -/

theorem allZero_replicate (n : Nat) : allZero (List.replicate n 0#8) = true := by
  simp [allZero]

theorem allZero_eq_false {bs : List Byte} (h : ∃ x ∈ bs, x ≠ 0#8) : allZero bs = false := by
  simpa [allZero] using h

/-- A field that has to hold zeros (R401): the command stops at it, rejects another byte, or goes on. -/
theorem State.CtrLeft.zeros {o m : State → Nat} {g : State → Unit → Except CtrStop CtrInfo}
    (h : s.CtrLeft i b fun u => u.field b (o u) (m u) >>= fun bs => check (allZero bs) c >>= g u)
    (hin : o s + m s ≤ b.len) {a : Nat} (ha : a = b.addr + o s) (ho : o s.coherent = o s := by rfl)
    (hm : m s.coherent = m s := by rfl) :
    s.FieldStops i (b.addr + o s) (m s) ∧
    (∀ bs : List Byte, bs.length = m s → s.HostReads a bs → (∃ x ∈ bs, x ≠ 0#8) →
      exec i s = s.ctrRejected (statusWord c)) ∧
    (s.HostReads a (List.replicate (m s) 0#8) → s.CtrLeft i b fun u => g u ()) :=
  ⟨h.stops hin rfl ho hm,
    fun _ hl hr hx => (h.past_field hr hl ha ho hm).check_fails (allZero_eq_false hx),
    fun hr => (h.past_field hr List.length_replicate ha ho hm).past_check (allZero_replicate _)⟩

end Validators

/-- Settles O44: the header, the type tag, the four fields of the info block, the bounds of the body. -/
theorem ctrParseResult : Obligations.CtrParseResult := by
  refine ⟨by decide, fun s => ⟨ctrCommand_parse.unwritten, ctrCommand_parse.notAdmitted, fun p len h0 h1 =>
    ⟨ctrCommand_parse.rangeWrap h0 h1, fun hf => ?_⟩⟩⟩
  have h := ctrCommand_parse.left h0 h1 hf
  refine ⟨fun c hc => h.accepted (parseContainer_eq_ok.mpr hc), h.magic_short, h.magic_stops,
    fun _ => h.magic_wrong, h.sigOff_short, h.sigOff_stops, fun so hm h12 hso => ?_⟩
  have htype := h.past_header hm h12 hso
  refine ⟨htype.type_short, htype.type_stops, fun _ => htype.type_wrong, fun t hin ht => ?_⟩
  have hbounds := htype.past_type hin ht
  refine ⟨hbounds.truncated, fun hinfo => ?_⟩
  have hdevice := hbounds.past (need_of_le hinfo)
  rw [infoSize] at hinfo
  refine ⟨hdevice.unnest.stops (by omega), fun device hd => ?_⟩
  have hinfoType := hdevice.past_field32 hd
  refine ⟨hinfoType.unnest.stops (by omega), fun infoType hi => ?_⟩
  have hsize := hinfoType.past_field32 hi
  refine ⟨hsize.unnest.stops (by omega), fun size hs => ?_⟩
  have hversion := hsize.past_field32 hs
  refine ⟨hversion.unnest.stops (by omega), fun version hv => ?_⟩
  exact (hversion.past_field32 hv).truncated

/-- Settles O45: the header, the offset, the type tag, the bounds, three fields of zeros, the digest, the three
fields that are only reported. -/
theorem ctrVerifyChecksInOrder : Obligations.CtrVerifyChecksInOrder := by
  refine ⟨by decide, fun s => ⟨ctrCommand_verify.unwritten, ctrCommand_verify.notAdmitted, fun p len h0 h1 =>
    ⟨ctrCommand_verify.rangeWrap h0 h1, fun hf => ?_⟩⟩⟩
  have h := ctrCommand_verify.left h0 h1 hf
  refine ⟨h.magic_short, h.magic_stops, fun _ => h.magic_wrong, h.sigOff_short, h.sigOff_stops,
    fun so hm h12 hso hne => ?_, fun hm h12 hso => ?_, fun t size hb => ?_⟩
  · exact (h.past_header hm h12 hso).check_fails (beq_eq_false_iff_ne.mpr hne)
  · have htype := (h.past_header hm h12 hso).past_check rfl
    refine ⟨htype.type_short, htype.type_stops, fun _ => htype.type_wrong, fun t hin ht => ?_⟩
    have hbounds := htype.past_type hin ht
    refine ⟨hbounds.truncated, fun hinfo => ?_⟩
    have hsize := hbounds.past (need_of_le hinfo)
    rw [infoSize] at hinfo
    exact ⟨hsize.unnest.stops (by omega), fun size hs => (hsize.past_field32 hs).truncated⟩
  · obtain ⟨hm, h12, hso, hin, ht, hinfo, hs, hbody⟩ := hb
    have hbounds := ((h.past_header hm h12 hso).past_check rfl).past_type hin ht
    have hpad := ((hbounds.past (need_of_le hinfo)).past_field32 hs).past (need_of_le hbody)
    have hio := infoOff_eq t
    rw [infoSize] at hinfo
    obtain ⟨hstops, hnonzero, hzero⟩ := hpad.zeros (by omega) (Nat.add_assoc _ 0x24 _)
    refine ⟨hstops, hnonzero, fun hz => ?_⟩
    obtain ⟨hstops, hnonzero, hzero⟩ := (hzero hz).zeros (by omega) rfl
    refine ⟨hstops, hnonzero, fun hz => ?_⟩
    obtain ⟨hstops, hnonzero, hzero⟩ := (hzero hz).zeros (by omega) (Nat.add_assoc _ (t.infoOff + 0x14) _)
    refine ⟨hstops, hnonzero, fun hz => ?_⟩
    have hdata := hzero hz
    refine ⟨hdata.stops hbody, fun body hl hr => ?_⟩
    have hstored := hdata.past_field hr hl
    refine ⟨hstored.stops (by omega), fun hash hl hr => ?_⟩
    have hdigest := hstored.past_field hr hl
    refine ⟨fun hne => hdigest.check_fails (beq_eq_false_iff_ne.mpr hne.symm), fun heq => ?_⟩
    have hdevice := hdigest.past_check (beq_iff_eq.mpr heq.symm)
    refine ⟨hdevice.unnest.stops (by omega), fun device hd => ?_⟩
    have hinfoType := hdevice.past_field32 hd
    refine ⟨hinfoType.unnest.stops (by omega), fun infoType hi => ?_⟩
    have hversion := hinfoType.past_field32 hi
    exact ⟨hversion.unnest.stops (by omega), fun version hv => (hversion.past_field32 hv).accepted rfl⟩

/-- Settles O46: a validator command that neither faults nor ends with OK has rejected its container. -/
theorem ctrFailureClearsResults : Obligations.CtrFailureClearsResults := by
  intro i s t hi h _ hfault hstatus j
  obtain ⟨checks, hcmd⟩ : ∃ checks, CtrCommand i checks := by
    rcases hi with rfl | rfl
    · exact ⟨_, ctrCommand_parse⟩
    · exact ⟨_, ctrCommand_verify⟩
  rw [hcmd.exec_eq] at h
  rcases ctr_next h with hr | ⟨_, _, -, -, rfl⟩ | ⟨_, c, -, -, rfl⟩
  · exact absurd hfault hr.fault_ne_none
  · exact absurd rfl hstatus
  · have hres : (s.clearRes.finish c).res[j] = none := by simp
    exact ⟨hres, fun hw => (takeAction_portRd hw _).trans
      (portRead_raise (r := .res j) (written_eq_error.mpr ⟨hres, rfl⟩))⟩

/-! ### Another memory -/

section OtherMemory

variable {s : State} {m : Memory} {b : Buffer} {i : Instr} {t : SigType}

theorem bind_congr_ok {ε α β : Type} {x y : Except ε α} {f g : α → Except ε β} (h : x = y)
    (hf : ∀ a, y = .ok a → f a = g a) : x >>= f = y >>= g := by
  subst h
  cases x with
  | ok a => exact hf a rfl
  | error e => rfl

theorem Memory.read_congr {m m' : Memory} {n a : Nat} (h : ∀ x, a ≤ x → x < a + n → m.get x = m'.get x) :
    m.read a n = m'.read a n := by
  induction n generalizing a with
  | zero => rfl
  | succ n ih =>
    rw [Memory.read, Memory.read, h a (Nat.le_refl a) (by omega), ih fun x hl hu => h x (by omega) (by omega)]

/-- The outcome with the given memory in its next state. -/
def Result.withMem (m : Memory) : Result → Result
  | .next u => .next (u.withMem m)
  | .fault f => .fault f
  | .refused r => .refused r

theorem ctrFinish_withMem (s : State) (m : Memory) (r : Except CtrStop CtrInfo) :
    (s.withMem m).complete ((s.withMem m).ctrFinish r) = Result.withMem m (s.complete (s.ctrFinish r)) := by
  rcases r with (c | k | _) | info <;> rfl

/-- A validator command whose checks do not see the change of memory has the same outcome, memory apart. -/
theorem CtrCommand.exec_withMem {checks : Buffer → State → Except CtrStop CtrInfo} (h : CtrCommand i checks)
    (hs : ∀ b, s.ctrBuffer = .ok b → checks b (s.withMem m) = checks b s)
    (hc : ∀ b, s.ctrBuffer = .ok b → checks b (s.coherent.withMem m) = checks b s.coherent) :
    exec i (s.withMem m) = Result.withMem m (exec i s) := by
  have hbuf : (s.withMem m).ctrBuffer = s.ctrBuffer := rfl
  rw [h.exec_eq, h.exec_eq, hbuf]
  cases hb : s.ctrBuffer with
  | error e => cases e <;> rfl
  | ok b =>
    have hcoh : (s.withMem m).coherent = s.coherent.withMem m := rfl
    have hrun : (s.withMem m).ctrRun (checks b) = s.ctrRun (checks b) := by
      rw [State.ctrRun, State.ctrRun, hcoh, hs b hb, hc b hb]
    rw [ok_bind', ok_bind', hrun]
    exact ctrFinish_withMem s m _

/-- The memory m is that of the state but for the signature of type t of a container at p (44_container.md R402). -/
def State.SameButSignature (s : State) (m : Memory) (p : Nat) (t : SigType) : Prop :=
  ∀ a, a < p + 0x24 ∨ p + 0x24 + t.sigLen ≤ a → m.get a = s.mem.get a

theorem State.SameButSignature.field (h : s.SameButSignature m b.addr t) {off n : Nat}
    (ho : off + n ≤ 0x24 ∨ 0x24 + t.sigLen ≤ off) : (s.withMem m).field b off n = s.field b off n := by
  have hread : m.read (b.addr + off) n = s.mem.read (b.addr + off) n :=
    Memory.read_congr fun x hl hu => h x (by omega)
  simp only [State.field, State.hostRead, State.fetch, State.withMem_mem, State.withMem_coh, hread]

theorem State.SameButSignature.field32 (h : s.SameButSignature m b.addr t) {off : Nat}
    (ho : off + 4 ≤ 0x24 ∨ 0x24 + t.sigLen ≤ off) : (s.withMem m).field32 b off = s.field32 b off :=
  bind_congr_ok (h.field ho) fun _ _ => rfl

theorem State.SameButSignature.ctrHeader (h : s.SameButSignature m b.addr t) :
    (s.withMem m).ctrHeader b = s.ctrHeader b :=
  bind_congr_ok rfl fun _ _ => bind_congr_ok (h.field (by omega)) fun _ _ => bind_congr_ok rfl fun _ _ =>
    bind_congr_ok rfl fun _ _ => h.field32 (by omega)

theorem State.SameButSignature.ctrType (h : s.SameButSignature m b.addr t) {so : Nat} (hso : so + 4 ≤ 0x24) :
    (s.withMem m).ctrType b so = s.ctrType b so :=
  bind_congr_ok rfl fun _ _ => bind_congr_ok (h.field32 (.inl hso)) fun _ _ => rfl

/-- The type tag in memory is the type that the command finds. -/
theorem ctrType_of_holds (ht : s.Holds (b.addr + 0x20) (toLE 4 t.tag)) {t' : SigType}
    (h : s.ctrType b 0x20 = .ok t') : t' = t := by
  obtain ⟨-, hlt, -, ht', -⟩ := ctrType_eq_ok.mp h
  have hle : toLE 4 t'.tag = toLE 4 t.tag := Except.ok.inj
    ((State.fetch_holds (toLE_length 4 _) ht').symm.trans (State.fetch_holds (toLE_length 4 _) ht))
  have hlt' : t.tag < 256 ^ 4 := by cases t <;> decide
  have htag : t'.tag = t.tag := by rw [← leVal_toLE 4 t'.tag hlt, hle, leVal_toLE 4 t.tag hlt']
  exact Option.some.inj (by rw [← ofTag_tag, htag, ofTag_tag])

/-- CTR.VERIFY reads up to the type tag, and from the signature padding on (R402). -/
theorem State.SameButSignature.verifyContainer (h : s.SameButSignature m b.addr t)
    (ht : s.Holds (b.addr + 0x20) (toLE 4 t.tag)) : (s.withMem m).verifyContainer b = s.verifyContainer b :=
  bind_congr_ok h.ctrHeader fun so _ => bind_congr_ok rfl fun _ hso => by
    obtain rfl : so = 0x20 := beq_iff_eq.mp (check_eq_ok.mp hso)
    refine bind_congr_ok (h.ctrType (by decide)) fun t' ht' => ?_
    obtain rfl := ctrType_of_holds ht ht'
    have hio := infoOff_eq t'
    exact bind_congr_ok rfl fun _ _ => bind_congr_ok (h.field32 (by omega)) fun _ _ =>
      bind_congr_ok rfl fun _ _ => bind_congr_ok (h.field (by omega)) fun _ _ =>
      bind_congr_ok rfl fun _ _ => bind_congr_ok (h.field (by omega)) fun _ _ =>
      bind_congr_ok rfl fun _ _ => bind_congr_ok (h.field (by omega)) fun _ _ =>
      bind_congr_ok rfl fun _ _ => bind_congr_ok (h.field (by omega)) fun _ _ =>
      bind_congr_ok (h.field (by omega)) fun _ _ => bind_congr_ok rfl fun _ _ =>
      bind_congr_ok (h.field32 (by omega)) fun _ _ => bind_congr_ok (h.field32 (by omega)) fun _ _ =>
      bind_congr_ok (h.field32 (by omega)) fun _ _ => rfl

end OtherMemory

/-- Settles O47: no read of CTR.VERIFY touches the signature, in either pass. -/
theorem ctrVerifyIgnoresSignature : Obligations.CtrVerifyIgnoresSignature := by
  intro s p t m hp ht hm
  have hbuf : ∀ b, s.ctrBuffer = .ok b → b.addr = p.toNat := by
    intro b hb
    obtain ⟨q, len, hq, -, -, rfl⟩ := ctrBuffer_eq_ok.mp hb
    cases hp.symm.trans hq
    rfl
  have hexec : exec .ctrVerify (s.withMem m) = Result.withMem m (exec .ctrVerify s) := by
    refine ctrCommand_verify.exec_withMem (fun b hb => ?_) (fun b hb => ?_)
    · rw [← hbuf b hb] at ht hm
      exact State.SameButSignature.verifyContainer hm ht
    · rw [← hbuf b hb] at ht hm
      exact State.SameButSignature.verifyContainer (s := s.coherent) hm ht
  exact ⟨fun u hu => by rw [hu] at hexec; exact hexec, fun f hf => by rw [hf] at hexec; exact hexec⟩

end Sys2Proof.Machine

/-! # Proofs: the single statements of 45_host_protocols.md

An interruption, the wait for the user and the choice of a slot are read off their definitions; the validity of a
record comes from the CRC and the little-endian fields, and the NAND contract from what every action keeps of a
page that is known. -/

namespace Sys2Proof.Machine

/-! ### Interruption and confirmation -/

/-- Settles O51, part after part of the interrupted state. -/
theorem interruptEffect : Obligations.InterruptEffect := by
  intro s cells nb
  refine ⟨rfl, rfl, fun hb => ?_, fun a d hb hp => ?_, fun q => ?_, fun next later hr => ?_, rfl⟩
  · show s.dev.interruptedWords _ = _
    simp only [Device.interruptedWords, hb]
  · refine ⟨(Config.draw (s.draws + 3)).setWidth 16, ?_⟩
    show s.dev.interruptedWords _ = _
    simp only [Device.interruptedWords, hb, hp]
  · show q ∈ nandInterrupted nb s.nand ↔ _
    cases nb with
    | none => simp [nandInterrupted]
    | some b => simp [nandInterrupted, mem_nandForget, eq_comm]
  · simp [State.interrupt, hr]

theorem takeAction_of_waiting {s : State} {a : Action} (hw : s.waiting = true) (ha : a.byHost = true) :
    takeAction a s = .fault .hostWaiting := by
  cases a with
  | devComplete => cases ha
  | interrupt cells nb => cases ha
  | userEvent e => cases ha
  | _ => simp only [takeAction, hw, if_true]

/-- Settles O55: the action is the host's, or it is one of the three that are excluded. -/
theorem userConfirmation : Obligations.UserConfirmation := by
  refine fun s => ⟨fun hw => ?_, fun hw a hd hi hu => ?_, fun e hw => ?_, fun e hw => ?_, fun _ _ => rfl,
    fun hw => ?_⟩
  · exact takeAction_host hw (by simp) (by simp) (by simp)
  · refine takeAction_of_waiting hw ?_
    cases a with
    | devComplete => exact absurd rfl hd
    | interrupt cells nb => exact absurd rfl (hi cells nb)
    | userEvent e => exact absurd rfl (hu e)
    | _ => rfl
  · simp only [takeAction, userStep, hw, if_true]
  · simp only [takeAction, userStep, hw, Bool.false_eq_true, if_false]
  · exact takeAction_host hw (by simp) (by simp) (by simp)

/-! ### Records -/

theorem recValid_iff (r : List Byte) :
    recValid r = true ↔ leVal ((r.drop 12).take 4) = (crc32 (r.take 12)).toNat := beq_iff_eq

theorem recValid_eq_false_iff (r : List Byte) :
    recValid r = false ↔ ¬ leVal ((r.drop 12).take 4) = (crc32 (r.take 12)).toNat := by
  rw [← recValid_iff, Bool.not_eq_true]

/-- Settles O56: the validity of the two records, then their versions. -/
theorem slotSelection : Obligations.SlotSelection := by
  intro r0 r1 bit v0 v1 version0 version1
  have hsel : selectSlot r0 r1 bit = chooseSlot (recValid r0) (recValid r1) version0 version1 bit := rfl
  rw [hsel]
  refine ⟨fun h0 h1 => ?_, fun h0 h1 => ?_, fun h0 h1 => ?_, fun h0 h1 h => ?_, fun h0 h1 h => ?_,
    fun h0 h1 h => ?_⟩
  · rw [(recValid_eq_false_iff r0).mpr h0, (recValid_eq_false_iff r1).mpr h1]
    rfl
  · rw [(recValid_iff r0).mpr h0, (recValid_eq_false_iff r1).mpr h1]
    rfl
  · rw [(recValid_eq_false_iff r0).mpr h0, (recValid_iff r1).mpr h1]
    rfl
  · rw [(recValid_iff r0).mpr h0, (recValid_iff r1).mpr h1]
    exact if_pos h
  · rw [(recValid_iff r0).mpr h0, (recValid_iff r1).mpr h1]
    exact (if_neg (Nat.lt_asymm h)).trans (if_pos h)
  · rw [(recValid_iff r0).mpr h0, (recValid_iff r1).mpr h1]
    exact (if_neg (by omega)).trans (if_neg (by omega))

section Records

variable {fields sum : List Byte}

/-- A record is its fields and its checksum. -/
theorem recValid_append (hf : fields.length = 12) (hs : sum.length = 4) :
    recValid (fields ++ sum) = true ↔ leVal sum = (crc32 fields).toNat := by
  rw [recValid_iff, List.drop_left' hf, List.take_left' hf, List.take_of_length_le (Nat.le_of_eq hs)]

/-- A record whose checksum is the CRC of its fields is valid (45_host_protocols.md R441, R453). -/
theorem recValid_crc (hf : fields.length = 12) : recValid (fields ++ toLE 4 (crc32 fields).toNat) = true :=
  (recValid_append hf (toLE_length 4 _)).mpr (leVal_toLE 4 _ (crc32 fields).isLt)

/-- A zeroed checksum is valid only by accident (R452). -/
theorem recValid_zeroed (hf : fields.length = 12) :
    recValid (fields ++ [0#8, 0#8, 0#8, 0#8]) = true ↔ crc32 fields = 0#32 := by
  rw [recValid_append hf rfl]
  constructor
  · intro h
    exact BitVec.eq_of_toNat_eq h.symm
  · intro h
    rw [h]
    rfl

/-- The CRC of the fields changes with any one of their bytes (40_crc.md R204). -/
theorem crc32_set_ne {bs : List Byte} {i : Nat} {x : Byte} (hi : i < bs.length) (hx : bs[i] ≠ x) :
    crc32 (bs.set i x) ≠ crc32 bs := by
  have hsplit : bs = bs.take i ++ bs[i] :: bs.drop (i + 1) := by
    rw [← List.drop_eq_getElem_cons hi, List.take_append_drop]
  rw [List.set_eq_take_append_cons_drop, if_pos hi]
  conv_rhs => rw [hsplit]
  exact crcDetectsOneWrongByte _ _ _ _ hx.symm

/-- A change of one byte of the fields makes a valid record invalid: its checksum stays, its CRC does not. -/
theorem recValid_set {r : List Byte} {i : Nat} {x : Byte} (hl : r.length = 16) (hi : i < 12)
    (hx : r[i]? ≠ some x) (hv : recValid r = true) : recValid (r.set i x) = false := by
  have hir : i < (r.take 12).length := by rw [List.length_take]; omega
  have hne : (r.take 12)[i] ≠ x := fun h => hx (by
    rw [← h, List.getElem_take, List.getElem?_eq_getElem])
  rw [recValid_iff] at hv
  rw [recValid_eq_false_iff, List.drop_set_of_lt hi, hv, List.take_set]
  exact fun h => crc32_set_ne hir hne (BitVec.eq_of_toNat_eq h.symm)

theorem leVal_half (v : Half) : leVal (toLE 2 v.toNat) = v.toNat := leVal_toLE 2 _ v.isLt

/-- The low twelve bits of a block code are the index, bit 12 is the bank (R455). -/
theorem recBlock_of_code (code : Half) (rest : List Byte) :
    recBlock (toLE 2 code.toNat ++ rest) = { bank := code.getLsbD 12, index := code.setWidth 12 } := by
  rw [recBlock, recBlockCode, List.take_left' (toLE_length 2 _), leVal_half, BitVec.ofNat_toNat]
  rfl

theorem recVersion_of_version {first : List Byte} (hl : first.length = 2) (version : Half) (rest : List Byte) :
    recVersion (first ++ toLE 2 version.toNat ++ rest) = version.toNat := by
  rw [recVersion, List.append_assoc, List.drop_left' hl, List.take_left' (toLE_length 2 _), leVal_half]

end Records

/-- Settles O57: the fields and the checksum apart, then the one wrong byte, then the values reported. -/
theorem recordValidity : Obligations.RecordValidity :=
  ⟨fun _ => recValid_crc, fun _ => recValid_zeroed, fun _ _ _ => recValid_set, fun code version rest =>
    ⟨recVersion_of_version (toLE_length 2 _) version rest, by
      rw [List.append_assoc]
      exact recBlock_of_code code _⟩⟩

/-! ### The NAND contract -/

section NandContract

variable {s t u : State} {b : NandBlock} {page : Nat} {a : Action}

/-- An action that does not disturb a block leaves what is known of its pages (45_host_protocols.md R470). -/
theorem takeAction_nandKnown (ha : a.disturbs b = false) (h : takeAction a s = .next t) :
    nandKnown b page t.nand = nandKnown b page s.nand := by
  rcases takeAction_next h with ⟨k, rfl⟩ | ⟨w, i, -, -, -, h⟩ | ⟨r, rfl⟩ | ⟨addr, bs, -, -, -, rfl⟩ |
    ⟨i, v, -, rfl⟩ | ⟨-, rfl⟩ | ⟨c, ok, rfl, rfl⟩ | ⟨c, page, data, spare, ok, rfl, -, h⟩ |
    ⟨c, page, dst, r, bytes, -, -, h⟩ | rfl | ⟨-, -, rfl⟩ | ⟨m, nb, rfl, rfl⟩ | ⟨e, -, rfl⟩ |
    ⟨r, -, ⟨k, rfl⟩ | ⟨v, rfl⟩⟩
  case inl => rfl
  · obtain ⟨⟨-, -, hnand, -⟩, -⟩ := unitsKeepToTheirState i s t h
    rw [hnand]
  · rfl
  · rfl
  · rfl
  · rfl
  · exact nandKnown_forget b c page (by simpa [Action.disturbs] using ha)
  · have hc : c ≠ b := by simpa [Action.disturbs] using ha
    rcases nandWrite_eq_ok h with rfl | ⟨_, _, -, -, -, -, rfl⟩
    · exact nandKnown_forget b c _ hc
    · exact (nandKnown_learn_other b _ _ hc).trans (nandKnown_forget b c _ hc)
  · rcases nandRead_eq_ok h with ⟨-, _, -, -, -, rfl⟩ | ⟨-, rfl⟩ <;> rfl
  · rfl
  · rfl
  · cases nb with
    | none => rfl
    | some c => exact nandKnown_forget b c _ (by simpa [Action.disturbs] using ha)
  · split <;> rfl
  · cases r <;> rfl
  · cases r <;> rfl

theorem takeAll_nandKnown {actions : List Action} (ha : ∀ a ∈ actions, a.disturbs b = false)
    (h : takeAll actions s = .next t) : nandKnown b page t.nand = nandKnown b page s.nand := by
  induction actions generalizing s with
  | nil => cases h; rfl
  | cons a actions ih =>
    rw [List.forall_mem_cons] at ha
    rw [takeAll] at h
    cases hs : takeAction a s with
    | fault f => rw [hs] at h; cases h
    | refused r => rw [hs] at h; cases h
    | next u =>
      rw [hs] at h
      have hu := takeAction_nandKnown (page := page) ha.1 hs
      dsimp only at h
      split at h
      · exact (ih ha.2 h).trans hu
      · cases h
        exact hu

/-- A write of a page's data that returns OK makes it known. -/
theorem takeAction_nandWrite_known {src : Nat} {spare : Option Nat} {data : List Byte}
    (hw : s.waiting = false) (hl : data.length = 2048) (hr : s.HostReads src data)
    (h : takeAction (.nandWrite b page (some src) spare true) s = .next t) (hf : t.fault = none)
    (hp : page < s.par.pagesPerBlock) : nandKnown b page t.nand = some data := by
  rw [takeAction_host hw (by simp) (by simp) (by simp)] at h
  simp only [hostStep, nandPage, if_pos hp] at h
  rcases complete_next_cases h with ⟨k, rfl⟩ | h
  · simp at hf
  · have hread : s.hostRead src pageSize = .ok data := State.hostRead_of_reads hr hl
    simp only [State.nandWrite, bind_eq_ok, State.optRead, hread, Except.map, pure_ok', Except.ok.injEq,
      exists_eq_left', if_true] at h
    obtain ⟨_, -, rfl⟩ := h
    exact nandKnown_learn ⟨b, page, data⟩ fun q hq => (mem_nandForget.mp hq).2

/-- A read that returns OK of a page that is known stores its data. -/
theorem takeAction_nandRead_known {dst : Nat} {junk data : List Byte} (hp : page < s.par.pagesPerBlock)
    (hk : nandKnown b page s.nand = some data)
    (h : takeAction (.nandRead b page dst .ok junk) s = .next t) (hf : t.fault = none) :
    t.reply = .nand .ok ∧ Stored s.mem t.mem dst data := by
  cases hw : s.waiting with
  | true => rw [takeAction_of_waiting hw rfl] at h; cases h
  | false =>
    rw [takeAction_host hw (by simp) (by simp) (by simp)] at h
    simp only [hostStep, nandPage, if_pos hp] at h
    rcases complete_next_cases h with ⟨k, rfl⟩ | h
    · simp at hf
    · rcases nandRead_eq_ok h with ⟨-, bs, rfl, -, -, rfl⟩ | ⟨hne, -⟩
      · rw [hk]
        exact ⟨rfl, stored_write s.mem dst data⟩
      · exact absurd rfl hne

theorem markRead_par (s : State) (r : PortReg) : (s.markRead r).par = s.par := by
  cases r <;> rfl

/-- The parameters are constants (00_scope.md R9). -/
theorem takeAction_par (h : takeAction a s = .next t) : t.par = s.par := by
  rcases takeAction_next h with ⟨k, rfl⟩ | ⟨w, i, -, -, -, h⟩ | ⟨r, rfl⟩ | ⟨addr, bs, -, -, -, rfl⟩ |
    ⟨i, v, -, rfl⟩ | ⟨-, rfl⟩ | ⟨c, ok, -, rfl⟩ | ⟨c, page, data, spare, ok, -, -, h⟩ |
    ⟨c, page, dst, r, bytes, -, -, h⟩ | rfl | ⟨-, -, rfl⟩ | ⟨m, nb, -, rfl⟩ | ⟨e, -, rfl⟩ |
    ⟨r, -, ⟨k, rfl⟩ | ⟨v, rfl⟩⟩
  case inl => rfl
  · obtain ⟨⟨-, hpar, -⟩, -⟩ := unitsKeepToTheirState i s t h
    exact hpar
  · rfl
  · rfl
  · rfl
  · rfl
  · rfl
  · rcases nandWrite_eq_ok h with rfl | ⟨_, _, -, -, -, -, rfl⟩ <;> rfl
  · rcases nandRead_eq_ok h with ⟨-, _, -, -, -, rfl⟩ | ⟨-, rfl⟩ <;> rfl
  · rfl
  · rfl
  · rfl
  · split <;> rfl
  · exact markRead_par s r
  · exact markRead_par s r

theorem takeAll_par {actions : List Action} (h : takeAll actions s = .next t) : t.par = s.par := by
  induction actions generalizing s with
  | nil => cases h; rfl
  | cons a actions ih =>
    rw [takeAll] at h
    cases hs : takeAction a s with
    | fault f => rw [hs] at h; cases h
    | refused r => rw [hs] at h; cases h
    | next u =>
      rw [hs] at h
      dsimp only at h
      split at h
      · exact (ih h).trans (takeAction_par hs)
      · cases h
        exact takeAction_par hs

end NandContract

/-- Settles O54: the write makes the page known, what lies between keeps it known, the read stores it. -/
theorem nandDeliversWrittenPage : Obligations.NandDeliversWrittenPage := by
  intro b page src dst spare data junk between s t u v _ hw hp hl hr ht htf hb hu _ hv hvf
  have hknown : nandKnown b page u.nand = some data :=
    (takeAll_nandKnown hb hu).trans (takeAction_nandWrite_known hw hl hr ht htf hp)
  have hpar : u.par = s.par := (takeAll_par hu).trans (takeAction_par ht)
  exact takeAction_nandRead_known (hpar ▸ hp) hknown hv hvf

end Sys2Proof.Machine

/-! # Proofs: programs under every schedule

What a host program does whatever the schedule: a condition on the machine and on the events so far that holds
before it, where it returns and where it ends. The rules follow the program; a program built from simple actions
has two more: it keeps what each of its actions keeps, and where the device is never busy it does what it does
alone. -/

namespace Sys2Proof.Machine

/-! ### Conditions on a run in progress -/

/-- A condition on the machine and on the events so far. -/
abbrev Stage := State → List Event → Prop

section Rules

variable {α β : Type} {P P' : Stage} {Q Q' : α → Stage} {E E' : Ending → Stage}

/-- Begun where P holds, the program returns only where Q holds and ends otherwise only where E holds, whatever the
schedule. -/
def Drv.Always (P : Stage) (x : Drv α) (Q : α → Stage) (E : Ending → Stage) : Prop :=
  ∀ r : Run, P r.state r.trace →
    match x.out r with
    | (.ok a, r') => Q a r'.state r'.trace
    | (.error i, r') => E i r'.state r'.trace

theorem Drv.Always.pure {Q : α → Stage} (a : α) : Drv.Always (Q a) (Pure.pure a) Q E := fun _ h => h

theorem Drv.Always.throw {i : Ending} {Q : α → Stage} : Drv.Always (E i) (throw i) Q E := fun _ h => h

theorem Drv.Always.bind {x : Drv α} {f : α → Drv β} {R : β → Stage} (hx : Drv.Always P x Q E)
    (hf : ∀ a, Drv.Always (Q a) (f a) R E) : Drv.Always P (x >>= f) R E := by
  intro r hr
  have h1 := hx r hr
  rw [Drv.out_bind]
  rcases hout : x.out r with ⟨i | a, r'⟩ <;> rw [hout] at h1
  · exact h1
  · exact hf a r' h1

theorem Drv.Always.mono {x : Drv α} (hx : Drv.Always P x Q E) (hP : ∀ s tr, P' s tr → P s tr)
    (hQ : ∀ a s tr, Q a s tr → Q' a s tr) : Drv.Always P' x Q' E := by
  intro r hr
  have h := hx r (hP _ _ hr)
  rcases hout : x.out r with ⟨i | a, r'⟩ <;> rw [hout] at h
  · exact h
  · exact hQ _ _ _ h

theorem Drv.Always.pre {x : Drv α} (hx : Drv.Always P x Q E) (hP : ∀ s tr, P' s tr → P s tr) :
    Drv.Always P' x Q E := hx.mono hP fun _ _ _ h => h

theorem Drv.Always.post {x : Drv α} (hx : Drv.Always P x Q E) (hQ : ∀ a s tr, Q a s tr → Q' a s tr) :
    Drv.Always P x Q' E := hx.mono (fun _ _ h => h) hQ

/-- What holds from every state and trace of the condition, one by one. -/
theorem Drv.Always.of_each {x : Drv α}
    (h : ∀ s tr, P s tr → Drv.Always (fun s' tr' => s' = s ∧ tr' = tr) x Q E) : Drv.Always P x Q E :=
  fun r hr => h _ _ hr r ⟨rfl, rfl⟩

theorem Drv.Always.exists {ι : Type} {P : ι → Stage} {x : Drv α} (h : ∀ i, Drv.Always (P i) x Q E) :
    Drv.Always (fun s tr => ∃ i, P i s tr) x Q E := fun _ ⟨i, hr⟩ => h i _ hr

theorem Drv.Always.turn (P : Stage) (E : Ending → Stage) : Drv.Always P Drv.turn (fun _ => P) E := by
  rintro ⟨s, _ | ⟨e, rest⟩, tr⟩ hr <;> exact hr

/-- The parameters, which the condition knows. -/
theorem Drv.Always.par {p : Params} {f : Params → Drv α} (hp : ∀ s tr, P s tr → s.par = p)
    (hf : Drv.Always P (f p) Q E) : Drv.Always P (Drv.par >>= f) Q E := by
  intro r hr
  have hout : (Drv.par >>= f).out r = (f p).out r := by
    rw [← hp _ _ hr]
    rfl
  rw [hout]
  exact hf r hr

theorem Drv.Always.mark {Q : Unit → Stage} {e : Event} (h : ∀ s tr, P s tr → Q () s (tr ++ [e])) :
    Drv.Always P (Drv.mark e) Q E := fun _ hr => h _ _ hr

/-- A host program under the name by which the statements run it. -/
theorem Drv.Always.run {x : Drv α} (hx : Drv.Always P x Q E) {r r' : Run} {i : Ending} (hr : P r.state r.trace)
    (h : x.run r = (.error i, r')) : E i r'.state r'.trace := by
  have := hx r hr
  rw [show x.out r = _ from h] at this
  exact this

/-! ### Steps of the other agents -/

/-- The step is an interruption. -/
def OtherStep.cuts : OtherStep → Bool
  | .interrupt _ _ => true
  | .devComplete | .userEvent _ => false

/-- The condition survives the steps of the device and the user, and E holds where an interruption or a step that
does not exist ends the program. -/
structure Steady (P : Stage) (E : Ending → Stage) : Prop where
  other : ∀ {s t : State} {tr : List Event} {o : OtherStep}, P s tr → s.fault = none → o.cuts = false →
    takeAction o.action s.fresh = .next t → P t (tr ++ [.took o.action t.reply])
  cut : ∀ {s : State} {tr : List Event} (cells : List Host.Cell) (nb : Option NandBlock), P s tr → s.fault = none →
    E .interrupted (s.fresh.interrupt cells nb) (tr ++ [.took (.interrupt cells nb) .nothing])
  stuck : ∀ {s : State} {tr : List Event} {i : Ending}, P s tr → i ≠ .interrupted → E i s tr

/-- The step from s to t has left a mark. -/
def Marks (s t : State) : Prop := t.fault ≠ none ∨ (t.refused = true ∧ s.refused = false)

theorem fault_of_not_marks {s t : State} (h : ¬ Marks s t) : t.fault = none := by
  by_contra hf
  exact h (.inl hf)

/-- One step: it is stuck, or it is the action's next state, with or without a mark. -/
theorem Drv.Always.take {a : Action} {Q : Reply → Stage}
    (hstuck : ∀ {s : State} {tr : List Event} {i : Ending}, P s tr → i ≠ .interrupted → E i s tr)
    (hok : ∀ {s t : State} {tr : List Event}, P s tr → s.fault = none → takeAction a s.fresh = .next t →
      ¬ Marks s t → Q t.reply t (tr ++ [.took a t.reply]))
    (hbad : ∀ {s t : State} {tr : List Event} {i : Ending}, P s tr → s.fault = none →
      takeAction a s.fresh = .next t → Marks s t → i ≠ .interrupted → E i t (tr ++ [.took a t.reply])) :
    Drv.Always P (Drv.take a) Q E := by
  intro r hr
  rw [Drv.take_out]
  cases hf : r.state.fault with
  | some k =>
    have hstep : stepWith a r.state = .fault (.raised k) := by simp only [stepWith, step, takeStep, hf]
    rw [hstep]
    exact hstuck hr (by simp)
  | none =>
    rw [stepWith_eq hf]
    cases h : takeAction a r.state.fresh with
    | fault f => exact hstuck hr (by simp)
    | refused f => exact hstuck hr (by simp)
    | next t =>
      cases ht : t.fault with
      | some k => simpa only [ht] using hbad hr hf h (.inl (by simp [ht])) (by simp)
      | none =>
        by_cases hm : (t.refused && !r.state.refused) = true
        · simpa only [ht, hm, if_true] using hbad hr hf h (.inr (by simpa using hm)) (by simp)
        · have hn : ¬ Marks r.state t := by
            rintro (h' | ⟨h1, h2⟩)
            · exact h' ht
            · exact hm (by simp [h1, h2])
          simpa only [ht, if_neg hm] using hok hr hf h hn

/-- An interruption leaves no mark. -/
theorem not_marks_interrupt {s : State} (hf : s.fault = none) (cells : List Host.Cell) (nb : Option NandBlock) :
    ¬ Marks s (s.fresh.interrupt cells nb) := by
  rintro (h | ⟨h, h'⟩)
  · exact h hf
  · exact Bool.false_ne_true (h'.symm.trans h)

/-- The steps of the other agents before an action. -/
theorem Drv.Always.events (hP : Steady P E) (os : List OtherStep) :
    Drv.Always P (Drv.events os) (fun _ => P) E := by
  induction os with
  | nil => exact .pure (Q := fun _ => P) ()
  | cons o os ih =>
    cases o with
    | interrupt cells nb =>
      refine Drv.Always.bind (Q := fun _ => E .interrupted) (.take hP.stuck ?_ ?_) fun _ => .throw
      · intro s t tr hs hf h _
        cases h
        exact hP.cut cells nb hs hf
      · intro s t tr i hs hf h hm
        cases h
        exact absurd hm (not_marks_interrupt hf cells nb)
    | devComplete =>
      exact Drv.Always.bind (Q := fun _ => P) (.take hP.stuck (fun hs hf h _ => hP.other hs hf rfl h)
        fun hs hf h _ => hP.stuck (hP.other hs hf rfl h)) fun _ => ih
    | userEvent e =>
      exact Drv.Always.bind (Q := fun _ => P) (.take hP.stuck
        (fun hs hf h _ => hP.other (o := .userEvent e) hs hf rfl h)
        fun hs hf h _ => hP.stuck (hP.other (o := .userEvent e) hs hf rfl h)) fun _ => ih

/-- One action of the host. -/
theorem Drv.Always.act {a : Action} {Q : Reply → Stage} (hP : Steady P E)
    (hok : ∀ {s t : State} {tr : List Event}, P s tr → s.fault = none → takeAction a s.fresh = .next t →
      ¬ Marks s t → Q t.reply t (tr ++ [.took a t.reply]))
    (hbad : ∀ {s t : State} {tr : List Event} {i : Ending}, P s tr → s.fault = none →
      takeAction a s.fresh = .next t → Marks s t → i ≠ .interrupted → E i t (tr ++ [.took a t.reply])) :
    Drv.Always P (Drv.act a) Q E :=
  (Drv.Always.turn P E).bind fun e => (Drv.Always.events hP e.events).bind fun _ => .take hP.stuck hok hbad

/-- One NAND call, which returns what the machine's reply says, or else what the environment said. -/
theorem Drv.Always.nand {a : NandResult → List Byte → Action} {Q : NandResult → Stage} (hP : Steady P E)
    (hok : ∀ {s t : State} {tr : List Event} (r : NandResult) (bytes : List Byte), P s tr → s.fault = none →
      takeAction (a r bytes) s.fresh = .next t → ¬ Marks s t →
      ∃ r', t.reply = .nand r' ∧ Q r' t (tr ++ [.took (a r bytes) (.nand r')]))
    (hbad : ∀ {s t : State} {tr : List Event} {i : Ending} (r : NandResult) (bytes : List Byte), P s tr →
      s.fault = none → takeAction (a r bytes) s.fresh = .next t → Marks s t → i ≠ .interrupted →
      E i t (tr ++ [.took (a r bytes) t.reply])) :
    Drv.Always P (Drv.nand a) Q E := by
  refine (Drv.Always.turn P E).bind fun e => (Drv.Always.events hP e.events).bind fun _ => ?_
  refine Drv.Always.bind (Q := fun v s tr => ∃ r', v = .nand r' ∧ Q r' s tr) (.take hP.stuck ?_ (hbad _ _)) ?_
  · intro s t tr hs hf h ht
    obtain ⟨r', hr', hq⟩ := hok _ _ hs hf h ht
    exact ⟨r', hr', hr' ▸ hq⟩
  · intro v
    refine .exists fun r' => .of_each fun s tr h => ?_
    obtain ⟨rfl, hq⟩ := h
    exact Drv.Always.pre (.pure r') fun _ _ ⟨hs, htr⟩ => hs ▸ htr ▸ hq

/-- The condition M of a host that waits for the user: the device may step, the user's event leads to Q. -/
structure Awaits (M : Stage) (Q : UserEvent → Stage) (E : Ending → Stage) : Prop where
  waiting : ∀ {s : State} {tr : List Event}, M s tr → s.waiting = true
  device : ∀ {s : State} {tr : List Event}, M s tr → s.dev.busy = true →
    M { s.fresh with dev := s.dev.complete } (tr ++ [.took .devComplete .nothing])
  user : ∀ {s : State} {tr : List Event} (u : UserEvent), M s tr →
    Q u { s.fresh with waiting := false, reply := .user u } (tr ++ [.took (.userEvent u) (.user u)])
  cut : ∀ {s : State} {tr : List Event} (cells : List Host.Cell) (nb : Option NandBlock), M s tr → s.fault = none →
    E .interrupted (s.fresh.interrupt cells nb) (tr ++ [.took (.interrupt cells nb) .nothing])
  stuck : ∀ {s : State} {tr : List Event} {i : Ending}, M s tr → i ≠ .interrupted → E i s tr

theorem deviceStep_next {s t : State} (h : deviceStep s = .next t) :
    s.dev.busy = true ∧ t = { s with dev := s.dev.complete } := by
  rw [deviceStep] at h
  split at h
  · next hb => cases h; exact ⟨hb, rfl⟩
  · cases h

theorem takeAction_waitUser {s t : State} (h : takeAction .waitUser s = .next t) :
    s.waiting = false ∧ t = { s with waiting := true } := by
  cases hw : s.waiting with
  | true => rw [takeAction_of_waiting hw rfl] at h; cases h
  | false =>
    rw [takeAction_host hw (by simp) (by simp) (by simp)] at h
    cases h
    exact ⟨rfl, rfl⟩

/-- The events that a waiting host waits through. -/
theorem Drv.Always.awaitUser {M : Stage} {Q : UserEvent → Stage} (hM : Awaits M Q E) (hQ : ∀ u, Steady (Q u) E)
    (os : List OtherStep) : Drv.Always M (Drv.awaitUser os) Q E := by
  induction os with
  | nil => exact Drv.Always.pre .throw fun _ _ h => hM.stuck h (by simp)
  | cons o os ih =>
    cases o with
    | interrupt cells nb =>
      refine Drv.Always.bind (Q := fun _ => E .interrupted) (.take hM.stuck ?_ ?_) fun _ => .throw
      · intro s t tr hs hf h _
        cases h
        exact hM.cut cells nb hs hf
      · intro s t tr i hs hf h hm
        cases h
        exact absurd hm (not_marks_interrupt hf cells nb)
    | devComplete =>
      refine Drv.Always.bind (Q := fun v s tr => v = .nothing ∧ M s tr) (.take hM.stuck ?_ ?_) ?_
      · intro s t tr hs hf h _
        obtain ⟨hb, rfl⟩ := deviceStep_next h
        exact ⟨rfl, hM.device hs hb⟩
      · intro s t tr i hs hf h _
        obtain ⟨hb, rfl⟩ := deviceStep_next h
        exact hM.stuck (hM.device hs hb)
      · intro v r hr
        obtain ⟨rfl, hr⟩ := hr
        exact ih r hr
    | userEvent e =>
      have hstep : ∀ {s t : State} {tr : List Event}, M s tr → takeAction (.userEvent e) s.fresh = .next t →
          t = { s.fresh with waiting := false, reply := .user e } := by
        intro s t tr hs h
        have hw := hM.waiting hs
        simp only [takeAction, userStep, show s.fresh.waiting = true from hw, if_true, Host.Outcome.next.injEq] at h
        exact h.symm
      refine Drv.Always.bind (Q := fun v s tr => v = .user e ∧ Q e s tr) (.take hM.stuck ?_ ?_) ?_
      · intro s t tr hs hf h _
        obtain rfl := hstep hs h
        exact ⟨rfl, hM.user e hs⟩
      · intro s t tr i hs hf h _
        obtain rfl := hstep hs h
        exact (hQ e).stuck (hM.user e hs)
      · intro v r hr
        obtain ⟨rfl, hr⟩ := hr
        exact ((Drv.Always.events (hQ e) os).bind fun _ => .pure e) r hr

/-- The wait for the user: while it lasts the condition M holds. -/
theorem Drv.Always.waitUser {M : Stage} {Q : UserEvent → Stage} (hP : Steady P E) (hM : Awaits M Q E)
    (hQ : ∀ u, Steady (Q u) E)
    (hwait : ∀ {s : State} {tr : List Event}, P s tr → s.waiting = false →
      M { s.fresh with waiting := true } (tr ++ [.took .waitUser .nothing])) :
    Drv.Always P Drv.waitUser Q E := by
  refine Drv.Always.bind (Q := fun _ => M) (.act hP ?_ ?_) fun _ =>
    (Drv.Always.turn M E).bind fun e => .awaitUser hM hQ e.events
  · intro s t tr hs hf h _
    obtain ⟨hw, rfl⟩ := takeAction_waitUser h
    exact hwait hs hw
  · intro s t tr i hs hf h _
    obtain ⟨hw, rfl⟩ := takeAction_waitUser h
    exact hM.stuck (hwait hs hw)

end Rules

/-! ### Programs built from actions -/

/-- The program is built from actions of the given kind, reads of the parameters and draws; it may stop, but not as
an interruption stops it. -/
inductive Drv.Built (ok : Action → Prop) : {α : Type} → Drv α → Prop
  | pure {α : Type} (a : α) : Built ok (Pure.pure a : Drv α)
  | stop {α : Type} {i : Ending} (h : i ≠ .interrupted) : Built ok (throw i : Drv α)
  | act {a : Action} (h : ok a) : Built ok (Drv.act a)
  | par : Built ok Drv.par
  | draw : Built ok Drv.draw
  | bind {α β : Type} {x : Drv α} {f : α → Drv β} (hx : Built ok x) (hf : ∀ a, Built ok (f a)) :
    Built ok (x >>= f)

/-- A load, a store, an access of the port, or an action outside 20_memory.md R100. -/
def Action.simple : Action → Bool
  | .hstLd _ _ | .hstSt _ _ | .portWr _ _ | .portRd _ | .other => true
  | .waitUser | .nandErase _ _ | .nandWrite _ _ _ _ _ | .nandRead _ _ _ _ _ | .devComplete | .interrupt _ _
  | .userEvent _ => false

section Built

variable {α β : Type} {ok ok' : Action → Prop} {x : Drv α} {P : Stage} {E : Ending → Stage}

theorem Drv.Built.mono (hx : Drv.Built ok x) (h : ∀ a, ok a → ok' a) : Drv.Built ok' x := by
  induction hx with
  | pure a => exact .pure a
  | stop hi => exact .stop hi
  | act ha => exact .act (h _ ha)
  | par => exact .par
  | draw => exact .draw
  | bind _ _ ihx ihf => exact .bind ihx ihf

/-- What every action of the program keeps, the program keeps. -/
theorem Drv.Built.keeps (hx : Drv.Built ok x) (hP : Steady P E)
    (hok : ∀ {a : Action} {s t : State} {tr : List Event}, ok a → P s tr → s.fault = none →
      takeAction a s.fresh = .next t → ¬ Marks s t → P t (tr ++ [.took a t.reply]))
    (hbad : ∀ {a : Action} {s t : State} {tr : List Event} {i : Ending}, ok a → P s tr → s.fault = none →
      takeAction a s.fresh = .next t → Marks s t → i ≠ .interrupted → E i t (tr ++ [.took a t.reply]))
    (hdraw : ∀ {s : State} {tr : List Event}, P s tr → P s.draw.2 tr) :
    Drv.Always P x (fun _ => P) E := by
  induction hx with
  | pure a => exact .pure (Q := fun _ => P) a
  | stop hi => exact Drv.Always.pre .throw fun _ _ h => hP.stuck h hi
  | act ha => exact .act hP (fun h => hok ha h) fun h => hbad ha h
  | par => exact fun _ h => h
  | draw => exact fun _ h => hdraw h
  | bind _ _ ihx ihf => exact ihx.bind ihf

/-- What a simple action that completes leaves as it was; a write in progress stays in progress. -/
structure Onward (s t : State) : Prop where
  par : t.par = s.par
  waiting : t.waiting = s.waiting
  nand : t.nand = s.nand
  array : t.dev.array = s.dev.array
  busy : s.dev.busy = true → t.dev.busy = true

theorem Onward.refl (s : State) : Onward s s := ⟨rfl, rfl, rfl, rfl, id⟩

theorem Onward.trans {s t u : State} (h : Onward s t) (h' : Onward t u) : Onward s u :=
  ⟨h'.par.trans h.par, h'.waiting.trans h.waiting, h'.nand.trans h.nand, h'.array.trans h.array,
    fun hb => h'.busy (h.busy hb)⟩

/-! What an instruction does to a write in progress. -/

theorem csRise_busy (d : Device) : d.csRise.busy = d.busy := by
  unfold Device.csRise
  split <;> rfl

theorem csFall_busy {d : Device} (h : d.busy = true) : d.csFall.busy = true := by
  unfold Device.csFall
  dsimp only
  split
  · rfl
  · exact h

theorem react_busy {d e : Device} {i : Instr} (h : d.react i = .ok e) : e.busy = d.busy := by
  rcases react_cases d i with ⟨a, hr⟩ | hr | hr | ⟨a, v, hr⟩ | hr | ⟨hr, -⟩ <;> rw [hr] at h <;> cases h <;>
    rfl

theorem skRecv_busy {d e : Device} {b : Bool} (h : d.skRecv b = .ok e) : e.busy = d.busy := by
  unfold Device.skRecv at h
  split at h
  · cases h; rfl
  · dsimp only at h
    split at h
    · split at h
      · exact (react_busy h).trans rfl
      · cases h; rfl
    · cases h; rfl

theorem skOut_busy (d : Device) : d.skOut.busy = d.busy := by
  unfold Device.skOut
  split <;> rfl

theorem skEdge_busy {d e : Device} {rise di : Bool} (h : d.skEdge rise di = .ok e) : e.busy = d.busy := by
  unfold Device.skEdge at h
  split at h
  · cases h; rfl
  · cases rise
    · cases h; rfl
    · exact skRecv_busy h
  · cases rise
    · cases h; rfl
    · cases h; exact skOut_busy d
  · split at h
    · cases h
    · cases h; rfl

theorem skOutN_busy (n : Nat) (d : Device) : (d.skOutN n).busy = d.busy := by
  induction n generalizing d with
  | zero => rfl
  | succ n ih => exact (ih d.skOut).trans (skOut_busy d)

theorem frameOutcome_busy {s t : State} {n : Nat} {i : Instr} (h : s.frameOutcome n (s.dev.react i) = .next t) :
    t.dev.busy = s.dev.busy := by
  rcases frameOutcome_next h with ⟨k, rfl⟩ | rfl | ⟨-, -, d, hd, rfl⟩ | ⟨-, -, rfl⟩
  · rfl
  · rfl
  · exact react_busy hd
  · exact skOutN_busy n s.dev

/-- No instruction ends a write in progress. -/
theorem exec_busy {s t : State} {i : Instr} (h : exec i s = .next t) (hb : s.dev.busy = true) :
    t.dev.busy = true := by
  by_cases hi : unitOf i = .device
  · obtain ⟨bits, henc⟩ := encode_of_device hi
    rw [exec_frame henc] at h
    exact (frameOutcome_busy h).trans hb
  · by_cases he : unitOf i = .eep
    · cases i with
      | eepSetCs => cases h; show (if _ then _ else _ : Device).busy = true; split <;> simp [csRise_busy, hb]
      | eepClrCs => cases h; show (if _ then _ else _ : Device).busy = true; split <;> simp [csFall_busy, hb]
      | eepSetSk =>
        rcases execEepSetSk_next h with ⟨k, rfl⟩ | ⟨d, hd, rfl⟩
        · exact hb
        · exact (skEdge_busy hd).trans hb
      | eepIn =>
        cases h
        show (State.sample s).2.dev.busy = true
        unfold State.sample
        split <;> exact hb
      | eepSetDi | eepClrSk | eepClrDi | eepDelay => cases h; exact hb
      | _ => cases he
    · obtain ⟨-, -, -, -, hdev, -⟩ := unitsKeepToTheirState i s t h
      rw [hdev he hi]
      exact hb

/-- A simple action goes onward. -/
theorem takeAction_onward {s t : State} {a : Action} (ha : a.simple = true) (h : takeAction a s = .next t) :
    Onward s t := by
  rcases takeAction_next h with ⟨k, rfl⟩ | ⟨w, i, -, -, -, h⟩ | ⟨r, rfl⟩ | ⟨addr, bs, -, -, -, rfl⟩ |
    ⟨i, v, -, rfl⟩ | ⟨rfl, rfl⟩ | ⟨c, ok, rfl, rfl⟩ | ⟨c, page, data, spare, ok, rfl, -, h⟩ |
    ⟨c, page, dst, r, bytes, rfl, -, h⟩ | rfl | ⟨rfl, -, rfl⟩ | ⟨m, nb, rfl, rfl⟩ | ⟨e, rfl, rfl⟩ |
    ⟨r, -, ⟨k, rfl⟩ | ⟨v, rfl⟩⟩
  case inl => exact ⟨rfl, rfl, rfl, rfl, id⟩
  · obtain ⟨⟨-, hpar, hnand, -, -, -, -, hwaiting, harray⟩, -⟩ := unitsKeepToTheirState i s t h
    exact ⟨hpar, hwaiting, hnand, harray, exec_busy h⟩
  · exact ⟨rfl, rfl, rfl, rfl, id⟩
  · exact ⟨rfl, rfl, rfl, rfl, id⟩
  · exact ⟨rfl, rfl, rfl, rfl, id⟩
  · cases ha
  · cases ha
  · cases ha
  · cases ha
  · exact ⟨rfl, rfl, rfl, rfl, id⟩
  · cases ha
  · cases ha
  · cases ha
  · cases r <;> exact ⟨rfl, rfl, rfl, rfl, id⟩
  · cases r <;> exact ⟨rfl, rfl, rfl, rfl, id⟩

/-! ### Alone, and under a schedule -/

/-- Without a schedule an action is a step. -/
theorem Drv.act_alone (a : Action) (s : State) (tr : List Event) :
    (Drv.act a).out ⟨s, [], tr⟩ = (Drv.take a).out ⟨s, [], tr⟩ := by
  rw [Drv.act, Drv.out_bind, Drv.turn_nil]
  rfl

/-- A step to t that leaves no mark, in a program. -/
theorem Drv.take_unmarked {a : Action} {s t : State} (hf : s.fault = none) (h : takeAction a s.fresh = .next t)
    (hm : ¬ Marks s t) (env : List Turn) (tr : List Event) :
    (Drv.take a).out ⟨s, env, tr⟩ = (.ok t.reply, ⟨t, env, tr ++ [.took a t.reply]⟩) := by
  have hr : (t.refused && !s.refused) ≠ true := fun hr => hm (.inr (by simpa using hr))
  rw [Drv.take_out, stepWith_eq hf, h]
  simp only [fault_of_not_marks hm, if_neg hr]

/-- What a program of simple actions does alone: it never waits for a schedule and goes onward, and where it returns
it has left no mark. -/
structure Alone (s t : State) (e : Except Ending α) : Prop where
  ends : e ≠ .error .interrupted
  onward : Onward s t
  fault : ∀ a, e = .ok a → s.fault = none → t.fault = none
  refused : ∀ a, e = .ok a → t.refused = s.refused

theorem Drv.take_alone {a : Action} (ha : a.simple = true) (s : State) (tr : List Event) :
    ∃ e t tr', (Drv.take a).out ⟨s, [], tr⟩ = (e, ⟨t, [], tr'⟩) ∧ Alone s t e := by
  rw [Drv.take_out]
  cases hs : stepWith a s with
  | fault f => exact ⟨_, _, _, rfl, by simp, .refl s, by simp, by simp⟩
  | refused f => exact ⟨_, _, _, rfl, by simp, .refl s, by simp, by simp⟩
  | next t =>
    have h := takeAction_of_stepWith hs
    have hon : Onward s t := (⟨rfl, rfl, rfl, rfl, id⟩ : Onward s s.fresh).trans (takeAction_onward ha h)
    have hrefused : s.refused = true → t.refused = true := (takeAction_marksKept h).2
    dsimp only
    cases ht : t.fault with
    | some k => exact ⟨_, _, _, rfl, by simp, hon, by simp, by simp⟩
    | none =>
      dsimp only
      by_cases hm : (t.refused && !s.refused) = true
      · rw [if_pos hm]
        exact ⟨_, _, _, rfl, by simp, hon, by simp, by simp⟩
      · rw [if_neg hm]
        refine ⟨_, _, _, rfl, by simp, hon, fun _ _ _ => ht, fun _ _ => ?_⟩
        cases hr : s.refused <;> cases hr' : t.refused <;> simp_all

theorem Drv.Built.alone (hx : Drv.Built (fun a => a.simple = true) x) (s : State) (tr : List Event) :
    ∃ e t tr', x.out ⟨s, [], tr⟩ = (e, ⟨t, [], tr'⟩) ∧ Alone s t e := by
  induction hx generalizing s tr with
  | pure a => exact ⟨_, _, _, rfl, by simp, .refl s, fun _ _ h => h, fun _ _ => rfl⟩
  | stop hi => exact ⟨_, _, _, rfl, by simpa using hi, .refl s, by simp, by simp⟩
  | act ha =>
    rw [Drv.act_alone]
    exact Drv.take_alone ha s tr
  | par => exact ⟨_, _, _, rfl, by simp, .refl s, fun _ _ h => h, fun _ _ => rfl⟩
  | draw => exact ⟨_, _, _, rfl, by simp, ⟨rfl, rfl, rfl, rfl, id⟩, fun _ _ h => h, fun _ _ => rfl⟩
  | bind _ _ ihx ihf =>
    obtain ⟨e, t, tr1, h1, a1⟩ := ihx s tr
    rw [Drv.out_bind, h1]
    cases e with
    | error i => exact ⟨_, _, _, rfl, by simpa using a1.ends, a1.onward, by simp, by simp⟩
    | ok a =>
      obtain ⟨e, u, tr2, h2, a2⟩ := ihf a t tr1
      exact ⟨e, u, tr2, h2, a2.ends, a1.onward.trans a2.onward,
        fun b hb hf => a2.fault b hb (a1.fault a rfl hf), fun b hb => (a2.refused b hb).trans (a1.refused a rfl)⟩

end Built

/-- The calls and returns among the events. -/
def calls (tr : List Event) : List Event := tr.filter Event.isCall

/-- What an interruption leaves: a reset event with the given parameters, and words that X allows after the calls so
far. -/
def Cut (p : Params) (X : List Event → Vector Half 256 → Prop) : Ending → Stage := fun i s tr =>
  i = .interrupted → s.AtReset ∧ s.par = p ∧ X (calls tr) s.dev.array

section Undisturbed

variable {α β : Type} {x : Drv α} {p : Params} {X : List Event → Vector Half 256 → Prop} {K : List Event}
  {P : State → Prop}

/-- The condition on the machine, and the calls so far. -/
def With (P : State → Prop) (K : List Event) : Stage := fun s tr => P s ∧ calls tr = K

/-- In every state of the condition the host can act, the device is not busy, and X allows the words after the
calls K; the agenda and the reply do not matter. -/
structure Rests (p : Params) (X : List Event → Vector Half 256 → Prop) (K : List Event) (P : State → Prop) :
    Prop where
  ofFresh : ∀ s t : State, t.fresh = s.fresh → P s → P t
  free : ∀ s, P s → s.Free
  idle : ∀ s, P s → s.dev.busy = false
  par : ∀ s, P s → s.par = p
  allowed : ∀ s, P s → X K s.dev.array

theorem calls_took (tr : List Event) (a : Action) (v : Reply) : calls (tr ++ [.took a v]) = calls tr := by
  simp [calls, Event.isCall]

theorem interrupt_array_of_idle {s : State} (hb : s.dev.busy = false) (cells : List Host.Cell)
    (nb : Option NandBlock) : (s.interrupt cells nb).dev.array = s.dev.array := by
  obtain ⟨-, -, h, -⟩ := interruptEffect s cells nb
  exact h hb

/-- An event of the user for which nobody waits does nothing. -/
theorem userEvent_next {s t : State} {e : UserEvent} (hw : s.waiting = false)
    (h : takeAction (.userEvent e) s = .next t) : t = s := by
  obtain ⟨-, -, -, hlost, -⟩ := userConfirmation s
  rw [hlost e hw] at h
  exact (Host.Outcome.next.inj h).symm

/-- While the device is not busy and the host does not wait, no other agent but an interruption does anything. -/
theorem Rests.steady (h : Rests p X K P) : Steady (With P K) (Cut p X) where
  other := by
    rintro s t tr o ⟨hs, hk⟩ - ho hstep
    cases o with
    | interrupt cells nb => cases ho
    | devComplete =>
      obtain ⟨hb, -⟩ := deviceStep_next hstep
      exact absurd ((h.idle s hs).symm.trans hb) Bool.false_ne_true
    | userEvent e =>
      obtain rfl := userEvent_next (s := s.fresh) (h.free s hs).waiting hstep
      exact ⟨h.ofFresh s _ rfl hs, (calls_took _ _ _).trans hk⟩
  cut := by
    rintro s tr cells nb ⟨hs, hk⟩ - -
    refine ⟨State.interrupt_atReset _ _ _, h.par s hs, ?_⟩
    rw [calls_took, hk, interrupt_array_of_idle (s := s.fresh) (h.idle s hs)]
    exact h.allowed s hs
  stuck := fun _ hi h => absurd h hi

/-- The state is s0 but for the reply and the agenda, and the calls so far are K. -/
abbrev Near (s0 : State) (K : List Event) : Stage := With (fun s => s.fresh = s0.fresh) K

theorem near_rests {s0 : State} (hF : s0.Free) (hb : s0.dev.busy = false) (hp : s0.par = p)
    (hX : X K s0.dev.array) : Rests p X K fun s => s.fresh = s0.fresh where
  ofFresh := fun _ _ h hs => h.trans hs
  free := fun _ hs => ⟨(congrArg State.fault hs : _).trans hF.fault, (congrArg State.waiting hs : _).trans hF.waiting⟩
  idle := fun _ hs => (congrArg (fun s => s.dev.busy) hs : _).trans hb
  par := fun _ hs => (congrArg State.par hs : _).trans hp
  allowed := fun s hs => by
    rw [show s.dev = s0.dev from (congrArg State.dev hs : _)]
    exact hX

theorem Free.of_onward {s t : State} (h : s.Free) (ho : Onward s t) (hf : t.fault = none) : t.Free :=
  ⟨hf, ho.waiting.trans h.waiting⟩

/-- A program of simple actions in which, run alone, the device is never busy does under every schedule what it does
alone, or an interruption cuts it, or a step of the schedule that does not exist ends it. -/
theorem Drv.Built.undisturbed (hx : Drv.Built (fun a => a.simple = true) x) {s0 : State} (tr0 : List Event)
    (hF : s0.Free) (hb : (x.out ⟨s0, [], tr0⟩).2.state.dev.busy = false) (hp : s0.par = p)
    (hX : X K s0.dev.array) :
    Drv.Always (Near s0 K) x
      (fun a s tr => (x.out ⟨s0, [], tr0⟩).1 = .ok a ∧ Near (x.out ⟨s0, [], tr0⟩).2.state K s tr) (Cut p X) := by
  induction hx generalizing s0 tr0 with
  | pure a => exact fun r hr => ⟨rfl, hr⟩
  | stop hi => exact fun r hr h => absurd h hi
  | act ha =>
    have hs0 : s0.dev.busy = false := by
      obtain ⟨e, t, tr', h1, a1⟩ := (Drv.Built.act (ok := fun a => a.simple = true) ha).alone s0 tr0
      rw [h1] at hb
      by_contra hn
      rw [a1.onward.busy (by simpa using hn)] at hb
      cases hb
    refine .act (near_rests hF hs0 hp hX).steady ?_ fun _ _ _ _ hi h => absurd h hi
    rintro s t tr ⟨hs, hk⟩ hf h hm
    have hm0 : ¬ Marks s0 t := by
      have hrefused : s.refused = s0.refused := (congrArg State.refused hs : _)
      rwa [Marks, ← hrefused]
    rw [Drv.act_alone, Drv.take_unmarked hF.fault (hs ▸ h) hm0]
    exact ⟨rfl, rfl, (calls_took _ _ _).trans hk⟩
  | par =>
    rintro r ⟨hs, hk⟩
    have hpar : r.state.par = s0.par := (congrArg State.par hs : _)
    exact ⟨congrArg Except.ok hpar.symm, hs, hk⟩
  | draw =>
    rintro r ⟨hs, hk⟩
    have hdraws : r.state.draws = s0.draws := (congrArg State.draws hs : _)
    exact ⟨congrArg (fun n => Except.ok (Config.draw n)) hdraws.symm, (congrArg (fun s => s.draw.2) hs : _), hk⟩
  | bind hx hf ihx ihf =>
    obtain ⟨e, t, tr1, h1, a1⟩ := hx.alone s0 tr0
    rw [Drv.out_bind, h1] at hb ⊢
    cases e with
    | error i =>
      have h := ihx tr0 hF (by rw [h1]; exact hb) hp hX
      refine (h.post (Q' := fun _ _ _ => False) ?_).bind fun _ _ h => h.elim
      rintro a s tr ⟨h2, -⟩
      rw [h1] at h2
      cases h2
    | ok a =>
      obtain ⟨e, u, tr2, h2, a2⟩ := (hf a).alone t tr1
      dsimp only at hb ⊢
      have hbt : t.dev.busy = false := by
        rw [h2] at hb
        by_contra hn
        rw [a2.onward.busy (by simpa using hn)] at hb
        cases hb
      have h := ihx tr0 hF (by rw [h1]; exact hbt) hp hX
      rw [h1] at h
      refine h.bind fun b => ?_
      rintro r ⟨hab, hr⟩
      cases hab
      exact ihf a tr1 (Free.of_onward hF a1.onward (a1.fault a rfl hF.fault)) hb
        (a1.onward.par.trans hp) (by rw [a1.onward.array]; exact hX) r hr

end Undisturbed
end Sys2Proof.Machine

/-! # Proofs: the programs of the host, from their actions

Which actions the operations of the driver, the engines and the parameter store are built from; and what the start
after a reset event does. -/

namespace Sys2Proof.Machine

/-! ### Kinds of actions -/

/-- A simple action. -/
def Simple (a : Action) : Prop := a.simple = true

/-- A simple action that changes nothing that lasts. -/
def Gentle (a : Action) : Prop :=
  a.simple = true ∧ ∀ s t : State, takeAction a s.fresh = .next t → ¬ Marks s t → t.core = s.core

theorem Gentle.simple {a : Action} (h : Gentle a) : Simple a := h.1

section Kinds

variable {s t : State}

/-- A host action that has a step has it while the host does not wait. -/
theorem hostStep_of_takeAction {a : Action} (ha : a.byHost = true) (h : takeAction a s = .next t) :
    s.waiting = false ∧ hostStep a s = .next t := by
  cases hw : s.waiting with
  | true => rw [takeAction_of_waiting hw ha] at h; cases h
  | false =>
    refine ⟨rfl, ?_⟩
    rw [← h]
    exact (takeAction_host hw (by rintro rfl; cases ha) (by rintro _ _ rfl; cases ha)
      (by rintro _ rfl; cases ha)).symm

/-- A fault raised is a mark. -/
theorem marks_of_raises {u : State} (h : Raises u t) : Marks s t := by
  obtain ⟨k, rfl⟩ := h
  exact .inl (by simp)

theorem gentle_setArg (i : Fin 4) (v : Word) : Gentle (.portWr (.arg i) v) := by
  refine ⟨rfl, fun s t h _ => ?_⟩
  obtain ⟨-, h⟩ := hostStep_of_takeAction rfl h
  cases h
  rfl

theorem gentle_other : Gentle .other := by
  refine ⟨rfl, fun s t h hm => ?_⟩
  obtain ⟨-, h⟩ := hostStep_of_takeAction rfl h
  cases h
  have hr : s.refused = true := by
    by_contra hr
    exact hm (.inr ⟨rfl, by simpa using hr⟩)
  show { s.core with refused := true } = s.core
  rw [← hr]
  rfl

theorem gentle_load (a n : Nat) : Gentle (.hstLd a n) := by
  refine ⟨rfl, fun s t h hm => ?_⟩
  obtain ⟨-, h⟩ := hostStep_of_takeAction rfl h
  rcases complete_next_cases h with h | h
  · exact absurd (marks_of_raises h) hm
  · obtain ⟨bs, -, h⟩ := bind_eq_ok.mp h
    cases h
    rfl

theorem gentle_portRd {r : PortReg} (hr : ∀ s : State, s.markRead r = s) : Gentle (.portRd r) := by
  refine ⟨rfl, fun s t h hm => ?_⟩
  obtain ⟨-, h⟩ := hostStep_of_takeAction rfl h
  simp only [hostStep, portRead, hr] at h
  rcases complete_next_cases h with h | h
  · exact absurd (marks_of_raises h) hm
  · obtain ⟨v, -, h⟩ := bind_eq_ok.mp h
    cases h
    rfl

/-- The step of a command that the encoder makes. -/
theorem exec_of_hostStep {i : Instr} (hi : decodeWord (encodeWord i) = .ok i)
    (h : hostStep (.portWr .cmd (encodeWord i)) s = .next t) : exec i s = .next t := by
  rw [← issue_of_decode hi]
  exact h

theorem exec_of_takeAction {i : Instr} (hi : decodeWord (encodeWord i) = .ok i)
    (h : takeAction (.portWr .cmd (encodeWord i)) s = .next t) : exec i s = .next t :=
  exec_of_hostStep hi (hostStep_of_takeAction rfl h).2

theorem gentle_crcCompute : Gentle (.portWr .cmd (encodeWord .crcCompute)) := by
  refine ⟨rfl, fun s t h hm => ?_⟩
  rcases execCrcCompute_next (exec_of_takeAction (by decide) h) with h | ⟨_, _, _, -, -, -, -, rfl⟩
  · exact absurd (marks_of_raises h) hm
  · rfl

theorem gentle_ctrVerify : Gentle (.portWr .cmd (encodeWord .ctrVerify)) := by
  refine ⟨rfl, fun s t h hm => ?_⟩
  rcases ctr_next (exec_of_takeAction (i := .ctrVerify) (by decide) h) with h | ⟨_, _, -, -, rfl⟩ | ⟨_, _, -, -, rfl⟩
  · exact absurd (marks_of_raises h) hm
  · rfl
  · rfl

end Kinds

/-! ### The operations -/

section Operations

variable {α : Type} {ok : Action → Prop}

theorem Drv.Built.simple {x : Drv α} (h : x.Built Gentle) : x.Built Simple := h.mono fun _ h => h.simple

theorem refuse_built : (Drv.refuse : Drv α).Built Gentle := .bind (.act gentle_other) fun _ => .stop (by simp)

theorem cmd_built {i : Instr} (h : ok (.portWr .cmd (encodeWord i))) : (Drv.cmd i).Built ok :=
  .bind (.act h) fun _ => .pure ()

theorem setArg_built (i : Fin 4) (v : Nat) : (Drv.setArg i v).Built Gentle := by
  unfold Drv.setArg
  have hset : (Drv.act (.portWr (.arg i) (BitVec.ofNat 32 v)) >>= fun _ => (pure () : Drv Unit)).Built Gentle :=
    .bind (.act (gentle_setArg _ _)) fun _ => .pure ()
  split
  · exact .bind refuse_built fun _ => hset
  · exact hset

theorem port_built {r : PortReg} (hr : ∀ s : State, s.markRead r = s) : (Drv.port r).Built Gentle := by
  refine .bind (.act (gentle_portRd hr)) fun v => ?_
  split <;> exact .pure _

theorem load_built (a n : Nat) : (Drv.load a n).Built Gentle := by
  refine .bind (.act (gentle_load a n)) fun v => ?_
  split <;> exact .pure _

theorem store_built (a : Nat) (bs : List Byte) : (Drv.store a bs).Built Simple := .bind (.act rfl) fun _ => .pure ()

/-- Two arguments, and the program that goes on with them. -/
theorem args_built {x : Drv α} {i j : Fin 4} {a b : Nat} (hx : x.Built Gentle) :
    (Drv.setArg i a >>= fun _ => Drv.setArg j b >>= fun _ => x).Built Gentle :=
  .bind (setArg_built i a) fun _ => .bind (setArg_built j b) fun _ => hx

theorem args_simple {x : Drv α} {i j : Fin 4} {a b : Nat} (hx : x.Built Simple) :
    (Drv.setArg i a >>= fun _ => Drv.setArg j b >>= fun _ => x).Built Simple :=
  .bind (setArg_built i a).simple fun _ => .bind (setArg_built j b).simple fun _ => hx

theorem crc32Op_built (a n : Nat) : (crc32Op a n).Built Gentle :=
  args_built (.bind (cmd_built gentle_crcCompute) fun _ => port_built fun _ => rfl)

theorem ctrVerifyOp_built (p n : Nat) : (ctrVerifyOp p n).Built Gentle :=
  args_built (.bind (cmd_built gentle_ctrVerify) fun _ => .bind (port_built fun _ => rfl) fun _ => .pure _)

theorem calcEccOp_built (src dst : Nat) : (calcEccOp src dst).Built Simple := args_simple (cmd_built rfl)

theorem forM_built {l : List Nat} {f : Nat → Drv Unit} (h : ∀ i, (f i).Built ok) : (l.forM f).Built ok := by
  induction l with
  | nil => exact .pure _
  | cons i l ih => exact .bind (h i) fun _ => ih

theorem spareAssemble_built (page spare : Nat) : (spareAssemble page spare).Built Simple :=
  .bind .par fun _ => .bind (forM_built fun _ => calcEccOp_built _ _) fun _ => store_built _ _

/-! The cipher. -/

theorem aesSetKeyOp_built (a : Nat) : (aesSetKeyOp a).Built Simple :=
  .bind (setArg_built 0 a).simple fun _ => cmd_built rfl

theorem aesChunk_built (x : Nat → Bool → Instr) (src dst m : Nat) (keep : Bool) :
    (aesChunk x src dst m keep).Built Simple :=
  args_simple (.bind (cmd_built rfl) fun _ => args_simple (.bind (cmd_built rfl) fun _ =>
    args_simple (.bind (cmd_built rfl) fun _ => args_simple (cmd_built rfl))))

theorem aesLoop_built (x : Nat → Bool → Instr) (fuel src dst blocks : Nat) (keep : Bool) :
    (aesLoop x fuel src dst blocks keep).Built Simple := by
  induction fuel generalizing src dst blocks keep with
  | zero => exact .pure _
  | succ fuel ih =>
    rw [aesLoop]
    split
    · exact .pure _
    · exact .bind (aesChunk_built _ _ _ _ _) fun _ => ih _ _ _ _

theorem bankDecrypt_built (src dst : Nat) : (bankDecrypt src dst).Built Simple :=
  .bind .par fun _ => .bind (aesSetKeyOp_built _) fun _ => .bind (cmd_built rfl) fun _ => aesLoop_built _ _ _ _ _ _

theorem bankEncrypt_built (src dst : Nat) : (bankEncrypt src dst).Built Simple :=
  .bind .par fun _ => .bind (aesSetKeyOp_built _) fun _ => .bind (cmd_built rfl) fun _ => aesLoop_built _ _ _ _ _ _

/-! The EEPROM driver. -/

theorem sendBits_built (value n : Nat) : (sendBits value n).Built Simple := by
  induction n with
  | zero => exact .pure _
  | succ n ih =>
    exact .bind (cmd_built rfl) fun _ => .bind (cmd_built rfl) fun _ => .bind (cmd_built rfl) fun _ =>
      .bind (cmd_built rfl) fun _ => .bind (cmd_built rfl) fun _ => .bind (cmd_built rfl) fun _ => ih

theorem recvBits_built (v n : Nat) : (recvBitsFrom v n).Built Simple := by
  induction n generalizing v with
  | zero => exact .pure _
  | succ n ih =>
    exact .bind (cmd_built rfl) fun _ => .bind (cmd_built rfl) fun _ => .bind (cmd_built rfl) fun _ =>
      .bind (cmd_built rfl) fun _ => .bind (cmd_built rfl) fun _ =>
        .bind (port_built fun _ => rfl).simple fun _ => ih _

theorem eepInit_built : eepInit.Built Simple :=
  .bind (cmd_built rfl) fun _ => .bind (cmd_built rfl) fun _ => cmd_built rfl

theorem frame_built (value n : Nat) {x : Drv α} (hx : x.Built Simple) :
    (Drv.cmd .eepSetCs >>= fun _ => sendBits value n >>= fun _ => x).Built Simple :=
  .bind (cmd_built rfl) fun _ => .bind (sendBits_built _ _) fun _ => hx

theorem eepEwen_built : eepEwen.Built Simple := frame_built _ _ (cmd_built rfl)

theorem eepEwds_built : eepEwds.Built Simple := frame_built _ _ (cmd_built rfl)

theorem eepReadWord_built (a : Nat) : (eepReadWord a).Built Simple :=
  frame_built _ _ (.bind (recvBits_built _ _) fun _ => .bind (cmd_built rfl) fun _ => .pure _)

theorem eepRead_built (off n dst : Nat) : (eepRead off n dst).Built Simple := by
  unfold eepRead
  split
  · exact forM_built fun i => .bind (eepReadWord_built _) fun _ => store_built _ _
  · exact refuse_built.simple

theorem eepPollLoop_built (n : Nat) : (eepPollLoop n).Built Simple := by
  induction n with
  | zero => exact .pure _
  | succ n ih =>
    refine .bind (recvBits_built _ _) fun b => ?_
    split
    · exact .pure _
    · exact ih

theorem eepPoll_built : eepPoll.Built Simple :=
  .bind (cmd_built rfl) fun _ => .bind (cmd_built rfl) fun _ => .bind (cmd_built rfl) fun _ =>
    .bind (eepPollLoop_built _) fun _ => .bind (cmd_built rfl) fun _ => .pure _

theorem eepWriteWords_built (off src : Nat) (l : List Nat) : (eepWriteWords off src l).Built Simple := by
  induction l with
  | nil => exact .pure _
  | cons i l ih =>
    refine .bind (load_built _ _).simple fun _ => frame_built _ _ (.bind (cmd_built rfl) fun _ =>
      .bind eepPoll_built fun ready => ?_)
    split
    · refine .bind ih fun ws => ?_
      split <;> exact .pure _
    · exact .pure _

theorem eepVerifyWords_built (a : Nat) (ws : List Nat) : (eepVerifyWords a ws).Built Simple := by
  induction ws generalizing a with
  | nil => exact .pure _
  | cons w ws ih =>
    refine .bind (eepReadWord_built _) fun r => ?_
    split
    · exact ih _
    · exact .pure _

theorem eepWrite_built (off n src : Nat) : (eepWrite off n src).Built Simple := by
  unfold eepWrite
  split
  · refine .bind eepEwen_built fun _ => .bind (eepWriteWords_built _ _ _) fun ws => ?_
    split
    · exact .pure _
    · refine .bind eepEwds_built fun _ => .bind (eepVerifyWords_built _ _) fun same => ?_
      split <;> exact .pure _
  · exact refuse_built.simple

/-! The parameter store. -/

theorem loadSlot_built (slot : Bool) : (loadSlot slot).Built Simple :=
  .bind .par fun _ => .bind (eepRead_built _ _ _) fun _ => bankDecrypt_built _ _

theorem loadAll_built : loadAll.Built Simple := .bind (loadSlot_built false) fun _ => loadSlot_built true

theorem loadRec_built (slot : Bool) : (loadRec slot).Built Gentle := .bind .par fun _ => load_built _ _

theorem checkRec_built (slot : Bool) : (checkRec slot).Built Gentle :=
  .bind .par fun _ => .bind (crc32Op_built _ _) fun _ => .bind (loadRec_built slot) fun _ => .pure _

theorem currentSlot_built : currentSlot.Built Gentle :=
  .bind (checkRec_built false) fun _ => .bind (checkRec_built true) fun _ => .bind .draw fun _ => .pure _

theorem persist_built (slot : Bool) : (persist slot).Built Simple :=
  .bind .par fun _ => .bind (bankEncrypt_built _ _) fun _ => eepWrite_built _ _ _

theorem startup_built : startup.Built Simple :=
  .bind eepInit_built fun _ => .bind loadAll_built fun _ => currentSlot_built.simple

end Operations
end Sys2Proof.Machine

/-! # Proofs: the start after a reset event

`eep_init`, both records loaded, both checksums computed and the slot chosen, run alone (45_host_protocols.md R450,
R451, R480 item 6). -/

namespace Sys2Proof.Machine

section Restart

variable {α : Type} {al : Bool} {s c : State} {key : List Byte}

/-- After a reset event a store that is ready can work. -/
theorem State.AtReset.working (hr : s.AtReset) (h : s.StoreReady key) : s.Working key := by
  obtain ⟨-, -, -, -, -, -, -, hdout, hmode, hshift, hout, -, harmed, hprog, hbusy, hpending, -, hclean⟩ := hr
  exact ⟨⟨⟨h.fault, h.waiting⟩, ⟨hmode, hshift, hout, hdout, hbusy, hprog, hpending, harmed⟩⟩, h, hclean⟩

theorem State.bankRecord_eq (c : State) (key : List Byte) (slot : Bool) :
    c.bankRecord key slot = (Config.blockDec key (blockOf (c.bank slot))).toList := by
  rw [State.bankRecord, State.bankBytes_eq]

theorem State.bankRecord_length (c : State) (key : List Byte) (slot : Bool) : (c.bankRecord key slot).length = 16 :=
  Vector.length_toList

/-- `load_all` (R450): both banks, decrypted, are in the records. -/
theorem loadAll_does (h : c.Working key) : ∃ c' : State, loadAll.Does al c.Idle (.ok ()) c'.Idle [] ∧ c'.Working key ∧
    c'.par = c.par ∧ c'.dev = c.dev ∧
    ∀ slot, c'.HostReads (recAddr c.par slot) (c.bankRecord key slot) := by
  obtain ⟨c1, d1, w1, k1, e1, r1⟩ := loadSlot_does (al := al) h false
  obtain ⟨c2, d2, w2, k2, e2, r2⟩ := loadSlot_does (al := al) w1 true
  rw [k1.par] at k2 r2
  have hbank : c1.bank true = c.bank true := by rw [State.bank, State.bank, k1.par, e1]
  have L := bankOk_layout h.ready.params false
  refine ⟨c2, d1.next d2, w2, k2.par.trans k1.par, e2.trans e1, fun slot => ?_⟩
  rw [State.bankRecord_eq]
  cases slot with
  | true => rwa [hbank] at r2
  | false =>
    refine k2.reads _ _ r1 fun b hb => ?_
    rw [Vector.length_toList]
    simp only [List.mem_cons, List.not_mem_nil, or_false] at hb
    rcases hb with rfl | rfl
    · exact L.recBank
    · exact L.recRec

/-! ### The checksums -/

/-- What `crc32` over the bytes leaves in the accumulator and the result (40_crc.md R212, R214). -/
structure State.CrcLeft (bs : List Byte) (s : State) : Prop where
  acc : s.crcAcc = some (crcLoop crcInit bs)
  res : s.res[0] = some (crc32 bs)

theorem Drv.load_ends (h : s.Free) {a n : Nat} {bs : List Byte} (hr : s.HostReads a bs) (hn : bs.length = n) :
    (Drv.load a n).Ends al s (.ok bs) { s.fresh with reply := .bytes bs } [] := by
  have hread : s.fresh.hostRead a n = .ok bs := State.hostRead_of_reads (s := s.fresh) hr hn
  have hstep : hostStep (.hstLd a n) s.fresh = .next { s.fresh with reply := .bytes bs } := by
    simp only [hostStep, hostLoad, hread]
    rfl
  exact (Drv.act_ends_host h rfl hstep h.fault rfl).next (.pure _)

theorem crc32Op_leaves (hf : c.Free) {a n : Nat} {bs : List Byte} (h : c.HostReads a bs) (hn : bs.length = n)
    (ha : a < addrTop) (hl : n < addrTop) :
    (crc32Op a n).Does al c.Idle (.ok (crc32 bs).toNat) (fun t => c.Idle t ∧ t.CrcLeft bs) [] := by
  intro s hs
  have hF := hs.free hf
  let u : State := ({ s.withArgs a n with crcAcc := some (crcLoop crcInit bs) }.setRes 0 (crc32 bs)).done
  have hread : (s.withArgs a n).hostRead a n = .ok bs := State.hostRead_of_reads (hs.reads h) hn
  have hexec : exec .crcCompute (s.withArgs a n) = .next u := by
    show execCrcCompute _ = _
    simp only [execCrcCompute, State.withArgs_pair ha hl, ok_bind', State.argBytes, hread, pure_ok',
      State.complete_ok]
    rfl
  have hres : u.res[(0 : Fin 8)] = some (crc32 bs) := Vector.getElem_set_self ..
  have hport : u.fresh.portVal (.res 0) = .ok (crc32 bs) := by
    rw [State.portVal, show u.fresh.res[(0 : Fin 8)] = some (crc32 bs) from hres, written_some]
  exact ⟨_, Drv.args_ends hF ha hl ((Drv.cmd_ends (s := s.withArgs a n) (by decide) ⟨hF.fault, hF.waiting⟩ hexec
    hF.fault rfl).next (Drv.port_ends (s := u) ⟨hF.fault, hF.waiting⟩ hport rfl)), hs, rfl, hres⟩

/-- The check of a slot's record leaves its checksum in the engine (45_host_protocols.md R441). -/
theorem checkRec_leaves (h : c.Working key) (slot : Bool) {r : List Byte}
    (hr : c.HostReads (recAddr c.par slot) r) (hl : r.length = 16) :
    (checkRec slot).Does al c.Idle (.ok (recValid r, r)) (fun t => c.Idle t ∧ t.CrcLeft (r.take 12)) [] := by
  have hrt := (bankOk_layout h.ready.params slot).recTop
  have htop : addrTop = 4294967296 := rfl
  have hp := hr.part 0 12 (by omega)
  rw [List.drop_zero, Nat.add_zero] at hp
  refine Drv.par_idle.next ((crc32Op_leaves h.calm.free hp (by rw [List.length_take, hl]; rfl)
    (by omega) (by omega)).next ?_)
  rintro s ⟨hs, hcrc⟩
  have hload := Drv.load_ends (al := al) (hs.free h.calm.free) (hs.reads hr) hl
  have hpar : Drv.par.Ends al s (.ok c.par) s [] := hs.par ▸ Drv.par_ends
  have hrec : (loadRec slot).Ends al s (.ok r) _ [] := hpar.next hload
  exact ⟨_, hrec.next (.pure _), hs, hcrc.acc, hcrc.res⟩

/-- What the start after a reset event leaves. -/
structure State.Started (key : List Byte) (s t : State) : Prop where
  array : t.dev.array = s.dev.array
  cs : t.gpio.cs = false
  sk : t.gpio.sk = false
  records : ∀ slot, t.Holds (recAddr s.par slot) (s.bankRecord key slot)
  crc : t.CrcLeft ((s.bankRecord key true).take 12)

/-- `current_slot` (R451) returns what the two records select, with a drawn bit. -/
theorem currentSlot_leaves (h : c.Working key) {r0 r1 : List Byte}
    (h0 : c.HostReads (recAddr c.par false) r0) (h1 : c.HostReads (recAddr c.par true) r1)
    (hl0 : r0.length = 16) (hl1 : r1.length = 16) (hs : c.Idle s) :
    ∃ (drawn : Bool) (t : State), currentSlot.Ends al s (.ok (selectSlot r0 r1 drawn)) t [] ∧ c.Idle t ∧
      t.CrcLeft (r1.take 12) := by
  obtain ⟨s1, e1, i1, -⟩ := checkRec_leaves (al := al) h false h0 hl0 s hs
  obtain ⟨s2, e2, i2, l2⟩ := checkRec_leaves (al := al) h true h1 hl1 s1 i1
  exact ⟨s2.draw.1.getLsbD 0, s2.draw.2, e1.next (e2.next (Drv.draw_ends.next (.pure _))), i2, l2.acc, l2.res⟩

/-- The start from any state of a store that can work. -/
theorem startup_ends (h : s.Working key) : ∃ (drawn : Bool) (t : State),
    startup.Ends al s (.ok (selectSlot (s.bankRecord key false) (s.bankRecord key true) drawn)) t [] ∧
      s.Started key t := by
  obtain ⟨c, dc, wc, pc, ec, rc⟩ := loadAll_does (al := al) h
  obtain ⟨s1, e1, i1⟩ := eepInit_does (al := al) h.calm s.gpio s s.wired_self
  obtain ⟨s2, e2, i2⟩ := dc s1 i1
  obtain ⟨drawn, t, e3, i3, l3⟩ := currentSlot_leaves (al := al) wc (pc ▸ rc false) (pc ▸ rc true)
    (s.bankRecord_length key _) (s.bankRecord_length key _) i2
  obtain ⟨di, hw⟩ := id i3
  refine ⟨drawn, t, e1.next (e2.next e3), ?_, congrArg Gpio.cs hw.gpio, congrArg Gpio.sk hw.gpio,
    fun slot => i3.holds (rc slot).2.1, l3⟩
  rw [hw.dev, ec]

end Restart

/-- Settles O59: the start ends alone as its parts do, and a program of simple actions that returns has left no
mark. -/
theorem restartSelectsSlot : Obligations.RestartSelectsSlot := by
  intro key s hreset hready record
  obtain ⟨drawn, t, h, hst⟩ := startup_ends (al := true) (hreset.working hready)
  obtain ⟨env, tr, -, -, halone⟩ := h
  have hout := halone rfl []
  obtain ⟨e, t', tr', hout', ha⟩ := startup_built.alone s []
  obtain ⟨rfl, hrun⟩ := Prod.mk.inj (hout.symm.trans hout')
  obtain ⟨rfl, -, -⟩ := Run.mk.inj hrun
  exact ⟨drawn, _, hout, hst.array, hst.cs, hst.sk, ha.fault _ rfl hready.fault, ha.refused _ rfl,
    hst.records false, hst.records true, hst.crc.acc, hst.crc.res⟩

end Sys2Proof.Machine

/-! # Proofs: the order of the events of an installation

What an event asks of the events before it (45_host_protocols.md R475-R478), and the knowledge of the events so far
that the installation gathers, step after step (R460, R461). -/

namespace Sys2Proof.Machine

section Events

variable {p : Params} {boot : Bool} {tr pre : List Event} {e : Event} {b : NandBlock}

/-! ### What an event asks of those before it -/

/-- The block that the event reads back. -/
def Event.reads : Event → Option NandBlock
  | .took (.nandRead b _ _ _ _) _ => some b
  | _ => none

/-- The event asks nothing of those before it: it is no NAND call and no call of the store. -/
def Event.plain : Event → Bool
  | .took (.nandErase _ _) _ | .took (.nandWrite _ _ _ _ _) _ | .took (.nandRead _ _ _ _ _) _ | .called _ => false
  | _ => true

theorem Event.plain_took {a : Action} (ha : a.simple = true) (v : Reply) : (Event.took a v).plain = true := by
  cases a <;> first | rfl | cases ha

theorem Event.destroys_of_plain (h : e.plain = true) : e.destroys = none := by
  cases e with
  | took a v => cases a <;> first | rfl | cases h
  | called c => cases h
  | returned c ok => rfl

theorem Event.reads_of_plain (h : e.plain = true) : e.reads = none := by
  cases e with
  | took a v => cases a <;> first | rfl | cases h
  | called c => cases h
  | returned c ok => rfl

theorem Event.ne_called_of_plain (h : e.plain = true) (c : StoreCall) : e ≠ .called c := by
  rintro rfl
  cases h

/-- The boot slot is the one that R451 selects from the two records loaded. -/
def Chosen (p : Params) (boot : Bool) (tr : List Event) : Prop :=
  ∃ (record0 record1 : List Byte) (drawn : Bool),
    .took (.hstLd p.recAddr0.toNat 16) (.bytes record0) ∈ tr ∧
    .took (.hstLd p.recAddr1.toNat 16) (.bytes record1) ∈ tr ∧ selectSlot record0 record1 drawn = some boot

/-- The install slot has been invalidated, and b is the block of its record loaded after that. -/
def Invalidated (p : Params) (boot : Bool) (b : NandBlock) (tr : List Event) : Prop :=
  ∃ (q r : List Event) (record : List Byte), tr = q ++ .returned (.invalidate !boot) true :: r ∧
    .took (.hstLd (recAddr p !boot) 16) (.bytes record) ∈ r ∧ recBlock record = b

/-- What the event asks of those before it (45_host_protocols.md R475-R478). -/
structure Placed (p : Params) (boot : Bool) (pre : List Event) (e : Event) : Prop where
  chosen : e.destroys ≠ none ∨ (∃ c, e = .called c) → Chosen p boot pre
  block : ∀ b, e.destroys = some b → Invalidated p boot b pre
  unread : e.destroys ≠ none → ∀ x ∈ pre, x.reads = none
  readBack : ∀ b, e.reads = some b → Step7Passed p b pre
  commit : ∀ slot, e = .called (.commit slot) → slot = !boot ∧ ∃ b, Step8Passed p b pre
  retire : e = .called (.invalidate boot) →
    ∃ q r : List Event, pre = q ++ .returned (.commit !boot) true :: r ∧ UserConfirmed r

theorem placed_of_plain (h : e.plain = true) : Placed p boot pre e where
  chosen := by
    rintro (hd | ⟨c, hc⟩)
    · exact absurd (Event.destroys_of_plain h) hd
    · exact absurd hc (Event.ne_called_of_plain h c)
  block := fun b hd => by rw [Event.destroys_of_plain h] at hd; cases hd
  unread := fun hd => absurd (Event.destroys_of_plain h) hd
  readBack := fun b hr => by rw [Event.reads_of_plain h] at hr; cases hr
  commit := fun _ hc => absurd hc (Event.ne_called_of_plain h _)
  retire := fun hc => absurd hc (Event.ne_called_of_plain h _)

/-- An erase or a write of a block. -/
theorem placed_of_destroys (hc : Chosen p boot pre) (hb : Invalidated p boot b pre)
    (hu : ∀ x ∈ pre, x.reads = none) (he : e.destroys = some b) : Placed p boot pre e where
  chosen := fun _ => hc
  block := fun b' hd => Option.some.inj (he.symm.trans hd) ▸ hb
  unread := fun _ => hu
  readBack := by
    unfold Event.destroys at he
    split at he <;> first | (cases he; done) | exact fun _ h => nomatch h
  commit := fun _ h => by subst h; cases he
  retire := fun h => by subst h; cases he

/-- A read-back of a block. -/
theorem placed_of_reads (h7 : Step7Passed p b pre) (page dst : Nat) (result : NandResult) (junk : List Byte)
    (v : Reply) : Placed p boot pre (.took (.nandRead b page dst result junk) v) where
  chosen := fun h => h.elim (absurd rfl) fun ⟨_, h⟩ => nomatch h
  block := fun _ h => nomatch h
  unread := fun h => absurd rfl h
  readBack := fun b' h => by cases h; exact h7
  commit := fun _ h => nomatch h
  retire := fun h => nomatch h

/-- A call of the store. -/
theorem placed_of_call {c : StoreCall} (hc : Chosen p boot pre)
    (hcommit : ∀ slot, c = .commit slot → slot = !boot ∧ ∃ b, Step8Passed p b pre)
    (hretire : c = .invalidate boot →
      ∃ q r : List Event, pre = q ++ .returned (.commit !boot) true :: r ∧ UserConfirmed r) :
    Placed p boot pre (.called c) where
  chosen := fun _ => hc
  block := fun _ h => nomatch h
  unread := fun h => absurd rfl h
  readBack := fun _ h => nomatch h
  commit := fun slot h => hcommit slot (Event.called.inj h)
  retire := fun h => hretire (Event.called.inj h)

/-- Every event has before it what it asks for. -/
def Ordered (p : Params) (boot : Bool) (tr : List Event) : Prop :=
  ∀ (pre post : List Event) (e : Event), tr = pre ++ e :: post → Placed p boot pre e

theorem Ordered.snoc (h : Ordered p boot tr) (he : Placed p boot tr e) : Ordered p boot (tr ++ [e]) := by
  intro pre post x hx
  rcases List.eq_nil_or_concat post with rfl | ⟨post, y, rfl⟩
  · obtain ⟨rfl, hxe⟩ := List.append_inj' hx rfl
    exact (List.cons.inj hxe).1 ▸ he
  · rw [List.concat_eq_append, ← List.cons_append, ← List.append_assoc] at hx
    exact h pre post x (List.append_inj' hx rfl).1

theorem Ordered.plain (h : Ordered p boot tr) (he : e.plain = true) : Ordered p boot (tr ++ [e]) :=
  h.snoc (placed_of_plain he)

theorem ordered_of_plain (h : ∀ e ∈ tr, e.plain = true) : Ordered p boot tr := by
  rintro pre post e rfl
  exact placed_of_plain (h e (by simp))

/-- Events in this order meet the clauses of R475-R478. -/
theorem Ordered.destroys_after_read (h : Ordered p boot (pre ++ e :: tr)) (he : e.reads = some b) :
    ∀ x ∈ tr, x.destroys = none := by
  intro x hx
  by_contra hd
  obtain ⟨q, r, rfl⟩ := List.append_of_mem hx
  have := (h (pre ++ e :: q) r x (by simp)).unread hd e (by simp)
  rw [he] at this
  cases this

/-! ### What stays known as events follow -/

/-- What is known of the events stays known after a plain event. -/
def Lasting (T : List Event → Prop) : Prop := ∀ tr e, T tr → e.plain = true → T (tr ++ [e])

/-- What is known of the events stays known after a plain event of another agent than the host, and the events so far
are in order. -/
structure Sound (p : Params) (T : List Event → Prop) : Prop where
  ordered : ∀ tr, T tr → ∃ boot, Ordered p boot tr
  other : ∀ tr e, T tr → e.plain = true → e.byHost = false → T (tr ++ [e])

theorem Lasting.sound {T : List Event → Prop} (h : Lasting T) (ho : ∀ tr, T tr → ∃ boot, Ordered p boot tr) :
    Sound p T := ⟨ho, fun tr e ht he _ => h tr e ht he⟩

theorem Chosen.snoc (h : Chosen p boot tr) (e : Event) : Chosen p boot (tr ++ [e]) := by
  obtain ⟨r0, r1, drawn, h0, h1, hs⟩ := h
  exact ⟨r0, r1, drawn, List.mem_append_left _ h0, List.mem_append_left _ h1, hs⟩

theorem Invalidated.snoc (h : Invalidated p boot b tr) (e : Event) : Invalidated p boot b (tr ++ [e]) := by
  obtain ⟨q, r, record, rfl, hr, hb⟩ := h
  exact ⟨q, r ++ [e], record, by simp, List.mem_append_left _ hr, hb⟩

/-- Every erase and write so far returned OK. -/
def AllOk (tr : List Event) : Prop := ∀ e ∈ tr, e.destroys ≠ none → ∃ a, e = .took a (.nand .ok)

theorem forall_snoc {P : Event → Prop} (h : ∀ e ∈ tr, P e) (he : P e) : ∀ x ∈ tr ++ [e], P x := by
  intro x hx
  rcases List.mem_append.mp hx with hx | hx
  · exact h x hx
  · rw [List.mem_singleton.mp hx]
    exact he

theorem AllOk.snoc_of_none (h : AllOk tr) (he : e.destroys = none) : AllOk (tr ++ [e]) :=
  forall_snoc h fun hd => absurd he hd

theorem AllOk.snoc_ok (h : AllOk tr) (a : Action) : AllOk (tr ++ [.took a (.nand .ok)]) :=
  forall_snoc h fun _ => ⟨a, rfl⟩

/-- The data of the first n pages has been written. -/
def DataWritten (p : Params) (b : NandBlock) (n : Nat) (tr : List Event) : Prop :=
  ∀ page, page < n → .took (.nandWrite b page (some (p.imgAddr.toNat + 2048 * page)) none true) (.nand .ok) ∈ tr

/-- The spare areas of the first n pages have been written. -/
def SpareWritten (p : Params) (b : NandBlock) (n : Nat) (tr : List Event) : Prop :=
  ∀ page, page < n → .took (.nandWrite b page none (some p.spareBuf.toNat) true) (.nand .ok) ∈ tr

/-- The first n pages have been read back. -/
def PagesRead (p : Params) (b : NandBlock) (n : Nat) (tr : List Event) : Prop :=
  ∀ page, page < n → ∃ junk, .took (.nandRead b page (p.rbAddr.toNat + 2048 * page) .ok junk) (.nand .ok) ∈ tr

theorem DataWritten.snoc {n : Nat} (h : DataWritten p b n tr) (e : Event) : DataWritten p b n (tr ++ [e]) :=
  fun page hp => List.mem_append_left _ (h page hp)

theorem SpareWritten.snoc {n : Nat} (h : SpareWritten p b n tr) (e : Event) : SpareWritten p b n (tr ++ [e]) :=
  fun page hp => List.mem_append_left _ (h page hp)

theorem PagesRead.snoc {n : Nat} (h : PagesRead p b n tr) (e : Event) : PagesRead p b n (tr ++ [e]) :=
  fun page hp => (h page hp).imp fun _ hj => List.mem_append_left _ hj

theorem DataWritten.next {n : Nat} (h : DataWritten p b n tr) :
    DataWritten p b (n + 1)
      (tr ++ [.took (.nandWrite b n (some (p.imgAddr.toNat + 2048 * n)) none true) (.nand .ok)]) := by
  intro page hp
  rcases Nat.lt_succ_iff_lt_or_eq.mp hp with hp | rfl
  · exact h.snoc _ page hp
  · simp

theorem SpareWritten.next {n : Nat} (h : SpareWritten p b n tr) :
    SpareWritten p b (n + 1) (tr ++ [.took (.nandWrite b n none (some p.spareBuf.toNat) true) (.nand .ok)]) := by
  intro page hp
  rcases Nat.lt_succ_iff_lt_or_eq.mp hp with hp | rfl
  · exact h.snoc _ page hp
  · simp

theorem PagesRead.next {n : Nat} (h : PagesRead p b n tr) (junk : List Byte) :
    PagesRead p b (n + 1) (tr ++ [.took (.nandRead b n (p.rbAddr.toNat + 2048 * n) .ok junk) (.nand .ok)]) := by
  intro page hp
  rcases Nat.lt_succ_iff_lt_or_eq.mp hp with hp | rfl
  · exact h.snoc _ page hp
  · exact ⟨junk, by simp⟩

theorem Step7Passed.snoc (h : Step7Passed p b tr) (he : e.destroys = none) : Step7Passed p b (tr ++ [e]) :=
  ⟨AllOk.snoc_of_none h.1 he, fun page hp => ⟨List.mem_append_left _ (h.2 page hp).1,
    List.mem_append_left _ (h.2 page hp).2⟩⟩

/-! ### What is known in the steps of the installation -/

/-- The container's body begins at w, as the validator reported of the image. -/
def BodyAt (w : Word) (tr : List Event) : Prop := .took (.portRd (.res 3)) (.word w) ∈ tr

/-- Before the boot slot is chosen. -/
def Opening (tr : List Event) : Prop := ∀ e ∈ tr, e.plain = true

/-- From step 6 on (R460): the slots are chosen. -/
structure Installing (p : Params) (boot : Bool) (w : Word) (tr : List Event) : Prop where
  ordered : Ordered p boot tr
  chosen : Chosen p boot tr
  body : BodyAt w tr

/-- In step 6: the NAND flash is untouched. -/
structure Step6 (p : Params) (boot : Bool) (w : Word) (tr : List Event) : Prop where
  base : Installing p boot w tr
  untouched : ∀ e ∈ tr, e.destroys = none ∧ e.reads = none

/-- After step 6. -/
structure Step6Done (p : Params) (boot : Bool) (w : Word) (tr : List Event) : Prop where
  step : Step6 p boot w tr
  invalidated : ∃ q r : List Event, tr = q ++ .returned (.invalidate !boot) true :: r

/-- In step 7, with the data of m pages written and the spare areas of n. -/
structure Step7 (p : Params) (boot : Bool) (w : Word) (b : NandBlock) (m n : Nat) (tr : List Event) : Prop where
  base : Installing p boot w tr
  block : Invalidated p boot b tr
  unread : ∀ e ∈ tr, e.reads = none
  allOk : AllOk tr
  data : DataWritten p b m tr
  spare : SpareWritten p b n tr

/-- In step 8, with n pages read back. -/
structure Step8 (p : Params) (boot : Bool) (w : Word) (b : NandBlock) (n : Nat) (tr : List Event) : Prop where
  base : Installing p boot w tr
  passed : Step7Passed p b tr
  pages : PagesRead p b n tr

/-- In step 8, with all pages read back, and since then the given events of the host. -/
structure Step8Since (p : Params) (boot : Bool) (w : Word) (b : NandBlock) (L tr : List Event) : Prop where
  step : Step8 p boot w b p.pagesPerBlock tr
  since : ∃ before, BodyAt w before ∧ tr.filter Event.byHost = before ++ L

/-- In step 9, once the install slot is committed. -/
structure Committed (p : Params) (boot : Bool) (w : Word) (tr : List Event) : Prop where
  base : Installing p boot w tr
  committed : ∃ q r : List Event, tr = q ++ .returned (.commit !boot) true :: r

/-- In step 9, while the host waits. -/
structure Asked (p : Params) (boot : Bool) (w : Word) (tr : List Event) : Prop where
  base : Installing p boot w tr
  asked : ∃ q r before between : List Event, tr = q ++ .returned (.commit !boot) true :: r ∧
    r = before ++ .took .waitUser .nothing :: between

/-- In step 9, once the user has answered. -/
structure Answered (p : Params) (boot : Bool) (w : Word) (u : UserEvent) (tr : List Event) : Prop where
  base : Installing p boot w tr
  answered : u = .confirm → ∃ q r : List Event, tr = q ++ .returned (.commit !boot) true :: r ∧ UserConfirmed r

variable {w : Word} {m n : Nat}

theorem Installing.plain (h : Installing p boot w tr) (he : e.plain = true) : Installing p boot w (tr ++ [e]) :=
  ⟨h.ordered.plain he, h.chosen.snoc e, List.mem_append_left _ h.body⟩

theorem Installing.snoc (h : Installing p boot w tr) (he : Placed p boot tr e) : Installing p boot w (tr ++ [e]) :=
  ⟨h.ordered.snoc he, h.chosen.snoc e, List.mem_append_left _ h.body⟩

theorem lasting_opening : Lasting Opening := fun _ _ h he => forall_snoc h he

theorem lasting_installing : Lasting (Installing p boot w) := fun _ _ h he => h.plain he

theorem lasting_step6 : Lasting (Step6 p boot w) := fun _ _ h he =>
  ⟨h.base.plain he, forall_snoc h.untouched ⟨Event.destroys_of_plain he, Event.reads_of_plain he⟩⟩

theorem exists_split_snoc {x : Event} (h : ∃ q r : List Event, tr = q ++ x :: r) (e : Event) :
    ∃ q r : List Event, tr ++ [e] = q ++ x :: r := by
  obtain ⟨q, r, rfl⟩ := h
  exact ⟨q, r ++ [e], by simp⟩

theorem lasting_step6Done : Lasting (Step6Done p boot w) := fun tr e h he =>
  ⟨lasting_step6 tr e h.step he, exists_split_snoc h.invalidated e⟩

theorem lasting_step7 : Lasting (Step7 p boot w b m n) := fun _ e h he =>
  ⟨h.base.plain he, h.block.snoc e, forall_snoc h.unread (Event.reads_of_plain he),
    h.allOk.snoc_of_none (Event.destroys_of_plain he), h.data.snoc e, h.spare.snoc e⟩

theorem lasting_step8 : Lasting (Step8 p boot w b n) := fun _ e h he =>
  ⟨h.base.plain he, h.passed.snoc (Event.destroys_of_plain he), h.pages.snoc e⟩

theorem lasting_committed : Lasting (Committed p boot w) := fun _ e h he =>
  ⟨h.base.plain he, exists_split_snoc h.committed e⟩

theorem lasting_asked : Lasting (Asked p boot w) := by
  rintro _ e ⟨hb, q, _, before, between, rfl, rfl⟩ he
  exact ⟨hb.plain he, q, _, before, between ++ [e], by simp; rfl, by simp⟩

theorem lasting_answered {u : UserEvent} : Lasting (Answered p boot w u) := by
  rintro tr e ⟨hb, h⟩ he
  refine ⟨hb.plain he, fun hu => ?_⟩
  obtain ⟨q, r, rfl, before, between, after, rfl⟩ := h hu
  exact ⟨q, _, by simp; rfl, before, between, after ++ [e], by simp⟩

theorem sound_step8Since {L : List Event} : Sound p (Step8Since p boot w b L) where
  ordered := fun _ h => ⟨boot, h.step.base.ordered⟩
  other := by
    rintro tr e ⟨h, before, hb, hf⟩ he ho
    exact ⟨lasting_step8 tr e h he, before, hb, by simp [hf, ho]⟩

theorem Step8Since.host {L : List Event} (h : Step8Since p boot w b L tr) (he : e.plain = true)
    (ho : e.byHost = true) : Step8Since p boot w b (L ++ [e]) (tr ++ [e]) := by
  obtain ⟨hs, before, hb, hf⟩ := h
  exact ⟨lasting_step8 tr e hs he, before, hb, by simp [hf, ho]⟩

theorem Step8.since (h : Step8 p boot w b p.pagesPerBlock tr) : Step8Since p boot w b [] tr :=
  ⟨h, tr.filter Event.byHost, List.mem_filter.mpr ⟨h.base.body, rfl⟩, by simp⟩

end Events
end Sys2Proof.Machine

/-! # Proofs: the events of the installation

Each part of the host's program, from what is known of the events before it to what is known after it, under every
schedule (45_host_protocols.md R460, R461). -/

namespace Sys2Proof.Machine

section Stages

variable {p : Params} {boot : Bool} {α β : Type}

/-- The parameters, what is known of the registers and the memory, and what is known of the events. -/
def During (p : Params) (H : State → Prop) (T : List Event → Prop) : Stage := fun s tr =>
  s.par = p ∧ H s ∧ T tr

/-- The parameters, and what is known of the events. -/
abbrev Known (p : Params) (T : List Event → Prop) : Stage := During p (fun _ => True) T

/-- Wherever the program ends, the events so far are in order. -/
def InOrder (p : Params) : Ending → Stage := fun _ _ tr => ∃ boot, Ordered p boot tr

/-- The two states have the same arguments, results, memory and coherence. -/
structure SameData (s t : State) : Prop where
  arg : t.arg = s.arg
  res : t.res = s.res
  mem : t.mem = s.mem
  coh : t.coh = s.coh

/-- The condition speaks of the arguments, the results, the memory and the coherence only. -/
def OfData (H : State → Prop) : Prop := ∀ s t : State, SameData s t → H s → H t

theorem ofData_true : OfData fun _ => True := fun _ _ _ h => h

/-- What the device and the user leave as it was. -/
theorem other_next {s t : State} {o : OtherStep} (ho : o.cuts = false) (h : takeAction o.action s.fresh = .next t) :
    t.par = s.par ∧ SameData s t := by
  cases o with
  | interrupt cells nb => cases ho
  | devComplete =>
    obtain ⟨-, rfl⟩ := deviceStep_next h
    exact ⟨rfl, rfl, rfl, rfl, rfl⟩
  | userEvent e =>
    simp only [OtherStep.action, takeAction, userStep, Host.Outcome.next.injEq] at h
    subst h
    split <;> exact ⟨rfl, rfl, rfl, rfl, rfl⟩

theorem plain_other (o : OtherStep) (v : Reply) :
    (Event.took o.action v).plain = true ∧ (Event.took o.action v).byHost = false := by
  cases o <;> exact ⟨rfl, rfl⟩

variable {H : State → Prop} {T T' : List Event → Prop}

theorem Sound.inOrder {tr : List Event} {e : Event} (hT : Sound p T) (h : T tr) (he : e.plain = true) :
    ∃ boot, Ordered p boot (tr ++ [e]) :=
  (hT.ordered tr h).imp fun _ ho => ho.plain he

theorem during_steady (hH : OfData H) (hT : Sound p T) : Steady (During p H T) (InOrder p) where
  other := by
    rintro s t tr o ⟨hp, hs, ht⟩ - ho h
    obtain ⟨hpar, hd⟩ := other_next ho h
    exact ⟨hpar.trans hp, hH _ _ hd hs, hT.other _ _ ht (plain_other o _).1 (plain_other o _).2⟩
  cut := fun _ _ h _ => hT.inOrder h.2.2 rfl
  stuck := fun h _ => hT.ordered _ h.2.2

/-- A simple action. -/
theorem act_known {H' : Reply → State → Prop} {T' : Reply → List Event → Prop} {a : Action}
    (ha : a.simple = true) (hH : OfData H) (hT : Sound p T)
    (h : ∀ {s t : State} {tr : List Event}, s.par = p → H s → T tr → hostStep a s.fresh = .next t → ¬ Marks s t →
      H' t.reply t ∧ T' t.reply (tr ++ [.took a t.reply])) :
    Drv.Always (During p H T) (Drv.act a) (fun v => During p (H' v) (T' v)) (InOrder p) := by
  have hby : a.byHost = true := by cases a <;> first | rfl | cases ha
  refine .act (during_steady hH hT) ?_ ?_
  · rintro s t tr ⟨hp, hs, ht⟩ - hstep hm
    have hn := hostStep_of_takeAction hby hstep
    exact ⟨(takeAction_par hstep).trans hp, h hp hs ht hn.2 hm⟩
  · rintro s t tr i ⟨hp, hs, ht⟩ - hstep - -
    exact hT.inOrder ht (Event.plain_took ha _)

/-- A program of simple actions keeps what lasts. -/
theorem Drv.Built.known {x : Drv α} (hx : x.Built Simple) (hT : Lasting T)
    (ho : ∀ tr, T tr → ∃ boot, Ordered p boot tr) :
    Drv.Always (Known p T) x (fun _ => Known p T) (InOrder p) := by
  refine hx.keeps (during_steady ofData_true (hT.sound ho)) ?_ ?_ ?_
  · rintro a s t tr ha ⟨hp, -, ht⟩ - h -
    exact ⟨(takeAction_par h).trans hp, trivial, hT _ _ ht (Event.plain_took ha _)⟩
  · rintro a s t tr i ha ⟨hp, -, ht⟩ - - - -
    exact (hT.sound ho).inOrder ht (Event.plain_took ha _)
  · exact fun h => h

/-- An event put into the trace. -/
theorem mark_known {e : Event} (h : ∀ tr, T tr → T' (tr ++ [e])) :
    Drv.Always (Known p T) (Drv.mark e) (fun _ => Known p T') (InOrder p) :=
  .mark fun _ _ ⟨hp, hs, ht⟩ => ⟨hp, hs, h _ ht⟩

/-- The parameters are read. -/
theorem par_known {Q : β → Stage} {f : Params → Drv β} (h : Drv.Always (During p H T) (f p) Q (InOrder p)) :
    Drv.Always (During p H T) (Drv.par >>= f) Q (InOrder p) :=
  .par (fun _ _ h => h.1) h

/-- A program that never returns has every result. -/
theorem refuse_known {Q : α → Stage} (hH : OfData H) (hT : Sound p T) :
    Drv.Always (During p H T) Drv.refuse Q (InOrder p) := by
  refine .bind (Q := fun _ _ tr => ∃ boot, Ordered p boot tr) ?_ fun _ =>
    .throw (E := InOrder p) (i := .refused)
  refine .act (during_steady hH hT) ?_ ?_
  · exact fun h _ _ _ => hT.inOrder h.2.2 rfl
  · exact fun h _ _ _ _ => hT.inOrder h.2.2 rfl

/-! ### The operations -/

section Operations

/-- An argument is written. -/
theorem setArg_known {H' : State → Prop} (i : Fin 4) (v : Nat) (hH : OfData H) (hT : Sound p T)
    (h : ∀ s tr, H s → T tr → v < addrTop → H' (s.fresh.setArg i (BitVec.ofNat 32 v)) ∧
      T' (tr ++ [.took (.portWr (.arg i) (BitVec.ofNat 32 v)) .nothing])) :
    Drv.Always (During p H T) (Drv.setArg i v) (fun _ => During p H' T') (InOrder p) := by
  unfold Drv.setArg
  split
  · exact .bind (Q := fun _ _ _ => False) (refuse_known hH hT) fun _ _ h => h.elim
  · next hv =>
    refine .bind (Q := fun _ => During p H' T') (act_known rfl hH hT ?_) fun _ =>
      .pure (Q := fun _ => During p H' T') ()
    intro s t tr _ hs ht hstep _
    cases hstep
    exact h s tr hs ht (by omega)

/-- A port register other than ARGi is read. -/
theorem port_known {H' : Word → State → Prop} {T' : Word → List Event → Prop} {r : PortReg}
    (hr : ∀ s : State, s.markRead r = s) (hH : OfData H) (hT : Sound p T)
    (h : ∀ (s t : State) (tr : List Event) (w : Word), H s → T tr → s.portVal r = .ok w → SameData s t →
      H' w t ∧ T' w (tr ++ [.took (.portRd r) (.word w)])) :
    Drv.Always (During p H T) (Drv.port r)
      (fun v s tr => ∃ w : Word, v = w.toNat ∧ During p (H' w) (T' w) s tr) (InOrder p) := by
  refine .bind (Q := fun v s tr => ∃ w, v = .word w ∧ During p (H' w) (T' w) s tr) ?_ ?_
  · refine .act (during_steady hH hT) ?_ fun h _ _ _ _ => hT.inOrder h.2.2 rfl
    rintro s t tr ⟨hp, hs, ht⟩ - hstep hm
    obtain ⟨-, hn⟩ := hostStep_of_takeAction rfl hstep
    simp only [hostStep, portRead, hr] at hn
    rcases complete_next_cases hn with hn | hn
    · exact absurd (marks_of_raises hn) hm
    · obtain ⟨w, hw, hn⟩ := bind_eq_ok.mp hn
      cases hn
      exact ⟨w, rfl, hp, h s { s.fresh with reply := .word w } tr w hs ht
        (by cases r <;> exact hw) ⟨rfl, rfl, rfl, rfl⟩⟩
  · rintro v r ⟨w, rfl, hw⟩
    exact ⟨w, rfl, hw⟩

/-- Memory is loaded. -/
theorem load_known {H' : List Byte → State → Prop} {T' : List Byte → List Event → Prop} {a n : Nat}
    (hH : OfData H) (hT : Sound p T)
    (h : ∀ (s t : State) (tr : List Event) (bs : List Byte), H s → T tr → s.hostRead a n = .ok bs → SameData s t →
      H' bs t ∧ T' bs (tr ++ [.took (.hstLd a n) (.bytes bs)])) :
    Drv.Always (During p H T) (Drv.load a n) (fun bs => During p (H' bs) (T' bs)) (InOrder p) := by
  refine .bind (Q := fun v s tr => ∃ bs, v = .bytes bs ∧ During p (H' bs) (T' bs) s tr) ?_ ?_
  · refine .act (during_steady hH hT) ?_ fun h _ _ _ _ => hT.inOrder h.2.2 rfl
    rintro s t tr ⟨hp, hs, ht⟩ - hstep hm
    obtain ⟨-, hn⟩ := hostStep_of_takeAction rfl hstep
    rcases complete_next_cases hn with hn | hn
    · exact absurd (marks_of_raises hn) hm
    · obtain ⟨bs, hbs, hn⟩ := bind_eq_ok.mp hn
      cases hn
      exact ⟨bs, rfl, hp, h s { s.fresh with reply := .bytes bs } tr bs hs ht hbs ⟨rfl, rfl, rfl, rfl⟩⟩
  · rintro v r ⟨bs, rfl, hbs⟩
    exact hbs

end Operations

/-! ### The choice of the boot slot -/

section Choice

variable {a n : Nat}

theorem ofData_hostRead {bs : List Byte} : OfData fun s => s.hostRead a n = .ok bs := by
  intro s t hd h
  rw [State.hostRead_eq_ok] at h ⊢
  rw [State.HostReads, State.Holds, hd.mem, hd.coh]
  exact h

/-- The CRC of the n bytes at a is in RES0. -/
def CrcOf (a n : Nat) (s : State) : Prop := ∃ bs, s.hostRead a n = .ok bs ∧ s.res[0] = some (crc32 bs)

/-- An argument register holds the value. -/
def ArgIs (i : Fin 4) (v : Nat) (s : State) : Prop := s.arg[i] = some (BitVec.ofNat 32 v)

theorem ofData_argIs (i : Fin 4) (v : Nat) : OfData (ArgIs i v) := fun s t hd h => by
  rw [ArgIs, hd.arg]
  exact h

theorem argIs_setArg (s : State) (i : Fin 4) (v : Nat) : ArgIs i v (s.fresh.setArg i (BitVec.ofNat 32 v)) :=
  Vector.getElem_set_self ..

theorem ArgIs.setArg {s : State} {i j : Fin 4} {v : Nat} (h : ArgIs i v s) (hij : (j : Nat) ≠ i) (w : Word) :
    ArgIs i v (s.fresh.setArg j w) := by
  have hset : (s.fresh.setArg j w).arg[i] = s.arg[i] := Vector.getElem_set_ne j.isLt i.isLt hij
  rw [ArgIs, hset]
  exact h

/-- `crc32` (40_crc.md R212) returns the CRC of the bytes that the host reads. -/
theorem crc32Op_known (hT : Lasting T) (ho : ∀ tr, T tr → ∃ boot, Ordered p boot tr) (hn : n < addrTop)
    (ha : a < addrTop) :
    Drv.Always (Known p T) (crc32Op a n)
      (fun c => During p (fun s => ∃ bs, s.hostRead a n = .ok bs ∧ c = (crc32 bs).toNat) T) (InOrder p) := by
  have hS := hT.sound ho
  have h0 : OfData (ArgIs 0 a) := ofData_argIs 0 a
  have h1 : OfData fun s => ArgIs 0 a s ∧ ArgIs 1 n s := fun s t hd h =>
    ⟨h0 s t hd h.1, ofData_argIs 1 n s t hd h.2⟩
  have h2 : OfData (CrcOf a n) := fun s t hd ⟨bs, hbs, hr⟩ =>
    ⟨bs, ofData_hostRead s t hd hbs, by rwa [hd.res]⟩
  refine Drv.Always.bind (Q := fun _ => During p (ArgIs 0 a) T) (setArg_known 0 a ofData_true hS
    fun s tr _ ht _ => ⟨argIs_setArg s 0 a, hT _ _ ht rfl⟩) fun _ => ?_
  refine Drv.Always.bind (Q := fun _ => During p (fun s => ArgIs 0 a s ∧ ArgIs 1 n s) T) (setArg_known 1 n h0 hS
    fun s tr hs ht _ => ⟨⟨hs.setArg (by decide) _, argIs_setArg s 1 n⟩, hT _ _ ht rfl⟩) fun _ => ?_
  refine Drv.Always.bind (Q := fun _ => During p (CrcOf a n) T) ?_ fun _ => ?_
  · refine .bind (Q := fun _ => During p (CrcOf a n) T) (act_known rfl h1 hS ?_) fun _ =>
      .pure (Q := fun _ => During p (CrcOf a n) T) ()
    rintro s t tr - ⟨harg0, harg1⟩ ht hstep hm
    rcases execCrcCompute_next (exec_of_hostStep (i := .crcCompute) (by decide) hstep) with
      hr | ⟨a', n', bs, ha', hn', hl, hr, rfl⟩
    · exact absurd (marks_of_raises hr) hm
    · obtain rfl := Option.some.inj (harg0.symm.trans ha')
      obtain rfl := Option.some.inj (harg1.symm.trans hn')
      rw [BitVec.toNat_ofNat, Nat.mod_eq_of_lt (show a < 2 ^ 32 from ha)] at hr
      rw [BitVec.toNat_ofNat, Nat.mod_eq_of_lt (show n < 2 ^ 32 from hn)] at hl
      exact ⟨⟨bs, State.hostRead_eq_ok.mpr ⟨hl, hr⟩, Vector.getElem_set_self ..⟩, hT _ _ ht rfl⟩
  · refine (port_known (r := .res 0) (fun _ => rfl) h2 hS (H' := fun w s => ∃ bs, s.hostRead a n = .ok bs ∧
      w = crc32 bs) (T' := fun _ => T) ?_).post ?_
    · rintro s t tr w ⟨bs, hbs, hres⟩ ht hw hd
      rw [State.portVal, show s.res[(0 : Fin 8)] = some (crc32 bs) from hres, written_some] at hw
      exact ⟨⟨bs, ofData_hostRead s t hd hbs, (Except.ok.inj hw).symm⟩, hT _ _ ht rfl⟩
    · rintro v s tr ⟨w, rfl, hp, ⟨bs, hbs, rfl⟩, ht⟩
      exact ⟨hp, ⟨bs, hbs, rfl⟩, ht⟩

/-- The first bytes of what the host reads. -/
theorem hostRead_take {s : State} {bs r : List Byte} {k : Nat} (h : s.hostRead a k = .ok bs)
    (hr : s.hostRead a n = .ok r) (hk : k ≤ n) : r.take k = bs := by
  obtain ⟨hl, -, hh, -⟩ := State.hostRead_eq_ok.mp h
  obtain ⟨hl', -, hh', -⟩ := State.hostRead_eq_ok.mp hr
  refine List.ext_getElem (by rw [List.length_take]; omega) fun i h1 h2 => ?_
  rw [List.getElem_take]
  exact Option.some.inj ((hh' i (by omega)).symm.trans (hh i h2))

/-- The check of a slot's record (R441) returns whether the record loaded is valid, and the record. -/
theorem checkRec_known (slot : Bool) (hT : Lasting T) (ho : ∀ tr, T tr → ∃ boot, Ordered p boot tr) :
    Drv.Always (Known p T) (checkRec slot)
      (fun v s tr => ∃ r, v = (recValid r, r) ∧
        Known p (fun tr => T tr ∧ .took (.hstLd (recAddr p slot) 16) (.bytes r) ∈ tr) s tr) (InOrder p) := by
  have ha : recAddr p slot < addrTop := by
    unfold recAddr
    split
    · exact p.recAddr1.isLt
    · exact p.recAddr0.isLt
  refine par_known ((crc32Op_known hT ho (by decide) ha).bind fun c => ?_)
  have hH : OfData fun s => ∃ bs, s.hostRead (recAddr p slot) 12 = .ok bs ∧ c = (crc32 bs).toNat :=
    fun s t hd ⟨bs, hbs, hc⟩ => ⟨bs, ofData_hostRead s t hd hbs, hc⟩
  refine Drv.Always.bind (x := loadRec slot) (par_known (load_known (a := recAddr p slot) (n := 16)
    (H' := fun r _ => c = (crc32 (r.take 12)).toNat)
    (T' := fun r tr => T tr ∧ .took (.hstLd (recAddr p slot) 16) (.bytes r) ∈ tr) hH (hT.sound ho) ?_)) ?_
  · rintro s t tr r ⟨bs, hbs, hc⟩ ht hr -
    rw [hostRead_take hbs hr (by omega)]
    exact ⟨hc, hT _ _ ht rfl, by simp⟩
  · rintro r x ⟨hp, rfl, ht⟩
    exact ⟨r, rfl, hp, trivial, ht⟩

theorem Lasting.mem (hT : Lasting T) (x : Event) : Lasting fun tr => T tr ∧ x ∈ tr :=
  fun tr e ⟨ht, hx⟩ he => ⟨hT tr e ht he, List.mem_append_left _ hx⟩

/-- `current_slot` (R451) returns the slot that the records loaded select. -/
theorem currentSlot_known (hT : Lasting T) (ho : ∀ tr, T tr → ∃ boot, Ordered p boot tr) :
    Drv.Always (Known p T) currentSlot
      (fun v => Known p fun tr => T tr ∧ ∀ boot, v = some boot → Chosen p boot tr) (InOrder p) := by
  refine (checkRec_known false hT ho).bind fun v0 => .exists fun r0 => .of_each fun s0 tr0 hv0 => ?_
  obtain ⟨rfl, hk0⟩ := hv0
  refine Drv.Always.pre (P := Known p fun tr => T tr ∧ .took (.hstLd (recAddr p false) 16) (.bytes r0) ∈ tr) ?_
    (by rintro s tr ⟨rfl, rfl⟩; exact hk0)
  refine (checkRec_known true (hT.mem _) fun tr h => ho tr h.1).bind fun v1 => .exists fun r1 =>
    .of_each fun s1 tr1 hv1 => ?_
  obtain ⟨rfl, hp, -, ⟨ht, hm0⟩, hm1⟩ := hv1
  rintro r ⟨rfl, rfl⟩
  exact ⟨hp, trivial, ht, fun boot hb => ⟨r0, r1, _, hm0, hm1, hb⟩⟩

end Choice

/-! ### The store -/

section Store

variable {c : StoreCall}

/-- The results of the program, whatever the run. -/
def Drv.Gives (x : Drv α) (R : α → Prop) : Prop :=
  Drv.Always (fun _ _ => True) x (fun a _ _ => R a) fun _ _ _ => True

theorem Drv.gives_true (x : Drv α) : x.Gives fun _ => True := by
  intro r _
  dsimp only
  split <;> trivial

theorem Drv.Gives.bind {x : Drv α} {f : α → Drv β} {R : β → Prop} (h : ∀ a, (f a).Gives R) : (x >>= f).Gives R :=
  Drv.Always.bind x.gives_true fun a => (h a).pre fun _ _ _ => trivial

theorem Drv.Gives.pure {a : α} {R : α → Prop} (h : R a) : (Pure.pure a : Drv α).Gives R := fun _ _ => h

/-- Both what lasts and what a program gives. -/
theorem Drv.Always.gives {P : Stage} {x : Drv α} {Q : α → Stage} {E : Ending → Stage} {R : α → Prop}
    (hx : Drv.Always P x Q E) (hR : x.Gives R) : Drv.Always P x (fun a s tr => R a ∧ Q a s tr) E := by
  intro r hr
  have h1 := hx r hr
  have h2 := hR r trivial
  rcases hout : x.out r with ⟨i | a, r'⟩ <;> rw [hout] at h1 h2
  · exact h1
  · exact ⟨h2, h1⟩

/-- Whether a store operation returned (OK, 16) as its trace says. -/
def returnedOk (v : Except ResultCode Nat) : Bool :=
  match v with
  | .ok n => n == 16
  | .error _ => false

/-- The result is no success but (OK, 16). -/
def OkIs16 (v : Except ResultCode Nat) : Prop := ∀ n, v = .ok n → returnedOk v = true

theorem refuse_gives {R : α → Prop} : (Drv.refuse : Drv α).Gives R := .bind fun _ _ _ => trivial

theorem eepWrite_gives (off src : Nat) : (eepWrite off 8 src).Gives OkIs16 := by
  unfold eepWrite
  split
  · refine .bind fun _ => .bind fun ws => ?_
    split
    · exact .pure fun _ h => nomatch h
    · refine .bind fun _ => .bind fun same => ?_
      split
      · exact .pure fun _ _ => rfl
      · exact .pure fun _ h => nomatch h
  · exact refuse_gives

theorem persist_gives (slot : Bool) : (persist slot).Gives OkIs16 := .bind fun _ => .bind fun _ => eepWrite_gives _ _

/-- A durable operation, its call and its return in the trace. -/
theorem call_known {x : Drv (Except ResultCode Nat)} {T1 T2 : List Event → Prop} (hx : x.Built Simple)
    (hR : x.Gives OkIs16) (hcall : ∀ tr, T tr → T1 (tr ++ [.called c])) (hT1 : Lasting T1)
    (ho : ∀ tr, T1 tr → ∃ boot, Ordered p boot tr) (hret : ∀ tr, T1 tr → T2 (tr ++ [.returned c true])) :
    Drv.Always (Known p T) (Drv.call c x)
      (fun v s tr => (∃ n, v = .ok n) ∧ Known p T2 s tr ∨ (∃ k, v = .error k) ∧ Known p T1 s tr) (InOrder p) := by
  refine (mark_known hcall).bind fun _ => ((hx.known hT1 ho).gives hR).bind fun v => ?_
  refine Drv.Always.bind (Q := fun _ s tr =>
    (∃ n, v = .ok n) ∧ Known p T2 s tr ∨ (∃ k, v = .error k) ∧ Known p T1 s tr) ?_ fun _ => .pure (Q := fun v s tr =>
    (∃ n, v = .ok n) ∧ Known p T2 s tr ∨ (∃ k, v = .error k) ∧ Known p T1 s tr) v
  refine .mark ?_
  rintro s tr ⟨h16, hp, -, ht⟩
  cases v with
  | error k => exact .inr ⟨⟨k, rfl⟩, hp, trivial, hT1 _ _ ht rfl⟩
  | ok n =>
    have hn : (n == 16) = true := h16 n rfl
    refine .inl ⟨⟨n, rfl⟩, hp, trivial, ?_⟩
    show T2 (tr ++ [.returned c (n == 16)])
    rw [hn]
    exact hret tr ht

/-- What `invalidate` does between its call and its return. -/
def invalidateBody (slot : Bool) : Drv (Except ResultCode Nat) := do
  Drv.store (recAddr (← Drv.par) slot + 0xC) [0#8, 0#8, 0#8, 0#8]
  persist slot

theorem invalidate_eq (slot : Bool) : invalidate slot = Drv.call (.invalidate slot) (invalidateBody slot) := rfl

theorem invalidateBody_built (slot : Bool) : (invalidateBody slot).Built Simple :=
  .bind .par fun _ => .bind (store_built _ _) fun _ => persist_built slot

theorem invalidateBody_gives (slot : Bool) : (invalidateBody slot).Gives OkIs16 :=
  .bind fun _ => .bind fun _ => persist_gives slot

/-- What `commit` does between its call and its return. -/
def commitBody (slot : Bool) (version : Nat) : Drv (Except ResultCode Nat) := do
  let addr := recAddr (← Drv.par) slot
  if 0xFFFF < version then Drv.refuse
  Drv.store (addr + 0x2) (toLE 2 version)
  Drv.store (addr + 0x4) (List.replicate 8 0#8)
  let c ← crc32Op addr 12
  Drv.store (addr + 0xC) (toLE 4 c)
  persist slot

theorem commit_eq (slot : Bool) (version : Nat) :
    commit slot version = Drv.call (.commit slot) (commitBody slot version) := rfl

theorem commitBody_built (slot : Bool) (version : Nat) : (commitBody slot version).Built Simple := by
  refine .bind .par fun par => ?_
  have h : (do
      Drv.store (recAddr par slot + 0x2) (toLE 2 version)
      Drv.store (recAddr par slot + 0x4) (List.replicate 8 0#8)
      let c ← crc32Op (recAddr par slot) 12
      Drv.store (recAddr par slot + 0xC) (toLE 4 c)
      persist slot).Built Simple :=
    .bind (store_built _ _) fun _ => .bind (store_built _ _) fun _ => .bind (crc32Op_built _ _).simple fun _ =>
      .bind (store_built _ _) fun _ => persist_built slot
  dsimp only
  split
  · exact .bind refuse_built.simple fun _ => h
  · exact h

theorem commitBody_gives (slot : Bool) (version : Nat) : (commitBody slot version).Gives OkIs16 := by
  refine .bind fun par => ?_
  dsimp only
  split
  · exact .bind fun _ => .bind fun _ => .bind fun _ => .bind fun _ => .bind fun _ => persist_gives slot
  · exact .bind fun _ => .bind fun _ => .bind fun _ => .bind fun _ => persist_gives slot

end Store
end Stages
end Sys2Proof.Machine

/-! # Proofs: the installation, step after step

The NAND passes, the verification, the retirement and the whole program, each with what is known of the events after
it (45_host_protocols.md R460), and the ordering obligations (R475-R478). -/

namespace Sys2Proof.Machine

section Installation

variable {p : Params} {boot : Bool} {w : Word} {b : NandBlock} {α β : Type} {T A : List Event → Prop}

/-- The events are in order, and if v is set, A is known of them. -/
def Provided (p : Params) (boot : Bool) (v : Bool) (A : List Event → Prop) (tr : List Event) : Prop :=
  Ordered p boot tr ∧ (v = true → A tr)

/-- The events are in order. -/
def Settled (p : Params) (tr : List Event) : Prop := ∃ boot, Ordered p boot tr

theorem Drv.Always.done {P : Stage} {Q : α → Stage} {E : Ending → Stage} {a : α} (h : ∀ s tr, P s tr → Q a s tr) :
    Drv.Always P (Pure.pure a) Q E := Drv.Always.pre (.pure a) h

/-- A condition that one of several holds. -/
theorem Drv.Always.either {P P' : Stage} {x : Drv α} {Q : α → Stage} {E : Ending → Stage} (h : Drv.Always P x Q E)
    (h' : Drv.Always P' x Q E) : Drv.Always (fun s tr => P s tr ∨ P' s tr) x Q E :=
  fun r hr => hr.elim (h r) (h' r)

/-- A part of the condition that is no matter of the machine. -/
theorem Drv.Always.given {P : Stage} {x : Drv α} {Q : α → Stage} {E : Ending → Stage} {φ : Prop}
    (h : φ → Drv.Always P x Q E) : Drv.Always (fun s tr => φ ∧ P s tr) x Q E :=
  fun r hr => h hr.1 r hr.2

theorem Known.settled (h : ∀ tr, T tr → Settled p tr) {s : State} {tr : List Event} (hk : Known p T s tr) :
    Known p (Settled p) s tr := ⟨hk.1, trivial, h _ hk.2.2⟩

/-! ### NAND calls -/

/-- A NAND call. -/
theorem nand_known {a : NandResult → List Byte → Action} {T' : NandResult → List Event → Prop}
    (hby : ∀ r bytes, (a r bytes).byHost = true) (hT : Sound p T)
    (hplaced : ∀ tr r bytes v, T tr → Settled p (tr ++ [.took (a r bytes) v]))
    (hok : ∀ (s t : State) (tr : List Event) (r : NandResult) (bytes : List Byte), s.par = p → T tr →
      hostStep (a r bytes) s = .next t → ¬ Marks s t →
      ∃ r', t.reply = .nand r' ∧ T' r' (tr ++ [.took (a r bytes) (.nand r')])) :
    Drv.Always (Known p T) (Drv.nand a) (fun r => Known p (T' r)) (InOrder p) := by
  refine .nand (during_steady ofData_true hT) ?_ ?_
  · rintro s t tr r bytes ⟨hp, -, ht⟩ - hstep hm
    obtain ⟨r', hr', ht'⟩ := hok s.fresh t tr r bytes hp ht (hostStep_of_takeAction (hby r bytes) hstep).2 hm
    exact ⟨r', hr', (takeAction_par hstep).trans hp, trivial, ht'⟩
  · rintro s t tr i r bytes ⟨-, -, ht⟩ - - - -
    exact hplaced tr r bytes _ ht

theorem nandOk_iff {r : NandResult} : nandOk r = true ↔ r = .ok := beq_iff_eq

/-- A call whose reply says whether it worked. -/
theorem nandDone_known {a : Bool → Action} (hby : ∀ ok, (a ok).byHost = true) (hT : Sound p T)
    (hplaced : ∀ tr ok v, T tr → Ordered p boot (tr ++ [.took (a ok) v]))
    (hreply : ∀ (s t : State) (ok : Bool), s.par = p → hostStep (a ok) s = .next t → ¬ Marks s t →
      t.reply = .nand (nandResult ok))
    (hA : ∀ tr, T tr → A (tr ++ [.took (a true) (.nand .ok)])) :
    Drv.Always (Known p T) (Drv.nand fun r _ => a (nandOk r)) (fun r => Known p (Provided p boot (nandOk r) A))
      (InOrder p) := by
  refine nand_known (fun r _ => hby _) hT (fun tr r _ v ht => ⟨boot, hplaced tr _ v ht⟩) ?_
  intro s t tr r bytes hp ht hstep hm
  refine ⟨_, hreply s t _ hp hstep hm, hplaced tr _ _ ht, fun h => ?_⟩
  cases hr : nandOk r with
  | true => exact hA tr ht
  | false => rw [hr] at h; cases h

theorem erase_reply {s t : State} {ok : Bool} (h : hostStep (.nandErase b ok) s = .next t) (hm : ¬ Marks s t) :
    t.reply = .nand (nandResult ok) := by
  rcases complete_next_cases (s := s) (c := s.nandErase b ok) h with h | h
  · exact absurd (marks_of_raises h) hm
  · cases h
    rfl

/-- A call on a page that the block has. -/
theorem nandPage_next {s t : State} {page : Nat} {c : Except Halt State} (hp : page < s.par.pagesPerBlock)
    (h : nandPage s page c = .next t) (hm : ¬ Marks s t) : c = .ok t := by
  rw [nandPage, if_pos hp] at h
  exact (complete_next_cases h).resolve_left fun h => hm (marks_of_raises h)

theorem write_reply {s t : State} {page : Nat} {data spare : Option Nat} {ok : Bool} (hp : page < s.par.pagesPerBlock)
    (h : hostStep (.nandWrite b page data spare ok) s = .next t) (hm : ¬ Marks s t) :
    t.reply = .nand (nandResult ok) := by
  rcases nandWrite_eq_ok (nandPage_next hp h hm) with rfl | ⟨_, _, -, -, -, -, rfl⟩ <;> rfl

theorem read_reply {s t : State} {page dst : Nat} {r : NandResult} {bytes : List Byte}
    (hp : page < s.par.pagesPerBlock) (h : hostStep (.nandRead b page dst r bytes) s = .next t) (hm : ¬ Marks s t) :
    t.reply = .nand r := by
  rcases nandRead_eq_ok (nandPage_next hp h hm) with ⟨-, _, -, -, -, rfl⟩ | ⟨-, rfl⟩ <;> rfl

/-! ### Step 7 -/

section Flash

variable {m n : Nat} {tr : List Event}

theorem sound_step7 : Sound p (Step7 p boot w b m n) := lasting_step7.sound fun _ h => ⟨boot, h.base.ordered⟩

theorem Step7.placed (h : Step7 p boot w b m n tr) {a : Action} {v : Reply}
    (he : (Event.took a v).destroys = some b) :
    Placed p boot tr (.took a v) := placed_of_destroys h.base.chosen h.block h.unread he

/-- After an erase or a write that returned OK. -/
theorem Step7.write (h : Step7 p boot w b m n tr) {m' n' : Nat} (a : Action)
    (he : (Event.took a (.nand .ok)).destroys = some b) (hr : (Event.took a (.nand .ok)).reads = none)
    (hd : DataWritten p b m' (tr ++ [.took a (.nand .ok)])) (hs : SpareWritten p b n' (tr ++ [.took a (.nand .ok)])) :
    Step7 p boot w b m' n' (tr ++ [.took a (.nand .ok)]) :=
  ⟨h.base.snoc (h.placed he), h.block.snoc _, forall_snoc h.unread hr, h.allOk.snoc_ok a, hd, hs⟩

theorem dataPass_known (n k : Nat) (hk : k + n ≤ p.pagesPerBlock) :
    Drv.Always (Known p (Step7 p boot w b k 0)) (dataPass b p.imgAddr.toNat k n)
      (fun v => Known p (Provided p boot v (Step7 p boot w b (k + n) 0))) (InOrder p) := by
  induction n generalizing k with
  | zero => exact .done fun s tr ⟨hp, _, ht⟩ => ⟨hp, trivial, ht.base.ordered, fun _ => ht⟩
  | succ n ih =>
    refine (nandDone_known (A := Step7 p boot w b (k + 1) 0)
      (a := fun ok => .nandWrite b k (some (p.imgAddr.toNat + 2048 * k)) none ok) (fun _ => rfl) sound_step7
      (fun tr _ _ ht => ht.base.ordered.snoc (ht.placed rfl))
      (fun s t ok hp h hm => write_reply (by rw [hp]; omega) h hm)
      (fun tr ht => ht.write _ rfl rfl ht.data.next (ht.spare.snoc _))).bind fun r => ?_
    cases hr : nandOk r with
    | true =>
      refine (ih (k + 1) (by omega)).mono (fun s tr ⟨hp, _, ht⟩ => ⟨hp, trivial, ht.2 rfl⟩) fun v s tr h => ?_
      rwa [show k + (n + 1) = k + 1 + n by omega]
    | false => exact .done fun s tr ⟨hp, _, ht⟩ => ⟨hp, trivial, ht.1, fun h => nomatch h⟩

theorem sparePass_known (n k : Nat) (hk : k + n ≤ p.pagesPerBlock) :
    Drv.Always (Known p (Step7 p boot w b m k)) (sparePass b p.imgAddr.toNat p.spareBuf.toNat k n)
      (fun v => Known p (Provided p boot v (Step7 p boot w b m (k + n)))) (InOrder p) := by
  induction n generalizing k with
  | zero => exact .done fun s tr ⟨hp, _, ht⟩ => ⟨hp, trivial, ht.base.ordered, fun _ => ht⟩
  | succ n ih =>
    refine ((spareAssemble_built _ _).known lasting_step7 fun _ h => ⟨boot, h.base.ordered⟩).bind fun _ => ?_
    refine (nandDone_known (A := Step7 p boot w b m (k + 1))
      (a := fun ok => .nandWrite b k none (some p.spareBuf.toNat) ok) (fun _ => rfl) sound_step7
      (fun tr _ _ ht => ht.base.ordered.snoc (ht.placed rfl))
      (fun s t ok hp h hm => write_reply (by rw [hp]; omega) h hm)
      (fun tr ht => ht.write _ rfl rfl (ht.data.snoc _) ht.spare.next)).bind fun r => ?_
    cases hr : nandOk r with
    | true =>
      refine (ih (k + 1) (by omega)).mono (fun s tr ⟨hp, _, ht⟩ => ⟨hp, trivial, ht.2 rfl⟩) fun v s tr h => ?_
      rwa [show k + (n + 1) = k + 1 + n by omega]
    | false => exact .done fun s tr ⟨hp, _, ht⟩ => ⟨hp, trivial, ht.1, fun h => nomatch h⟩

/-- Step 7 (R460). -/
theorem flashSlot_known :
    Drv.Always (Known p (Step7 p boot w b 0 0)) (flashSlot b)
      (fun v => Known p (Provided p boot v (Step7 p boot w b p.pagesPerBlock p.pagesPerBlock))) (InOrder p) := by
  have hno : ∀ {A : List Event → Prop} {s : State} {tr : List Event},
      Known p (Provided p boot false A) s tr →
        Known p (Provided p boot false (Step7 p boot w b p.pagesPerBlock p.pagesPerBlock)) s tr :=
    fun ⟨hp, _, ht⟩ => ⟨hp, trivial, ht.1, fun h => nomatch h⟩
  have hyes : ∀ {A : List Event → Prop} (s : State) (tr : List Event),
      Known p (Provided p boot true A) s tr → Known p A s tr := fun _ _ ⟨hp, _, ht⟩ => ⟨hp, trivial, ht.2 rfl⟩
  refine par_known ((nandDone_known (A := Step7 p boot w b 0 0) (a := fun ok => .nandErase b ok) (fun _ => rfl)
    sound_step7 (fun tr _ _ ht => ht.base.ordered.snoc (ht.placed rfl)) (fun s t ok _ h hm => erase_reply h hm)
    (fun tr ht => ht.write _ rfl rfl (ht.data.snoc _) (ht.spare.snoc _))).bind fun r => ?_)
  cases hr : nandOk r with
  | false => exact .done fun s tr h => hno h
  | true =>
    refine Drv.Always.bind ((dataPass_known p.pagesPerBlock 0 (by omega)).pre hyes) fun v => ?_
    rw [Nat.zero_add]
    cases v with
    | false => exact .done fun s tr h => hno h
    | true =>
      have := (sparePass_known (b := b) (boot := boot) (w := w) (m := p.pagesPerBlock) p.pagesPerBlock 0
        (by omega)).pre hyes
      rwa [Nat.zero_add] at this

end Flash

/-! ### Step 8 -/

section Verify

variable {L : List Event}

theorem readBackPass_known (n k : Nat) (hk : k + n ≤ p.pagesPerBlock) :
    Drv.Always (Known p (Step8 p boot w b k)) (readBackPass b p.rbAddr.toNat k n)
      (fun v => Known p (Provided p boot v.isNone (Step8 p boot w b (k + n)))) (InOrder p) := by
  induction n generalizing k with
  | zero => exact .done fun s tr ⟨hp, _, ht⟩ => ⟨hp, trivial, ht.base.ordered, fun _ => ht⟩
  | succ n ih =>
    refine Drv.Always.bind (Q := fun r => Known p (Provided p boot (nandOk r) (Step8 p boot w b (k + 1))))
      (nand_known (fun _ _ => rfl) (lasting_step8.sound fun _ h => ⟨boot, h.base.ordered⟩)
        (fun tr r bytes v ht => ⟨boot, ht.base.ordered.snoc (placed_of_reads ht.passed _ _ _ _ _)⟩) ?_) fun r => ?_
    · intro s t tr r bytes hp ht hstep hm
      have hplaced : Placed p boot tr (.took (.nandRead b k (p.rbAddr.toNat + 2048 * k) r bytes) (.nand r)) :=
        placed_of_reads ht.passed _ _ _ _ _
      refine ⟨r, read_reply (by rw [hp]; omega) hstep hm, ht.base.ordered.snoc hplaced, fun hr => ?_⟩
      obtain rfl := nandOk_iff.mp hr
      exact ⟨ht.base.snoc hplaced, ht.passed.snoc rfl, ht.pages.next bytes⟩
    · cases r with
      | ok =>
        refine (ih (k + 1) (by omega)).mono (fun s tr ⟨hp, _, ht⟩ => ⟨hp, trivial, ht.2 rfl⟩) fun v s tr h => ?_
        rwa [show k + (n + 1) = k + 1 + n by omega]
      | eccUncorrectable | ioFail => exact .done fun s tr ⟨hp, _, ht⟩ => ⟨hp, trivial, ht.1, fun h => nomatch h⟩

/-- Only the word 0 is the code OK. -/
theorem codeOf_ok {v : Nat} (h : codeOf v = .ok) : v = 0 := by
  unfold codeOf at h
  cases hf : commandCodes.find? (fun c => c.toByte.toNat == v) with
  | none => rw [hf] at h; cases h
  | some c =>
    rw [hf] at h
    have hv := List.find?_some hf
    rw [show c = .ok from h] at hv
    exact (beq_iff_eq.mp hv).symm

/-- The events of `ctr_verify` on the read-back buffer, with the status word that it gave. -/
def verifyEvents (p : Params) (status : Word) : List Event :=
  [.took (.portWr (.arg 0) p.rbAddr) .nothing,
   .took (.portWr (.arg 1) (BitVec.ofNat 32 p.imgLen)) .nothing,
   .took (.portWr .cmd 0x51000000#32) .nothing,
   .took (.portRd .status) (.word status)]

/-- `ctr_verify` of the read-back buffer, in the trace. -/
theorem ctrVerifyOp_known :
    Drv.Always (Known p (Step8Since p boot w b [])) (ctrVerifyOp p.rbAddr.toNat p.imgLen)
      (fun c s tr => ∃ status : Word, c = codeOf status.toNat ∧
        Known p (Step8Since p boot w b (verifyEvents p status)) s tr) (InOrder p) := by
  have hset : ∀ {L : List Event} (i : Fin 4) (v : Nat),
      Drv.Always (Known p (Step8Since p boot w b L)) (Drv.setArg i v) (fun _ => Known p (Step8Since p boot w b
        (L ++ [.took (.portWr (.arg i) (BitVec.ofNat 32 v)) .nothing]))) (InOrder p) := fun i v =>
    setArg_known i v ofData_true sound_step8Since fun s tr _ ht _ => ⟨trivial, ht.host rfl rfl⟩
  refine (hset 0 p.rbAddr.toNat).bind fun _ => (hset 1 p.imgLen).bind fun _ => ?_
  rw [BitVec.ofNat_toNat, BitVec.setWidth_eq]
  refine Drv.Always.bind (Q := fun _ => Known p (Step8Since p boot w b (
    [] ++ [.took (.portWr (.arg 0) p.rbAddr) .nothing] ++
    [.took (.portWr (.arg 1) (BitVec.ofNat 32 p.imgLen)) .nothing] ++
    [.took (.portWr .cmd 0x51000000#32) .nothing]))) ?_ fun _ => ?_
  · refine .bind (Q := fun _ => Known p (Step8Since p boot w b _)) (act_known rfl ofData_true sound_step8Since ?_)
      fun _ => .pure (Q := fun _ => Known p (Step8Since p boot w b _)) ()
    intro s t tr _ _ ht hstep _
    have hreply : t.reply = .nothing := by
      have hexec := exec_of_hostStep (i := .ctrVerify) (by decide) hstep
      obtain ⟨⟨-, -, -, -, -, -, hreply, -⟩, -⟩ := unitsKeepToTheirState _ _ _ hexec
      exact hreply
    rw [hreply]
    exact ⟨trivial, ht.host rfl rfl⟩
  · refine (port_known (r := .status) (fun _ => rfl) ofData_true sound_step8Since (H' := fun _ _ => True)
      (T' := fun status => Step8Since p boot w b (verifyEvents p status))
      fun s t tr status _ ht _ _ => ⟨trivial, ht.host rfl rfl⟩).bind ?_
    rintro _ r ⟨status, rfl, hk⟩
    exact ⟨status, rfl, hk⟩

/-- Step 8 (R460). -/
theorem verifySlot_known :
    Drv.Always (Known p (Step8 p boot w b 0)) (verifySlot b w.toNat)
      (fun v => Known p (Provided p boot v.isNone fun tr => Installing p boot w tr ∧ Step8Passed p b tr))
      (InOrder p) := by
  have hfail : ∀ {L : List Event} {s : State} {tr : List Event} (c : ResultCode),
      Known p (Step8Since p boot w b L) s tr →
      Known p (Provided p boot (some c).isNone fun tr => Installing p boot w tr ∧ Step8Passed p b tr) s tr :=
    fun c ⟨hp, _, ht⟩ => ⟨hp, trivial, ht.step.base.ordered, fun h => nomatch h⟩
  refine par_known ((readBackPass_known p.pagesPerBlock 0 (by omega)).bind fun v => ?_)
  rw [Nat.zero_add]
  cases v with
  | some c => exact .done fun s tr ⟨hp, _, ht⟩ => ⟨hp, trivial, ht.1, fun h => nomatch h⟩
  | none =>
    refine Drv.Always.bind (ctrVerifyOp_known.pre fun s tr ⟨hp, _, ht⟩ => ⟨hp, trivial, (ht.2 rfl).since⟩)
      fun c => .exists fun status => .given fun hc => ?_
    split
    · exact .done fun s tr h => hfail _ h
    · next hok =>
      have hzero : status = 0#32 := BitVec.eq_of_toNat_eq (codeOf_ok (hc.symm.trans (not_not.mp hok)))
      subst hzero
      refine (load_known (H' := fun _ _ => True) (T' := fun bs => Step8Since p boot w b
        (verifyEvents p 0#32 ++ [.took (.hstLd p.rbAddr.toNat w.toNat) (.bytes bs)])) ofData_true sound_step8Since
        fun s t tr bs _ ht _ _ => ⟨trivial, ht.host rfl rfl⟩).bind fun rb => ?_
      refine (load_known (H' := fun _ _ => True) (T' := fun bs => Step8Since p boot w b
        (verifyEvents p 0#32 ++ [.took (.hstLd p.rbAddr.toNat w.toNat) (.bytes rb)] ++
          [.took (.hstLd p.imgAddr.toNat w.toNat) (.bytes bs)])) ofData_true sound_step8Since
        fun s t tr bs _ ht _ _ => ⟨trivial, ht.host rfl rfl⟩).bind fun img => ?_
      split
      · next heq =>
        subst heq
        refine .done ?_
        rintro s tr ⟨hp, -, hs, before, hb, hf⟩
        exact ⟨hp, trivial, hs.base.ordered, fun _ => ⟨hs.base, hs.pages, before, w, rb, hb, hf⟩⟩
      · exact .done fun s tr h => hfail _ h

end Verify

/-! ### Step 9 -/

section Retire

/-- The wait for the user, through which what lasts stays known. -/
theorem waitUser_known {M : List Event → Prop} {A : UserEvent → List Event → Prop} (hT : Lasting T)
    (hM : Lasting M) (hA : ∀ u, Lasting (A u)) (hT0 : ∀ tr, T tr → Settled p tr) (hM0 : ∀ tr, M tr → Settled p tr)
    (hA0 : ∀ u tr, A u tr → Settled p tr) (hwait : ∀ tr, T tr → M (tr ++ [.took .waitUser .nothing]))
    (huser : ∀ u tr, M tr → A u (tr ++ [.took (.userEvent u) (.user u)])) :
    Drv.Always (Known p T) Drv.waitUser (fun u => Known p (A u)) (InOrder p) := by
  refine .waitUser (M := fun s tr => s.waiting = true ∧ Known p M s tr)
    (during_steady ofData_true (hT.sound hT0)) ?_ (fun u => during_steady ofData_true ((hA u).sound (hA0 u))) ?_
  · exact {
      waiting := fun h => h.1
      device := fun ⟨hw, hp, _, ht⟩ _ => ⟨hw, hp, trivial, hM _ _ ht rfl⟩
      user := fun u ⟨_, hp, _, ht⟩ => ⟨hp, trivial, huser u _ ht⟩
      cut := fun _ _ ⟨_, _, _, ht⟩ _ => (hM.sound hM0).inOrder ht rfl
      stuck := fun ⟨_, _, _, ht⟩ _ => hM0 _ ht }
  · exact fun ⟨hp, _, ht⟩ _ => ⟨rfl, hp, trivial, hwait _ ht⟩

theorem Settled.snoc {tr : List Event} {e : Event} (h : Ordered p boot tr) (he : Placed p boot tr e) :
    Settled p (tr ++ [e]) := ⟨boot, h.snoc he⟩

theorem lasting_settled : Lasting (Settled p) := fun _ _ ⟨boot, h⟩ he => ⟨boot, h.plain he⟩

/-- The boot slot is invalidated, last of all. -/
theorem retire_known :
    Drv.Always (Known p (Answered p boot w .confirm)) (invalidate boot)
      (fun _ => Known p (Settled p)) (InOrder p) := by
  rw [invalidate_eq]
  refine (call_known (T1 := Settled p) (T2 := Settled p) (invalidateBody_built boot) (invalidateBody_gives boot) ?_
    lasting_settled (fun _ h => h) fun tr h => lasting_settled _ _ h rfl).post ?_
  · intro tr h
    exact Settled.snoc h.base.ordered (placed_of_call h.base.chosen (fun _ h => nomatch h) fun _ => h.answered rfl)
  · rintro v s tr (⟨-, h⟩ | ⟨-, h⟩) <;> exact h

/-- Step 9 (R460). -/
theorem retireStep_known (version : Nat) :
    Drv.Always (Known p fun tr => Installing p boot w tr ∧ ∃ b, Step8Passed p b tr)
      (retireStep boot (!boot) version) (fun _ => Known p (Settled p)) (InOrder p) := by
  have hi : ∀ tr, Installing p boot w tr → Settled p tr := fun tr h => ⟨boot, h.ordered⟩
  refine par_known ?_
  split
  · exact .done fun s tr h => Known.settled (fun tr h => hi tr h.1) h
  · rw [commit_eq]
    refine Drv.Always.bind (call_known (T1 := Installing p boot w) (T2 := Committed p boot w)
      (commitBody_built (!boot) version) (commitBody_gives (!boot) version) ?_ lasting_installing hi ?_) fun v => ?_
    · rintro tr ⟨h, h8⟩
      refine h.snoc (placed_of_call h.chosen ?_ fun h => nomatch h)
      intro slot hs
      cases hs
      exact ⟨rfl, h8⟩
    · exact fun tr h => ⟨h.plain rfl, tr, [], by simp⟩
    · refine .either (.given ?_) (.given ?_)
      · rintro ⟨n, rfl⟩
        refine (waitUser_known (M := Asked p boot w) (A := Answered p boot w) lasting_committed lasting_asked
          (fun _ => lasting_answered) (fun tr h => hi tr h.base) (fun tr h => hi tr h.base)
          (fun _ tr h => hi tr h.base) ?_ ?_).bind fun u => ?_
        · rintro tr ⟨hb, q, r, rfl⟩
          exact ⟨hb.plain rfl, q, r ++ [.took .waitUser .nothing], r, [], by simp, by simp⟩
        · rintro u tr ⟨hb, q, r, before, between, rfl, rfl⟩
          refine ⟨hb.plain rfl, fun hu => ?_⟩
          subst hu
          exact ⟨q, _, by simp; rfl, before, between, [], by simp⟩
        · cases u with
          | cancel => exact .done fun s tr h => h.settled fun tr h => hi tr h.base
          | confirm =>
            refine retire_known.bind fun v => ?_
            cases v <;> exact .done fun s tr h => h
      · rintro ⟨k, rfl⟩
        exact .done fun s tr h => h.settled hi

end Retire

/-! ### The program -/

theorem Step6.toStep7 {tr : List Event} (h : Step6 p boot w tr) (hb : Invalidated p boot b tr) :
    Step7 p boot w b 0 0 tr :=
  ⟨h.base, hb, fun e he => (h.untouched e he).2, fun e he hd => absurd (h.untouched e he).1 hd,
    fun _ h => absurd h (Nat.not_lt_zero _), fun _ h => absurd h (Nat.not_lt_zero _)⟩

theorem Step7.toStep8 {tr : List Event} (h : Step7 p boot w b p.pagesPerBlock p.pagesPerBlock tr) :
    Step8 p boot w b 0 tr :=
  ⟨h.base, ⟨h.allOk, fun page hp => ⟨h.data page hp, h.spare page hp⟩⟩, fun _ h => absurd h (Nat.not_lt_zero _)⟩

/-- The install slot is invalidated: step 6 (R460). -/
theorem step6_known :
    Drv.Always (Known p (Step6 p boot w)) (invalidate !boot)
      (fun v s tr => (∃ n, v = .ok n) ∧ Known p (Step6Done p boot w) s tr ∨
        (∃ k, v = .error k) ∧ Known p (Step6 p boot w) s tr) (InOrder p) := by
  rw [invalidate_eq]
  refine call_known (invalidateBody_built !boot) (invalidateBody_gives !boot) ?_ lasting_step6
    (fun tr h => ⟨boot, h.base.ordered⟩) ?_
  · intro tr h
    refine ⟨h.base.snoc (placed_of_call h.base.chosen (fun _ h => nomatch h) fun hc => ?_),
      forall_snoc h.untouched ⟨rfl, rfl⟩⟩
    cases boot <;> cases hc
  · exact fun tr h => ⟨lasting_step6 tr _ h rfl, tr, [], by simp⟩

/-- Steps 6 to 9 (R460). -/
theorem installSlot_known (version : Nat) :
    Drv.Always (Known p (Step6 p boot w)) (installSlot boot version w.toNat) (fun _ => Known p (Settled p))
      (InOrder p) := by
  have hsettled : ∀ {v : Bool} {A : List Event → Prop} (s : State) (tr : List Event),
      Known p (Provided p boot v A) s tr → Known p (Settled p) s tr := fun s tr h => h.settled fun _ h => ⟨boot, h.1⟩
  refine step6_known.bind fun v => .either (.given ?_) (.given ?_)
  · rintro ⟨n, rfl⟩
    refine Drv.Always.bind (x := loadRec !boot) (par_known (load_known (H' := fun _ _ => True)
      (T' := fun r => Step7 p boot w (recBlock r) 0 0) ofData_true
      (lasting_step6Done.sound fun _ h => ⟨boot, h.step.base.ordered⟩) ?_)) fun r => ?_
    · rintro s t tr r - ⟨hs, q, r', rfl⟩ - -
      exact ⟨trivial, (lasting_step6 _ _ hs rfl).toStep7 ⟨q, r' ++ [_], r, by simp; rfl, by simp, rfl⟩⟩
    · refine flashSlot_known.bind fun v => ?_
      cases v with
      | false => exact .done hsettled
      | true =>
        refine Drv.Always.bind (verifySlot_known.pre fun s tr ⟨hp, _, ht⟩ => ⟨hp, trivial, (ht.2 rfl).toStep8⟩)
          fun v => ?_
        cases v with
        | some c => exact .done hsettled
        | none =>
          exact (retireStep_known version).pre fun s tr ⟨hp, _, ht⟩ =>
            ⟨hp, trivial, (ht.2 rfl).1, _, (ht.2 rfl).2⟩
  · rintro ⟨k, rfl⟩
    exact .done fun s tr h => h.settled fun tr h => ⟨boot, h.base.ordered⟩

theorem Opening.settled {tr : List Event} (h : Opening tr) : Settled p tr := ⟨false, ordered_of_plain h⟩

theorem Opening.step6 {tr : List Event} (h : Opening tr) (hb : BodyAt w tr) (hc : Chosen p boot tr) :
    Step6 p boot w tr :=
  ⟨⟨ordered_of_plain h, hc, hb⟩, fun e he => ⟨Event.destroys_of_plain (h e he), Event.reads_of_plain (h e he)⟩⟩

/-- The orchestrator from step 3 on (R460), once the image has passed its checks. -/
theorem slots_known (version : Nat) :
    Drv.Always (Known p fun tr => Opening tr ∧ BodyAt w tr) (do
      loadAll
      match ← currentSlot with
      | none => return .noneValid
      | some boot =>
        let rb ← loadRec boot
        let ri ← loadRec (!boot)
        if (recBlock rb).bank || (recBlock ri).bank then return .safetyCompatBank
        match ← Drv.waitUser with
        | .cancel => return .cancelled
        | .confirm => installSlot boot version w.toNat) (fun _ => Known p (Settled p)) (InOrder p) := by
  have hlast : Lasting fun tr => Opening tr ∧ BodyAt w tr := lasting_opening.mem _
  have hord : ∀ tr, Opening tr ∧ BodyAt w tr → Settled p tr := fun tr h => h.1.settled
  refine (loadAll_built.known hlast hord).bind fun _ => (currentSlot_known hlast hord).bind fun v => ?_
  cases v with
  | none => exact .done fun s tr h => h.settled fun tr h => hord tr h.1
  | some boot =>
    have hs6 : ∀ tr, Step6 p boot w tr → Settled p tr := fun tr h => ⟨boot, h.base.ordered⟩
    refine Drv.Always.pre (P := Known p (Step6 p boot w)) ?_
      fun s tr ⟨hp, _, ht⟩ => ⟨hp, trivial, ht.1.1.step6 ht.1.2 (ht.2 boot rfl)⟩
    refine ((loadRec_built boot).simple.known lasting_step6 hs6).bind fun rb =>
      ((loadRec_built !boot).simple.known lasting_step6 hs6).bind fun ri => ?_
    split
    · exact .done fun s tr h => h.settled hs6
    · refine (waitUser_known (M := Step6 p boot w) (A := fun _ => Step6 p boot w) lasting_step6 lasting_step6
        (fun _ => lasting_step6) hs6 hs6 (fun _ => hs6) (fun _ h => lasting_step6 _ _ h rfl)
        fun _ _ h => lasting_step6 _ _ h rfl).bind fun u => ?_
      cases u with
      | cancel => exact .done fun s tr h => h.settled hs6
      | confirm => exact installSlot_known version

/-- The orchestrator (R460). -/
theorem orchestrate_known :
    Drv.Always (Known p Opening) orchestrate (fun _ => Known p (Settled p)) (InOrder p) := by
  have hord : ∀ tr, Opening tr → Settled p tr := fun tr h => h.settled
  have hstop : ∀ (c : ResultCode),
      Drv.Always (Known p Opening) (pure c : Drv ResultCode) (fun _ => Known p (Settled p)) (InOrder p) :=
    fun c => .done fun s tr h => h.settled hord
  refine par_known ?_
  split
  · exact hstop _
  · split
    · exact hstop _
    · refine ((ctrVerifyOp_built _ _).simple.known lasting_opening hord).bind fun c => ?_
      split
      · exact hstop _
      · refine ((port_built fun _ => rfl).simple.known lasting_opening hord).bind fun version => ?_
        refine Drv.Always.bind (port_known (r := .res 3) (fun _ => rfl) ofData_true (lasting_opening.sound hord)
          (H' := fun _ _ => True) (T' := fun w tr => Opening tr ∧ BodyAt w tr)
          fun s t tr w _ ht _ _ => ⟨trivial, lasting_opening _ _ ht rfl, by simp [BodyAt]⟩)
          fun v => .exists fun w => .given fun hw => ?_
        subst hw
        exact slots_known version

theorem hostMain_known : Drv.Always (Known p Opening) hostMain (fun _ => Known p (Settled p)) (InOrder p) :=
  (eepInit_built.known lasting_opening fun _ h => h.settled).bind fun _ => orchestrate_known

end Installation

/-- Settles O58: every run of the host's program keeps its events in order, and the clauses are what the order says of
one event. -/
theorem installationOrdering : Obligations.InstallationOrdering := by
  intro r hr par events
  have hstart : Known par Opening r.state r.trace := ⟨rfl, trivial, by rw [hr]; exact fun _ h => nomatch h⟩
  have hend : Settled par events := by
    have h := hostMain_known r hstart
    have hev : events = (hostMain.out r).2.trace := rfl
    rw [hev]
    rcases hout : hostMain.out r with ⟨i | c, r'⟩ <;> rw [hout] at h
    · exact h
    · exact h.2.2
  obtain ⟨boot, h⟩ := hend
  refine ⟨boot, fun pre post e he => ?_⟩
  have hp := h pre post e he
  refine ⟨hp.chosen, hp.block, ?_, hp.commit, hp.retire⟩
  rintro b page dst result junk reply rfl
  exact ⟨hp.readBack b rfl, Ordered.destroys_after_read (he ▸ h) rfl⟩

end Sys2Proof.Machine

/-! # Proofs: programs on a device at rest

Rules for the parts of a program during which the device is not busy and the host does not wait: an interruption
leaves the EEPROM's words, and what a part does alone it does under every schedule. -/

namespace Sys2Proof.Machine

section Rest

variable {α β : Type} {p : Params} {X : List Event → Vector Half 256 → Prop} {K : List Event} {s t c : State}
  {P Q : State → Prop} {x : Drv α} {a : α}

theorem core_of_fresh (h : t.fresh = s.fresh) : t.core = s.core := (congrArg State.core h : _)

theorem rests_wired {g : Gpio} {d : Device} (hf : c.Free) (hb : d.busy = false) (hp : c.par = p)
    (hX : X K d.array) : Rests p X K (c.Wired g d) where
  ofFresh := fun _ _ h hs => (core_of_fresh h).trans hs
  free := fun _ hs => hs.free hf
  idle := fun _ hs => by rw [hs.dev]; exact hb
  par := fun _ hs => (congrArg State.par (show State.core _ = _ from hs) : _).trans hp
  allowed := fun _ hs => by rw [hs.dev]; exact hX

theorem rests_idle (hc : c.Calm) (hp : c.par = p) (hX : X K c.dev.array) : Rests p X K c.Idle where
  ofFresh := fun _ _ h hs => hs.of_core (core_of_fresh h)
  free := fun _ hs => hs.free hc.free
  idle := fun _ ⟨_, hs⟩ => by rw [hs.dev]; exact hc.dev.busy
  par := fun _ hs => hs.par.trans hp
  allowed := fun _ ⟨_, hs⟩ => by rw [hs.dev]; exact hX

/-- The condition and what is known of an argument register. -/
theorem Rests.andArg (h : Rests p X K P) (i : Fin 4) (v : Nat) : Rests p X K fun s => P s ∧ ArgIs i v s where
  ofFresh := fun s t hst hs => ⟨h.ofFresh s t hst hs.1, by
    rw [ArgIs, show t.arg = s.arg from (congrArg State.arg hst : _)]
    exact hs.2⟩
  free := fun s hs => h.free s hs.1
  idle := fun s hs => h.idle s hs.1
  par := fun s hs => h.par s hs.1
  allowed := fun s hs => h.allowed s hs.1

/-- One action of the host. -/
theorem Rests.act {a : Action} {Q : Reply → State → Prop} (h : Rests p X K P) (ha : a.byHost = true)
    (hok : ∀ s t : State, P s → hostStep a s.fresh = .next t → ¬ Marks s t → Q t.reply t) :
    Drv.Always (With P K) (Drv.act a) (fun v => With (Q v) K) (Cut p X) := by
  refine .act h.steady ?_ fun _ _ _ _ hi h => absurd h hi
  rintro s t tr ⟨hs, hk⟩ - hstep hm
  exact ⟨hok s t hs (hostStep_of_takeAction ha hstep).2 hm, (calls_took _ _ _).trans hk⟩

/-- One NAND call. -/
theorem Rests.nand {a : NandResult → List Byte → Action} {Q : NandResult → State → Prop} (h : Rests p X K P)
    (ha : ∀ r bytes, (a r bytes).byHost = true)
    (hok : ∀ (s t : State) (r : NandResult) (bytes : List Byte), P s → hostStep (a r bytes) s.fresh = .next t →
      ¬ Marks s t → ∃ r', t.reply = .nand r' ∧ Q r' t) :
    Drv.Always (With P K) (Drv.nand a) (fun r => With (Q r) K) (Cut p X) := by
  refine .nand h.steady ?_ fun _ _ _ _ _ _ hi h => absurd h hi
  rintro s t tr r bytes ⟨hs, hk⟩ - hstep hm
  obtain ⟨r', hr', hq⟩ := hok s t r bytes hs (hostStep_of_takeAction (ha r bytes) hstep).2 hm
  exact ⟨r', hr', hq, (calls_took _ _ _).trans hk⟩

/-- An argument is written. -/
theorem Rests.setArg (h : Rests p X K P) (i : Fin 4) (v : Nat)
    (hQ : ∀ s, P s → v < addrTop → Q (s.fresh.setArg i (BitVec.ofNat 32 v))) :
    Drv.Always (With P K) (Drv.setArg i v) (fun _ => With Q K) (Cut p X) := by
  have hset (hv : v < addrTop) : Drv.Always (With P K)
      (Drv.act (.portWr (.arg i) (BitVec.ofNat 32 v)) >>= fun _ => (pure () : Drv Unit))
      (fun _ => With Q K) (Cut p X) := by
    refine (h.act (Q := fun _ => Q) rfl fun s t hs hstep _ => ?_).bind fun _ => .pure (Q := fun _ => With Q K) ()
    cases hstep
    exact hQ s hs hv
  unfold Drv.setArg
  split
  · refine Drv.Always.bind (Q := fun _ _ _ => False) ((h.act (a := .other) (Q := fun _ _ => True) rfl
      fun _ _ _ _ _ => trivial).bind fun _ r _ hi => nomatch hi) fun _ _ h => h.elim
  · next hv => exact hset (by omega)

/-- A condition that only what lasts decides. -/
def OfCore (P : State → Prop) : Prop := ∀ s t : State, t.core = s.core → P s → P t

theorem ofCore_idle : OfCore c.Idle := fun _ _ h hs => hs.of_core h

/-- A program of gentle actions keeps what lasts. -/
theorem Rests.gentle (h : Rests p X K P) (hc : OfCore P) (hx : x.Built Gentle) :
    Drv.Always (With P K) x (fun _ => With P K) (Cut p X) := by
  refine hx.keeps h.steady ?_ (fun _ _ _ _ _ hi h => absurd h hi) ?_
  · rintro a s t tr ha ⟨hs, hk⟩ - hstep hm
    exact ⟨hc s t (ha.2 s t hstep hm) hs, (calls_took _ _ _).trans hk⟩
  · rintro s tr ⟨hs, hk⟩
    exact ⟨hc s _ rfl hs, hk⟩

/-- The host refuses: its program returns nothing. -/
theorem Rests.refuse {Q : α → Stage} (h : Rests p X K P) : Drv.Always (With P K) Drv.refuse Q (Cut p X) :=
  (h.act (a := .other) (Q := fun _ _ => True) rfl fun _ _ _ _ _ => trivial).bind fun _ _ _ hi => nomatch hi

/-- What a program of simple actions does alone, with the device at rest at the end, it does under every schedule. -/
theorem Rests.does (h : Rests p X K P) (hx : x.Built Simple) (hd : x.Does true P (.ok a) Q [])
    (hb : ∀ t, Q t → t.dev.busy = false) (hQ : OfCore Q) :
    Drv.Always (With P K) x (fun v s tr => v = a ∧ With Q K s tr) (Cut p X) := by
  refine .of_each fun s tr hs => ?_
  obtain ⟨hs, hk⟩ := hs
  obtain ⟨t, ⟨env, tr', -, -, halone⟩, ht⟩ := hd s hs
  have hout := halone rfl tr
  have hu := Drv.Built.undisturbed (K := K) (p := p) (X := X) hx (s0 := s) tr (h.free s hs)
    (by rw [hout]; exact hb t ht) (h.par s hs) (h.allowed s hs)
  rw [hout] at hu
  refine hu.mono ?_ ?_
  · rintro s' tr' ⟨rfl, rfl⟩
    exact ⟨rfl, hk⟩
  · rintro v s' tr' ⟨hv, hs', hk'⟩
    exact ⟨(Except.ok.inj hv).symm, hQ t s' (core_of_fresh hs') ht, hk'⟩

/-- What a command does alone is its step. -/
theorem step_of_does {i : Instr} (hd : (Drv.cmd i).Does true P (.ok ()) Q []) (hs : P s) (hf : s.fault = none)
    (h : takeAction (.portWr .cmd (encodeWord i)) s.fresh = .next t) (hm : ¬ Marks s t) : Q t := by
  obtain ⟨u, ⟨env, tr, -, -, halone⟩, hu⟩ := hd s hs
  have hout := halone rfl []
  rw [Drv.cmd, Drv.out_bind, Drv.act_alone, Drv.take_unmarked hf h hm] at hout
  obtain ⟨-, hrun⟩ := Prod.mk.inj hout
  exact (Run.mk.inj hrun).1 ▸ hu

/-- A command, from any condition that the other agents leave. -/
theorem cmd_always {i : Instr} {E : Ending → Stage} (hst : Steady (With P K) E)
    (hE : ∀ {s tr j}, j ≠ .interrupted → E j s tr) (hd : (Drv.cmd i).Does true P (.ok ()) Q []) :
    Drv.Always (With P K) (Drv.cmd i) (fun _ => With Q K) E := by
  refine Drv.Always.bind (Q := fun _ => With Q K) (.act hst ?_ fun _ _ _ _ hi => hE hi) fun _ =>
    .pure (Q := fun _ => With Q K) ()
  rintro s t tr ⟨hs, hk⟩ hf hstep hm
  exact ⟨step_of_does hd hs hf hstep hm, (calls_took _ _ _).trans hk⟩

theorem Rests.cmd {i : Instr} (h : Rests p X K P) (hd : (Drv.cmd i).Does true P (.ok ()) Q []) :
    Drv.Always (With P K) (Drv.cmd i) (fun _ => With Q K) (Cut p X) :=
  cmd_always h.steady (fun hi h => absurd h hi) hd

/-- The wait for the user, by a host between two operations of the driver. -/
theorem Rests.waitUser (h : Rests p X K c.Idle) :
    Drv.Always (With c.Idle K) Drv.waitUser (fun _ => With c.Idle K) (Cut p X) := by
  refine .waitUser (M := fun s tr => s.waiting = true ∧ With (fun s => c.Idle { s with waiting := false }) K s tr)
    h.steady ?_ (fun _ => h.steady) ?_
  · exact {
      waiting := fun h => h.1
      device := by
        rintro s tr ⟨-, hs, -⟩ hb
        exact absurd ((h.idle _ hs).symm.trans hb) Bool.false_ne_true
      user := by
        rintro s tr u ⟨-, hs, hk⟩
        exact ⟨ofCore_idle _ _ rfl hs, (calls_took _ _ _).trans hk⟩
      cut := by
        rintro s tr cells nb ⟨-, hs, hk⟩ - -
        have hidle := h.idle { s with waiting := false } hs
        refine ⟨State.interrupt_atReset _ _ _, h.par { s with waiting := false } hs, ?_⟩
        rw [calls_took, hk, interrupt_array_of_idle (s := s.fresh) hidle]
        exact h.allowed { s with waiting := false } hs
      stuck := fun _ hi h => absurd h hi }
  · rintro s tr ⟨hs, hk⟩ hw
    refine ⟨rfl, ?_, (calls_took _ _ _).trans hk⟩
    have hs' : { s with waiting := false } = s := by rw [← hw]
    show c.Idle { s.fresh with waiting := false }
    rw [show ({ s.fresh with waiting := false } : State) = ({ s with waiting := false } : State).fresh from rfl, hs']
    exact h.ofFresh s _ rfl hs

end Rest
end Sys2Proof.Machine

/-! # Proofs: writing words under every schedule

The one time at which the device acts by itself: between the frame of a write and its poll (42_eeprom.md R331, R344,
R345). The device is then pending or has completed, and the driver's poll can tell. -/

namespace Sys2Proof.Machine

section Poll

variable {α : Type} {p : Params} {X : List Event → Vector Half 256 → Prop} {K : List Event} {s t c : State}
  {P Q P' Q' : State → Prop} {a : Byte} {v : Half} {g : Gpio} {st : Bool} {d : Device}

/-! ### The device with a write in progress -/

/-- The device d programs word a, in IDLE mode or in STATUS mode. -/
def Device.pend (d : Device) (a : Byte) (v : Half) (st : Bool) : Device :=
  { d with
    busy := true, prog := some (a, v), statusPending := true
    mode := if st then .status else .idle, dout := if st then .zero else .z }

theorem Device.Rested.react_write (h : d.Rested) (hw : d.wel = true) (a : Byte) (v : Half) (sent : List Bool) :
    Device.react { d with mode := .recv, shift := sent } (.frameWrite a v) =
      .ok { d with shift := sent, armed := some (a, v) } := by
  obtain ⟨hm, hs, ho, hd, hb, hp, hq, ha⟩ := h
  cases d
  simp_all [Device.react, Device.onWrite]

theorem Device.Rested.armed_csFall (h : d.Rested) (a : Byte) (v : Half) (sent : List Bool) :
    Device.csFall { d with shift := sent, armed := some (a, v) } = d.pend a v false := by
  obtain ⟨hm, hs, ho, hd, hb, hp, hq, ha⟩ := h
  cases d
  simp_all [Device.csFall, Device.pend]

theorem Device.Rested.pend_complete_csFall (h : d.Rested) (a : Byte) (v : Half) :
    (d.pend a v true).complete.csFall = d.withWord a v := by
  obtain ⟨hm, hs, ho, hd, hb, hp, hq, ha⟩ := h
  cases d
  simp_all [Device.csFall, Device.pend, Device.complete, Device.withWord]

/-- The device programs the word, or has programmed it. -/
def Polled (c : State) (a : Byte) (v : Half) (st : Bool) (g : Gpio) (s : State) : Prop :=
  c.Wired g (c.dev.pend a v st) s ∨ c.Wired g (c.dev.pend a v st).complete s

theorem Polled.free (hf : c.Free) (h : Polled c a v st g s) : s.Free := h.elim (·.free hf) (·.free hf)

theorem Polled.par (hp : c.par = p) (h : Polled c a v st g s) : s.par = p :=
  h.elim (fun h => (congrArg State.par (show State.core _ = _ from h) : _).trans hp)
    fun h => (congrArg State.par (show State.core _ = _ from h) : _).trans hp

theorem wired_complete (h : c.Wired g d s) : c.Wired g d.complete { s.fresh with dev := s.dev.complete } := by
  rw [h.dev]
  show ({ s.core with dev := d.complete } : State) = _
  rw [show s.core = _ from h]
  rfl

/-- A condition on a polled device that the device's own step keeps. -/
theorem polled_steady (hf : c.Free) (hp : c.par = p) (hX : ∀ u, X K (c.dev.array.set a.toNat u a.isLt))
    (hP : ∀ s, P s → Polled c a v st g s) (hfresh : ∀ s, P s → P s.fresh)
    (hcomplete : ∀ s, P s → s.dev.busy = true → P { s.fresh with dev := s.dev.complete }) :
    Steady (With P K) (Cut p X) where
  other := by
    rintro s t tr o ⟨hs, hk⟩ - ho hstep
    cases o with
    | interrupt cells nb => cases ho
    | devComplete =>
      obtain ⟨hb, rfl⟩ := deviceStep_next hstep
      exact ⟨hcomplete s hs hb, (calls_took _ _ _).trans hk⟩
    | userEvent e =>
      obtain rfl := userEvent_next (s := s.fresh) ((hP s hs).free hf).waiting hstep
      exact ⟨hfresh s hs, (calls_took _ _ _).trans hk⟩
  cut := by
    rintro s tr cells nb ⟨hs, hk⟩ - -
    have hpar : s.par = p := (hP s hs).par hp
    refine ⟨State.interrupt_atReset _ _ _, hpar, ?_⟩
    rw [calls_took, hk]
    rcases hP s hs with h | h
    · show X K (s.dev.interruptedWords _)
      rw [h.dev]
      exact hX _
    · rw [interrupt_array_of_idle (s := s.fresh) (by show s.dev.busy = false; rw [h.dev]; rfl)]
      show X K s.dev.array
      rw [h.dev]
      exact hX v
  stuck := fun _ hi h => absurd h hi

theorem Polled.complete (h : Polled c a v st g s) (hb : s.dev.busy = true) :
    c.Wired g (c.dev.pend a v st).complete { s.fresh with dev := s.dev.complete } := by
  rcases h with h | h
  · exact wired_complete h
  · rw [h.dev] at hb
    cases hb

theorem Polled.steady (hf : c.Free) (hp : c.par = p) (hX : ∀ u, X K (c.dev.array.set a.toNat u a.isLt)) :
    Steady (With (Polled c a v st g) K) (Cut p X) :=
  polled_steady hf hp hX (fun _ h => h) (fun _ h => h) fun _ h hb => .inr (h.complete hb)

theorem Drv.Does.either {al : Bool} {x : Drv α} {e : Except Ending α} {T : List Event} (h : x.Does al P e Q T)
    (h' : x.Does al P' e Q' T) : x.Does al (fun s => P s ∨ P' s) e (fun s => Q s ∨ Q' s) T := by
  rintro s (hs | hs)
  · obtain ⟨t, ht, hq⟩ := h s hs
    exact ⟨t, ht, .inl hq⟩
  · obtain ⟨t, ht, hq⟩ := h' s hs
    exact ⟨t, ht, .inr hq⟩

/-! ### The poll -/

/-- The bit is sampled: a 1 comes from a device that has programmed the word. -/
def Sampled (c : State) (a : Byte) (v : Half) (g : Gpio) (s : State) : Prop :=
  ∃ w : Word, s.res[(0 : Fin 8)] = some w ∧ (c.Wired g (c.dev.pend a v true).complete s ∨
    c.Wired g (c.dev.pend a v true) s ∧ w = 0#32)

/-- The device is polled; if ready is set, it has programmed the word. -/
def PolledAs (c : State) (a : Byte) (v : Half) (g : Gpio) (ready : Bool) (s : State) : Prop :=
  Polled c a v true g s ∧ (ready = true → c.Wired g (c.dev.pend a v true).complete s)

theorem eepIn_next (h : hostStep (.portWr .cmd (encodeWord .eepIn)) s = .next t) :
    t = (s.sample.2.setRes 0 s.sample.1).done := by
  cases exec_of_hostStep (i := .eepIn) (by decide) h
  rfl

theorem sample_of_dout {w : Word} {o : DataOut} (ho : s.dev.dout = o)
    (hw : o = .zero ∧ w = 0#32 ∨ o = .one ∧ w = 1#32) :
    s.sample = (w, s) := by
  rcases hw with ⟨rfl, rfl⟩ | ⟨rfl, rfl⟩ <;> simp only [State.sample, ho]

theorem sampled_of_polled (h : Polled c a v true g s)
    (hstep : hostStep (.portWr .cmd (encodeWord .eepIn)) s.fresh = .next t) : Sampled c a v g t := by
  rcases h with h | h
  · have ho : s.fresh.dev.dout = .zero := by
      show s.dev.dout = _
      rw [h.dev]
      rfl
    rw [eepIn_next hstep, sample_of_dout ho (.inl ⟨rfl, rfl⟩)]
    exact ⟨0#32, Vector.getElem_set_self .., .inr ⟨h, rfl⟩⟩
  · have ho : s.fresh.dev.dout = .one := by
      show s.dev.dout = _
      rw [h.dev]
      rfl
    rw [eepIn_next hstep, sample_of_dout ho (.inr ⟨rfl, rfl⟩)]
    exact ⟨1#32, Vector.getElem_set_self .., .inl h⟩

theorem sampled_steady (hf : c.Free) (hp : c.par = p) (hX : ∀ u, X K (c.dev.array.set a.toNat u a.isLt)) :
    Steady (With (Sampled c a v g) K) (Cut p X) := by
  have hpolled : ∀ s, Sampled c a v g s → Polled c a v true g s := fun s ⟨_, _, h⟩ => h.elim .inr fun h => .inl h.1
  exact polled_steady hf hp hX hpolled (fun _ h => h) fun s h hb => by
    obtain ⟨w, hw, -⟩ := id h
    exact ⟨w, hw, .inl ((hpolled s h).complete hb)⟩

/-- A command under a poll. -/
theorem polled_cmd {i : Instr} {g' : Gpio} {st' : Bool} (hf : c.Free) (hp : c.par = p)
    (hX : ∀ u, X K (c.dev.array.set a.toNat u a.isLt))
    (h : (Drv.cmd i).Does true (c.Wired g (c.dev.pend a v st)) (.ok ()) (c.Wired g' (c.dev.pend a v st')) [])
    (h' : (Drv.cmd i).Does true (c.Wired g (c.dev.pend a v st).complete) (.ok ())
      (c.Wired g' (c.dev.pend a v st').complete) []) :
    Drv.Always (With (Polled c a v st g) K) (Drv.cmd i) (fun _ => With (Polled c a v st' g') K) (Cut p X) :=
  cmd_always (Polled.steady hf hp hX) (fun hi h => absurd h hi) (h.either h')

/-- One bit of the poll (42_eeprom.md R311, R330). -/
theorem pollBit_always (hf : c.Free) (hp : c.par = p) (hX : ∀ u, X K (c.dev.array.set a.toNat u a.isLt)) :
    Drv.Always (With (Polled c a v true ⟨true, false, false⟩) K) (recvBits 1)
      (fun b => With (PolledAs c a v ⟨true, false, false⟩ (b == 1)) K) (Cut p X) := by
  have hsteady : ∀ g, Steady (With (Polled c a v true g) K) (Cut p X) := fun _ => Polled.steady hf hp hX
  refine Drv.Always.bind (polled_cmd (st' := true) (g' := ⟨true, true, false⟩) hf hp hX (Drv.setSk_does hf rfl)
    (Drv.setSk_does hf rfl)) fun _ => ?_
  refine Drv.Always.bind (polled_cmd (st' := true) hf hp hX (Drv.delay_does hf) (Drv.delay_does hf)) fun _ => ?_
  refine Drv.Always.bind (polled_cmd (st' := true) (g' := ⟨true, false, false⟩) hf hp hX (Drv.clrSk_does hf)
    (Drv.clrSk_does hf)) fun _ => ?_
  refine Drv.Always.bind (polled_cmd (st' := true) hf hp hX (Drv.delay_does hf) (Drv.delay_does hf)) fun _ => ?_
  refine Drv.Always.bind (x := Drv.cmd .eepIn) (Q := fun _ => With (Sampled c a v ⟨true, false, false⟩) K) ?_
    fun _ => ?_
  · refine Drv.Always.bind (Q := fun _ => With (Sampled c a v ⟨true, false, false⟩) K)
      (.act (hsteady _) ?_ fun _ _ _ _ hi h => absurd h hi) fun _ =>
      .pure (Q := fun _ => With (Sampled c a v ⟨true, false, false⟩) K) ()
    rintro s t tr ⟨hs, hk⟩ - hstep -
    exact ⟨sampled_of_polled hs (hostStep_of_takeAction rfl hstep).2, (calls_took _ _ _).trans hk⟩
  · have hport : Drv.Always (With (Sampled c a v ⟨true, false, false⟩) K) (Drv.port (.res 0))
        (fun b => With (PolledAs c a v ⟨true, false, false⟩ (b == 1)) K) (Cut p X) := by
      refine Drv.Always.bind (Q := fun r s tr => ∃ w, r = .word w ∧
        With (PolledAs c a v ⟨true, false, false⟩ (w.toNat == 1)) K s tr)
        (.act (sampled_steady hf hp hX) ?_ fun _ _ _ _ hi h => absurd h hi) ?_
      · rintro s t tr ⟨⟨w, hw, hs⟩, hk⟩ - hstep hm
        obtain ⟨-, hn⟩ := hostStep_of_takeAction rfl hstep
        have hval : s.fresh.portVal (.res 0) = .ok w := by
          rw [State.portVal, show s.fresh.res[(0 : Fin 8)] = some w from hw, written_some]
        simp only [hostStep, portRead, State.markRead, hval, ok_bind', pure_ok', State.complete_ok,
          Host.Outcome.next.injEq] at hn
        subst hn
        refine ⟨w, rfl, ⟨?_, fun h1 => ?_⟩, (calls_took _ _ _).trans hk⟩
        · exact hs.elim .inr fun h => .inl h.1
        · rcases hs with hs | ⟨-, rfl⟩
          · exact hs
          · cases h1
      · rintro r x ⟨w, rfl, hs⟩
        exact hs
    refine hport.bind fun b => ?_
    rw [show recvBitsFrom (2 * 0 + b) 0 = pure b by rw [recvBitsFrom, Nat.mul_zero, Nat.zero_add]]
    exact .pure (Q := fun b => With (PolledAs c a v ⟨true, false, false⟩ (b == 1)) K) b

theorem eepPollLoop_always (hf : c.Free) (hp : c.par = p) (hX : ∀ u, X K (c.dev.array.set a.toNat u a.isLt))
    (n : Nat) :
    Drv.Always (With (Polled c a v true ⟨true, false, false⟩) K) (eepPollLoop n)
      (fun ready => With (PolledAs c a v ⟨true, false, false⟩ ready) K) (Cut p X) := by
  induction n with
  | zero => exact .done fun s tr h => ⟨⟨h.1, fun h => nomatch h⟩, h.2⟩
  | succ n ih =>
    refine (pollBit_always hf hp hX).bind fun b => ?_
    split
    · next hb =>
      subst hb
      exact .pure (Q := fun ready => With (PolledAs c a v ⟨true, false, false⟩ ready) K) true
    · exact ih.pre fun s tr h => ⟨h.1.1, h.2⟩

/-- `eep_poll` (R344): if it saw the ready bit, the word is programmed. -/
theorem eepPoll_always (hc : c.Calm) (hp : c.par = p) (hX : ∀ u, X K (c.dev.array.set a.toNat u a.isLt)) {di : Bool} :
    Drv.Always (With (c.Wired ⟨false, false, di⟩ (c.dev.pend a v false)) K) eepPoll
      (fun ready s tr => ready = true → With (c.withDev (c.dev.withWord a v)).Idle K s tr) (Cut p X) := by
  have hf := hc.free
  refine Drv.Always.pre (P := With (Polled c a v false ⟨false, false, di⟩) K) ?_ fun s tr h => ⟨.inl h.1, h.2⟩
  refine Drv.Always.bind (polled_cmd (st' := false) hf hp hX (Drv.delay_does hf) (Drv.delay_does hf)) fun _ => ?_
  refine Drv.Always.bind (polled_cmd (st' := true) (g' := ⟨true, false, di⟩) hf hp hX (Drv.setCs_does hf)
    (Drv.setCs_does hf)) fun _ => ?_
  refine Drv.Always.bind (polled_cmd (st' := true) (g' := ⟨true, false, false⟩) hf hp hX (Drv.driveDi_does hf false)
    (Drv.driveDi_does hf false)) fun _ => ?_
  refine (eepPollLoop_always hf hp hX _).bind fun ready => ?_
  cases ready with
  | true =>
    have hrest : Rests p X K (c.Wired ⟨true, false, false⟩ (c.dev.pend a v true).complete) :=
      rests_wired hf rfl hp (hX v)
    have hclr := Drv.clrCs_does (al := true) (c := c) (sk := false) (di := false)
      (d := (c.dev.pend a v true).complete) hf
    rw [hc.dev.pend_complete_csFall] at hclr
    refine Drv.Always.bind ((hrest.cmd hclr).pre fun s tr h => ⟨h.1.2 rfl, h.2⟩) fun _ => .done fun s tr h _ => ?_
    exact ⟨⟨false, h.1⟩, h.2⟩
  | false =>
    have hclr := (Polled.steady (v := v) (st := true) (g := ⟨true, false, false⟩) hf hp hX : Steady (With _ K) _)
    refine Drv.Always.bind (Q := fun _ _ _ => True) ?_ fun _ => .done fun _ _ _ h => nomatch h
    refine Drv.Always.bind (Q := fun _ _ _ => True) ?_ fun _ => .done fun _ _ _ => trivial
    exact (Drv.Always.act hclr (Q := fun _ _ _ => True) (fun _ _ _ _ => trivial) fun _ _ _ _ hi h => absurd h hi).pre
      fun s tr h => ⟨h.1.1, h.2⟩

/-! ### Words -/

/-- The words outside the given ones are the same. -/
def SameOutside (off n : Nat) (words words' : Vector Half 256) : Prop :=
  ∀ j, ¬ (off ≤ j ∧ j < off + n) → words'[j]? = words[j]?

/-- X allows any words between off and off + n. -/
def Allows (X : List Event → Vector Half 256 → Prop) (K : List Event) (off n : Nat) (words : Vector Half 256) :
    Prop :=
  ∀ words', SameOutside off n words words' → X K words'

variable {off n : Nat} {words : Vector Half 256}

theorem Allows.self (h : Allows X K off n words) : X K words := h words fun _ _ => rfl

theorem sameOutside_set {k : Nat} (hk : off ≤ k ∧ k < off + n) (hlt : k < 256) (u : Half) :
    SameOutside off n words (words.set k u hlt) := fun j hj => by
  rw [Vector.getElem?_set_ne]
  rintro rfl
  exact hj hk

theorem Allows.of_same (h : Allows X K off n words) {words' : Vector Half 256} (hw : SameOutside off n words words') :
    Allows X K off n words' := fun w'' h'' => h w'' fun j hj => (h'' j hj).trans (hw j hj)

/-- One word is written (R344, R345): if the ready bit was seen, it stands in the EEPROM. -/
theorem writeWord_always {f : Bool → Drv α} {Q : α → Stage} (hc : c.Calm) (hw : c.dev.wel = true) (hp : c.par = p)
    (hX : ∀ u, X K (c.dev.array.set a.toNat u a.isLt)) (hX0 : X K c.dev.array)
    (htrue : Drv.Always (With (c.withDev (c.dev.withWord a v)).Idle K) (f true) Q (Cut p X))
    (hfalse : Drv.Always (fun _ _ => True) (f false) Q (Cut p X)) :
    Drv.Always (With c.Idle K) (Drv.cmd .eepSetCs >>= fun _ =>
      sendBits (0x5000000 ||| a.toNat <<< 16 ||| v.toNat) 27 >>= fun _ => Drv.cmd .eepClrCs >>= fun _ =>
      eepPoll >>= f) Q (Cut p X) := by
  let sent := valBits 27 (0x5000000 ||| a.toNat <<< 16 ||| v.toNat)
  let d1 : Device := { c.dev with shift := sent, armed := some (a, v) }
  have hf := hc.free
  have hfeed : c.dev.csRise.feed sent = .ok d1 := by
    rw [hc.dev.csRise]
    exact (feed_frame { c.dev with mode := .recv } rfl hc.dev.shift (decode_write a v)).trans
      (hc.dev.react_write hw a v sent)
  have hrise : c.dev.csRise.busy = false := (csRise_busy _).trans hc.dev.busy
  have harray : X K c.dev.csRise.array := by rw [hc.dev.csRise]; exact hX0
  refine Drv.Always.pre (P := fun s tr => ∃ di, With (c.Wired ⟨false, false, di⟩ c.dev) K s tr) (.exists fun di => ?_)
    fun s tr ⟨⟨di, hs⟩, hk⟩ => ⟨di, hs, hk⟩
  refine Drv.Always.bind ((rests_wired hf hc.dev.busy hp hX0).cmd (Drv.setCs_does hf)) fun _ => ?_
  refine Drv.Always.bind ((rests_wired hf hrise hp harray).does (sendBits_built _ _) (sendBits_does hf _ _ hfeed)
    (fun t ht => by rw [ht.dev]; exact hc.dev.busy) fun _ _ h hs => h.trans hs) fun _ => .given fun _ => ?_
  have hclr := Drv.clrCs_does (al := true) (c := c) (sk := false) (di := sent.getLastD di) (d := d1) hf
  rw [hc.dev.armed_csFall] at hclr
  refine Drv.Always.bind ((rests_wired (d := d1) hf hc.dev.busy hp hX0).cmd hclr) fun _ => ?_
  refine (eepPoll_always hc hp hX).bind fun ready => ?_
  cases ready with
  | true => exact htrue.pre fun s tr h => h rfl
  | false => exact hfalse.pre fun _ _ _ => trivial

/-- The words of a write, one after the other (R345). -/
theorem eepWriteWords_always (hc : c.Calm) (hw : c.dev.wel = true) (hp : c.par = p) {off n src : Nat} (ws : List Half)
    (k : Nat) (hn : k + ws.length ≤ n) (hk : off + n ≤ 256) (hX : Allows X K off n c.dev.array)
    (hr : c.HostReads (src + 2 * k) (ws.flatMap fun w => toLE 2 w.toNat)) :
    Drv.Always (With c.Idle K) (eepWriteWords off src (List.range' k ws.length))
      (fun r s tr => ∀ l, r = some l → l = ws.map (·.toNat) ∧
        With (c.withDev (c.dev.withWords (off + k) ws)).Idle K s tr) (Cut p X) := by
  induction ws generalizing k c with
  | nil =>
    refine .done fun s tr h l hl => ?_
    cases hl
    exact ⟨rfl, h⟩
  | cons w ws ih =>
    simp only [List.length_cons] at hn ⊢
    rw [List.flatMap_cons] at hr
    have h1 := hr.part 0 2 (by simp [toLE_length])
    rw [List.drop_zero, List.take_left' (toLE_length _ _), Nat.add_zero] at h1
    have h2 := hr.part 2 (ws.flatMap fun w => toLE 2 w.toNat).length (by simp [toLE_length])
    rw [List.drop_left' (toLE_length _ _), List.take_length] at h2
    have ha : (BitVec.ofNat 8 (off + k)).toNat = off + k := by
      rw [BitVec.toNat_ofNat]
      exact Nat.mod_eq_of_lt (show off + k < 2 ^ 8 by omega)
    have hin : off ≤ (BitVec.ofNat 8 (off + k)).toNat ∧ (BitVec.ofNat 8 (off + k)).toNat < off + n := by omega
    have hset : ∀ u, X K (c.dev.array.set (BitVec.ofNat 8 (off + k)).toNat u (BitVec.ofNat 8 (off + k)).isLt) :=
      fun u => hX _ (sameOutside_set hin _ u)
    have hval : leVal (toLE 2 w.toNat) = w.toNat := leVal_toLE 2 _ w.isLt
    have hrest := ih (c := c.withDev (c.dev.withWord (BitVec.ofNat 8 (off + k)) w))
      ⟨⟨hc.free.1, hc.free.2⟩, hc.dev.withWord _ _⟩ hw hp (k + 1) (by omega)
      (hX.of_same (sameOutside_set hin (BitVec.isLt _) w)) (by
        rw [show src + 2 * (k + 1) = src + 2 * k + 2 by omega]
        exact h2)
    rw [List.range'_succ]
    refine Drv.Always.bind ((rests_idle hc hp hX.self).does (load_built _ _).simple
      (Drv.load_does hc.free h1 (toLE_length _ _)) (fun t ⟨_, ht⟩ => by rw [ht.dev]; exact hc.dev.busy) ofCore_idle)
      fun bs => .given fun hbs => ?_
    subst hbs
    simp only [hval]
    have := writeWord_always (Q := fun r s tr => ∀ l, r = some l → l = (w :: ws).map (·.toNat) ∧
        With (c.withDev (c.dev.withWords (off + k) (w :: ws))).Idle K s tr) hc hw hp hset hX.self
      (v := w) (f := fun b => if b = true then (do
          match ← eepWriteWords off src (List.range' (k + 1) ws.length) with
          | some ws => return some (w.toNat :: ws)
          | none => return none) else return none) (hrest.bind fun r => by
            cases r with
            | none => exact .done fun s tr _ l hl => nomatch hl
            | some l =>
              refine .done fun s tr h l' hl' => ?_
              obtain ⟨rfl, hs⟩ := h l rfl
              cases hl'
              exact ⟨rfl, hs⟩) (.done fun s tr _ l hl => nomatch hl)
    rw [ha] at this
    exact this

/-- `eep_write` (R345): where it returns success, the words stand in the EEPROM. -/
theorem eepWrite_always (hc : c.Calm) (hp : c.par = p) {off n src : Nat} {bs : List Byte} (hn : off + n ≤ 256)
    (hr : c.HostReads src bs) (hl : bs.length = 2 * n) (hX : Allows X K off n c.dev.array) :
    Drv.Always (With c.Idle K) (eepWrite off n src) (fun v s tr => (∃ m, v = .ok m) →
      With (c.withDev ((c.dev.withWords off (wordsOf bs)).withWel false)).Idle K s tr) (Cut p X) := by
  have hwl := wordsOf_length n bs hl
  let d1 := c.dev.withWel true
  let d2 := d1.withWords off (wordsOf bs)
  let d3 := d2.withWel false
  have hc1 : (c.withDev d1).Calm := ⟨⟨hc.free.1, hc.free.2⟩, hc.dev.withWel _⟩
  have hc2 : (c.withDev d2).Calm := ⟨⟨hc.free.1, hc.free.2⟩, (hc.dev.withWel _).withWords _ _⟩
  have hc3 : (c.withDev d3).Calm := ⟨⟨hc.free.1, hc.free.2⟩, ((hc.dev.withWel _).withWords _ _).withWel _⟩
  have hX2 : X K d2.array := hX _ fun j hj => by
    rw [Device.withWords_getElem? _ _ _ (by omega), if_neg (by omega)]
    rfl
  have hwrite := eepWriteWords_always (p := p) (K := K) (X := X) (n := n) hc1 rfl hp (off := off) (src := src)
    (wordsOf bs) 0 (by omega) hn hX (by
      rw [wordsOf_bytes n bs hl]
      exact hr)
  rw [hwl] at hwrite
  have hver := eepVerifyWords_does (al := true) hc3 (wordsOf bs) off (by
    intro i hi
    show d2.array[off + i]? = _
    rw [Device.withWords_getElem? _ _ _ (by omega), if_pos (by omega), Nat.add_sub_cancel_left,
      List.getElem?_eq_getElem hi])
  have hd3 : d3 = (c.dev.withWords off (wordsOf bs)).withWel false := by
    simp only [d3, d2, d1, Device.withWel_withWords]
    rfl
  rw [← hd3]
  have hidle : ∀ {c : State}, c.Calm → ∀ t, c.Idle t → t.dev.busy = false :=
    fun hc t ⟨_, ht⟩ => by rw [ht.dev]; exact hc.dev.busy
  unfold eepWrite
  rw [if_pos hn, List.range_eq_range']
  refine Drv.Always.bind ((rests_idle hc hp hX.self).does eepEwen_built (eepEwen_does hc) (hidle hc1) ofCore_idle)
    fun _ => .given fun _ => ?_
  refine hwrite.bind fun r => ?_
  cases r with
  | none => exact .done fun s tr _ ⟨m, hm⟩ => nomatch hm
  | some l =>
    refine Drv.Always.pre (P := fun s tr => l = (wordsOf bs).map (·.toNat) ∧ With (c.withDev d2).Idle K s tr)
      (.given fun hl => ?_) fun s tr h => h l rfl
    subst hl
    refine Drv.Always.bind ((rests_idle hc2 hp hX2).does eepEwds_built (eepEwds_does hc2) (hidle hc3) ofCore_idle)
      fun _ => .given fun _ => ?_
    refine Drv.Always.bind ((rests_idle hc3 hp hX2).does (eepVerifyWords_built _ _) hver (hidle hc3) ofCore_idle)
      fun same => .given fun hsame => ?_
    subst hsame
    exact .done fun s tr h _ => h

end Poll
end Sys2Proof.Machine

/-! # Proofs: the parameter store under every schedule

`persist`, `invalidate` and `commit` on a store that can work: what stands in the EEPROM where they return success,
and what an interruption leaves where it cuts them (45_host_protocols.md R452-R454, R480). -/

namespace Sys2Proof.Machine

section Banks

variable {p : Params} {key : List Byte} {slot : Bool} {words words' : Vector Half 256} {c : State}

/-- The bytes of a slot's bank, from the words of the EEPROM. -/
def bankOf (p : Params) (words : Vector Half 256) (slot : Bool) : List Byte :=
  (Device.atReset words).bytesAt (bankWord p slot) 8

theorem bankOf_eq (p : Params) (words : Vector Half 256) (slot : Bool) :
    bankOf p words slot =
      (List.range' (bankWord p slot) 8).flatMap fun j => toLE 2 ((words[j]?).getD 0#16).toNat := rfl

/-- The record that a slot's bank decrypts to, from the words of the EEPROM. -/
def recordOf (key : List Byte) (p : Params) (words : Vector Half 256) (slot : Bool) : List Byte :=
  (Config.blockDec key (blockOf (bankOf p words slot))).toList

theorem State.bank_eq (c : State) (slot : Bool) : c.bank slot = bankOf c.par c.dev.array slot := rfl

theorem State.bankRecord_of_words (c : State) (key : List Byte) (slot : Bool) :
    c.bankRecord key slot = recordOf key c.par c.dev.array slot := c.bankRecord_eq key slot

/-- The words of a slot's bank are the same. -/
def SameBank (p : Params) (slot : Bool) (words words' : Vector Half 256) : Prop :=
  ∀ j, j < 8 → words'[bankWord p slot + j]? = words[bankWord p slot + j]?

theorem SameBank.trans {words'' : Vector Half 256} (h : SameBank p slot words words')
    (h' : SameBank p slot words' words'') : SameBank p slot words words'' :=
  fun j hj => (h' j hj).trans (h j hj)

theorem SameBank.record (h : SameBank p slot words words') :
    recordOf key p words' slot = recordOf key p words slot := by
  have hb : bankOf p words' slot = bankOf p words slot := by
    rw [bankOf_eq, bankOf_eq]
    refine List.flatMap_congr fun j hj => ?_
    rw [List.mem_range'_1] at hj
    obtain ⟨k, rfl⟩ := Nat.exists_eq_add_of_le hj.1
    rw [h k (by omega)]
  rw [recordOf, hb, recordOf]

theorem sameBank_of_outside (h : bankOk p = true) (hs : SameOutside (bankWord p slot) 8 words words') :
    SameBank p (!slot) words words' := by
  have := (bankOk_layout h slot).words
  simp only [RangesApart] at this
  exact fun j hj => hs _ (by omega)

/-- The words of the EEPROM after a bank is written. -/
theorem withBank_same (h : bankOk c.par = true) (slot : Bool) {bytes : List Byte} (hl : bytes.length = 16) :
    SameBank c.par (!slot) c.dev.array (c.withBank slot bytes).dev.array := by
  have L := bankOk_layout h slot
  have hw := wordsOf_length 8 bytes hl
  refine sameBank_of_outside h fun j hj => ?_
  show (c.dev.withWords (bankWord c.par slot) (wordsOf bytes)).array[j]? = _
  rw [Device.withWords_getElem? _ _ _ (by rw [hw]; exact L.word), hw, if_neg hj]

/-- A bank that holds an encrypted record decrypts to it. -/
theorem recordOf_enc {r : List Byte} (hl : r.length = 16)
    (h : bankOf p words slot = (Config.blockEnc key (blockOf r)).toList) : recordOf key p words slot = r := by
  rw [recordOf, h, blockOf_toList, blockDec_blockEnc, toList_blockOf _ hl]

end Banks

section Store

variable {α : Type} {p : Params} {X : List Event → Vector Half 256 → Prop} {K : List Event} {c c' : State}
  {key : List Byte} {A : State → Prop} {P : State → Prop} {x : Drv α} {a : α}

/-- The host is between two operations of the driver, with a store that can work and meets A. -/
def Store (key : List Byte) (p : Params) (A : State → Prop) (K : List Event) : Stage := fun s tr =>
  ∃ c : State, (c.Working key ∧ c.par = p ∧ A c) ∧ With c.Idle K s tr

theorem store_of {Q : α → Stage} {E : Ending → Stage}
    (h : ∀ c : State, c.Working key → c.par = p → A c → Drv.Always (With c.Idle K) x Q E) :
    Drv.Always (Store key p A K) x Q E :=
  .exists fun c => .given fun ⟨hw, hp, hA⟩ => h c hw hp hA

theorem State.Working.rests (h : c.Working key) (hp : c.par = p) (hX : X K c.dev.array) : Rests p X K c.Idle :=
  rests_idle h.calm hp hX

/-- What a program of simple actions does alone to a store that can work. -/
theorem State.Working.does (h : c.Working key) (hp : c.par = p) (hX : X K c.dev.array) (hx : x.Built Simple)
    (hd : x.Does true c.Idle (.ok a) c'.Idle []) (h' : c'.Working key) :
    Drv.Always (With c.Idle K) x (fun v s tr => v = a ∧ With c'.Idle K s tr) (Cut p X) :=
  (h.rests hp hX).does hx hd (fun t ⟨_, ht⟩ => by rw [ht.dev]; exact h'.calm.dev.busy) ofCore_idle

/-- The same, where the program returns nothing. -/
theorem State.Working.run {x : Drv Unit} {f : Unit → Drv α} {Q : α → Stage} (h : c.Working key) (hp : c.par = p)
    (hX : X K c.dev.array) (hx : x.Built Simple) (hd : x.Does true c.Idle (.ok ()) c'.Idle []) (h' : c'.Working key)
    (hf : Drv.Always (With c'.Idle K) (f ()) Q (Cut p X)) :
    Drv.Always (With c.Idle K) (x >>= f) Q (Cut p X) :=
  (h.does hp hX hx hd h').bind fun _ => hf.pre fun _ _ h => h.2

theorem par_with {Q : α → Stage} {f : Params → Drv α} (hp : c.par = p)
    (h : Drv.Always (With c.Idle K) (f p) Q (Cut p X)) :
    Drv.Always (With c.Idle K) (Drv.par >>= f) Q (Cut p X) :=
  .par (fun _ _ hs => hs.1.par.trans hp) h

/-- The store can be read where it is admitted. -/
theorem State.Working.readsRec (h : c.Working key) (slot : Bool) :
    ∃ r : List Byte, r.length = 16 ∧ c.HostReads (recAddr c.par slot) r := by
  obtain ⟨r, -, hl, hr⟩ := State.fetch_admits (h.admitsRec slot)
  exact ⟨r, hl, .inr (by rw [hl]; exact (bankOk_layout h.ready.params slot).recTop), hr,
    by rw [h.clean]; exact fun _ h => nomatch h⟩

/-! ### `persist` -/

/-- The record, encrypted, is in the bank buffer (R442). -/
theorem bankEncrypt_does {al : Bool} (h : c.Working key) (slot : Bool) {r : List Byte}
    (hr : c.HostReads (recAddr c.par slot) r) (hl : r.length = 16) :
    ∃ c' : State, (bankEncrypt (recAddr c.par slot) c.par.bankBuf.toNat).Does al c.Idle (.ok ()) c'.Idle [] ∧
      c'.Working key ∧ c'.par = c.par ∧ c'.dev = c.dev ∧
      c'.HostReads c.par.bankBuf.toNat (Config.blockEnc key (blockOf r)).toList := by
  have L := bankOk_layout h.ready.params slot
  obtain ⟨c1, e1, h1, k1, r1, d1⟩ := h.fill (xs := (Config.blockEnc key (blockOf r)).toList) (bankBuffer_mem c.par)
    rfl Vector.length_toList L.bankTop
  have henc := oneBlock_does (al := al) (ka := c.par.devKeyAddr.toNat) (src := recAddr c.par slot)
    (dst := c.par.bankBuf.toNat) (oneBlock_enc key r) h.calm.free h.clean c.par.devKeyAddr.isLt
    h.ready.key h.ready.keyLength hr hl h.ready.admits.2.2 L.recTop L.bankTop ⟨L.rec16, L.bank16⟩
    (by have := L.recBank; simp only [RangesApart, recBuffer, bankBuffer, NoOverlap] at this ⊢; omega)
  rw [List.take_of_length_le (by rw [hl])] at henc
  rw [← show c1 = c.withMem (c.mem.write c.par.bankBuf.toNat _) from e1] at henc
  exact ⟨c1, Drv.par_idle.next henc, h1, k1.par, d1, r1⟩

/-- The bank of the slot holds the record, encrypted, and the other bank is as it was. -/
def Persisted (key : List Byte) (p : Params) (slot : Bool) (r : List Byte) (words words' : Vector Half 256) : Prop :=
  SameBank p (!slot) words words' ∧ recordOf key p words' slot = r

/-- `persist` (R454). -/
theorem persist_always (h : c.Working key) (hp : c.par = p) (slot : Bool) {r : List Byte}
    (hr : c.HostReads (recAddr c.par slot) r) (hl : r.length = 16)
    (hX : ∀ words, SameBank p (!slot) c.dev.array words → X K words) :
    Drv.Always (With c.Idle K) (persist slot) (fun v s tr => (∃ m, v = .ok m) →
      Store key p (fun c' => Persisted key p slot r c.dev.array c'.dev.array) K s tr) (Cut p X) := by
  subst hp
  have L := bankOk_layout h.ready.params slot
  have hgl : (Config.blockEnc key (blockOf r)).toList.length = 16 := Vector.length_toList
  obtain ⟨c1, d1, w1, p1, e1, r1⟩ := bankEncrypt_does (al := true) h slot hr hl
  have hb := State.withBank_bank (c := c1) w1.ready.params slot hgl
  have hs := withBank_same (c := c1) w1.ready.params slot hgl
  rw [p1, e1] at hs
  have hallows : Allows X K (bankWord c.par slot) 8 c1.dev.array := fun words hw =>
    hX words (by rw [e1] at hw; exact sameBank_of_outside h.ready.params hw)
  refine par_with rfl (h.run rfl (hX _ fun _ _ => rfl) (bankEncrypt_built _ _) d1 w1 ?_)
  refine (eepWrite_always w1.calm p1 L.word r1 hgl hallows).post fun v s tr hv hm => ?_
  refine ⟨c1.withBank slot _, ⟨w1.withBank _ _, p1, hs, ?_⟩, ?_⟩
  · have hbank := hb.1
    rw [State.bank_eq, show (c1.withBank slot _).par = c.par from p1] at hbank
    exact recordOf_enc hl hbank
  · rw [State.withBank, p1]
    exact hv hm

/-! ### `invalidate` and `commit` -/

/-- A record with its checksum zeroed (R452). -/
def zeroed (r : List Byte) : List Byte := r.take 12 ++ [0#8, 0#8, 0#8, 0#8]

theorem zeroed_length {r : List Byte} (hl : r.length = 16) : (zeroed r).length = 16 := by simp [zeroed, hl]

theorem invalidateBody_always (h : c.Working key) (hp : c.par = p) (slot : Bool) {r : List Byte}
    (hr : c.HostReads (recAddr c.par slot) r) (hl : r.length = 16)
    (hX : ∀ words, SameBank p (!slot) c.dev.array words → X K words) :
    Drv.Always (With c.Idle K) (invalidateBody slot) (fun v s tr => (∃ m, v = .ok m) →
      Store key p (fun c' => Persisted key p slot (zeroed r) c.dev.array c'.dev.array) K s tr) (Cut p X) := by
  subst hp
  obtain ⟨c1, d1, w1, k1, r1, e1, f1⟩ := storeRec_does (al := true) h slot 0xC [0#8, 0#8, 0#8, 0#8] (by decide)
  have hrec : c1.HostReads (recAddr c.par slot) (zeroed r) := by
    have h0 := f1 _ _ (hr.part 0 12 (by omega)) (by simp [RangesApart, hl])
    rw [List.drop_zero, Nat.add_zero] at h0
    exact h0.append (by simpa [hl] using r1)
  rw [← e1] at hX ⊢
  exact par_with rfl (h.run rfl (by rw [← e1]; exact hX _ fun _ _ => rfl) (store_built _ _) d1 w1
    (persist_always w1 k1.par slot (by rw [k1.par]; exact hrec) (zeroed_length hl) hX))

/-- The record that `commit` makes (R453). -/
def committedRecord (r : List Byte) (version : Nat) : List Byte :=
  committedFields r version ++ toLE 4 (crc32 (committedFields r version)).toNat

theorem committedFields_length {r : List Byte} (hl : r.length = 16) (version : Nat) :
    (committedFields r version).length = 12 := by
  simp only [committedFields, List.length_append, List.length_take, toLE_length, List.length_replicate]
  omega

/-- The stores of `commit`, and its checksum. -/
theorem commitStores_always {Q : Except ResultCode Nat → Stage} (h : c.Working key) (hp : c.par = p) (slot : Bool)
    (version : Nat) {r : List Byte} (hr : c.HostReads (recAddr c.par slot) r) (hl : r.length = 16)
    (hX : X K c.dev.array)
    (hQ : ∀ c' : State, c'.Working key → c'.par = p → c'.dev = c.dev →
      c'.HostReads (recAddr c.par slot) (committedRecord r version) →
      Drv.Always (With c'.Idle K) (persist slot) Q (Cut p X)) :
    Drv.Always (With c.Idle K) (do
      Drv.store (recAddr p slot + 0x2) (toLE 2 version)
      Drv.store (recAddr p slot + 0x4) (List.replicate 8 0#8)
      let c ← crc32Op (recAddr p slot) 12
      Drv.store (recAddr p slot + 0xC) (toLE 4 c)
      persist slot) Q (Cut p X) := by
  subst hp
  have hrt := (bankOk_layout h.ready.params slot).recTop
  have htop : addrTop = 4294967296 := rfl
  have hfl := committedFields_length hl version
  obtain ⟨c1, d1, w1, k1, r1, e1, f1⟩ := storeRec_does (al := true) h slot 2 (toLE 2 version)
    (by rw [toLE_length]; omega)
  obtain ⟨c2, d2, w2, k2, r2, e2, f2⟩ := storeRec_does (al := true) w1 slot 4 (List.replicate 8 0#8)
    (by rw [List.length_replicate]; omega)
  rw [k1.par] at d2 k2 r2 f2
  have hf : c2.HostReads (recAddr c.par slot) (committedFields r version) := by
    have h0 := f2 _ _ (f1 _ _ (hr.part 0 2 (by omega)) (by simp [RangesApart, hl])) (by simp [RangesApart, hl])
    have h1 := f2 _ _ r1 (by simp [RangesApart, toLE_length])
    rw [List.drop_zero, Nat.add_zero] at h0
    exact (h0.append (by simpa [hl] using h1)).append (by simpa [hl, toLE_length] using r2)
  obtain ⟨c3, d3, w3, k3, r3, e3, f3⟩ := storeRec_does (al := true) w2 slot 0xC
    (toLE 4 (crc32 (committedFields r version)).toNat) (by rw [toLE_length])
  have p2 : c2.par = c.par := k2.par.trans k1.par
  rw [p2] at d3 r3 f3
  have hrec : c3.HostReads (recAddr c.par slot) (committedRecord r version) :=
    (f3 _ _ hf (by simp [RangesApart, hfl])).append (by rw [hfl]; exact r3)
  have hX1 : X K c1.dev.array := by rw [e1]; exact hX
  have hX2 : X K c2.dev.array := by rw [e2]; exact hX1
  refine h.run rfl hX (store_built _ _) d1 w1 (w1.run k1.par hX1 (store_built _ _) d2 w2 ?_)
  refine Drv.Always.bind (w2.does p2 hX2 (crc32Op_built _ _).simple (crc32Op_does w2.calm.free hf hfl (by omega)
    (by omega)) w2) fun v => .given fun hv => ?_
  subst hv
  exact w2.run p2 hX2 (store_built _ _) d3 w3 (hQ c3 w3 (k3.par.trans p2) (e3.trans (e2.trans e1)) hrec)

theorem commitBody_always (h : c.Working key) (hp : c.par = p) (slot : Bool) (version : Nat) {r : List Byte}
    (hr : c.HostReads (recAddr c.par slot) r) (hl : r.length = 16)
    (hX : ∀ words, SameBank p (!slot) c.dev.array words → X K words) :
    Drv.Always (With c.Idle K) (commitBody slot version) (fun v s tr => (∃ m, v = .ok m) →
      Store key p (fun c' => Persisted key p slot (committedRecord r version) c.dev.array c'.dev.array) K s tr)
      (Cut p X) := by
  have hX0 : X K c.dev.array := hX _ fun _ _ => rfl
  refine par_with hp ?_
  dsimp only
  split
  · exact Drv.Always.bind (Q := fun _ _ _ => False) (h.rests hp hX0).refuse fun _ _ h => h.elim
  · refine commitStores_always h hp slot version hr hl hX0 fun c' hw' hp' he hr' => ?_
    rw [← he] at hX ⊢
    refine persist_always hw' hp' slot (by rw [hp', ← hp]; exact hr') ?_ hX
    rw [committedRecord, List.length_append, committedFields_length hl, toLE_length]

/-! ### Calls -/

/-- A durable operation, its call and its return among the calls. -/
theorem call_always {body : Drv (Except ResultCode Nat)} (call : StoreCall)
    (hbody : Drv.Always (With P (K ++ [.called call])) body
      (fun v s tr => (∃ m, v = .ok m) → Store key p A (K ++ [.called call]) s tr) (Cut p X))
    (hR : body.Gives OkIs16) :
    Drv.Always (With P K) (Drv.call call body) (fun v s tr => (∃ m, v = .ok m) →
      Store key p A (K ++ [.called call, .returned call true]) s tr) (Cut p X) := by
  have hmark : Drv.Always (With P K) (Drv.mark (.called call)) (fun _ => With P (K ++ [.called call])) (Cut p X) :=
    .mark fun s tr ⟨hs, hk⟩ => ⟨hs, by rw [← hk]; simp [calls, Event.isCall]⟩
  refine hmark.bind fun _ => (hbody.gives hR).bind fun v => ?_
  refine Drv.Always.bind (Q := fun _ s tr => (∃ m, v = .ok m) →
    Store key p A (K ++ [.called call, .returned call true]) s tr) ?_ fun _ => .pure (Q := fun v s tr =>
    (∃ m, v = .ok m) → Store key p A (K ++ [.called call, .returned call true]) s tr) v
  refine .mark ?_
  rintro s tr ⟨h16, hs⟩ ⟨m, rfl⟩
  obtain ⟨c, hc, hi, hk⟩ := hs ⟨m, rfl⟩
  have hm : (m == 16) = true := h16 m rfl
  refine ⟨c, hc, hi, ?_⟩
  show calls (tr ++ [.returned call (m == 16)]) = _
  rw [hm, calls, List.filter_append, ← calls, hk]
  simp [Event.isCall]

end Store
end Sys2Proof.Machine

/-! # Proofs: an interrupted installation

What the words of the EEPROM are wherever an interruption cuts the host's program, and what the restart selects from
them (45_host_protocols.md R480, R481). -/

namespace Sys2Proof.Machine

section Passes

variable {α : Type} {p : Params} {X : List Event → Vector Half 256 → Prop} {K : List Event} {c : State}
  {key : List Byte} {A : State → Prop} {W : Vector Half 256 → Prop} {x : Drv α} {b : NandBlock}

/-- A program that goes no further. -/
theorem Drv.Always.finished {P : Stage} {E : Ending → Stage} (a : α) :
    Drv.Always P (Pure.pure a) (fun _ _ _ => True) E := .done fun _ _ _ => trivial

/-- The words of a store at rest are as W says, and X allows such words. -/
structure Allowed (X : List Event → Vector Half 256 → Prop) (K : List Event) (A : State → Prop) : Prop where
  words : ∀ c, A c → X K c.dev.array
  withMem : ∀ (c : State) (m : Memory), A c → A (c.withMem m)

/-- A program of gentle actions. -/
theorem store_gentle (hA : Allowed X K A) (hx : x.Built Gentle) :
    Drv.Always (Store key p A K) x (fun _ => Store key p A K) (Cut p X) :=
  store_of fun c hw hp hc => ((hw.rests hp (hA.words c hc)).gentle ofCore_idle hx).post
    fun _ _ _ h => ⟨c, ⟨hw, hp, hc⟩, h⟩

theorem store_par {Q : α → Stage} {f : Params → Drv α} (h : Drv.Always (Store key p A K) (f p) Q (Cut p X)) :
    Drv.Always (Store key p A K) (Drv.par >>= f) Q (Cut p X) :=
  .par (fun _ _ ⟨_, ⟨_, hp, _⟩, hs, _⟩ => hs.par.trans hp) h

theorem store_waitUser (hA : Allowed X K A) :
    Drv.Always (Store key p A K) Drv.waitUser (fun _ => Store key p A K) (Cut p X) :=
  store_of fun c hw hp hc => (hw.rests hp (hA.words c hc)).waitUser.post fun _ _ _ h => ⟨c, ⟨hw, hp, hc⟩, h⟩

/-! ### The spare area -/

section Spare

variable {buf : Nat × Nat}

/-- A store into one of the host's buffers. -/
theorem store_write (hA : Allowed X K A) (hbuf : buf ∈ hostBuffers p) {a : Nat} {bs : List Byte} (h1 : buf.1 ≤ a)
    (h2 : a + bs.length ≤ buf.1 + buf.2) :
    Drv.Always (Store key p A K) (Drv.store a bs) (fun _ => Store key p A K) (Cut p X) := by
  refine store_of fun c hw hp hc => ?_
  refine Drv.Always.bind (Q := fun _ => Store key p A K) (((hw.rests hp (hA.words c hc)).act
    (Q := fun _ => (c.withMem (c.mem.write a bs)).Idle) rfl ?_).post fun _ _ _ h =>
      ⟨_, ⟨hw.write (hp ▸ hbuf) h1 h2, hp, hA.withMem c _ hc⟩, h⟩) fun _ => .pure (Q := fun _ => Store key p A K) ()
  intro s t hs hstep hm
  rcases complete_next_cases (s := s.fresh) hstep with h | h
  · exact absurd (marks_of_raises h) hm
  · obtain ⟨-, -, rfl⟩ := State.hostWrite_eq_ok.mp h
    exact hs.withMem rfl

/-- A code computed into one of the host's buffers. -/
theorem calcEccOp_always (hA : Allowed X K A) (hbuf : buf ∈ hostBuffers p) {src dst : Nat} (h1 : buf.1 ≤ dst)
    (h2 : dst + 4 ≤ buf.1 + buf.2) :
    Drv.Always (Store key p A K) (calcEccOp src dst) (fun _ => Store key p A K) (Cut p X) := by
  refine store_of fun c hw hp hc => ?_
  have hrest := hw.rests hp (hA.words c hc)
  refine Drv.Always.bind (Q := fun _ => With c.Idle K) (hrest.setArg 0 src fun s hs _ => hs.of_core rfl) fun _ => ?_
  by_cases hd : dst < addrTop
  · refine Drv.Always.bind (Q := fun _ => With (fun s => c.Idle s ∧ ArgIs 1 dst s) K)
      (hrest.setArg 1 dst fun s hs _ => ⟨hs.of_core rfl, argIs_setArg s 1 dst⟩) fun _ => ?_
    refine Drv.Always.bind (Q := fun _ => Store key p A K) (Drv.Always.post ((hrest.andArg 1 dst).act
      (Q := fun _ t => ∃ bs : List Byte, bs.length = 4 ∧ (c.withMem (c.mem.write dst bs)).Idle t) rfl ?_) ?_)
      fun _ => .pure (Q := fun _ => Store key p A K) ()
    · rintro s t ⟨hs, hdst⟩ hstep hm
      rcases execEccCalc_next (exec_of_hostStep (i := .eccCalc) (by decide) hstep) with
        hr | ⟨_, dst', data, -, hdst', -, -, -, -, rfl⟩
      · exact absurd (marks_of_raises hr) hm
      · obtain rfl := Option.some.inj (hdst.symm.trans hdst')
        rw [BitVec.toNat_ofNat, Nat.mod_eq_of_lt (show dst < 2 ^ 32 from hd)]
        exact ⟨calcEcc data, calcEcc_length data, hs.withMem rfl⟩
    · rintro v s tr ⟨⟨bs, hl, hs⟩, hk⟩
      exact ⟨_, ⟨hw.write (hp ▸ hbuf) h1 (by rw [hl]; exact h2), hp, hA.withMem c _ hc⟩, hs, hk⟩
  · refine Drv.Always.bind (Q := fun _ => With (fun _ => False) K) (hrest.setArg 1 dst fun s _ hv => hd hv)
      fun _ _ h => h.1.elim

theorem forM_always {P : Stage} {E : Ending → Stage} {f : Nat → Drv Unit} (l : List Nat)
    (h : ∀ k ∈ l, Drv.Always P (f k) (fun _ => P) E) : Drv.Always P (l.forM f) (fun _ => P) E := by
  induction l with
  | nil => exact .pure (Q := fun _ => P) ()
  | cons k l ih =>
    rw [List.forall_mem_cons] at h
    exact h.1.bind fun _ => ih h.2

/-- The spare area of a page is assembled in its buffer (43_ecc.md R370). -/
theorem spareAssemble_always (hA : Allowed X K A)
    (hs : p.spareEccOff + 16 ≤ p.spareSize ∧ p.markerOff < p.spareSize) (page : Nat) :
    Drv.Always (Store key p A K) (spareAssemble page p.spareBuf.toNat) (fun _ => Store key p A K) (Cut p X) := by
  have hbuf : (p.spareBuf.toNat, p.spareSize) ∈ hostBuffers p := by simp [hostBuffers]
  refine store_par ((forM_always (P := Store key p A K) _ fun k hk => ?_).bind fun _ => ?_)
  · rw [List.mem_range] at hk
    exact calcEccOp_always hA hbuf (by dsimp only; omega) (by dsimp only; omega)
  · exact store_write hA hbuf (Nat.le_add_right _ _) (by simp only [List.length_singleton]; omega)

end Spare

/-! ### The NAND flash -/

section Nand

/-- Every page of the block that is known has its 2048 bytes. -/
def Full (b : NandBlock) (pages : List NandPage) : Prop := ∀ q ∈ pages, q.block = b → q.data.length = 2048

theorem full_forget (b : NandBlock) (pages : List NandPage) : Full b (nandForget b pages) :=
  fun _ hq hb => absurd hb (mem_nandForget.mp hq).2

theorem Full.learn {pages : List NandPage} {page : Nat} {data : List Byte} (h : Full b pages)
    (hl : data.length = 2048) : Full b (nandLearn ⟨b, page, data⟩ pages) := by
  intro q hq hb
  rcases mem_nandLearn hq with rfl | hq
  · exact hl
  · exact h q hq hb

theorem Full.known {pages : List NandPage} {page : Nat} {data : List Byte} (h : Full b pages)
    (hk : nandKnown b page pages = some data) : data.length = 2048 := by
  rw [nandKnown, Option.map_eq_some_iff] at hk
  obtain ⟨q, hq, rfl⟩ := hk
  have hblock := List.find?_some hq
  rw [Bool.and_eq_true, beq_iff_eq] at hblock
  exact h q (List.mem_of_find?_eq_some hq) hblock.1

/-- What is written in step 7, and read back in step 8. -/
def Flashing (W : Vector Half 256 → Prop) (b : NandBlock) (c : State) : Prop := W c.dev.array ∧ Full b c.nand

theorem allowed_flashing (hW : ∀ words, W words → X K words) : Allowed X K (Flashing W b) :=
  ⟨fun _ h => hW _ h.1, fun _ _ h => h⟩

theorem allowed_words (hW : ∀ words, W words → X K words) : Allowed X K fun c => W c.dev.array :=
  ⟨fun _ h => hW _ h, fun _ _ h => h⟩

/-- A NAND call that leaves the store able to work. -/
theorem store_nand {A' : State → Prop} {a : NandResult → List Byte → Action} (hA : Allowed X K A)
    (hby : ∀ r bytes, (a r bytes).byHost = true)
    (h : ∀ (c s t : State) (r : NandResult) (bytes : List Byte), c.Working key → c.par = p → A c → c.Idle s →
      hostStep (a r bytes) s = .next t → ¬ Marks s t →
      ∃ (r' : NandResult) (c' : State), t.reply = .nand r' ∧ (c'.Working key ∧ c'.par = p ∧ A' c') ∧ c'.Idle t) :
    Drv.Always (Store key p A K) (Drv.nand a) (fun _ => Store key p A' K) (Cut p X) := by
  refine store_of fun c hw hp hc => Drv.Always.post ((hw.rests hp (hA.words c hc)).nand
    (Q := fun _ t => ∃ c' : State, (c'.Working key ∧ c'.par = p ∧ A' c') ∧ c'.Idle t) hby ?_) ?_
  · intro s t r bytes hs hstep hm
    obtain ⟨r', c', hr', hc', ht⟩ := h c s.fresh t r bytes hw hp hc (hs.of_core rfl) hstep hm
    exact ⟨r', hr', c', hc', ht⟩
  · rintro r s tr ⟨⟨c', hc', hs⟩, hk⟩
    exact ⟨c', hc', hs, hk⟩

/-- The block is erased: nothing of it is known. -/
theorem erase_always (hW : ∀ words, W words → X K words) :
    Drv.Always (Store key p (fun c => W c.dev.array) K) (Drv.nand fun r _ => .nandErase b (nandOk r))
      (fun _ => Store key p (Flashing W b) K) (Cut p X) := by
  refine store_nand (allowed_words hW) (fun _ _ => rfl) ?_
  intro c s t r bytes hw hp hc hs hstep hm
  rcases complete_next_cases (s := s) (c := s.nandErase b (nandOk r)) hstep with h | h
  · exact absurd (marks_of_raises h) hm
  · cases h
    refine ⟨_, c.withNand (nandForget b s.nand), rfl, ⟨hw.withNand _, hp, hc, ?_⟩, hs.withNand rfl⟩
    exact full_forget b s.nand

/-- A page is written. -/
theorem write_always (hW : ∀ words, W words → X K words) {page : Nat} {data spare : Option Nat}
    (hpage : page < p.pagesPerBlock) :
    Drv.Always (Store key p (Flashing W b) K) (Drv.nand fun r _ => .nandWrite b page data spare (nandOk r))
      (fun _ => Store key p (Flashing W b) K) (Cut p X) := by
  refine store_nand (allowed_flashing hW) (fun _ _ => rfl) ?_
  intro c s t r bytes hw hp hc hs hstep hm
  have hforget := full_forget b s.nand
  rcases nandWrite_eq_ok (nandPage_next (by rw [hs.par, hp]; exact hpage) hstep hm) with
    rfl | ⟨_, bs, -, -, hl, -, rfl⟩
  · exact ⟨_, c.withNand (nandForget b s.nand), rfl, ⟨hw.withNand _, hp, hc.1, hforget⟩, hs.withNand rfl⟩
  · exact ⟨_, c.withNand (nandLearn ⟨b, page, bs⟩ (nandForget b s.nand)), rfl,
      ⟨hw.withNand _, hp, hc.1, hforget.learn hl⟩, hs.withNand rfl⟩

/-- A page is read back into its place in the read-back buffer. -/
theorem read_always (hW : ∀ words, W words → X K words) {page : Nat} (hpage : page < p.pagesPerBlock) :
    Drv.Always (Store key p (Flashing W b) K)
      (Drv.nand fun r bs => .nandRead b page (p.rbAddr.toNat + 2048 * page) r bs)
      (fun _ => Store key p (Flashing W b) K) (Cut p X) := by
  have hbuf : (p.rbAddr.toNat, 2048 * p.pagesPerBlock) ∈ hostBuffers p := by simp [hostBuffers]
  refine store_nand (allowed_flashing hW) (fun _ _ => rfl) ?_
  intro c s t r bytes hw hp hc hs hstep hm
  rcases nandRead_eq_ok (nandPage_next (by rw [hs.par, hp]; exact hpage) hstep hm) with
    ⟨-, bs, hbs, -, -, rfl⟩ | ⟨-, rfl⟩
  · have hl : bs.length = 2048 := by
      rw [hbs, hs.nand]
      cases hk : nandKnown b page c.nand with
      | none => rw [Option.getD_none, pageOf_length]
      | some data => exact hc.2.known hk
    refine ⟨_, c.withMem (c.mem.write (p.rbAddr.toNat + 2048 * page) bs), rfl,
      ⟨hw.write (b := (p.rbAddr.toNat, 2048 * p.pagesPerBlock)) (hp ▸ hbuf) (Nat.le_add_right _ _) ?_, hp, hc⟩,
      hs.withMem rfl⟩
    rw [hl]
    dsimp only
    omega
  · exact ⟨_, c, rfl, ⟨hw, hp, hc⟩, hs.of_core rfl⟩

end Nand

/-! ### Steps 7 and 8 -/

section Steps

theorem dataPass_always (hW : ∀ words, W words → X K words) (img n k : Nat) (hk : k + n ≤ p.pagesPerBlock) :
    Drv.Always (Store key p (Flashing W b) K) (dataPass b img k n) (fun _ => Store key p (Flashing W b) K)
      (Cut p X) := by
  induction n generalizing k with
  | zero => exact .pure (Q := fun _ => Store key p (Flashing W b) K) true
  | succ n ih =>
    refine (write_always hW (by omega)).bind fun r => ?_
    split
    · exact ih (k + 1) (by omega)
    · exact .pure (Q := fun _ => Store key p (Flashing W b) K) false

theorem sparePass_always (hW : ∀ words, W words → X K words)
    (hs : p.spareEccOff + 16 ≤ p.spareSize ∧ p.markerOff < p.spareSize) (img n k : Nat)
    (hk : k + n ≤ p.pagesPerBlock) :
    Drv.Always (Store key p (Flashing W b) K) (sparePass b img p.spareBuf.toNat k n)
      (fun _ => Store key p (Flashing W b) K) (Cut p X) := by
  induction n generalizing k with
  | zero => exact .pure (Q := fun _ => Store key p (Flashing W b) K) true
  | succ n ih =>
    refine (spareAssemble_always (allowed_flashing hW) hs _).bind fun _ =>
      (write_always hW (by omega)).bind fun r => ?_
    split
    · exact ih (k + 1) (by omega)
    · exact .pure (Q := fun _ => Store key p (Flashing W b) K) false

theorem readBackPass_always (hW : ∀ words, W words → X K words) (n k : Nat) (hk : k + n ≤ p.pagesPerBlock) :
    Drv.Always (Store key p (Flashing W b) K) (readBackPass b p.rbAddr.toNat k n)
      (fun _ => Store key p (Flashing W b) K) (Cut p X) := by
  induction n generalizing k with
  | zero => exact .pure (Q := fun _ => Store key p (Flashing W b) K) none
  | succ n ih =>
    refine (read_always hW (by omega)).bind fun r => ?_
    cases r with
    | ok => exact ih (k + 1) (by omega)
    | eccUncorrectable | ioFail => exact .pure (Q := fun _ => Store key p (Flashing W b) K) (some _)

/-- Step 7 (R460). -/
theorem flashSlot_always (hW : ∀ words, W words → X K words)
    (hs : p.spareEccOff + 16 ≤ p.spareSize ∧ p.markerOff < p.spareSize) :
    Drv.Always (Store key p (fun c => W c.dev.array) K) (flashSlot b) (fun _ => Store key p (Flashing W b) K)
      (Cut p X) := by
  refine store_par ((erase_always hW).bind fun r => ?_)
  split
  · exact .pure (Q := fun _ => Store key p (Flashing W b) K) false
  · refine (dataPass_always hW _ _ 0 (by omega)).bind fun v => ?_
    split
    · exact .pure (Q := fun _ => Store key p (Flashing W b) K) false
    · exact sparePass_always hW hs _ _ 0 (by omega)

/-- Step 8 (R460). -/
theorem verifySlot_always (hW : ∀ words, W words → X K words) (bodyOff : Nat) :
    Drv.Always (Store key p (Flashing W b) K) (verifySlot b bodyOff) (fun _ => Store key p (Flashing W b) K)
      (Cut p X) := by
  have hA := allowed_flashing (b := b) hW
  have hdone : ∀ v : Option ResultCode, Drv.Always (Store key p (Flashing W b) K) (pure v : Drv (Option ResultCode))
      (fun _ => Store key p (Flashing W b) K) (Cut p X) :=
    fun v => .pure (Q := fun _ => Store key p (Flashing W b) K) v
  refine store_par ((readBackPass_always hW _ 0 (by omega)).bind fun v => ?_)
  cases v with
  | some c => exact hdone _
  | none =>
    refine (store_gentle hA (ctrVerifyOp_built _ _)).bind fun c => ?_
    split
    · exact hdone _
    · refine (store_gentle hA (load_built _ _)).bind fun rb => (store_gentle hA (load_built _ _)).bind fun img => ?_
      split <;> exact hdone _

end Steps
end Passes

/-! ### What an interruption leaves -/

section Aftermath

variable {key : List Byte} {p : Params} {before after : Vector Half 256} {i : Bool}

/-- The record is valid and its reserved bytes are 0. -/
def GoodRecord (r : List Byte) : Prop := recValid r = true ∧ (r.drop 4).take 8 = List.replicate 8 0#8

/-- What the words are after an interruption of a run that made the given calls (45_host_protocols.md R481). -/
structure Aftermath (key : List Byte) (p : Params) (before : Vector Half 256) (K : List Event)
    (after : Vector Half 256) : Prop where
  untouched : ∀ b, .called (.invalidate b) ∉ K → .called (.commit b) ∉ K → SameBank p b before after
  invalidated : ∀ b, .returned (.invalidate !b) true ∈ K → .called (.commit !b) ∉ K → .called (.invalidate b) ∉ K →
    recordOf key p after (!b) = zeroed (recordOf key p before !b)
  committed : ∀ b, .returned (.commit !b) true ∈ K → GoodRecord (recordOf key p after !b)

theorem goodRecord_committed {r : List Byte} (hl : r.length = 16) (version : Nat) :
    GoodRecord (committedRecord r version) := by
  have hf := committedFields_length hl version
  refine ⟨recValid_crc hf, ?_⟩
  have h4 : (r.take 2 ++ toLE 2 version).length = 4 := by
    rw [List.length_append, List.length_take, toLE_length]
    omega
  rw [committedRecord, committedFields, List.append_assoc, List.drop_left' h4,
    List.take_left' (List.length_replicate ..)]

/-- The calls of an installation into slot i, up to each of its phases. -/
def callsInvalidate (i : Bool) : List Event := [.called (.invalidate i)]
def callsInvalidated (i : Bool) : List Event := [.called (.invalidate i), .returned (.invalidate i) true]
def callsCommit (i : Bool) : List Event := callsInvalidated i ++ [.called (.commit i)]
def callsCommitted (i : Bool) : List Event := callsInvalidated i ++ [.called (.commit i), .returned (.commit i) true]
def callsRetire (i : Bool) : List Event := callsCommitted i ++ [.called (.invalidate !i)]

theorem aftermath_none : Aftermath key p before [] before :=
  ⟨fun _ _ _ _ _ => rfl, fun _ h => (List.not_mem_nil h).elim, fun _ h => (List.not_mem_nil h).elim⟩

theorem eq_not_of_ne {b : Bool} (h : b ≠ i) : b = !i := by cases b <;> cases i <;> simp_all

/-- A slot that no call has touched is the other one. -/
theorem SameBank.of_uncalled {K : List Event} {b : Bool} (h : SameBank p (!i) before after)
    (hi : .called (.invalidate i) ∈ K) (hb : .called (.invalidate b) ∉ K) : SameBank p b before after := by
  have hne : b ≠ i := by
    rintro rfl
    exact hb hi
  rw [eq_not_of_ne hne]
  exact h

/-- While slot i is being invalidated. -/
theorem aftermath_invalidate (h : SameBank p (!i) before after) :
    Aftermath key p before (callsInvalidate i) after where
  untouched := fun _ hb _ => h.of_uncalled (by simp [callsInvalidate]) hb
  invalidated := fun b hb => by simp [callsInvalidate] at hb
  committed := fun b hb => by simp [callsInvalidate] at hb

/-- Once slot i is invalidated. -/
theorem aftermath_invalidated (h : Persisted key p i (zeroed (recordOf key p before i)) before after) :
    Aftermath key p before (callsInvalidated i) after where
  untouched := fun _ hb _ => h.1.of_uncalled (by simp [callsInvalidated]) hb
  invalidated := fun b hb _ _ => by
    have hi : (!b) = i := by simpa [callsInvalidated] using hb
    rw [hi]
    exact h.2
  committed := fun b hb => by simp [callsInvalidated] at hb

/-- While slot i is being committed. -/
theorem aftermath_commit (h : SameBank p (!i) before after) : Aftermath key p before (callsCommit i) after where
  untouched := fun _ hb _ => h.of_uncalled (by simp [callsCommit, callsInvalidated]) hb
  invalidated := fun b hb hc => by
    have hi : (!b) = i := by simpa [callsCommit, callsInvalidated] using hb
    exact absurd (by simp [callsCommit, hi]) hc
  committed := fun b hb => by simp [callsCommit, callsInvalidated] at hb

/-- Once slot i is committed. -/
theorem aftermath_committed (h : SameBank p (!i) before after) (hr : GoodRecord (recordOf key p after i)) :
    Aftermath key p before (callsCommitted i) after where
  untouched := fun _ hb _ => h.of_uncalled (by simp [callsCommitted, callsInvalidated]) hb
  invalidated := fun b hb hc => by
    have hi : (!b) = i := by simpa [callsCommitted, callsInvalidated] using hb
    exact absurd (by simp [callsCommitted, hi]) hc
  committed := fun b hb => by
    have hi : (!b) = i := by simpa [callsCommitted, callsInvalidated] using hb
    rw [hi]
    exact hr

/-- While the other slot is being retired. -/
theorem aftermath_retire (hr : GoodRecord (recordOf key p after i)) :
    Aftermath key p before (callsRetire i) after where
  untouched := fun b hb _ => by
    have hne : b ≠ i := by
      rintro rfl
      exact hb (by simp [callsRetire, callsCommitted, callsInvalidated])
    exact absurd (by simp [callsRetire, eq_not_of_ne hne]) hb
  invalidated := fun b hb hc => by
    have hi : (!b) = i := by simpa [callsRetire, callsCommitted, callsInvalidated] using hb
    exact absurd (by simp [callsRetire, callsCommitted, hi]) hc
  committed := fun b hb => by
    have hi : (!b) = i := by simpa [callsRetire, callsCommitted, callsInvalidated] using hb
    rw [hi]
    exact hr

end Aftermath
end Sys2Proof.Machine

/-! # Proofs: crash safety

The host's program from a reset event to wherever an interruption cuts it, and the restart (45_host_protocols.md R460,
R480, R481). -/

namespace Sys2Proof.Machine

section Crash

variable {p : Params} {key : List Byte} {c : State} {before : Vector Half 256} {i : Bool} {b : NandBlock}

/-- The end of a run of the program: a reset event whose words the calls explain. -/
abbrev Crashed (key : List Byte) (p : Params) (before : Vector Half 256) : Ending → Stage :=
  Cut p (Aftermath key p before)

/-- A durable operation, and what the program does where it returned success; where it failed, the program ends. -/
theorem call_then {P : Stage} {Q : Stage} {E : Ending → Stage} {x : Drv (Except ResultCode Nat)}
    {f : Nat → Drv ResultCode} (hx : Drv.Always P x (fun v s tr => (∃ m, v = .ok m) → Q s tr) E)
    (hf : ∀ m, Drv.Always Q (f m) (fun _ _ _ => True) E) :
    Drv.Always P (x >>= fun v => match v with
      | .error k => pure k
      | .ok m => f m) (fun _ _ _ => True) E := by
  refine hx.bind fun v => ?_
  cases v with
  | error k => exact .finished k
  | ok m => exact (hf m).pre fun _ _ h => h ⟨m, rfl⟩

/-! ### Step 9 -/

/-- The words once slot i is committed. -/
def CommittedWords (key : List Byte) (p : Params) (before : Vector Half 256) (i : Bool) (words : Vector Half 256) :
    Prop :=
  SameBank p (!i) before words ∧ GoodRecord (recordOf key p words i)

/-- The other slot is retired. -/
theorem retire_always :
    Drv.Always (Store key p (fun c => CommittedWords key p before i c.dev.array) (callsCommitted i)) (invalidate !i)
      (fun _ _ _ => True) (Crashed key p before) := by
  refine store_of fun c hw hp hc => ?_
  obtain ⟨r, hl, hr⟩ := hw.readsRec !i
  rw [invalidate_eq]
  refine (call_always (.invalidate !i) (invalidateBody_always hw hp (!i) hr hl ?_) (invalidateBody_gives !i)).post
    fun _ _ _ _ => trivial
  intro words hs
  rw [Bool.not_not] at hs
  exact aftermath_retire (by rw [hs.record]; exact hc.2)

/-- Step 9 (R460). -/
theorem retireStep_always {W : Vector Half 256 → Prop} (hW : ∀ words, W words → SameBank p (!i) before words)
    (version : Nat) :
    Drv.Always (Store key p (Flashing W b) (callsInvalidated i)) (retireStep (!i) i version)
      (fun _ _ _ => True) (Crashed key p before) := by
  refine store_par ?_
  split
  · exact .finished _
  · rw [commit_eq]
    refine call_then (Q := Store key p (fun c => CommittedWords key p before i c.dev.array) (callsCommitted i)) ?_
      fun m => ?_
    · refine store_of fun c hw hp hc => ?_
      obtain ⟨r, hl, hr⟩ := hw.readsRec i
      have hsame := hW _ hc.1
      refine (call_always (.commit i) (commitBody_always hw hp i version hr hl fun words hs =>
        aftermath_commit (hsame.trans hs)) (commitBody_gives i version)).post ?_
      rintro v s tr h hm
      obtain ⟨c', ⟨hw', hp', hs', hr'⟩, hi⟩ := h hm
      exact ⟨c', ⟨hw', hp', hsame.trans hs', by rw [hr']; exact goodRecord_committed hl version⟩, hi⟩
    · refine (store_waitUser (allowed_words fun words h => aftermath_committed h.1 h.2)).bind fun u => ?_
      cases u with
      | cancel => exact .finished _
      | confirm =>
        refine retire_always.bind fun v => ?_
        cases v <;> exact .finished _

/-! ### Steps 6 to 9 -/

/-- Steps 6 to 9 (R460), for a slot whose record in memory is that of its bank. -/
theorem installSlot_always (hw : c.Working key) (hp : c.par = p)
    (hr : c.HostReads (recAddr c.par i) (recordOf key p c.dev.array i)) (version bodyOff : Nat) :
    Drv.Always (With c.Idle []) (installSlot (!i) version bodyOff) (fun _ _ _ => True)
      (Crashed key p c.dev.array) := by
  let W := Persisted key p i (zeroed (recordOf key p c.dev.array i)) c.dev.array
  have hWX : ∀ words, W words → Aftermath key p c.dev.array (callsInvalidated i) words :=
    fun words h => aftermath_invalidated h
  have hspare : p.spareEccOff + 16 ≤ p.spareSize ∧ p.markerOff < p.spareSize := hp ▸ hw.ready.spare
  unfold installSlot
  rw [Bool.not_not]
  dsimp only
  rw [invalidate_eq]
  refine call_then (Q := Store key p (fun c => W c.dev.array) (callsInvalidated i)) (call_always (K := [])
    (.invalidate i) (invalidateBody_always hw hp i hr Vector.length_toList fun words hs => aftermath_invalidate hs)
    (invalidateBody_gives i)) fun m => ?_
  refine (store_gentle (allowed_words hWX) (loadRec_built i)).bind fun r => ?_
  refine (flashSlot_always hWX hspare).bind fun v => ?_
  split
  · exact .finished _
  · refine (verifySlot_always hWX bodyOff).bind fun v => ?_
    cases v with
    | some k => exact .finished k
    | none => exact retireStep_always (fun words h => h.1) version

/-! ### The program -/

/-- The program from step 3 on, with the records of both banks in memory. -/
theorem slots_always (hw : c.Working key) (hp : c.par = p)
    (hr : ∀ slot, c.HostReads (recAddr c.par slot) (recordOf key p c.dev.array slot)) (version bodyOff : Nat) :
    Drv.Always (With c.Idle []) (currentSlot >>= fun v => match v with
      | none => pure .noneValid
      | some boot => do
        let rb ← loadRec boot
        let ri ← loadRec (!boot)
        if (recBlock rb).bank || (recBlock ri).bank then return .safetyCompatBank
        match ← Drv.waitUser with
        | .cancel => return .cancelled
        | .confirm => installSlot boot version bodyOff) (fun _ _ _ => True) (Crashed key p c.dev.array) := by
  have hrest : Rests p (Aftermath key p c.dev.array) [] c.Idle := hw.rests hp aftermath_none
  refine (hrest.gentle ofCore_idle currentSlot_built).bind fun v => ?_
  cases v with
  | none => exact .finished _
  | some boot =>
    refine (hrest.gentle ofCore_idle (loadRec_built boot)).bind fun rb =>
      (hrest.gentle ofCore_idle (loadRec_built !boot)).bind fun ri => ?_
    split
    · exact .finished _
    · refine hrest.waitUser.bind fun u => ?_
      cases u with
      | cancel => exact .finished _
      | confirm =>
        have := installSlot_always hw hp (hr !boot) version bodyOff
        rwa [Bool.not_not] at this

/-- The host's program from a reset event. -/
theorem hostMain_always {s : State} (hw : s.Working key) :
    Drv.Always (With (s.Wired s.gpio s.dev) []) hostMain (fun _ _ _ => True)
      (Crashed key s.par s.dev.array) := by
  have hrest : Rests s.par (Aftermath key s.par s.dev.array) [] s.Idle := hw.rests rfl aftermath_none
  have hidle : ∀ {c : State}, c.Working key → ∀ t, c.Idle t → t.dev.busy = false :=
    fun hc t ⟨_, ht⟩ => by rw [ht.dev]; exact hc.calm.dev.busy
  refine Drv.Always.bind ((rests_wired hw.calm.free hw.calm.dev.busy rfl aftermath_none).does eepInit_built
    (eepInit_does hw.calm s.gpio) (hidle hw) ofCore_idle) fun _ => .given fun _ => ?_
  refine par_with rfl ?_
  split
  · exact .finished _
  · split
    · exact .finished _
    · refine (hrest.gentle ofCore_idle (ctrVerifyOp_built _ _)).bind fun k => ?_
      split
      · exact .finished _
      · refine (hrest.gentle ofCore_idle (port_built fun _ => rfl)).bind fun version =>
          (hrest.gentle ofCore_idle (port_built fun _ => rfl)).bind fun bodyOff => ?_
        obtain ⟨c, dc, wc, pc, ec, rc⟩ := loadAll_does (al := true) hw
        refine hw.run rfl aftermath_none loadAll_built dc wc ?_
        rw [← ec]
        refine slots_always wc pc (fun slot => ?_) version bodyOff
        rw [pc, ec, ← State.bankRecord_of_words]
        exact rc slot

end Crash

/-! ### The restart -/

section Restarted

variable {drawn : Bool} {record : Bool → List Byte}

/-- With a valid record, R451 selects a slot. -/
theorem selectSlot_of_valid {b : Bool} (h : recValid (record b) = true) :
    ∃ slot, selectSlot (record false) (record true) drawn = some slot := by
  obtain ⟨-, hv0, hv1, hgt, hlt, heq⟩ := slotSelection (record false) (record true) drawn
  by_cases h0 : recValid (record false) = true <;> by_cases h1 : recValid (record true) = true
  · rw [recValid_iff] at h0 h1
    rcases Nat.lt_trichotomy (leVal (((record false).drop 2).take 2)) (leVal (((record true).drop 2).take 2)) with
      hv | hv | hv
    · exact ⟨_, hlt h0 h1 hv⟩
    · exact ⟨_, heq h0 h1 hv⟩
    · exact ⟨_, hgt h0 h1 hv⟩
  · rw [recValid_iff] at h0 h1
    exact ⟨_, hv0 h0 h1⟩
  · rw [recValid_iff] at h0 h1
    exact ⟨_, hv1 h0 h1⟩
  · cases b <;> contradiction

/-- With only one valid record, R451 selects its slot. -/
theorem selectSlot_of_only {b : Bool} (h : recValid (record b) = true) (h' : recValid (record !b) = false) :
    selectSlot (record false) (record true) drawn = some b := by
  obtain ⟨-, hv0, hv1, -⟩ := slotSelection (record false) (record true) drawn
  rw [recValid_iff] at h
  rw [recValid_eq_false_iff] at h'
  cases b
  · exact hv0 h h'
  · exact hv1 h' h

/-- A zeroed record is not valid, unless its CRC is 0 (R452). -/
theorem recValid_of_zeroed {r : List Byte} (hl : r.length = 16) (hc : crc32 (r.take 12) ≠ 0#32) :
    recValid (zeroed r) = false := by
  rw [Bool.eq_false_iff]
  exact fun h => hc ((recValid_zeroed (by rw [List.length_take, hl]; rfl)).mp h)

end Restarted

/-- Settles O60: the calls of the interrupted run say which banks are as they were, and the restart selects from what
the banks decrypt to. -/
theorem crashSafety : Obligations.CrashSafety := by
  intro key r r' b htr hreset hready hrun hready' hvalid restart
  have hcalls : ∀ {e : Event}, e.isCall = true → (e ∈ calls r'.trace ↔ e ∈ r'.trace) := fun he => by
    rw [calls, List.mem_filter, and_iff_left he]
  obtain ⟨hreset', hpar, hafter⟩ := (hostMain_always (hreset.working hready)).run
    ⟨State.wired_self r.state, by rw [htr]; rfl⟩ hrun rfl
  have hrestart : ∃ drawn, restart =
      .ok (selectSlot (r'.state.bankRecord key false) (r'.state.bankRecord key true) drawn) := by
    obtain ⟨drawn, t, hstart, -⟩ := restartSelectsSlot key r'.state hreset' hready'
    exact ⟨drawn, congrArg Prod.fst hstart⟩
  obtain ⟨drawn, hrestart⟩ := hrestart
  have hrec : ∀ slot, r'.state.bankRecord key slot = recordOf key r.state.par r'.state.dev.array slot := by
    intro slot
    rw [State.bankRecord_of_words, hpar]
  have hslot : ∀ slot, recValid (r'.state.bankRecord key slot) = true → ∃ s, restart = .ok (some s) := by
    intro slot hv
    obtain ⟨s, hs⟩ := selectSlot_of_valid (drawn := drawn) (record := r'.state.bankRecord key) hv
    exact ⟨s, by rw [hrestart, hs]⟩
  refine ⟨fun hinv hcom => ?_, fun hret => ?_⟩
  · have hsame := hafter.untouched b (fun h => hinv ((hcalls rfl).mp h)) fun h => hcom ((hcalls rfl).mp h)
    have hv : recValid (r'.state.bankRecord key b) = true := by
      rw [hrec, hsame.record, ← State.bankRecord_of_words]
      exact hvalid
    refine ⟨hsame, hslot b hv, fun hret hcom' hcrc => ?_⟩
    have hz := hafter.invalidated b ((hcalls rfl).mpr hret) (fun h => hcom' ((hcalls rfl).mp h))
      fun h => hinv ((hcalls rfl).mp h)
    rw [← hrec, ← State.bankRecord_of_words] at hz
    have hno : recValid (r'.state.bankRecord key !b) = false := by
      rw [hz]
      exact recValid_of_zeroed (State.bankRecord_length _ _ _) hcrc
    rw [hrestart, selectSlot_of_only hv hno]
  · have hgood := hafter.committed b ((hcalls rfl).mpr hret)
    rw [← hrec] at hgood
    exact ⟨hgood.1, hgood.2, hslot _ hgood.1⟩

end Sys2Proof.Machine

/-! # Proofs: the statements of 60_exceptions.md

Every instruction is the outcome of one computation (`exec_eq_complete`), and a computation ends in three ways: it
completes, it raises a fault, or an access is not admitted. The last needs an access, so the computations of the
instructions without one exclude it, check after check (`HasStep`). -/

namespace Sys2Proof.Machine

section Outcomes

variable {α β : Type} {s t : State} {i : Instr}

/-! ### Computations that always have a step -/

/-- The computation does not stop on an access that is not admitted (20_memory.md R83). -/
def HasStep (x : Except Halt α) : Prop := x ≠ .error .noStep

theorem HasStep.ok (a : α) : HasStep (.ok a) := nofun

theorem HasStep.raise (k : FaultKind) : HasStep (.error (.raise k) : Except Halt α) := nofun

theorem HasStep.bind {x : Except Halt α} {f : α → Except Halt β} (hx : HasStep x) (hf : ∀ a, HasStep (f a)) :
    HasStep (x >>= f) := by
  intro h
  rcases bind_eq_error.mp h with h | ⟨a, -, h⟩
  · exact hx h
  · exact hf a h

theorem HasStep.map {x : Except Halt α} (hx : HasStep x) (f : α → β) : HasStep (x.map f) := by
  rcases x with (k | _) | a
  · exact .raise k
  · exact absurd rfl hx
  · exact .ok (f a)

theorem require_hasStep (b : Bool) (k : FaultKind) : HasStep (require b k) := by
  cases b
  · exact .raise k
  · exact .ok ()

theorem written_hasStep (r : Option α) : HasStep (written r) := by
  cases r with
  | none => exact .raise .readUnwritten
  | some v => exact .ok v

theorem argPair_hasStep (s : State) : HasStep s.argPair := fun h => by
  obtain ⟨-, h⟩ := State.argPair_eq_error.mp h
  cases h

theorem react_hasStep (d : Device) (i : Instr) : HasStep (d.react i) := by
  rcases react_ok_or_protocol d i with ⟨e, h⟩ | h <;> rw [h]
  · exact .ok e
  · exact .raise .eepProtocol

theorem skRecv_hasStep (d : Device) (b : Bool) : HasStep (d.skRecv b) := by
  unfold Device.skRecv
  split
  · exact .ok d
  · dsimp only
    split
    · split
      · exact react_hasStep _ _
      · exact .ok _
    · exact .ok _

theorem skEdge_hasStep (d : Device) (rise di : Bool) : HasStep (d.skEdge rise di) := by
  cases rise with
  | false => exact skEdge_still d di ▸ .ok d
  | true =>
    cases hm : d.mode with
    | idle => exact skEdge_idle hm ▸ .ok d
    | recv => exact skEdge_recv hm ▸ skRecv_hasStep d di
    | out => exact skEdge_out hm ▸ .ok d.skOut
    | status =>
      rw [skEdge_status hm]
      cases di
      · exact .ok d
      · exact .raise .eepProtocol

/-! ### An instruction is one computation -/

/-- A frame is the device's reaction, its clock rises in OUT mode, a fault, or nothing: no access. -/
theorem exec_frame_eq_complete (hi : unitOf i = .device) (s : State) : ∃ c, exec i s = s.complete c ∧ HasStep c := by
  obtain ⟨bits, hb⟩ := encode_of_device hi
  rw [exec_frame hb, State.frameOutcome]
  split
  · split
    · exact ⟨_, rfl, (react_hasStep s.dev i).map _⟩
    · exact ⟨_, rfl, .raise .eepProtocol⟩
    · exact ⟨.ok _, rfl, .ok _⟩
    · exact ⟨.ok s, rfl, .ok s⟩
  · exact ⟨.ok s, rfl, .ok s⟩

/-- None is refused, and only one that accesses memory can be without a step (60_exceptions.md R500). -/
theorem exec_eq_complete (i : Instr) (s : State) :
    ∃ c, exec i s = s.complete c ∧ (readsMemory i = false → HasStep c) := by
  cases i with
  | crcRange | crcCompute | aesSetkey | aesSetiv | aesEnc | aesDec | eccCalc | ctrParse | ctrVerify =>
    exact ⟨_, rfl, nofun⟩
  | sysNop | crcInit | aesReset | aesClriv | eepSetCs | eepSetDi | eepClrCs | eepClrSk | eepClrDi | eepIn
  | eepDelay => exact ⟨.ok _, rfl, fun _ => .ok _⟩
  | sysFlush =>
    exact ⟨_, rfl, fun _ => (argPair_hasStep s).bind fun _ => (require_hasStep _ _).bind fun _ => .ok _⟩
  | sysInval =>
    exact ⟨_, rfl, fun _ => (argPair_hasStep s).bind fun _ => (require_hasStep _ _).bind fun _ =>
      (require_hasStep _ _).bind fun _ => .ok _⟩
  | crcByte b => exact ⟨_, rfl, fun _ => (written_hasStep s.crcAcc).bind fun _ => .ok _⟩
  | crcFinal => exact ⟨_, rfl, fun _ => (written_hasStep s.crcAcc).bind fun _ => .ok _⟩
  | eepSetSk => exact ⟨_, rfl, fun _ => (skEdge_hasStep s.dev _ _).bind fun _ => .ok _⟩
  | frameRead | frameEwen | frameEwds | frameWrite | frameReserved11 | frameReserved0001 | frameReserved0010 =>
    exact (exec_frame_eq_complete rfl s).imp fun _ ⟨hc, hstep⟩ => ⟨hc, fun _ => hstep⟩

/-! ### What a completion leaves in STATUS -/

/-- A frame leaves STATUS alone, a validator command that rejects writes its code, and every other completion writes
OK (60_exceptions.md R501; 10_state.md R38). -/
theorem Effect.status_cases (h : Effect s i t) :
    (unitOf i = .device ∧ t.status = s.status) ∨
    (unitOf i = .ctr ∧ ∃ c ∈ commandCodes, t.status = some (statusWord c)) ∨
    (unitOf i ≠ .device ∧ t.status = some 0#32) := by
  cases h with
  | frame hu d hd => exact .inl ⟨hu, rfl⟩
  | ctrReject hu c hc => exact .inr (.inl ⟨hu, c, hc, rfl⟩)
  | crcAcc hu | aesRegs hu | cipher hu | line hu | ctrInfo hu => exact .inr (.inr ⟨by simp [hu], rfl⟩)
  | sysNop | eepDelay | sysFlush | sysInval | crcFinal | crcCompute | eepIn | eccCalc =>
    exact .inr (.inr ⟨nofun, rfl⟩)

theorem Effect.status_of_frame (h : Effect s i t) (hi : unitOf i = .device) : t.status = s.status := by
  rcases h.status_cases with ⟨-, hs⟩ | ⟨hu, -⟩ | ⟨hu, -⟩
  · exact hs
  · cases hi.symm.trans hu
  · exact absurd hi hu

theorem Effect.status_of_command (h : Effect s i t) (hi : unitOf i ≠ .device) :
    ∃ c ∈ commandCodes, t.status = some (statusWord c) := by
  rcases h.status_cases with ⟨hu, -⟩ | ⟨-, hc⟩ | ⟨-, hs⟩
  · exact absurd hu hi
  · exact hc
  · exact ⟨.ok, by decide, hs⟩

theorem Effect.status_ok (h : Effect s i t) (hi : unitOf i ≠ .device) (hctr : unitOf i ≠ .ctr) :
    t.status = some 0#32 := by
  rcases h.status_cases with ⟨hu, -⟩ | ⟨hu, -⟩ | ⟨-, hs⟩
  · exact absurd hu hi
  · exact absurd hu hctr
  · exact hs

end Outcomes

/-- Settles O11: the three ends of the instruction's computation, a completion by its effect. -/
theorem instructionOutcomes : Obligations.InstructionOutcomes := by
  intro i s
  obtain ⟨c, hc, hstep⟩ := exec_eq_complete i s
  rw [hc]
  rcases c with (k | _) | t
  · exact ⟨.inr (.inl ⟨k, rfl⟩), fun _ => ⟨_, rfl⟩⟩
  · exact ⟨.inr (.inr rfl), fun hr => absurd rfl (hstep hr)⟩
  · refine ⟨?_, fun _ => ⟨t, rfl⟩⟩
    rcases exec_next hc with ⟨k, rfl⟩ | h
    · exact .inr (.inl ⟨k, rfl⟩)
    · exact .inl ⟨t, rfl, h.marks.1, h.status_of_frame, h.status_of_command, h.status_ok⟩

/-- After the first fault no step is taken (60_exceptions.md R511, log entry 3). -/
theorem step_of_fault {s : State} {k : FaultKind} (h : s.fault = some k) : step s = .fault (.raised k) := by
  rw [step, takeStep, h]

/-- Settles O9, by the two ways in which a step takes no action. -/
theorem stepStopsOnFaultAndIdles : Obligations.StepStopsOnFaultAndIdles :=
  ⟨fun _ _ => step_of_fault, fun _ hf ha => step_eq_next.mpr ⟨hf, .inl ⟨ha, rfl⟩⟩⟩

end Sys2Proof.Machine

/-! # Proofs: the statements of 70_reset_and_hazards.md

The reset state is a launch that is given the OPEN values as they stand at reset (`State.reset_eq_launch`), so what
holds of every launch holds of it. -/

namespace Sys2Proof.Machine

/-! ### The pages known at launch -/

/-- A page known at launch is a listed page of its block, brought to its length (00_scope.md R9, log entry 15). -/
theorem mem_nandOfPages {par : Params} {pages : List NandPage} {q : NandPage} (h : q ∈ nandOfPages par pages) :
    ∃ p ∈ pages, q = { p with data := pageOf p.data } ∧ p.page < par.pagesPerBlock := by
  induction pages with
  | nil => cases h
  | cons p pages ih =>
    have of_rest (h : q ∈ nandOfPages par pages) :
        ∃ p' ∈ p :: pages, q = { p' with data := pageOf p'.data } ∧ p'.page < par.pagesPerBlock :=
      (ih h).imp fun _ ⟨hm, hq⟩ => ⟨.tail _ hm, hq⟩
    rw [nandOfPages, List.foldr_cons, ← nandOfPages] at h
    split at h
    · next hp =>
      rcases mem_nandLearn h with hq | hrest
      · exact ⟨p, .head _, hq, hp⟩
      · exact of_rest hrest
    · exact of_rest h

/-! ### Launch and reset -/

/-- Every register is unwritten, the coherence sets are empty, and memory, the device and the NAND pages are put in
their form by the launch. -/
theorem State.launch_inv (l : Launch) : (State.launch l).Inv where
  mem := Memory.wf_ofCells l.mem
  hostDirty := ⟨rfl, fun _ hx => nomatch hx⟩
  devDirty := ⟨rfl, fun _ hx => nomatch hx⟩
  status := .inl rfl
  chain := fun hn => absurd rfl hn
  key := fun _ hk => nomatch hk
  dev := Device.atReset_inv l.words _
  nand := nandOfPages_ok l.par l.nand

/-- What the reset state is launched with: no memory, no NAND page, no agenda, the other values as drawn. -/
def Launch.ofReset : Launch where
  par := State.reset.par
  mem := []
  words := Config.eepromInit
  nand := []
  lines := Gpio.drawn 0
  agenda := []
  restarts := []

theorem State.reset_eq_launch : State.reset = State.launch .ofReset := rfl

/-- Settles O49: the reset state is one of the launches. -/
theorem resetHasInvariant : Obligations.ResetHasInvariant :=
  ⟨State.reset_eq_launch ▸ State.launch_inv .ofReset, State.launch_inv⟩

/-! ### The restart after an interruption -/

/-- A word that is not being programmed survives an interruption (45_host_protocols.md R480). -/
theorem interrupt_array_of_not_inFlight {s : State} {b : Byte}
    (hb : s.dev.busy = true → ∀ v, s.dev.prog ≠ some (b, v)) (cells : List Host.Cell) (nb : Option NandBlock) :
    (s.interrupt cells nb).dev.array[b.toNat]'b.isLt = s.dev.array[b.toNat]'b.isLt := by
  by_cases hbusy : s.dev.busy = true
  · exact interruptedWords_of_not_prog s.dev _ (hb hbusy)
  · rw [interrupt_array_of_idle (Bool.eq_false_iff.mpr hbusy)]

/-- Settles O50: a launch, the reset state as one of the launches, and an interruption, which sets the volatile state
as a launch does and keeps the words that are not in flight. -/
theorem resetEventsGiveResetValues : Obligations.ResetEventsGiveResetValues := by
  refine ⟨fun l => ?launch, ?reset, fun s cells nb => ?interruption⟩
  case launch =>
    exact ⟨State.launch_atReset l, rfl, rfl, rfl, rfl, rfl, rfl, fun _ hq => mem_nandOfPages hq⟩
  case reset =>
    exact ⟨State.reset_eq_launch ▸ State.launch_atReset .ofReset, rfl, rfl, rfl⟩
  case interruption =>
    exact ⟨State.interrupt_atReset s cells nb, rfl, rfl, rfl, rfl,
      fun _ hb => interrupt_array_of_not_inFlight hb cells nb⟩

end Sys2Proof.Machine
